-- ==== Sys2Proof/Word.lean ====
section
/-! DEFINITION. The words of the AVXSIKE CORE engine: the 32-bit command word and its fields (R100 to R103), the
64-bit words of the host port (R71), and the two compound values a command works on, an element of GF(p²) (R33) and a
projective x-only point (R34). Integers are plain natural numbers: no value in the engine is signed (R13) and a model
holds plain integers (R140). -/

namespace Sys2Proof

/-- A command word (R100). -/
abbrev CmdWord := BitVec 32

/-- A word of the host port's 64-bit data (R71). -/
abbrev HostWord := BitVec 64

/-- The raw value of one of the 6-bit fields RD, RS1, RS2, RS3 (R101). -/
abbrev RegNum := BitVec 6

/-- The raw value of IMM12 (R101, R105). -/
abbrev Imm12 := BitVec 12

/-- An element a0 + a1·i of GF(p²), i² = −1, as the integers its two registers hold (R14, R33). -/
structure Fp2 where
  a0 : Nat
  a1 : Nat
deriving DecidableEq, Repr

/-- A projective x-only point (X : Z) (R14, R34). -/
structure Pt where
  x : Fp2
  z : Fp2
deriving DecidableEq, Repr

/-- The two components of a GF(p²) value, a0 first (R14). -/
def Fp2.parts (u : Fp2) : List Nat := [u.a0, u.a1]

/-- The four components of a point, in the order of its registers (R14). -/
def Pt.parts (t : Pt) : List Nat := t.x.parts ++ t.z.parts

end Sys2Proof
end

