-- ==== Sys2Proof/Syntax.lean ====
section
/-! DEFINITION. The command set: one constructor of Instr for each row of spec/opcode_table.json (R106). A register
field is kept as its raw 6-bit value: its operand class (R104) decides which values are legal, and WellFormed.lean says
which terms are well formed. -/

namespace Sys2Proof

/-- The 51 commands of R106, with the fields each one uses, in the order RD, RS1, RS2, RS3 (IMM12 in place of RS2 and
RS3 in format I). CHAIN_A and CHAIN_B carry the AUX flag of their class-F field. -/
inductive Instr where
  | nop
  -- limb arithmetic (40_limb.md)
  | mpAdd (rd rs1 rs2 : RegNum)
  | mpSub (rd rs1 rs2 : RegNum)
  | mpMul (rd rs1 rs2 : RegNum)
  | mpRdc (rd rs1 : RegNum)
  | mpDadd (rd rs1 rs2 : RegNum)
  | mpDsub (rd rs1 rs2 : RegNum)
  -- Fp (41_fp.md)
  | fpAdd (rd rs1 rs2 : RegNum)
  | fpSub (rd rs1 rs2 : RegNum)
  | fpNeg (rd rs1 : RegNum)
  | fpDiv2 (rd rs1 : RegNum)
  | fpCorr (rd rs1 : RegNum)
  | fpMul (rd rs1 rs2 : RegNum)
  | fpSqr (rd rs1 : RegNum)
  | fpInv (rd rs1 : RegNum)
  | fpToMont (rd rs1 : RegNum)
  | fpFromMont (rd rs1 : RegNum)
  | fpMov (rd rs1 : RegNum)
  | fpLdc (rd k : RegNum)
  | fpSel (rd rs1 rs2 rs3 : RegNum)
  | skBit (rd : RegNum) (imm : Imm12)
  -- Fp² (42_fp2.md)
  | fp2Add (rd rs1 rs2 : RegNum)
  | fp2Sub (rd rs1 rs2 : RegNum)
  | fp2Neg (rd rs1 : RegNum)
  | fp2Div2 (rd rs1 : RegNum)
  | fp2Corr (rd rs1 : RegNum)
  | fp2Mul (rd rs1 rs2 : RegNum)
  | fp2Sqr (rd rs1 : RegNum)
  | fp2Inv (rd rs1 : RegNum)
  | fp2ToMont (rd rs1 : RegNum)
  | fp2FromMont (rd rs1 : RegNum)
  | fp2Mov (rd rs1 : RegNum)
  | fp2Sel (rd rs1 rs2 rs3 : RegNum)
  -- curve (43_curve.md)
  | xDbl (rd rs1 : RegNum)
  | xDble (rd rs1 : RegNum) (imm : Imm12)
  | xTpl (rd rs1 : RegNum)
  | xTple (rd rs1 : RegNum) (imm : Imm12)
  | xDblAdd (rd rs1 rs2 rs3 : RegNum)
  -- isogeny and support (44_isogeny.md)
  | get4 (rs1 : RegNum)
  | eval4 (rd : RegNum)
  | get3 (rs1 : RegNum)
  | eval3 (rd : RegNum)
  | get2 (rs1 : RegNum)
  | eval2 (rd : RegNum)
  | inv3Way (rs1 rs2 rs3 : RegNum)
  | getA (rd rs1 rs2 rs3 : RegNum)
  | jInv (rd rs1 rs2 : RegNum)
  -- sequenced (45_sequenced.md)
  | ladderA (rd rs1 rs2 rs3 : RegNum)
  | ladderB (rd rs1 rs2 rs3 : RegNum)
  | chainA (rd rs1 : RegNum) (aux : Bool)
  | chainB (rd rs1 : RegNum) (aux : Bool)
deriving DecidableEq, Repr

/-- CmdError: the causes for which the engine rejects a command word (R313), in the order of their codes. -/
inductive CmdError where
  | illegalOpcode
  | reservedField
  | misalignedOperand
  | operandRange
  | operandOverlap
deriving DecidableEq, Repr

end Sys2Proof
end

