-- ==== Sys2Proof/WellFormed.lean ====
section
/-! DEFINITION. Which terms of Instr are well formed: the legal values of every operand class (R104), the range checks of
R175 and R292 and the rules that no two destinations of a command coincide (R355). It is written command by command from
R106, apart from the ordered check of Decode.lean that names the error; that the two agree is a statement of
Certificates/Slice0/Obligations.lean. -/

namespace Sys2Proof

/-- Class Q: v is even (R104). -/
def RegNum.isQ (v : RegNum) : Bool := v.toNat % 2 == 0

/-- Class P: v is a multiple of 4 (R104). -/
def RegNum.isP (v : RegNum) : Bool := v.toNat % 4 == 0

/-- Class D: v is one of 0..3 (R104). -/
def RegNum.isD (v : RegNum) : Bool := v.toNat < 4

/-- Class K: v is one of 0..5 (R104). -/
def RegNum.isK (v : RegNum) : Bool := v.toNat < 6

/-- Class X: with AUX = 1 a multiple of 4 that is at most 36, with AUX = 0 zero (R104, R292). -/
def RegNum.isX (aux : Bool) (v : RegNum) : Bool :=
  if aux then v.isP && v.toNat ≤ 36 else v.toNat == 0

/-- A well-formed command, for a configuration whose scalar register has skBits bits (R104 to R106, R175, R235, R262,
R292). Class E fields are never ill formed. -/
def Instr.wellFormed (skBits : Nat) : Instr → Bool
  | .nop | .mpAdd _ _ _ | .mpSub _ _ _ => true
  | .mpMul rd _ _ => rd.isD
  | .mpRdc _ rs1 => rs1.isD
  | .mpDadd rd rs1 rs2 | .mpDsub rd rs1 rs2 => rd.isD && rs1.isD && rs2.isD
  | .fpAdd _ _ _ | .fpSub _ _ _ | .fpNeg _ _ | .fpDiv2 _ _ | .fpCorr _ _ | .fpMul _ _ _ | .fpSqr _ _
  | .fpInv _ _ | .fpToMont _ _ | .fpFromMont _ _ | .fpMov _ _ | .fpSel _ _ _ _ => true
  | .fpLdc _ k => k.isK
  | .skBit _ imm => imm.toNat < skBits
  | .fp2Add rd rs1 rs2 | .fp2Sub rd rs1 rs2 | .fp2Mul rd rs1 rs2 | .jInv rd rs1 rs2 => rd.isQ && rs1.isQ && rs2.isQ
  | .fp2Neg rd rs1 | .fp2Div2 rd rs1 | .fp2Corr rd rs1 | .fp2Sqr rd rs1 | .fp2Inv rd rs1 | .fp2ToMont rd rs1
  | .fp2FromMont rd rs1 | .fp2Mov rd rs1 => rd.isQ && rs1.isQ
  | .fp2Sel rd rs1 rs2 _ => rd.isQ && rs1.isQ && rs2.isQ
  | .xDbl rd rs1 | .xTpl rd rs1 => rd.isP && rs1.isP
  | .xDble rd rs1 _ | .xTple rd rs1 _ => rd.isP && rs1.isP
  | .xDblAdd rd rs1 rs2 rs3 => rd.isP && rs1.isP && rs2.isQ && rs3.isQ && rd != rs1
  | .get4 rs1 | .get3 rs1 | .get2 rs1 => rs1.isP
  | .eval4 rd | .eval3 rd | .eval2 rd => rd.isP
  | .inv3Way rs1 rs2 rs3 => rs1.isQ && rs2.isQ && rs3.isQ && rs1 != rs2 && rs1 != rs3 && rs2 != rs3
  | .getA rd rs1 rs2 rs3 => rd.isQ && rs1.isQ && rs2.isQ && rs3.isQ
  | .ladderA rd rs1 rs2 rs3 | .ladderB rd rs1 rs2 rs3 => rd.isP && rs1.isQ && rs2.isQ && rs3.isQ
  | .chainA rd rs1 aux | .chainB rd rs1 aux => rd.isX aux && rs1.isP

end Sys2Proof
end

