-- ==== Sys2Proof/Decode.lean ====
section
/-! DEFINITION. Decoding a command word (R101 to R110), in the two parts the spec's own table has: `decode` reads the
opcode and refuses a nonzero reserved field (codes 1 and 2 of R313, what the table's mask expresses), and
`operandError` makes the checks that read operand values (codes 3 to 5, and the CHAIN rule "RD = 0 when AUX = 0" of
code 2) in the order of R110. After them the encoder, written from the same layout. -/

namespace Sys2Proof

/-- The fields of a command word (R101): RS2 and RS3 of format R lie over IMM12 of format I. -/
structure Fields where
  opc : BitVec 8
  rd : RegNum
  rs1 : RegNum
  rs2 : RegNum
  rs3 : RegNum
  imm : Imm12
deriving DecidableEq, Repr

/-- Bits 31:24, 23:18, 17:12, 11:6, 5:0 and 11:0 of a word (R101). -/
def CmdWord.fields (c : CmdWord) : Fields :=
  { opc := c.extractLsb' 24 8
    rd := c.extractLsb' 18 6
    rs1 := c.extractLsb' 12 6
    rs2 := c.extractLsb' 6 6
    rs3 := c.extractLsb' 0 6
    imm := c.extractLsb' 0 12 }

/-- The command i, or RESERVED_FIELD when one of the reserved fields is not 0 (R108). -/
def Fields.onlyIfZero (_f : Fields) (reserved : List RegNum) (i : Instr) : Except CmdError Instr :=
  if reserved.all (· == 0) then .ok i else .error .reservedField

/-- A CHAIN command: bit 0 of RS2 is AUX; RS3, bits 5:1 of RS2 and, with AUX = 0, RD are reserved (R104, R108). -/
def Fields.chain (f : Fields) (mk : RegNum → RegNum → Bool → Instr) : Except CmdError Instr :=
  let aux := f.rs2.getLsbD 0
  if f.rs3 == 0 && f.rs2.extractLsb' 1 5 == 0 && (aux || f.rd == 0) then .ok (mk f.rd f.rs1 aux)
  else .error .reservedField

/-- The opcode map (R106) over the fields of a word: ILLEGAL_OPCODE for every OPC that R107 lists, RESERVED_FIELD for a
nonzero reserved field, else the command. -/
def decodeFields (f : Fields) : Except CmdError Instr :=
  match f.opc.toNat with
  | 0x00 => f.onlyIfZero [f.rd, f.rs1, f.rs2, f.rs3] .nop
  | 0x01 => f.onlyIfZero [f.rs3] (.mpAdd f.rd f.rs1 f.rs2)
  | 0x02 => f.onlyIfZero [f.rs3] (.mpSub f.rd f.rs1 f.rs2)
  | 0x03 => f.onlyIfZero [f.rs3] (.mpMul f.rd f.rs1 f.rs2)
  | 0x04 => f.onlyIfZero [f.rs2, f.rs3] (.mpRdc f.rd f.rs1)
  | 0x05 => f.onlyIfZero [f.rs3] (.mpDadd f.rd f.rs1 f.rs2)
  | 0x06 => f.onlyIfZero [f.rs3] (.mpDsub f.rd f.rs1 f.rs2)
  | 0x10 => f.onlyIfZero [f.rs3] (.fpAdd f.rd f.rs1 f.rs2)
  | 0x11 => f.onlyIfZero [f.rs3] (.fpSub f.rd f.rs1 f.rs2)
  | 0x12 => f.onlyIfZero [f.rs2, f.rs3] (.fpNeg f.rd f.rs1)
  | 0x13 => f.onlyIfZero [f.rs2, f.rs3] (.fpDiv2 f.rd f.rs1)
  | 0x14 => f.onlyIfZero [f.rs2, f.rs3] (.fpCorr f.rd f.rs1)
  | 0x15 => f.onlyIfZero [f.rs3] (.fpMul f.rd f.rs1 f.rs2)
  | 0x16 => f.onlyIfZero [f.rs2, f.rs3] (.fpSqr f.rd f.rs1)
  | 0x17 => f.onlyIfZero [f.rs2, f.rs3] (.fpInv f.rd f.rs1)
  | 0x18 => f.onlyIfZero [f.rs2, f.rs3] (.fpToMont f.rd f.rs1)
  | 0x19 => f.onlyIfZero [f.rs2, f.rs3] (.fpFromMont f.rd f.rs1)
  | 0x1A => f.onlyIfZero [f.rs2, f.rs3] (.fpMov f.rd f.rs1)
  | 0x1B => f.onlyIfZero [f.rs2, f.rs3] (.fpLdc f.rd f.rs1)
  | 0x1C => .ok (.fpSel f.rd f.rs1 f.rs2 f.rs3)
  | 0x1D => f.onlyIfZero [f.rs1] (.skBit f.rd f.imm)
  | 0x20 => f.onlyIfZero [f.rs3] (.fp2Add f.rd f.rs1 f.rs2)
  | 0x21 => f.onlyIfZero [f.rs3] (.fp2Sub f.rd f.rs1 f.rs2)
  | 0x22 => f.onlyIfZero [f.rs2, f.rs3] (.fp2Neg f.rd f.rs1)
  | 0x23 => f.onlyIfZero [f.rs2, f.rs3] (.fp2Div2 f.rd f.rs1)
  | 0x24 => f.onlyIfZero [f.rs2, f.rs3] (.fp2Corr f.rd f.rs1)
  | 0x25 => f.onlyIfZero [f.rs3] (.fp2Mul f.rd f.rs1 f.rs2)
  | 0x26 => f.onlyIfZero [f.rs2, f.rs3] (.fp2Sqr f.rd f.rs1)
  | 0x27 => f.onlyIfZero [f.rs2, f.rs3] (.fp2Inv f.rd f.rs1)
  | 0x28 => f.onlyIfZero [f.rs2, f.rs3] (.fp2ToMont f.rd f.rs1)
  | 0x29 => f.onlyIfZero [f.rs2, f.rs3] (.fp2FromMont f.rd f.rs1)
  | 0x2A => f.onlyIfZero [f.rs2, f.rs3] (.fp2Mov f.rd f.rs1)
  | 0x2B => .ok (.fp2Sel f.rd f.rs1 f.rs2 f.rs3)
  | 0x30 => f.onlyIfZero [f.rs2, f.rs3] (.xDbl f.rd f.rs1)
  | 0x31 => .ok (.xDble f.rd f.rs1 f.imm)
  | 0x32 => f.onlyIfZero [f.rs2, f.rs3] (.xTpl f.rd f.rs1)
  | 0x33 => .ok (.xTple f.rd f.rs1 f.imm)
  | 0x34 => .ok (.xDblAdd f.rd f.rs1 f.rs2 f.rs3)
  | 0x40 => f.onlyIfZero [f.rd, f.rs2, f.rs3] (.get4 f.rs1)
  | 0x41 => f.onlyIfZero [f.rs1, f.rs2, f.rs3] (.eval4 f.rd)
  | 0x42 => f.onlyIfZero [f.rd, f.rs2, f.rs3] (.get3 f.rs1)
  | 0x43 => f.onlyIfZero [f.rs1, f.rs2, f.rs3] (.eval3 f.rd)
  | 0x44 => f.onlyIfZero [f.rd, f.rs2, f.rs3] (.get2 f.rs1)
  | 0x45 => f.onlyIfZero [f.rs1, f.rs2, f.rs3] (.eval2 f.rd)
  | 0x46 => f.onlyIfZero [f.rd] (.inv3Way f.rs1 f.rs2 f.rs3)
  | 0x47 => .ok (.getA f.rd f.rs1 f.rs2 f.rs3)
  | 0x48 => f.onlyIfZero [f.rs3] (.jInv f.rd f.rs1 f.rs2)
  | 0x50 => .ok (.ladderA f.rd f.rs1 f.rs2 f.rs3)
  | 0x51 => .ok (.ladderB f.rd f.rs1 f.rs2 f.rs3)
  | 0x52 => f.chain .chainA
  | 0x53 => f.chain .chainB
  | _ => .error .illegalOpcode

/-- The first two checks of R110 on a command word: total on every word, rejecting by the error's name. -/
def decode (c : CmdWord) : Except CmdError Instr := decodeFields c.fields

/-- An operand of a command with its class (R104). -/
inductive Operand where
  | e (v : RegNum)
  | q (v : RegNum)
  | p (v : RegNum)
  | d (v : RegNum)
  | k (v : RegNum)
  | imm (v : Imm12)
  | flag (aux : Bool)
  | x (aux : Bool) (v : RegNum)
deriving DecidableEq, Repr

/-- The operands of a command in the order of its fields, with the classes of R106. -/
def Instr.operands : Instr → List Operand
  | .nop => []
  | .mpAdd rd rs1 rs2 => [.e rd, .e rs1, .e rs2]
  | .mpSub rd rs1 rs2 => [.e rd, .e rs1, .e rs2]
  | .mpMul rd rs1 rs2 => [.d rd, .e rs1, .e rs2]
  | .mpRdc rd rs1 => [.e rd, .d rs1]
  | .mpDadd rd rs1 rs2 => [.d rd, .d rs1, .d rs2]
  | .mpDsub rd rs1 rs2 => [.d rd, .d rs1, .d rs2]
  | .fpAdd rd rs1 rs2 => [.e rd, .e rs1, .e rs2]
  | .fpSub rd rs1 rs2 => [.e rd, .e rs1, .e rs2]
  | .fpNeg rd rs1 => [.e rd, .e rs1]
  | .fpDiv2 rd rs1 => [.e rd, .e rs1]
  | .fpCorr rd rs1 => [.e rd, .e rs1]
  | .fpMul rd rs1 rs2 => [.e rd, .e rs1, .e rs2]
  | .fpSqr rd rs1 => [.e rd, .e rs1]
  | .fpInv rd rs1 => [.e rd, .e rs1]
  | .fpToMont rd rs1 => [.e rd, .e rs1]
  | .fpFromMont rd rs1 => [.e rd, .e rs1]
  | .fpMov rd rs1 => [.e rd, .e rs1]
  | .fpLdc rd k => [.e rd, .k k]
  | .fpSel rd rs1 rs2 rs3 => [.e rd, .e rs1, .e rs2, .e rs3]
  | .skBit rd imm => [.e rd, .imm imm]
  | .fp2Add rd rs1 rs2 => [.q rd, .q rs1, .q rs2]
  | .fp2Sub rd rs1 rs2 => [.q rd, .q rs1, .q rs2]
  | .fp2Neg rd rs1 => [.q rd, .q rs1]
  | .fp2Div2 rd rs1 => [.q rd, .q rs1]
  | .fp2Corr rd rs1 => [.q rd, .q rs1]
  | .fp2Mul rd rs1 rs2 => [.q rd, .q rs1, .q rs2]
  | .fp2Sqr rd rs1 => [.q rd, .q rs1]
  | .fp2Inv rd rs1 => [.q rd, .q rs1]
  | .fp2ToMont rd rs1 => [.q rd, .q rs1]
  | .fp2FromMont rd rs1 => [.q rd, .q rs1]
  | .fp2Mov rd rs1 => [.q rd, .q rs1]
  | .fp2Sel rd rs1 rs2 rs3 => [.q rd, .q rs1, .q rs2, .e rs3]
  | .xDbl rd rs1 => [.p rd, .p rs1]
  | .xDble rd rs1 imm => [.p rd, .p rs1, .imm imm]
  | .xTpl rd rs1 => [.p rd, .p rs1]
  | .xTple rd rs1 imm => [.p rd, .p rs1, .imm imm]
  | .xDblAdd rd rs1 rs2 rs3 => [.p rd, .p rs1, .q rs2, .q rs3]
  | .get4 rs1 => [.p rs1]
  | .eval4 rd => [.p rd]
  | .get3 rs1 => [.p rs1]
  | .eval3 rd => [.p rd]
  | .get2 rs1 => [.p rs1]
  | .eval2 rd => [.p rd]
  | .inv3Way rs1 rs2 rs3 => [.q rs1, .q rs2, .q rs3]
  | .getA rd rs1 rs2 rs3 => [.q rd, .q rs1, .q rs2, .q rs3]
  | .jInv rd rs1 rs2 => [.q rd, .q rs1, .q rs2]
  | .ladderA rd rs1 rs2 rs3 => [.p rd, .q rs1, .q rs2, .q rs3]
  | .ladderB rd rs1 rs2 rs3 => [.p rd, .q rs1, .q rs2, .q rs3]
  | .chainA rd rs1 aux => [.x aux rd, .p rs1, .flag aux]
  | .chainB rd rs1 aux => [.x aux rd, .p rs1, .flag aux]

/-- MISALIGNED_OPERAND: a class-Q field is odd, or a class-P or class-X field is not a multiple of 4 (R313). -/
def Operand.misaligned : Operand → Bool
  | .q v => v.toNat % 2 != 0
  | .p v | .x _ v => v.toNat % 4 != 0
  | .e _ | .d _ | .k _ | .imm _ | .flag _ => false

/-- The part of OPERAND_RANGE that the operand's class decides: D ≥ 4, K ≥ 6, and aux points that would pass E63
(R313, R292). -/
def Operand.outOfRange : Operand → Bool
  | .d v => 4 ≤ v.toNat
  | .k v => 6 ≤ v.toNat
  | .x aux v => aux && 52 < v.toNat
  | .e _ | .q _ | .p _ | .imm _ | .flag _ => false

/-- A CHAIN command with AUX = 0 has RD = 0 (R108, R292). -/
def Instr.reservedNonzero (i : Instr) : Bool :=
  match i with
  | .chainA rd _ aux | .chainB rd _ aux => !aux && rd != 0
  | _ => false

/-- The range check one opcode makes on its immediate: SK_BIT with IMM12 ≥ SK_BITS (R175, R313). -/
def Instr.immOutOfRange (skBits : Nat) (i : Instr) : Bool :=
  match i with
  | .skBit _ imm => skBits ≤ imm.toNat
  | _ => false

/-- OPERAND_OVERLAP: two destinations of one command coincide (R235, R262, R292, R355). -/
def Instr.overlaps (i : Instr) : Bool :=
  match i with
  | .xDblAdd rd rs1 _ _ => rd == rs1
  | .inv3Way rs1 rs2 rs3 => rs1 == rs2 || rs1 == rs3 || rs2 == rs3
  | .chainA rd _ aux | .chainB rd _ aux => aux && 48 < rd.toNat + 12
  | _ => false

/-- The checks of R110 on a command's operand values, in the order of their codes (R313): none if the command is
executed, else the code the rejection records. -/
def operandError (skBits : Nat) (i : Instr) : Option CmdError :=
  if i.reservedNonzero then some .reservedField
  else if i.operands.any Operand.misaligned then some .misalignedOperand
  else if i.operands.any Operand.outOfRange || i.immOutOfRange skBits then some .operandRange
  else if i.overlaps then some .operandOverlap
  else none

/-- The whole of R110 on a command word: the error that rejects it, if any (R313). -/
def commandError (skBits : Nat) (c : CmdWord) : Option CmdError :=
  match decode c with
  | .error e => some e
  | .ok i => operandError skBits i

/-! The encoder (R101, R106). -/

/-- Format R: OPC << 24 | RD << 18 | RS1 << 12 | RS2 << 6 | RS3 (R101). -/
def formatR (opc : BitVec 8) (rd rs1 rs2 rs3 : RegNum) : CmdWord := opc ++ rd ++ rs1 ++ rs2 ++ rs3

/-- Format I: OPC << 24 | RD << 18 | RS1 << 12 | IMM12 (R101). -/
def formatI (opc : BitVec 8) (rd rs1 : RegNum) (imm : Imm12) : CmdWord := opc ++ rd ++ rs1 ++ imm

/-- A class-F field: bit 0 is AUX (R104). -/
def flagField (aux : Bool) : RegNum := if aux then 1 else 0

/-- The word of a command; every reserved field is 0 (R101, R106, R108). -/
def encode : Instr → CmdWord
  | .nop => formatR 0x00 0 0 0 0
  | .mpAdd rd rs1 rs2 => formatR 0x01 rd rs1 rs2 0
  | .mpSub rd rs1 rs2 => formatR 0x02 rd rs1 rs2 0
  | .mpMul rd rs1 rs2 => formatR 0x03 rd rs1 rs2 0
  | .mpRdc rd rs1 => formatR 0x04 rd rs1 0 0
  | .mpDadd rd rs1 rs2 => formatR 0x05 rd rs1 rs2 0
  | .mpDsub rd rs1 rs2 => formatR 0x06 rd rs1 rs2 0
  | .fpAdd rd rs1 rs2 => formatR 0x10 rd rs1 rs2 0
  | .fpSub rd rs1 rs2 => formatR 0x11 rd rs1 rs2 0
  | .fpNeg rd rs1 => formatR 0x12 rd rs1 0 0
  | .fpDiv2 rd rs1 => formatR 0x13 rd rs1 0 0
  | .fpCorr rd rs1 => formatR 0x14 rd rs1 0 0
  | .fpMul rd rs1 rs2 => formatR 0x15 rd rs1 rs2 0
  | .fpSqr rd rs1 => formatR 0x16 rd rs1 0 0
  | .fpInv rd rs1 => formatR 0x17 rd rs1 0 0
  | .fpToMont rd rs1 => formatR 0x18 rd rs1 0 0
  | .fpFromMont rd rs1 => formatR 0x19 rd rs1 0 0
  | .fpMov rd rs1 => formatR 0x1A rd rs1 0 0
  | .fpLdc rd k => formatR 0x1B rd k 0 0
  | .fpSel rd rs1 rs2 rs3 => formatR 0x1C rd rs1 rs2 rs3
  | .skBit rd imm => formatI 0x1D rd 0 imm
  | .fp2Add rd rs1 rs2 => formatR 0x20 rd rs1 rs2 0
  | .fp2Sub rd rs1 rs2 => formatR 0x21 rd rs1 rs2 0
  | .fp2Neg rd rs1 => formatR 0x22 rd rs1 0 0
  | .fp2Div2 rd rs1 => formatR 0x23 rd rs1 0 0
  | .fp2Corr rd rs1 => formatR 0x24 rd rs1 0 0
  | .fp2Mul rd rs1 rs2 => formatR 0x25 rd rs1 rs2 0
  | .fp2Sqr rd rs1 => formatR 0x26 rd rs1 0 0
  | .fp2Inv rd rs1 => formatR 0x27 rd rs1 0 0
  | .fp2ToMont rd rs1 => formatR 0x28 rd rs1 0 0
  | .fp2FromMont rd rs1 => formatR 0x29 rd rs1 0 0
  | .fp2Mov rd rs1 => formatR 0x2A rd rs1 0 0
  | .fp2Sel rd rs1 rs2 rs3 => formatR 0x2B rd rs1 rs2 rs3
  | .xDbl rd rs1 => formatR 0x30 rd rs1 0 0
  | .xDble rd rs1 imm => formatI 0x31 rd rs1 imm
  | .xTpl rd rs1 => formatR 0x32 rd rs1 0 0
  | .xTple rd rs1 imm => formatI 0x33 rd rs1 imm
  | .xDblAdd rd rs1 rs2 rs3 => formatR 0x34 rd rs1 rs2 rs3
  | .get4 rs1 => formatR 0x40 0 rs1 0 0
  | .eval4 rd => formatR 0x41 rd 0 0 0
  | .get3 rs1 => formatR 0x42 0 rs1 0 0
  | .eval3 rd => formatR 0x43 rd 0 0 0
  | .get2 rs1 => formatR 0x44 0 rs1 0 0
  | .eval2 rd => formatR 0x45 rd 0 0 0
  | .inv3Way rs1 rs2 rs3 => formatR 0x46 0 rs1 rs2 rs3
  | .getA rd rs1 rs2 rs3 => formatR 0x47 rd rs1 rs2 rs3
  | .jInv rd rs1 rs2 => formatR 0x48 rd rs1 rs2 0
  | .ladderA rd rs1 rs2 rs3 => formatR 0x50 rd rs1 rs2 rs3
  | .ladderB rd rs1 rs2 rs3 => formatR 0x51 rd rs1 rs2 rs3
  | .chainA rd rs1 aux => formatR 0x52 rd rs1 (flagField aux) 0
  | .chainB rd rs1 aux => formatR 0x53 rd rs1 (flagField aux) 0

/-- The row of spec/opcode_table.json a command belongs to: its mask and its match. A word matches its row exactly
when it passes the checks for codes 1 and 2, apart from the CHAIN rule on RD (30_encoding.md). -/
def Instr.tableRow : Instr → CmdWord × CmdWord
  | .nop => (0xFFFFFFFF#32, 0x00000000#32)
  | .mpAdd _ _ _ => (0xFF00003F#32, 0x01000000#32)
  | .mpSub _ _ _ => (0xFF00003F#32, 0x02000000#32)
  | .mpMul _ _ _ => (0xFF00003F#32, 0x03000000#32)
  | .mpRdc _ _ => (0xFF000FFF#32, 0x04000000#32)
  | .mpDadd _ _ _ => (0xFF00003F#32, 0x05000000#32)
  | .mpDsub _ _ _ => (0xFF00003F#32, 0x06000000#32)
  | .fpAdd _ _ _ => (0xFF00003F#32, 0x10000000#32)
  | .fpSub _ _ _ => (0xFF00003F#32, 0x11000000#32)
  | .fpNeg _ _ => (0xFF000FFF#32, 0x12000000#32)
  | .fpDiv2 _ _ => (0xFF000FFF#32, 0x13000000#32)
  | .fpCorr _ _ => (0xFF000FFF#32, 0x14000000#32)
  | .fpMul _ _ _ => (0xFF00003F#32, 0x15000000#32)
  | .fpSqr _ _ => (0xFF000FFF#32, 0x16000000#32)
  | .fpInv _ _ => (0xFF000FFF#32, 0x17000000#32)
  | .fpToMont _ _ => (0xFF000FFF#32, 0x18000000#32)
  | .fpFromMont _ _ => (0xFF000FFF#32, 0x19000000#32)
  | .fpMov _ _ => (0xFF000FFF#32, 0x1A000000#32)
  | .fpLdc _ _ => (0xFF000FFF#32, 0x1B000000#32)
  | .fpSel _ _ _ _ => (0xFF000000#32, 0x1C000000#32)
  | .skBit _ _ => (0xFF03F000#32, 0x1D000000#32)
  | .fp2Add _ _ _ => (0xFF00003F#32, 0x20000000#32)
  | .fp2Sub _ _ _ => (0xFF00003F#32, 0x21000000#32)
  | .fp2Neg _ _ => (0xFF000FFF#32, 0x22000000#32)
  | .fp2Div2 _ _ => (0xFF000FFF#32, 0x23000000#32)
  | .fp2Corr _ _ => (0xFF000FFF#32, 0x24000000#32)
  | .fp2Mul _ _ _ => (0xFF00003F#32, 0x25000000#32)
  | .fp2Sqr _ _ => (0xFF000FFF#32, 0x26000000#32)
  | .fp2Inv _ _ => (0xFF000FFF#32, 0x27000000#32)
  | .fp2ToMont _ _ => (0xFF000FFF#32, 0x28000000#32)
  | .fp2FromMont _ _ => (0xFF000FFF#32, 0x29000000#32)
  | .fp2Mov _ _ => (0xFF000FFF#32, 0x2A000000#32)
  | .fp2Sel _ _ _ _ => (0xFF000000#32, 0x2B000000#32)
  | .xDbl _ _ => (0xFF000FFF#32, 0x30000000#32)
  | .xDble _ _ _ => (0xFF000000#32, 0x31000000#32)
  | .xTpl _ _ => (0xFF000FFF#32, 0x32000000#32)
  | .xTple _ _ _ => (0xFF000000#32, 0x33000000#32)
  | .xDblAdd _ _ _ _ => (0xFF000000#32, 0x34000000#32)
  | .get4 _ => (0xFFFC0FFF#32, 0x40000000#32)
  | .eval4 _ => (0xFF03FFFF#32, 0x41000000#32)
  | .get3 _ => (0xFFFC0FFF#32, 0x42000000#32)
  | .eval3 _ => (0xFF03FFFF#32, 0x43000000#32)
  | .get2 _ => (0xFFFC0FFF#32, 0x44000000#32)
  | .eval2 _ => (0xFF03FFFF#32, 0x45000000#32)
  | .inv3Way _ _ _ => (0xFFFC0000#32, 0x46000000#32)
  | .getA _ _ _ _ => (0xFF000000#32, 0x47000000#32)
  | .jInv _ _ _ => (0xFF00003F#32, 0x48000000#32)
  | .ladderA _ _ _ _ => (0xFF000000#32, 0x50000000#32)
  | .ladderB _ _ _ _ => (0xFF000000#32, 0x51000000#32)
  | .chainA _ _ _ => (0xFF000FBF#32, 0x52000000#32)
  | .chainB _ _ _ => (0xFF000FBF#32, 0x53000000#32)

/-- The command the decoder reads from the row word w of nbits bits (bits above nbits are 0); none where it refuses. -/
def decodeTableWord (nbits w : Nat) : Option Instr :=
  match decode (BitVec.ofNat 32 (w % 2 ^ nbits)) with
  | .ok i => some i
  | .error _ => none

end Sys2Proof
end

