-- ==== Sys2Proof/Config.lean ====
section
/-! DEFINITION. The configuration the engine is built for (R10) and the model's free values. A configuration is plain
data, so that one State carries one configuration and every statement can range over all of them. What is computed from
these fields (p, R, SK_BITS, the ROM, well-formedness) is in Machine/Params.lean. -/

namespace Sys2Proof

/-- The parameters of R10 that are not derived from others: the exponents of the prime p = 2^eA·3^eB − 1 (R8), the limb
radix w and limb count N (D3), the batch width K (D4), the inversion chain (R168), the strategy tables (R290) and the
depth of the chain-walk stack (D16). NREG = 64 and ND = 4 are fixed (D5). -/
structure Config where
  /-- exponent of 2 in p + 1 (R8) -/
  eA : Nat
  /-- exponent of 3 in p + 1 (R8) -/
  eB : Nat
  /-- RADIX_BITS, the bits of one limb -/
  w : Nat
  /-- LIMBS, the limbs of one Fp register -/
  n : Nat
  /-- LANES, the batch width -/
  k : Nat
  /-- INV_NT, the size of the table of cached odd powers -/
  invNT : Nat
  /-- INV_STEPS, pairs (squarings, table index) -/
  invSteps : List (Nat × Nat)
  /-- STRAT_A -/
  stratA : List Nat
  /-- STRAT_B -/
  stratB : List Nat
  /-- MAX_PTS, the depth of the hidden point stack -/
  maxPts : Nat
deriving DecidableEq, Repr

/-- FREE VALUE (assumptions 3, 4, 9 and 17). An integer the spec leaves unspecified, one for each draw number, lane and place
within the draw: the destination values after a broken bound (R320, U1), the word a host read of an unwritten register
returns (R75, U3) and the registers after the reset input (R350, U4). No body: nothing can evaluate it. -/
opaque Config.freeValue (draw lane slot : Nat) : Nat

/-- The OPEN parameter LAT(opcode, IMM12, AUX) of R353, for one configuration: the clocks a command keeps BUSY at 1.
No body: no rule depends on it (assumption 8). -/
opaque Config.lat (c : Config) (opcode : BitVec 8) (imm : Imm12) (aux : Bool) : Nat

end Sys2Proof
end

