-- ==== Sys2Proof/Machine/Params.lean ====
section
/-! DEFINITION. What the configuration determines (00_scope.md section 4, 10_state.md sections 8 and 9): the prime, the
Montgomery constants, the scalar's width, the constant ROM, the hardwired ID and CONFIG registers, when a configuration is
well formed (R12), the named primes (R9) and the two test configurations (R11). -/

namespace Sys2Proof.Config

/-- p = 2^eA·3^eB − 1 (R8). -/
def p (c : Config) : Nat := 2 ^ c.eA * 3 ^ c.eB - 1

/-- The Montgomery constant R = 2^(w·N) (R10), also the capacity of an E register (R31). -/
def r (c : Config) : Nat := 2 ^ (c.w * c.n)

/-- OBOB_BITS, the bit length of 3^eB (R10). -/
def obobBits (c : Config) : Nat := Nat.log2 (3 ^ c.eB) + 1

/-- SK_BITS = max(eA, OBOB_BITS) (R44). -/
def skBits (c : Config) : Nat := max c.eA c.obobBits

/-- The 64-bit words of SK, ceil(SK_BITS/64) (R74). -/
def skWords (c : Config) : Nat := (c.skBits + 63) / 64

/-- The scalar bits LADDER_A reads (R280). -/
def nbA (c : Config) : Nat := c.eA

/-- The scalar bits LADDER_B reads (R280). -/
def nbB (c : Config) : Nat := c.obobBits - 1

/-- The length of Alice's chain of 4-isogenies (R290). -/
def chainLenA (c : Config) : Nat := c.eA / 2

/-- The length of Bob's chain of 3-isogenies (R290). -/
def chainLenB (c : Config) : Nat := c.eB

/-- k rounds of x ← x·(2 − q·x) mod m from x = 1: each round doubles the number of low bits in which q·x is 1. -/
def newtonInverse (q m : Nat) : Nat → Nat
  | 0 => 1
  | k + 1 => newtonInverse q m k * (2 + (m - q * newtonInverse q m k % m)) % m

/-- pinv = p⁻¹ mod R (R52). -/
def pinv (c : Config) : Nat := newtonInverse c.p c.r (Nat.log2 (c.w * c.n) + 1)

/-- MONT_ONE = R mod p (R52). -/
def montOne (c : Config) : Nat := c.r % c.p

/-- MONT_R2 = R² mod p (R52). -/
def montR2 (c : Config) : Nat := c.r ^ 2 % c.p

/-- ONE2 = (MONT_ONE, 0) (R52). -/
def one2 (c : Config) : Fp2 := ⟨c.montOne, 0⟩

/-- The constant ROM (R49), for k in 0..5: ZERO, MONT_ONE, MONT_R2, ONE, PRIME, PRIME2. -/
def romList (c : Config) : List Nat := [0, c.montOne, c.montR2, 1, c.p, 2 * c.p]

/-- ROM[k] (R49). A command with k ≥ 6 is rejected before it reads the ROM (R173). -/
def rom (c : Config) (k : Nat) : Nat := c.romList.getD k 0

/-! ## Hardwired registers -/

/-- ID (R46). -/
def idWord : HostWord := 0x0000_0001_4156_5853

/-- CONFIG0 (R47): w, N, K, a reserved byte, eA and eB. -/
def config0Word (c : Config) : HostWord :=
  BitVec.ofNat 16 c.eB ++ BitVec.ofNat 16 c.eA ++ 0#8 ++ BitVec.ofNat 8 c.k ++ BitVec.ofNat 8 c.n ++ BitVec.ofNat 8 c.w

/-- PRIME_ID (R47): 0 to 3 for the four named primes, 0xFF for any other. -/
def primeId (c : Config) : BitVec 8 :=
  match c.eA, c.eB with
  | 216, 137 => 0
  | 250, 159 => 1
  | 305, 192 => 2
  | 372, 239 => 3
  | _, _ => 0xFF

/-- CONFIG1 (R47): SK_BITS, OBOB_BITS, MAX_PTS, INV_NT, PRIME_ID and a reserved byte. -/
def config1Word (c : Config) : HostWord :=
  0#8 ++ c.primeId ++ BitVec.ofNat 8 c.invNT ++ BitVec.ofNat 8 c.maxPts ++ BitVec.ofNat 16 c.obobBits ++ BitVec.ofNat 16 c.skBits

/-! ## Well-formed configurations -/

/-- The exponent an inversion chain computes from e (R168). -/
def chainExponentFrom (e : Nat) : List (Nat × Nat) → Nat
  | [] => e
  | (s, i) :: rest => chainExponentFrom (e * 2 ^ s + (2 * i + 1)) rest

/-- The exponent INV_STEPS computes (R168). -/
def chainExponent (c : Config) : Nat := chainExponentFrom 1 c.invSteps

/-- The index side of one row of the chain walk: while index < target, push index and add the next strategy entry
(R291). `deepest` is the largest number of stack entries so far. -/
structure IndexWalk where
  index : Nat
  stack : List Nat
  strat : List Nat
  deepest : Nat
deriving DecidableEq, Repr

/-- The descent of one row (R291), by recursion on the strategy entries that are left. -/
def descendIndex (target : Nat) : List Nat → IndexWalk → IndexWalk
  | [], v => { v with strat := [] }
  | n :: rest, v =>
    if v.index < target then
      descendIndex target rest
        { v with index := v.index + n, stack := v.stack ++ [v.index], deepest := max v.deepest (v.stack.length + 1) }
    else { v with strat := n :: rest }

/-- The pop at the end of a row (R291). As in `popWalk`, an empty stack, which a well-formed configuration's walk never pops,
leaves the index (log entry 15). -/
def popIndex (v : IndexWalk) : IndexWalk := { v with index := v.stack.getLastD v.index, stack := v.stack.dropLast }

/-- The rows of the walk whose target M − row runs from m down to 1 (R291). -/
def indexRows : Nat → IndexWalk → IndexWalk
  | 0, v => v
  | m + 1, v => indexRows m (popIndex (descendIndex (m + 1) v.strat v))

/-- The largest number of stack entries the walk of a chain of length m ever holds (R291, R12). -/
def stackDepth (m : Nat) (strat : List Nat) : Nat :=
  (indexRows (m - 1) { index := 0, stack := [], strat := strat, deepest := 0 }).deepest

/-- A strategy table for a chain of length m (R290): m − 1 entries, each at least 1, and a walk that fits the stack. -/
def strategyOk (m maxPts : Nat) (strat : List Nat) : Bool :=
  strat.length == m - 1 && strat.all (1 ≤ ·) && stackDepth m strat ≤ maxPts

/-- A well-formed configuration: R12, the ranges of w and K in R10 with the bounds N ≤ 32 and K ≤ 16 the address map
needs (R74), and those of INV_NT and INV_STEPS (R168). -/
def wf (c : Config) : Bool :=
  32 * c.p ≤ c.r && 2 ≤ c.eA && 1 ≤ c.eB
    && (1 ≤ c.w && c.w ≤ 64) && (1 ≤ c.n && c.n ≤ 32) && (1 ≤ c.k && c.k ≤ 16)
    && (1 ≤ c.invNT && c.invSteps.all (·.2 < c.invNT) && c.chainExponent == (c.p - 3) / 4)
    && strategyOk c.chainLenA c.maxPts c.stratA && strategyOk c.chainLenB c.maxPts c.stratB

/-! ## Configurations the spec names -/

/-- The steps of the binary chain (R168) for the bits below a leading 1, given most significant first: one step (s, 0)
for each 1 bit, s the distance from the previous 1 bit. -/
def binaryStepsOf (gap : Nat) : List Bool → List (Nat × Nat)
  | [] => []
  | true :: rest => (gap + 1, 0) :: binaryStepsOf 0 rest
  | false :: rest => binaryStepsOf (gap + 1) rest

/-- The binary chain of an odd exponent e (R168). -/
def binaryChain (e : Nat) : List (Nat × Nat) :=
  binaryStepsOf 0 ((List.range (Nat.log2 e)).reverse.map e.testBit)

/-- TOY431 (R11). -/
def toy431 : Config :=
  { eA := 4, eB := 3, w := 8, n := 2, k := 1, invNT := 1, invSteps := [(1, 0), (2, 0), (2, 0), (1, 0)]
    stratA := [1], stratB := [1, 1], maxPts := 8 }

/-- TOY863 (R11). -/
def toy863 : Config :=
  { eA := 5, eB := 3, w := 8, n := 2, k := 1, invNT := 1, invSteps := binaryChain 215
    stratA := [1], stratB := [1, 1], maxPts := 8 }

/-- The four named instantiations (R9). -/
inductive NamedPrime where
  | p434
  | p503
  | p610
  | p751
deriving DecidableEq, Repr

/-- The exponents (eA, eB) of a named prime (R9). -/
def namedExponents : NamedPrime → Nat × Nat
  | .p434 => (216, 137)
  | .p503 => (250, 159)
  | .p610 => (305, 192)
  | .p751 => (372, 239)

/-- A named prime over given values of the OPEN parameters, which are those of `base` (R9, R10). -/
def ofNamed (q : NamedPrime) (base : Config) : Config :=
  { base with eA := (namedExponents q).1, eB := (namedExponents q).2 }

end Sys2Proof.Config
end

