-- ==== Sys2Proof/Machine/State.lean ====
section
/-! DEFINITION. The state of the engine and of its host port, as plain data (10_state.md, 20_memory.md), the reasons a
run can stop, and the state after reset (R53, R350). -/

namespace Sys2Proof.Machine

/-- A register with the limbs (E, D) or words (SK) that have been written since reset, lowest first (R31, R35, R40,
R44, R76, R77). -/
structure Reg where
  /-- the integer the register holds -/
  val : Nat
  /-- entry j says that limb or word j has been written since reset -/
  written : List Bool
deriving DecidableEq, Repr

/-- The per-lane state (R30): 64 Fp registers, 4 double-width registers and the scalar register. The Fp² and point
registers are views of E (R33, R34). -/
structure Lane where
  e : Vector Reg 64
  d : Vector Reg 4
  sk : Reg
deriving DecidableEq, Repr

/-- STATUS (R45) without its reserved bits, which read 0: BUSY, ERR and ERRCODE. -/
structure Status where
  busy : Bool
  err : Bool
  errcode : BitVec 4
deriving DecidableEq, Repr

/-- A host access's direction and, for a write, its data. -/
inductive AccessKind where
  | read
  | write (data : HostWord)
deriving DecidableEq, Repr

/-- One host access: a byte address in the 24-bit window, a width in bytes and a direction (R71). -/
structure Access where
  addr : BitVec 24
  bytes : Nat
  kind : AccessKind
deriving DecidableEq, Repr

/-- What the outside world presents to the engine at one clock: an access at the host port, nothing, or its reset input
(R71, R350). -/
inductive HostEvent where
  | access (a : Access)
  | idle
  | reset
deriving DecidableEq, Repr

/-- The response to one completed host access: the data read (0 for a write) and the bus-error response (R78). -/
structure Response where
  data : HostWord
  busError : Bool
deriving DecidableEq, Repr

/-- The engine and its host port. -/
structure State where
  /-- the configuration the engine is built for, hardwired: no step changes it (R10, R47, R49, R50) -/
  cfg : Config
  /-- the lanes, lane 0 first (R30) -/
  lanes : List Lane
  /-- the shared STATUS register (R45) -/
  status : Status
  /-- the command latch: the accepted command word while BUSY = 1 (R51, R310) -/
  latch : Option CmdWord
  /-- the clocks the command in progress still takes (R353) -/
  clocksLeft : Nat
  /-- the accesses the host has issued and the engine has not yet performed, oldest first (R82) -/
  port : List HostEvent
  /-- the responses given, newest first -/
  responses : List Response
  /-- MODEL'S OWN: the number of the next free value (assumption 3) -/
  draws : Nat
deriving DecidableEq, Repr

/-- A register of a lane, as a command names it (R14). -/
inductive RegName where
  | e (i : RegNum)
  | d (i : RegNum)
  | sk
deriving DecidableEq, Repr

/-- The functions that check a bound, by which a BoundFault is named (R15, R320). 40_limb.md names the first five; that the op of
41_fp.md's and 42_fp2.md's checks is the function that checks is the model's choice (log entry 20). -/
inductive BoundOp where
  | mpAdd | mpSub | mpDadd | mpDsub
  | redc
  | fpadd | fpsub | fpneg | fpdiv2 | fpcorr | fpmul | fpsqr | fpinv | tomont | frommont
  | fp2mul | fp2sqr | fp2inv
deriving DecidableEq, Repr

/-- The Fp-level operation kinds of a command's trace (R352, 95_test_vectors.md section 4). -/
inductive OpKind where
  | add | sub | neg | div2 | corr | mul | sqr | redc
deriving DecidableEq, Repr

/-- The model faults of 60_exceptions.md section 3. The engine itself reports nothing for them and goes on, and so does
`step`; they are answered only by the spec's stricter run, `strictExec` and `strictStep` of Safety.lean. -/
inductive Fault where
  /-- R320: an operand or an intermediate value of a lane is outside its bound. Raised by `strictExec`. Safe: the
  hardware goes on with unspecified destinations where the strict run stops. -/
  | boundFault (op : BoundOp) (lane : Nat)
  /-- R322: a command reads a register of a lane that has not been written since reset. Raised by `strictExec`. Safe:
  the hardware goes on with the value the register holds where the strict run stops. -/
  | unwrittenRead (reg : RegName) (lane : Nat)
deriving DecidableEq, Repr

/-- Why the model gives a step no meaning. -/
inductive Refusal where
  /-- The instruction has no meaning yet. Raised by an arm of `exec`. Safe: nothing is claimed of it. -/
  | notModelled (mnemonic : String)
  /-- R12, U11: the configuration is not well formed. Raised by every meaning and by `step`. Safe: the spec asks a model
  to refuse it. -/
  | configNotWellFormed
deriving DecidableEq, Repr

/-- A register of n limbs or words that holds 0 and has not been written (R40; the value 0 is assumption 1). -/
def Reg.unwritten (n : Nat) : Reg := { val := 0, written := List.replicate n false }

/-- A lane after reset (R53). -/
def Lane.reset (c : Config) : Lane :=
  { e := Vector.replicate 64 (Reg.unwritten c.n)
    d := Vector.replicate 4 (Reg.unwritten (2 * c.n))
    sk := Reg.unwritten c.skWords }

/-- STATUS after reset (R45, R53): BUSY, ERR and ERRCODE are 0. -/
def Status.reset : Status := { busy := false, err := false, errcode := 0 }

/-- An engine built for a configuration, after reset (R53, R350): STATUS 0, no command in progress, every register
unwritten, no host access issued. -/
def State.resetWith (c : Config) : State :=
  { cfg := c
    lanes := List.replicate c.k (Lane.reset c)
    status := Status.reset
    latch := none
    clocksLeft := 0
    port := []
    responses := []
    draws := 0 }

/-- The machine after reset, built for TOY431 (R11; the choice of a configuration is assumption 5). -/
def State.reset : State := State.resetWith Config.toy431

end Sys2Proof.Machine
end

