-- ==== Sys2Proof/Machine/Flags.lean ====
section
/-! DEFINITION. The engine has no flags and no condition codes (R42). What it has instead is the shared STATUS register
(R45): the code of a rejection (R313) and the word a host read of STATUS returns. -/

namespace Sys2Proof.Machine

/-- The code that ERRCODE records for a rejection (R313). -/
def errorCode : CmdError → BitVec 4
  | .illegalOpcode => 1
  | .reservedField => 2
  | .misalignedOperand => 3
  | .operandRange => 4
  | .operandOverlap => 5

/-- The 64-bit word of STATUS (R45): BUSY in bit 0, ERR in bit 1, ERRCODE in bits 7:4, every other bit 0. -/
def Status.word (t : Status) : HostWord :=
  (t.errcode ++ 0#2 ++ BitVec.ofBool t.err ++ BitVec.ofBool t.busy).setWidth 64

/-- The legal values of STATUS (R45, R315): ERRCODE is 0 when ERR = 0 and in 1..5 when ERR = 1, and BUSY is 0 when
ERR = 1. -/
def Status.legal (t : Status) : Bool :=
  if t.err then 1 ≤ t.errcode.toNat && t.errcode.toNat ≤ 5 && !t.busy else t.errcode == 0

end Sys2Proof.Machine
end

