-- ==== Sys2Proof/Machine/Ops.lean ====
section
/-! DEFINITION. The shared operations: reading and writing a lane's registers and their limbs (R31, R35, R44, R75 to R77),
the rejection of a command and its clearing (R312, R315), and running a command's rule in every lane (R310, R343, R320).
-/

namespace Sys2Proof.Machine

/-! ## Registers -/

/-- A register holds less than this (R31, R35, R44). -/
def capacity (c : Config) : RegName → Nat
  | .e _ => c.r
  | .d _ => c.r * c.r
  | .sk => 2 ^ c.skBits

/-- The limbs of an E or D register, the words of SK (R74). -/
def limbCount (c : Config) : RegName → Nat
  | .e _ => c.n
  | .d _ => 2 * c.n
  | .sk => c.skWords

/-- The register of a lane that a name designates. A class-D field is below 4 in every command that is executed
(R104). -/
def Lane.get (l : Lane) : RegName → Reg
  | .e i => l.e[i.toNat]'i.isLt
  | .d i => l.d[(i.setWidth 2).toNat]'(i.setWidth 2).isLt
  | .sk => l.sk

/-- A lane with one register replaced. -/
def Lane.put (l : Lane) (name : RegName) (x : Reg) : Lane :=
  match name with
  | .e i => { l with e := l.e.set i.toNat x i.isLt }
  | .d i => { l with d := l.d.set (i.setWidth 2).toNat x (i.setWidth 2).isLt }
  | .sk => { l with sk := x }

/-- The value a command reads from a register (R14). -/
def Lane.val (l : Lane) (name : RegName) : Nat := (l.get name).val

/-- A register counts as written once all of its limbs or words are (R40, R76, R77). -/
def Reg.isWritten (x : Reg) : Bool := x.written.all id

/-- A command's write of a whole register (R14, R40): it holds v and counts as written. -/
def Lane.write (c : Config) (l : Lane) (name : RegName) (v : Nat) : Lane :=
  l.put name { val := v, written := List.replicate (limbCount c name) true }

/-- A command's writes, in order. -/
def Lane.writeAll (c : Config) (l : Lane) (ws : List (RegName × Nat)) : Lane :=
  ws.foldl (fun l' nv => l'.write c nv.1 nv.2) l

/-- Limb j of the value v in radix 2^bits: (v div 2^(bits·j)) mod 2^bits (R75). -/
def limbOf (bits v j : Nat) : Nat := v / 2 ^ (bits * j) % 2 ^ bits

/-- v with limb j replaced by the low bits of u (R76). -/
def withLimb (bits v j u : Nat) : Nat := v - limbOf bits v j * 2 ^ (bits * j) + u % 2 ^ bits * 2 ^ (bits * j)

/-- A host write of u to limb j of an E or D register: the other limbs are unchanged and limb j is marked written
(R76). -/
def Reg.hostWriteLimb (bits : Nat) (x : Reg) (j u : Nat) : Reg :=
  { val := withLimb bits x.val j u, written := x.written.set j true }

/-- A host write of u to word j of SK: bits at or above SK_BITS are dropped (R77). -/
def Reg.hostWriteScalar (c : Config) (x : Reg) (j u : Nat) : Reg :=
  { val := withLimb 64 x.val j u % 2 ^ c.skBits, written := x.written.set j true }

/-! ## Rejecting a command, and clearing the error -/

/-- The whole effect of a CmdError (R312, R331): ERR becomes 1 and ERRCODE the code. -/
def State.reject (s : State) (e : CmdError) : State :=
  { s with status := { s.status with err := true, errcode := errorCode e } }

/-- The return from a CmdError, by writing 1 to STATUS.ERR (R315, R332). -/
def State.clearError (s : State) : State :=
  { s with status := { s.status with err := false, errcode := 0 } }

/-! ## Running a command -/

/-- A computation of the engine on one lane: it records the operation kinds it performs (R352), newest first, and stops at
the first broken bound (R320). -/
abbrev Eng := StateT (List OpKind) (Except BoundOp)

/-- Record that a function of this kind is called (R352). -/
def note (kind : OpKind) : Eng Unit := modify (kind :: ·)

/-- Raise BoundFault(op) unless the bound holds (R15, R320). -/
def require (op : BoundOp) (bound : Bool) : Eng Unit := if bound then pure () else throw op

/-- One command's rule on one lane: the registers it reads, implicit ones included, in the order in which its pseudocode
mentions them (R322 gives none, so the order is the model's choice, log entry 18); the registers it writes; and the values it writes to them, computed from the configuration and the lane. Reading all the
sources before writing any destination (R355) is this shape: the body sees only the lane the command started with. -/
structure Rule where
  srcs : List RegName
  dsts : List RegName
  body : Config → Lane → Eng (List Nat)

/-- The values a rule writes in a lane, or the first bound it breaks (R320). -/
def Rule.outcome (rule : Rule) (c : Config) (l : Lane) : Except BoundOp (List Nat) := (rule.body c l).run' []

/-- The destinations of a rule whose bound broke, with unspecified values below their capacity (R320, U1): free values
of draw number `draw`, lane number `lane`. -/
def Rule.unspecified (rule : Rule) (c : Config) (draw lane : Nat) : List (RegName × Nat) :=
  rule.dsts.mapIdx fun slot name => (name, Config.freeValue draw lane slot % capacity c name)

/-- A rule's effect on the lane numbered `lane` (R310, R320). -/
def Rule.onLane (rule : Rule) (c : Config) (draw lane : Nat) (l : Lane) : Lane :=
  match rule.outcome c l with
  | .ok vs => l.writeAll c (rule.dsts.zip vs)
  | .error _ => l.writeAll c (rule.unspecified c draw lane)

/-- A rule breaks a bound on a lane (R320). -/
def Rule.breaks (rule : Rule) (c : Config) (l : Lane) : Bool :=
  match rule.outcome c l with
  | .ok _ => false
  | .error _ => true

/-- A rule run in every lane, each lane on its own state (R30, R343). -/
def State.runLanes (s : State) (rule : Rule) : State :=
  { s with
    lanes := s.lanes.mapIdx fun k l => rule.onLane s.cfg s.draws k l
    draws := if s.lanes.any (rule.breaks s.cfg) then s.draws + 1 else s.draws }

/-- A command: refused when the configuration is not well formed (R12), rejected when an operand check fails (R110, R312),
else its rule is run in every lane (R310). -/
def runCommand (i : Instr) (rule : Rule) (s : State) : Host.Outcome State Fault Refusal :=
  if s.cfg.wf then
    match operandError s.cfg.skBits i with
    | some e => .next (s.reject e)
    | none => .next (s.runLanes rule)
  else .refused .configNotWellFormed

end Sys2Proof.Machine
end

