-- ==== Sys2Proof/Machine/Operands.lean ====
section
/-! DEFINITION. Every operand form of R104 as a view of a lane's registers (R14, R33, R34), and the registers some commands
use as implicit operands (R36). -/

namespace Sys2Proof.Machine

/-- E[i]: class E (R14). -/
def Lane.rE (l : Lane) (i : RegNum) : Nat := l.val (.e i)

/-- D[i]: class D (R14). -/
def Lane.rD (l : Lane) (i : RegNum) : Nat := l.val (.d i)

/-- Q(b) = (E[b], E[b+1]): class Q (R14, R33). -/
def Lane.rQ (l : Lane) (b : RegNum) : Fp2 := ⟨l.rE b, l.rE (b + 1)⟩

/-- Pt(b) = (Q(b), Q(b+2)): class P (R14, R34). -/
def Lane.rP (l : Lane) (b : RegNum) : Pt := ⟨l.rQ b, l.rQ (b + 2)⟩

/-- SK (R14). -/
def Lane.rSK (l : Lane) : Nat := l.val .sk

/-- The E registers of Q(b) (R33). -/
def regsQ (b : RegNum) : List RegName := [.e b, .e (b + 1)]

/-- The E registers of Pt(b) (R34). -/
def regsP (b : RegNum) : List RegName := regsQ b ++ regsQ (b + 2)

/-- The three aux points Pt(b), Pt(b+4), Pt(b+8) of class X with AUX = 1, none with AUX = 0 (R104, R292). -/
def Lane.rAux (l : Lane) (aux : Bool) (b : RegNum) : List Pt :=
  if aux then [l.rP b, l.rP (b + 4), l.rP (b + 8)] else []

/-- The E registers of the aux points (R292). -/
def regsAux (aux : Bool) (b : RegNum) : List RegName :=
  if aux then regsP b ++ regsP (b + 4) ++ regsP (b + 8) else []

/-! The fixed registers (R36): the bases of COEF0, COEF1, COEF2, CA, CV0 and CV1. -/

def coef0 : RegNum := 48
def coef1 : RegNum := 50
def coef2 : RegNum := 52
def ca : RegNum := 54
def cv0 : RegNum := 56
def cv1 : RegNum := 58

end Sys2Proof.Machine
end

