-- ==== Sys2Proof/Machine/FpArith.lean ====
section
/-! DEFINITION. The pure functions of 40_limb.md and 41_fp.md: REDC (R150) and the Fp functions of R161 to R171, each with
its own bound checks. -/

namespace Sys2Proof.Machine

/-- REDC(x) (R150): for x < p·R the integer (x + q·p) div R with q = (−x·pinv) mod R. -/
def redc (c : Config) (x : Nat) : Eng Nat := do
  note .redc
  require .redc (x < c.p * c.r)
  let q := (c.r - x % c.r) * c.pinv % c.r
  return (x + q * c.p) / c.r

/-- The working bound [0, 2p] (R160). -/
def inBound (c : Config) (op : BoundOp) (a : Nat) : Eng Unit := require op (a ≤ 2 * c.p)

/-- fpadd (R161). -/
def fpadd (c : Config) (a b : Nat) : Eng Nat := do
  note .add
  inBound c .fpadd a
  inBound c .fpadd b
  let s := a + b
  return if 2 * c.p ≤ s then s - 2 * c.p else s

/-- fpsub (R162): a − b, plus 2p when that is negative. -/
def fpsub (c : Config) (a b : Nat) : Eng Nat := do
  note .sub
  inBound c .fpsub a
  inBound c .fpsub b
  return if a < b then a + 2 * c.p - b else a - b

/-- fpneg (R163). -/
def fpneg (c : Config) (a : Nat) : Eng Nat := do
  note .neg
  inBound c .fpneg a
  return 2 * c.p - a

/-- fpdiv2 (R164). -/
def fpdiv2 (c : Config) (a : Nat) : Eng Nat := do
  note .div2
  inBound c .fpdiv2 a
  return (a + c.p * (a % 2)) / 2

/-- fpcorr (R165). -/
def fpcorr (c : Config) (a : Nat) : Eng Nat := do
  note .corr
  inBound c .fpcorr a
  return a % c.p

/-- fpmul (R166). -/
def fpmul (c : Config) (a b : Nat) : Eng Nat := do
  note .mul
  inBound c .fpmul a
  inBound c .fpmul b
  redc c (a * b)

/-- fpsqr (R167). -/
def fpsqr (c : Config) (a : Nat) : Eng Nat := do
  note .sqr
  inBound c .fpsqr a
  redc c (a * a)

/-- tomont (R170). -/
def tomont (c : Config) (a : Nat) : Eng Nat := do
  inBound c .tomont a
  redc c (a * c.montR2)

/-- frommont (R171). -/
def frommont (c : Config) (a : Nat) : Eng Nat := do
  inBound c .frommont a
  let t ← redc c (a * 1)
  return t % c.p

/-- m further table entries of the inversion, each the entry before times tt (R169). -/
def fpinvTableFrom (c : Config) (tt prev : Nat) : Nat → Eng (List Nat)
  | 0 => return []
  | m + 1 => do
    let t ← fpmul c prev tt
    let ts ← fpinvTableFrom c tt t m
    return t :: ts

/-- The table T of the inversion: T[i] represents a^(2i+1), for i < INV_NT (R169). -/
def fpinvTable (c : Config) (a : Nat) : Eng (List Nat) :=
  if 2 ≤ c.invNT then do
    let tt ← fpsqr c a
    let ts ← fpinvTableFrom c tt a (c.invNT - 1)
    return a :: ts
  else return [a]

/-- m squarings of acc (R169). -/
def fpsqrTimes (c : Config) : Nat → Nat → Eng Nat
  | 0, acc => return acc
  | m + 1, acc => do
    let acc ← fpsqr c acc
    fpsqrTimes c m acc

/-- The steps of the inversion chain: s squarings and a multiply by T[i] for each (s, i) (R169). Every index of a
well-formed configuration is below INV_NT, the length of the table (R168). -/
def fpinvSteps (c : Config) (table : List Nat) : List (Nat × Nat) → Nat → Eng Nat
  | [], acc => return acc
  | (s, i) :: rest, acc => do
    let acc ← fpsqrTimes c s acc
    let acc ← fpmul c acc (table.getD i 0)
    fpinvSteps c table rest acc

/-- fpinv (R169). -/
def fpinv (c : Config) (a : Nat) : Eng Nat := do
  inBound c .fpinv a
  let table ← fpinvTable c a
  let acc ← fpinvSteps c table c.invSteps a
  let acc ← fpsqr c acc
  let acc ← fpsqr c acc
  fpmul c a acc

end Sys2Proof.Machine
end

