-- ==== Sys2Proof/Machine/Fp2Arith.lean ====
section
/-! DEFINITION. The pure functions of 42_fp2.md over GF(p²) (R200 to R210): the component-wise liftings, the three-multiply
product, the two-multiply square and the inversion through the norm. -/

namespace Sys2Proof.Machine

/-- The component-wise lifting of a unary function, a0 before a1 (R200). -/
def lift1 (f : Nat → Eng Nat) (a : Fp2) : Eng Fp2 := do
  let c0 ← f a.a0
  let c1 ← f a.a1
  return ⟨c0, c1⟩

/-- The component-wise lifting of a binary function, a0 before a1 (R200). -/
def lift2 (f : Nat → Nat → Eng Nat) (a b : Fp2) : Eng Fp2 := do
  let c0 ← f a.a0 b.a0
  let c1 ← f a.a1 b.a1
  return ⟨c0, c1⟩

/-- fp2add (R201). -/
def fp2add (c : Config) (a b : Fp2) : Eng Fp2 := lift2 (fpadd c) a b

/-- fp2sub (R202). -/
def fp2sub (c : Config) (a b : Fp2) : Eng Fp2 := lift2 (fpsub c) a b

/-- fp2neg (R203). -/
def fp2neg (c : Config) (a : Fp2) : Eng Fp2 := lift1 (fpneg c) a

/-- fp2div2 (R204). -/
def fp2div2 (c : Config) (a : Fp2) : Eng Fp2 := lift1 (fpdiv2 c) a

/-- fp2corr (R207). -/
def fp2corr (c : Config) (a : Fp2) : Eng Fp2 := lift1 (fpcorr c) a

/-- fp2tomont (R209). -/
def fp2tomont (c : Config) (a : Fp2) : Eng Fp2 := lift1 (tomont c) a

/-- fp2frommont (R210). -/
def fp2frommont (c : Config) (a : Fp2) : Eng Fp2 := lift1 (frommont c) a

/-- fp2mul (R205). The difference tt1 − tt2 is made non-negative by adding p·R when it is negative. -/
def fp2mul (c : Config) (a b : Fp2) : Eng Fp2 := do
  inBound c .fp2mul a.a0
  inBound c .fp2mul a.a1
  inBound c .fp2mul b.a0
  inBound c .fp2mul b.a1
  let t1 := a.a0 + a.a1
  let t2 := b.a0 + b.a1
  let tt1 := a.a0 * b.a0
  let tt2 := a.a1 * b.a1
  let tt3 := t1 * t2 - tt1 - tt2
  let u := if tt1 < tt2 then tt1 + c.p * c.r - tt2 else tt1 - tt2
  let c1 ← redc c tt3
  let c0 ← redc c u
  return ⟨c0, c1⟩

/-- fp2sqr (R206). -/
def fp2sqr (c : Config) (a : Fp2) : Eng Fp2 := do
  inBound c .fp2sqr a.a0
  inBound c .fp2sqr a.a1
  let t1 := a.a0 + a.a1
  let t2 := a.a0 + 4 * c.p - a.a1
  let t3 := a.a0 + a.a0
  let c0 ← redc c (t1 * t2)
  let c1 ← redc c (t3 * a.a1)
  return ⟨c0, c1⟩

/-- fp2inv (R208): the conjugate over the norm. -/
def fp2inv (c : Config) (a : Fp2) : Eng Fp2 := do
  inBound c .fp2inv a.a0
  inBound c .fp2inv a.a1
  let t0 ← fpsqr c a.a0
  let t1 ← fpsqr c a.a1
  let n ← fpadd c t0 t1
  let ni ← fpinv c n
  let c0 ← fpmul c a.a0 ni
  let m1 ← fpneg c a.a1
  let c1 ← fpmul c m1 ni
  return ⟨c0, c1⟩

end Sys2Proof.Machine
end

