-- ==== Sys2Proof/Machine/CurveArith.lean ====
section
/-! DEFINITION. The pure functions of 43_curve.md: doubling, tripling, their repetitions and the combined doubling and
differential addition, with the operation sequences the spec fixes. No degenerate input is detected (R230, R321). -/

namespace Sys2Proof.Machine

/-- xdbl (R231). -/
def xdbl (c : Config) (P : Pt) (a24plus c24 : Fp2) : Eng Pt := do
  let t0 ← fp2sub c P.x P.z
  let t1 ← fp2add c P.x P.z
  let t0 ← fp2sqr c t0
  let t1 ← fp2sqr c t1
  let z2 ← fp2mul c c24 t0
  let x2 ← fp2mul c t1 z2
  let t1 ← fp2sub c t1 t0
  let t0 ← fp2mul c a24plus t1
  let z2 ← fp2add c z2 t0
  let z2 ← fp2mul c z2 t1
  return ⟨x2, z2⟩

/-- xdble: e doublings (R232). -/
def xdble (c : Config) (P : Pt) (a24plus c24 : Fp2) : Nat → Eng Pt
  | 0 => return P
  | e + 1 => do
    let P ← xdbl c P a24plus c24
    xdble c P a24plus c24 e

/-- xtpl (R233). -/
def xtpl (c : Config) (P : Pt) (a24minus a24plus : Fp2) : Eng Pt := do
  let t0 ← fp2sub c P.x P.z
  let t2 ← fp2sqr c t0
  let t1 ← fp2add c P.x P.z
  let t3 ← fp2sqr c t1
  let t4 ← fp2add c t1 t0
  let t0 ← fp2sub c t1 t0
  let t1 ← fp2sqr c t4
  let t1 ← fp2sub c t1 t3
  let t1 ← fp2sub c t1 t2
  let t5 ← fp2mul c t3 a24plus
  let t3 ← fp2mul c t5 t3
  let t6 ← fp2mul c t2 a24minus
  let t2 ← fp2mul c t2 t6
  let t3 ← fp2sub c t2 t3
  let t2 ← fp2sub c t5 t6
  let t1 ← fp2mul c t2 t1
  let t2 ← fp2add c t3 t1
  let t2 ← fp2sqr c t2
  let x3 ← fp2mul c t4 t2
  let t1 ← fp2sub c t3 t1
  let t1 ← fp2sqr c t1
  let z3 ← fp2mul c t0 t1
  return ⟨x3, z3⟩

/-- xtple: e triplings (R234). -/
def xtple (c : Config) (P : Pt) (a24minus a24plus : Fp2) : Nat → Eng Pt
  | 0 => return P
  | e + 1 => do
    let P ← xtpl c P a24minus a24plus
    xtple c P a24minus a24plus e

/-- xdbladd (R235): (2P, P + Q). -/
def xdbladd (c : Config) (P Q : Pt) (xPQ a24 : Fp2) : Eng (Pt × Pt) := do
  let t0 ← fp2add c P.x P.z
  let t1 ← fp2sub c P.x P.z
  let xP ← fp2sqr c t0
  let t2 ← fp2sub c Q.x Q.z
  let t2 ← fp2corr c t2
  let xQ ← fp2add c Q.x Q.z
  let t0 ← fp2mul c t0 t2
  let zP ← fp2sqr c t1
  let t1 ← fp2mul c t1 xQ
  let t2 ← fp2sub c xP zP
  let xP ← fp2mul c xP zP
  let xQ ← fp2mul c t2 a24
  let zQ ← fp2sub c t0 t1
  let zP ← fp2add c xQ zP
  let xQ ← fp2add c t0 t1
  let zP ← fp2mul c zP t2
  let zQ ← fp2sqr c zQ
  let xQ ← fp2sqr c xQ
  let zQ ← fp2mul c zQ xPQ
  return (⟨xP, zP⟩, ⟨xQ, zQ⟩)

end Sys2Proof.Machine
end

