-- ==== Sys2Proof/Machine/Curve.lean ====
section
/-! DEFINITION. The curve commands (43_curve.md, R231 to R235), with CV0 and CV1 as implicit sources. -/

namespace Sys2Proof.Machine

/-- Doubling (R231). -/
def xDblRule (rd rs1 : RegNum) : Rule :=
  { srcs := regsP rs1 ++ regsQ cv0 ++ regsQ cv1
    dsts := regsP rd
    body := fun c l => do
      let t ← xdbl c (l.rP rs1) (l.rQ cv0) (l.rQ cv1)
      return t.parts }

/-- XDBL (R231). -/
def execXDbl (rd rs1 : RegNum) (s : State) : Host.Outcome State Fault Refusal :=
  runCommand (.xDbl rd rs1) (xDblRule rd rs1) s

/-- Repeated doubling (R232). -/
def xDbleRule (rd rs1 : RegNum) (imm : Imm12) : Rule :=
  { srcs := regsP rs1 ++ regsQ cv0 ++ regsQ cv1
    dsts := regsP rd
    body := fun c l => do
      let t ← xdble c (l.rP rs1) (l.rQ cv0) (l.rQ cv1) imm.toNat
      return t.parts }

/-- XDBLE (R232). -/
def execXDble (rd rs1 : RegNum) (imm : Imm12) (s : State) : Host.Outcome State Fault Refusal :=
  runCommand (.xDble rd rs1 imm) (xDbleRule rd rs1 imm) s

/-- Tripling: A24minus is CV1 and A24plus CV0 (R233). -/
def xTplRule (rd rs1 : RegNum) : Rule :=
  { srcs := regsP rs1 ++ regsQ cv1 ++ regsQ cv0
    dsts := regsP rd
    body := fun c l => do
      let t ← xtpl c (l.rP rs1) (l.rQ cv1) (l.rQ cv0)
      return t.parts }

/-- XTPL (R233). -/
def execXTpl (rd rs1 : RegNum) (s : State) : Host.Outcome State Fault Refusal :=
  runCommand (.xTpl rd rs1) (xTplRule rd rs1) s

/-- Repeated tripling (R234). -/
def xTpleRule (rd rs1 : RegNum) (imm : Imm12) : Rule :=
  { srcs := regsP rs1 ++ regsQ cv1 ++ regsQ cv0
    dsts := regsP rd
    body := fun c l => do
      let t ← xtple c (l.rP rs1) (l.rQ cv1) (l.rQ cv0) imm.toNat
      return t.parts }

/-- XTPLE (R234). -/
def execXTple (rd rs1 : RegNum) (imm : Imm12) (s : State) : Host.Outcome State Fault Refusal :=
  runCommand (.xTple rd rs1 imm) (xTpleRule rd rs1 imm) s

/-- Doubling of Pt(rd) and differential addition into Pt(rs1) (R235). -/
def xDblAddRule (rd rs1 rs2 rs3 : RegNum) : Rule :=
  { srcs := regsP rd ++ regsP rs1 ++ regsQ rs2 ++ regsQ rs3
    dsts := regsP rd ++ regsP rs1
    body := fun c l => do
      let (t, u) ← xdbladd c (l.rP rd) (l.rP rs1) (l.rQ rs2) (l.rQ rs3)
      return t.parts ++ u.parts }

/-- XDBLADD (R235). -/
def execXDblAdd (rd rs1 rs2 rs3 : RegNum) (s : State) : Host.Outcome State Fault Refusal :=
  runCommand (.xDblAdd rd rs1 rs2 rs3) (xDblAddRule rd rs1 rs2 rs3) s

end Sys2Proof.Machine
end

