-- ==== Sys2Proof/Machine/Fp.lean ====
section
/-! DEFINITION. The Fp commands (41_fp.md, R161 to R175). -/

namespace Sys2Proof.Machine

/-- Modular addition (R161). -/
def fpAddRule (rd rs1 rs2 : RegNum) : Rule :=
  { srcs := [.e rs1, .e rs2]
    dsts := [.e rd]
    body := fun c l => do
      let v ← fpadd c (l.rE rs1) (l.rE rs2)
      return [v] }

/-- FP_ADD (R161). -/
def execFpAdd (rd rs1 rs2 : RegNum) (s : State) : Host.Outcome State Fault Refusal :=
  runCommand (.fpAdd rd rs1 rs2) (fpAddRule rd rs1 rs2) s

/-- Modular subtraction (R162). -/
def fpSubRule (rd rs1 rs2 : RegNum) : Rule :=
  { srcs := [.e rs1, .e rs2]
    dsts := [.e rd]
    body := fun c l => do
      let v ← fpsub c (l.rE rs1) (l.rE rs2)
      return [v] }

/-- FP_SUB (R162). -/
def execFpSub (rd rs1 rs2 : RegNum) (s : State) : Host.Outcome State Fault Refusal :=
  runCommand (.fpSub rd rs1 rs2) (fpSubRule rd rs1 rs2) s

/-- Modular negation (R163). -/
def fpNegRule (rd rs1 : RegNum) : Rule :=
  { srcs := [.e rs1]
    dsts := [.e rd]
    body := fun c l => do
      let v ← fpneg c (l.rE rs1)
      return [v] }

/-- FP_NEG (R163). -/
def execFpNeg (rd rs1 : RegNum) (s : State) : Host.Outcome State Fault Refusal :=
  runCommand (.fpNeg rd rs1) (fpNegRule rd rs1) s

/-- Modular halving (R164). -/
def fpDiv2Rule (rd rs1 : RegNum) : Rule :=
  { srcs := [.e rs1]
    dsts := [.e rd]
    body := fun c l => do
      let v ← fpdiv2 c (l.rE rs1)
      return [v] }

/-- FP_DIV2 (R164). -/
def execFpDiv2 (rd rs1 : RegNum) (s : State) : Host.Outcome State Fault Refusal :=
  runCommand (.fpDiv2 rd rs1) (fpDiv2Rule rd rs1) s

/-- Correction to the canonical representative (R165). -/
def fpCorrRule (rd rs1 : RegNum) : Rule :=
  { srcs := [.e rs1]
    dsts := [.e rd]
    body := fun c l => do
      let v ← fpcorr c (l.rE rs1)
      return [v] }

/-- FP_CORR (R165). -/
def execFpCorr (rd rs1 : RegNum) (s : State) : Host.Outcome State Fault Refusal :=
  runCommand (.fpCorr rd rs1) (fpCorrRule rd rs1) s

/-- Montgomery multiplication (R166). -/
def fpMulRule (rd rs1 rs2 : RegNum) : Rule :=
  { srcs := [.e rs1, .e rs2]
    dsts := [.e rd]
    body := fun c l => do
      let v ← fpmul c (l.rE rs1) (l.rE rs2)
      return [v] }

/-- FP_MUL (R166). -/
def execFpMul (rd rs1 rs2 : RegNum) (s : State) : Host.Outcome State Fault Refusal :=
  runCommand (.fpMul rd rs1 rs2) (fpMulRule rd rs1 rs2) s

/-- Montgomery squaring (R167). -/
def fpSqrRule (rd rs1 : RegNum) : Rule :=
  { srcs := [.e rs1]
    dsts := [.e rd]
    body := fun c l => do
      let v ← fpsqr c (l.rE rs1)
      return [v] }

/-- FP_SQR (R167). -/
def execFpSqr (rd rs1 : RegNum) (s : State) : Host.Outcome State Fault Refusal :=
  runCommand (.fpSqr rd rs1) (fpSqrRule rd rs1) s

/-- Montgomery-domain inversion (R169). -/
def fpInvRule (rd rs1 : RegNum) : Rule :=
  { srcs := [.e rs1]
    dsts := [.e rd]
    body := fun c l => do
      let v ← fpinv c (l.rE rs1)
      return [v] }

/-- FP_INV (R169). -/
def execFpInv (rd rs1 : RegNum) (s : State) : Host.Outcome State Fault Refusal :=
  runCommand (.fpInv rd rs1) (fpInvRule rd rs1) s

/-- Conversion into the Montgomery domain (R170). -/
def fpToMontRule (rd rs1 : RegNum) : Rule :=
  { srcs := [.e rs1]
    dsts := [.e rd]
    body := fun c l => do
      let v ← tomont c (l.rE rs1)
      return [v] }

/-- FP_TOMONT (R170). -/
def execFpToMont (rd rs1 : RegNum) (s : State) : Host.Outcome State Fault Refusal :=
  runCommand (.fpToMont rd rs1) (fpToMontRule rd rs1) s

/-- Conversion out of the Montgomery domain (R171). -/
def fpFromMontRule (rd rs1 : RegNum) : Rule :=
  { srcs := [.e rs1]
    dsts := [.e rd]
    body := fun c l => do
      let v ← frommont c (l.rE rs1)
      return [v] }

/-- FP_FROMMONT (R171). -/
def execFpFromMont (rd rs1 : RegNum) (s : State) : Host.Outcome State Fault Refusal :=
  runCommand (.fpFromMont rd rs1) (fpFromMontRule rd rs1) s

/-- Register copy, without a bound check (R172). -/
def fpMovRule (rd rs1 : RegNum) : Rule :=
  { srcs := [.e rs1]
    dsts := [.e rd]
    body := fun _ l => return [l.rE rs1] }

/-- FP_MOV (R172). -/
def execFpMov (rd rs1 : RegNum) (s : State) : Host.Outcome State Fault Refusal :=
  runCommand (.fpMov rd rs1) (fpMovRule rd rs1) s

/-- Load of a ROM constant (R173). -/
def fpLdcRule (rd k : RegNum) : Rule :=
  { srcs := []
    dsts := [.e rd]
    body := fun c _ => return [c.rom k.toNat] }

/-- FP_LDC (R173). -/
def execFpLdc (rd k : RegNum) (s : State) : Host.Outcome State Fault Refusal :=
  runCommand (.fpLdc rd k) (fpLdcRule rd k) s

/-- Constant-time select on bit 0 of the selector (R174). All three sources are read, the chosen and the unchosen. Which of
several unwritten ones UnwrittenRead names the spec leaves open (R322 gives no order): here it is the first in the order in
which the pseudocode mentions them, E[rs3], E[rs1], E[rs2], which is the model's choice (log entry 18). -/
def fpSelRule (rd rs1 rs2 rs3 : RegNum) : Rule :=
  { srcs := [.e rs3, .e rs1, .e rs2]
    dsts := [.e rd]
    body := fun _ l => return [if l.rE rs3 % 2 == 1 then l.rE rs1 else l.rE rs2] }

/-- FP_SEL (R174). -/
def execFpSel (rd rs1 rs2 rs3 : RegNum) (s : State) : Host.Outcome State Fault Refusal :=
  runCommand (.fpSel rd rs1 rs2 rs3) (fpSelRule rd rs1 rs2 rs3) s

/-- One bit of the secret scalar (R175). -/
def skBitRule (rd : RegNum) (imm : Imm12) : Rule :=
  { srcs := [.sk]
    dsts := [.e rd]
    body := fun _ l => return [(l.rSK.testBit imm.toNat).toNat] }

/-- SK_BIT (R175). -/
def execSkBit (rd : RegNum) (imm : Imm12) (s : State) : Host.Outcome State Fault Refusal :=
  runCommand (.skBit rd imm) (skBitRule rd imm) s

end Sys2Proof.Machine
end

