-- ==== Sys2Proof/Machine/Fp2Ops.lean ====
section
/-! DEFINITION. The Fp² commands (42_fp2.md, R201 to R212). -/

namespace Sys2Proof.Machine

/-- Fp² addition (R201). -/
def fp2AddRule (rd rs1 rs2 : RegNum) : Rule :=
  { srcs := regsQ rs1 ++ regsQ rs2
    dsts := regsQ rd
    body := fun c l => do
      let v ← fp2add c (l.rQ rs1) (l.rQ rs2)
      return v.parts }

/-- FP2_ADD (R201). -/
def execFp2Add (rd rs1 rs2 : RegNum) (s : State) : Host.Outcome State Fault Refusal :=
  runCommand (.fp2Add rd rs1 rs2) (fp2AddRule rd rs1 rs2) s

/-- Fp² subtraction (R202). -/
def fp2SubRule (rd rs1 rs2 : RegNum) : Rule :=
  { srcs := regsQ rs1 ++ regsQ rs2
    dsts := regsQ rd
    body := fun c l => do
      let v ← fp2sub c (l.rQ rs1) (l.rQ rs2)
      return v.parts }

/-- FP2_SUB (R202). -/
def execFp2Sub (rd rs1 rs2 : RegNum) (s : State) : Host.Outcome State Fault Refusal :=
  runCommand (.fp2Sub rd rs1 rs2) (fp2SubRule rd rs1 rs2) s

/-- Fp² negation (R203). -/
def fp2NegRule (rd rs1 : RegNum) : Rule :=
  { srcs := regsQ rs1
    dsts := regsQ rd
    body := fun c l => do
      let v ← fp2neg c (l.rQ rs1)
      return v.parts }

/-- FP2_NEG (R203). -/
def execFp2Neg (rd rs1 : RegNum) (s : State) : Host.Outcome State Fault Refusal :=
  runCommand (.fp2Neg rd rs1) (fp2NegRule rd rs1) s

/-- Fp² halving (R204). -/
def fp2Div2Rule (rd rs1 : RegNum) : Rule :=
  { srcs := regsQ rs1
    dsts := regsQ rd
    body := fun c l => do
      let v ← fp2div2 c (l.rQ rs1)
      return v.parts }

/-- FP2_DIV2 (R204). -/
def execFp2Div2 (rd rs1 : RegNum) (s : State) : Host.Outcome State Fault Refusal :=
  runCommand (.fp2Div2 rd rs1) (fp2Div2Rule rd rs1) s

/-- Fp² correction (R207). -/
def fp2CorrRule (rd rs1 : RegNum) : Rule :=
  { srcs := regsQ rs1
    dsts := regsQ rd
    body := fun c l => do
      let v ← fp2corr c (l.rQ rs1)
      return v.parts }

/-- FP2_CORR (R207). -/
def execFp2Corr (rd rs1 : RegNum) (s : State) : Host.Outcome State Fault Refusal :=
  runCommand (.fp2Corr rd rs1) (fp2CorrRule rd rs1) s

/-- Fp² Montgomery multiplication (R205). -/
def fp2MulRule (rd rs1 rs2 : RegNum) : Rule :=
  { srcs := regsQ rs1 ++ regsQ rs2
    dsts := regsQ rd
    body := fun c l => do
      let v ← fp2mul c (l.rQ rs1) (l.rQ rs2)
      return v.parts }

/-- FP2_MUL (R205). -/
def execFp2Mul (rd rs1 rs2 : RegNum) (s : State) : Host.Outcome State Fault Refusal :=
  runCommand (.fp2Mul rd rs1 rs2) (fp2MulRule rd rs1 rs2) s

/-- Fp² Montgomery squaring (R206). -/
def fp2SqrRule (rd rs1 : RegNum) : Rule :=
  { srcs := regsQ rs1
    dsts := regsQ rd
    body := fun c l => do
      let v ← fp2sqr c (l.rQ rs1)
      return v.parts }

/-- FP2_SQR (R206). -/
def execFp2Sqr (rd rs1 : RegNum) (s : State) : Host.Outcome State Fault Refusal :=
  runCommand (.fp2Sqr rd rs1) (fp2SqrRule rd rs1) s

/-- Fp² inversion (R208). -/
def fp2InvRule (rd rs1 : RegNum) : Rule :=
  { srcs := regsQ rs1
    dsts := regsQ rd
    body := fun c l => do
      let v ← fp2inv c (l.rQ rs1)
      return v.parts }

/-- FP2_INV (R208). -/
def execFp2Inv (rd rs1 : RegNum) (s : State) : Host.Outcome State Fault Refusal :=
  runCommand (.fp2Inv rd rs1) (fp2InvRule rd rs1) s

/-- Fp² conversion into the Montgomery domain (R209). -/
def fp2ToMontRule (rd rs1 : RegNum) : Rule :=
  { srcs := regsQ rs1
    dsts := regsQ rd
    body := fun c l => do
      let v ← fp2tomont c (l.rQ rs1)
      return v.parts }

/-- FP2_TOMONT (R209). -/
def execFp2ToMont (rd rs1 : RegNum) (s : State) : Host.Outcome State Fault Refusal :=
  runCommand (.fp2ToMont rd rs1) (fp2ToMontRule rd rs1) s

/-- Fp² conversion out of the Montgomery domain (R210). -/
def fp2FromMontRule (rd rs1 : RegNum) : Rule :=
  { srcs := regsQ rs1
    dsts := regsQ rd
    body := fun c l => do
      let v ← fp2frommont c (l.rQ rs1)
      return v.parts }

/-- FP2_FROMMONT (R210). -/
def execFp2FromMont (rd rs1 : RegNum) (s : State) : Host.Outcome State Fault Refusal :=
  runCommand (.fp2FromMont rd rs1) (fp2FromMontRule rd rs1) s

/-- Fp² register copy, without a bound check (R211). -/
def fp2MovRule (rd rs1 : RegNum) : Rule :=
  { srcs := regsQ rs1
    dsts := regsQ rd
    body := fun _ l => return (l.rQ rs1).parts }

/-- FP2_MOV (R211). -/
def execFp2Mov (rd rs1 : RegNum) (s : State) : Host.Outcome State Fault Refusal :=
  runCommand (.fp2Mov rd rs1) (fp2MovRule rd rs1) s

/-- Constant-time Fp² select on bit 0 of the selector (R212). All five sources are read, the chosen and the unchosen. Which of
several unwritten ones UnwrittenRead names the spec leaves open (R322 gives no order): here it is the first in the order in
which the pseudocode mentions them, the selector E[rs3], then Q(rs1), then Q(rs2), which is the model's choice (log entry 18). -/
def fp2SelRule (rd rs1 rs2 rs3 : RegNum) : Rule :=
  { srcs := [.e rs3] ++ regsQ rs1 ++ regsQ rs2
    dsts := regsQ rd
    body := fun _ l => return (if l.rE rs3 % 2 == 1 then l.rQ rs1 else l.rQ rs2).parts }

/-- FP2_SEL (R212). -/
def execFp2Sel (rd rs1 rs2 rs3 : RegNum) (s : State) : Host.Outcome State Fault Refusal :=
  runCommand (.fp2Sel rd rs1 rs2 rs3) (fp2SelRule rd rs1 rs2 rs3) s

end Sys2Proof.Machine
end

