-- ==== Sys2Proof/Machine/IsogenyArith.lean ====
section
/-! DEFINITION. The pure functions of 44_isogeny.md: construction and evaluation of isogenies of degree 4, 3 and 2, and the
support functions. A construction returns the codomain's pair and the coefficient tuple. -/

namespace Sys2Proof.Machine

/-- The coefficient tuple of a 4-isogeny (R38). -/
structure Coeffs4 where
  c0 : Fp2
  c1 : Fp2
  c2 : Fp2
deriving DecidableEq, Repr

/-- The coefficient tuple of a 3-isogeny or of a 2-isogeny (R38). -/
structure Coeffs2 where
  c0 : Fp2
  c1 : Fp2
deriving DecidableEq, Repr

/-- get4 (R250): (A24plus, C24, coeff). -/
def get4 (c : Config) (K : Pt) : Eng (Fp2 × Fp2 × Coeffs4) := do
  let c1 ← fp2sub c K.x K.z
  let c2 ← fp2add c K.x K.z
  let c0 ← fp2sqr c K.z
  let c0 ← fp2add c c0 c0
  let c24 ← fp2sqr c c0
  let c0 ← fp2add c c0 c0
  let a24plus ← fp2sqr c K.x
  let a24plus ← fp2add c a24plus a24plus
  let a24plus ← fp2sqr c a24plus
  return (a24plus, c24, ⟨c0, c1, c2⟩)

/-- eval4 (R251). -/
def eval4 (c : Config) (P : Pt) (k : Coeffs4) : Eng Pt := do
  let t0 ← fp2add c P.x P.z
  let t1 ← fp2sub c P.x P.z
  let x ← fp2mul c t0 k.c1
  let z ← fp2mul c t1 k.c2
  let t0 ← fp2mul c t0 t1
  let t0 ← fp2mul c t0 k.c0
  let t1 ← fp2add c x z
  let z ← fp2sub c x z
  let t1 ← fp2sqr c t1
  let z ← fp2sqr c z
  let x ← fp2add c t1 t0
  let t0 ← fp2sub c z t0
  let x ← fp2mul c x t1
  let z ← fp2mul c z t0
  return ⟨x, z⟩

/-- get3 (R254): (A24plus, A24minus, coeff). -/
def get3 (c : Config) (K : Pt) : Eng (Fp2 × Fp2 × Coeffs2) := do
  let c0 ← fp2sub c K.x K.z
  let t0 ← fp2sqr c c0
  let c1 ← fp2add c K.x K.z
  let t1 ← fp2sqr c c1
  let t2 ← fp2add c t0 t1
  let t3 ← fp2add c c0 c1
  let t3 ← fp2sqr c t3
  let t3 ← fp2sub c t3 t2
  let t2 ← fp2add c t1 t3
  let t3 ← fp2add c t3 t0
  let t4 ← fp2add c t0 t3
  let t4 ← fp2add c t4 t4
  let t4 ← fp2add c t1 t4
  let a24minus ← fp2mul c t2 t4
  let t4 ← fp2add c t1 t2
  let t4 ← fp2add c t4 t4
  let t4 ← fp2add c t0 t4
  let a24plus ← fp2mul c t3 t4
  return (a24plus, a24minus, ⟨c0, c1⟩)

/-- eval3 (R255). -/
def eval3 (c : Config) (P : Pt) (k : Coeffs2) : Eng Pt := do
  let t0 ← fp2add c P.x P.z
  let t1 ← fp2sub c P.x P.z
  let t0 ← fp2mul c t0 k.c0
  let t1 ← fp2mul c t1 k.c1
  let t2 ← fp2add c t0 t1
  let t0 ← fp2sub c t1 t0
  let t2 ← fp2sqr c t2
  let t0 ← fp2sqr c t0
  let x ← fp2mul c P.x t2
  let z ← fp2mul c P.z t0
  return ⟨x, z⟩

/-- get2 (R258): (A24plus, C24, the kernel). -/
def get2 (c : Config) (K : Pt) : Eng (Fp2 × Fp2 × Coeffs2) := do
  let a ← fp2sqr c K.x
  let d ← fp2sqr c K.z
  let a ← fp2sub c d a
  return (a, d, ⟨K.x, K.z⟩)

/-- eval2 (R259). -/
def eval2 (c : Config) (P : Pt) (k : Coeffs2) : Eng Pt := do
  let t0 ← fp2add c k.c0 k.c1
  let t1 ← fp2sub c k.c0 k.c1
  let t2 ← fp2add c P.x P.z
  let t3 ← fp2sub c P.x P.z
  let t0 ← fp2mul c t0 t3
  let t1 ← fp2mul c t1 t2
  let t2 ← fp2add c t0 t1
  let t3 ← fp2sub c t0 t1
  let x ← fp2mul c P.x t2
  let z ← fp2mul c P.z t3
  return ⟨x, z⟩

/-- inv3way (R262). -/
def inv3way (c : Config) (z1 z2 z3 : Fp2) : Eng (Fp2 × Fp2 × Fp2) := do
  let t0 ← fp2mul c z1 z2
  let t1 ← fp2mul c z3 t0
  let t1 ← fp2inv c t1
  let t2 ← fp2mul c z3 t1
  let t3 ← fp2mul c t2 z2
  let n2 ← fp2mul c t2 z1
  let n3 ← fp2mul c t0 t1
  return (t3, n2, n3)

/-- geta (R264). -/
def geta (c : Config) (xP xQ xR : Fp2) : Eng Fp2 := do
  let t1 ← fp2add c xP xQ
  let t0 ← fp2mul c xP xQ
  let a ← fp2mul c xR t1
  let a ← fp2add c t0 a
  let t0 ← fp2mul c t0 xR
  let a ← fp2sub c a c.one2
  let t0 ← fp2add c t0 t0
  let t1 ← fp2add c t1 xR
  let t0 ← fp2add c t0 t0
  let a ← fp2sqr c a
  let t0 ← fp2inv c t0
  let a ← fp2mul c a t0
  fp2sub c a t1

/-- jinv (R266). -/
def jinv (c : Config) (a d : Fp2) : Eng Fp2 := do
  let j ← fp2sqr c a
  let t1 ← fp2sqr c d
  let t0 ← fp2add c t1 t1
  let t0 ← fp2sub c j t0
  let t0 ← fp2sub c t0 t1
  let j ← fp2sub c t0 t1
  let t1 ← fp2sqr c t1
  let j ← fp2mul c j t1
  let t0 ← fp2add c t0 t0
  let t0 ← fp2add c t0 t0
  let t1 ← fp2sqr c t0
  let t0 ← fp2mul c t0 t1
  let t0 ← fp2add c t0 t0
  let t0 ← fp2add c t0 t0
  let j ← fp2inv c j
  fp2mul c j t0

end Sys2Proof.Machine
end

