-- ==== Sys2Proof/Machine/Isogeny.lean ====
section
/-! DEFINITION. The isogeny and support commands (44_isogeny.md, R250 to R266). GET writes CV0, CV1 and the COEF registers (R36 to
R38), which EVAL reads. -/

namespace Sys2Proof.Machine

/-- Construction of a 4-isogeny (R250). -/
def get4Rule (rs1 : RegNum) : Rule :=
  { srcs := regsP rs1
    dsts := regsQ cv0 ++ regsQ cv1 ++ regsQ coef0 ++ regsQ coef1 ++ regsQ coef2
    body := fun c l => do
      let (a, d, k) ← get4 c (l.rP rs1)
      return a.parts ++ d.parts ++ k.c0.parts ++ k.c1.parts ++ k.c2.parts }

/-- GET4 (R250). -/
def execGet4 (rs1 : RegNum) (s : State) : Host.Outcome State Fault Refusal :=
  runCommand (.get4 rs1) (get4Rule rs1) s

/-- Evaluation of the current 4-isogeny (R251). -/
def eval4Rule (rd : RegNum) : Rule :=
  { srcs := regsP rd ++ regsQ coef0 ++ regsQ coef1 ++ regsQ coef2
    dsts := regsP rd
    body := fun c l => do
      let t ← eval4 c (l.rP rd) ⟨l.rQ coef0, l.rQ coef1, l.rQ coef2⟩
      return t.parts }

/-- EVAL4 (R251). -/
def execEval4 (rd : RegNum) (s : State) : Host.Outcome State Fault Refusal :=
  runCommand (.eval4 rd) (eval4Rule rd) s

/-- Construction of a 3-isogeny; COEF2 is not written (R254). -/
def get3Rule (rs1 : RegNum) : Rule :=
  { srcs := regsP rs1
    dsts := regsQ cv0 ++ regsQ cv1 ++ regsQ coef0 ++ regsQ coef1
    body := fun c l => do
      let (a, d, k) ← get3 c (l.rP rs1)
      return a.parts ++ d.parts ++ k.c0.parts ++ k.c1.parts }

/-- GET3 (R254). -/
def execGet3 (rs1 : RegNum) (s : State) : Host.Outcome State Fault Refusal :=
  runCommand (.get3 rs1) (get3Rule rs1) s

/-- Evaluation of the current 3-isogeny (R255). -/
def eval3Rule (rd : RegNum) : Rule :=
  { srcs := regsP rd ++ regsQ coef0 ++ regsQ coef1
    dsts := regsP rd
    body := fun c l => do
      let t ← eval3 c (l.rP rd) ⟨l.rQ coef0, l.rQ coef1⟩
      return t.parts }

/-- EVAL3 (R255). -/
def execEval3 (rd : RegNum) (s : State) : Host.Outcome State Fault Refusal :=
  runCommand (.eval3 rd) (eval3Rule rd) s

/-- Construction of a 2-isogeny; COEF2 is not written (R258). -/
def get2Rule (rs1 : RegNum) : Rule :=
  { srcs := regsP rs1
    dsts := regsQ cv0 ++ regsQ cv1 ++ regsQ coef0 ++ regsQ coef1
    body := fun c l => do
      let (a, d, k) ← get2 c (l.rP rs1)
      return a.parts ++ d.parts ++ k.c0.parts ++ k.c1.parts }

/-- GET2 (R258). -/
def execGet2 (rs1 : RegNum) (s : State) : Host.Outcome State Fault Refusal :=
  runCommand (.get2 rs1) (get2Rule rs1) s

/-- Evaluation of the current 2-isogeny (R259). -/
def eval2Rule (rd : RegNum) : Rule :=
  { srcs := regsP rd ++ regsQ coef0 ++ regsQ coef1
    dsts := regsP rd
    body := fun c l => do
      let t ← eval2 c (l.rP rd) ⟨l.rQ coef0, l.rQ coef1⟩
      return t.parts }

/-- EVAL2 (R259). -/
def execEval2 (rd : RegNum) (s : State) : Host.Outcome State Fault Refusal :=
  runCommand (.eval2 rd) (eval2Rule rd) s

/-- Three Fp² inversions for the cost of one (R262). -/
def inv3WayRule (rs1 rs2 rs3 : RegNum) : Rule :=
  { srcs := regsQ rs1 ++ regsQ rs2 ++ regsQ rs3
    dsts := regsQ rs1 ++ regsQ rs2 ++ regsQ rs3
    body := fun c l => do
      let (r1, r2, r3) ← inv3way c (l.rQ rs1) (l.rQ rs2) (l.rQ rs3)
      return r1.parts ++ r2.parts ++ r3.parts }

/-- INV3WAY (R262). -/
def execInv3Way (rs1 rs2 rs3 : RegNum) (s : State) : Host.Outcome State Fault Refusal :=
  runCommand (.inv3Way rs1 rs2 rs3) (inv3WayRule rs1 rs2 rs3) s

/-- Recovery of the curve coefficient (R264). -/
def getARule (rd rs1 rs2 rs3 : RegNum) : Rule :=
  { srcs := regsQ rs1 ++ regsQ rs2 ++ regsQ rs3
    dsts := regsQ rd
    body := fun c l => do
      let v ← geta c (l.rQ rs1) (l.rQ rs2) (l.rQ rs3)
      return v.parts }

/-- GETA (R264). -/
def execGetA (rd rs1 rs2 rs3 : RegNum) (s : State) : Host.Outcome State Fault Refusal :=
  runCommand (.getA rd rs1 rs2 rs3) (getARule rd rs1 rs2 rs3) s

/-- The j-invariant (R266). -/
def jInvRule (rd rs1 rs2 : RegNum) : Rule :=
  { srcs := regsQ rs1 ++ regsQ rs2
    dsts := regsQ rd
    body := fun c l => do
      let v ← jinv c (l.rQ rs1) (l.rQ rs2)
      return v.parts }

/-- JINV (R266). -/
def execJInv (rd rs1 rs2 : RegNum) (s : State) : Host.Outcome State Fault Refusal :=
  runCommand (.jInv rd rs1 rs2) (jInvRule rd rs1 rs2) s

end Sys2Proof.Machine
end

