-- ==== Sys2Proof/Machine/Limb.lean ====
section
/-! DEFINITION. NOP (R109) and the limb commands (40_limb.md, R141 to R145 and R152). -/

namespace Sys2Proof.Machine

/-- NOP reads and writes no register (R109). -/
def nopRule : Rule :=
  { srcs := []
    dsts := []
    body := fun _ _ => return [] }

/-- NOP (R109). -/
def execNop (s : State) : Host.Outcome State Fault Refusal :=
  runCommand .nop nopRule s

/-- Integer addition of two E registers; the sum stays below R (R141). -/
def mpAddRule (rd rs1 rs2 : RegNum) : Rule :=
  { srcs := [.e rs1, .e rs2]
    dsts := [.e rd]
    body := fun c l => do
      let sum := l.rE rs1 + l.rE rs2
      require .mpAdd (sum < c.r)
      return [sum] }

/-- MP_ADD (R141). -/
def execMpAdd (rd rs1 rs2 : RegNum) (s : State) : Host.Outcome State Fault Refusal :=
  runCommand (.mpAdd rd rs1 rs2) (mpAddRule rd rs1 rs2) s

/-- Integer subtraction of two E registers; the difference is not negative (R142). -/
def mpSubRule (rd rs1 rs2 : RegNum) : Rule :=
  { srcs := [.e rs1, .e rs2]
    dsts := [.e rd]
    body := fun _ l => do
      require .mpSub (l.rE rs2 ≤ l.rE rs1)
      return [l.rE rs1 - l.rE rs2] }

/-- MP_SUB (R142). -/
def execMpSub (rd rs1 rs2 : RegNum) (s : State) : Host.Outcome State Fault Refusal :=
  runCommand (.mpSub rd rs1 rs2) (mpSubRule rd rs1 rs2) s

/-- The full product of two E registers (R143). -/
def mpMulRule (rd rs1 rs2 : RegNum) : Rule :=
  { srcs := [.e rs1, .e rs2]
    dsts := [.d rd]
    body := fun _ l => return [l.rE rs1 * l.rE rs2] }

/-- MP_MUL (R143). -/
def execMpMul (rd rs1 rs2 : RegNum) (s : State) : Host.Outcome State Fault Refusal :=
  runCommand (.mpMul rd rs1 rs2) (mpMulRule rd rs1 rs2) s

/-- Montgomery reduction of a D register (R152). -/
def mpRdcRule (rd rs1 : RegNum) : Rule :=
  { srcs := [.d rs1]
    dsts := [.e rd]
    body := fun c l => do
      let t ← redc c (l.rD rs1)
      return [t] }

/-- MP_RDC (R152). -/
def execMpRdc (rd rs1 : RegNum) (s : State) : Host.Outcome State Fault Refusal :=
  runCommand (.mpRdc rd rs1) (mpRdcRule rd rs1) s

/-- Addition of two D registers; the sum stays below R² (R144). -/
def mpDaddRule (rd rs1 rs2 : RegNum) : Rule :=
  { srcs := [.d rs1, .d rs2]
    dsts := [.d rd]
    body := fun c l => do
      let sum := l.rD rs1 + l.rD rs2
      require .mpDadd (sum < c.r * c.r)
      return [sum] }

/-- MP_DADD (R144). -/
def execMpDadd (rd rs1 rs2 : RegNum) (s : State) : Host.Outcome State Fault Refusal :=
  runCommand (.mpDadd rd rs1 rs2) (mpDaddRule rd rs1 rs2) s

/-- Subtraction of two D registers; the difference is not negative (R145). -/
def mpDsubRule (rd rs1 rs2 : RegNum) : Rule :=
  { srcs := [.d rs1, .d rs2]
    dsts := [.d rd]
    body := fun _ l => do
      require .mpDsub (l.rD rs2 ≤ l.rD rs1)
      return [l.rD rs1 - l.rD rs2] }

/-- MP_DSUB (R145). -/
def execMpDsub (rd rs1 rs2 : RegNum) (s : State) : Host.Outcome State Fault Refusal :=
  runCommand (.mpDsub rd rs1 rs2) (mpDsubRule rd rs1 rs2) s

end Sys2Proof.Machine
end

