-- ==== Sys2Proof/Machine/SequencedArith.lean ====
section
/-! DEFINITION. The pure functions of 45_sequenced.md: the three-point ladder (R281) and the strategy chain walk (R291). The
hidden state of R51 (running points and previous bit, point and index stack) is the two structures below: it is made when a
command starts and is gone when it completes. -/

namespace Sys2Proof.Machine

/-- The ladder's running points and previous bit (R51, R281). -/
structure Ladder where
  r0 : Pt
  r2 : Pt
  r : Pt
  prev : Bool
deriving DecidableEq, Repr

/-- The masked conditional swap of R and R2 (R281). -/
def Ladder.cswap (s : Ladder) (swap : Bool) : Ladder :=
  { s with r := if swap then s.r2 else s.r, r2 := if swap then s.r else s.r2 }

/-- One iteration of the ladder on the scalar bit `bit` (R281). -/
def ladderStep (c : Config) (a24 : Fp2) (bit : Bool) (s : Ladder) : Eng Ladder := do
  let s := { s.cswap (bit ^^ s.prev) with prev := bit }
  let (r0, r2) ← xdbladd c s.r0 s.r2 s.r.x a24
  let x ← fp2mul c r2.x s.r.z
  return { s with r0 := r0, r2 := { r2 with x := x } }

/-- The iterations of the ladder for bits i, i+1, … of m, the given number of them, least significant first (R281). -/
def ladderLoop (c : Config) (a24 : Fp2) (m : Nat) : Nat → Nat → Ladder → Eng Ladder
  | 0, _, s => return s
  | left + 1, i, s => do
    let s ← ladderStep c a24 (m.testBit i) s
    ladderLoop c a24 m left (i + 1) s

/-- ladder (R281). -/
def ladder (c : Config) (xP xQ xPQ a : Fp2) (m nbits : Nat) : Eng Pt := do
  let a24 ← fp2add c c.one2 c.one2
  let a24 ← fp2add c a a24
  let a24 ← fp2div2 c a24
  let a24 ← fp2div2 c a24
  let s : Ladder := { r0 := ⟨xQ, c.one2⟩, r2 := ⟨xPQ, c.one2⟩, r := ⟨xP, c.one2⟩, prev := false }
  let s ← ladderLoop c a24 m nbits 0 s
  return (s.cswap s.prev).r

/-- The functions and the configuration data the chain walk takes by party (R291): the chain length M, the strategy table,
step (kernel, CV0, CV1, strategy entry), get and eval. `κ` is the coefficient tuple of the degree. -/
structure Isogenies (κ : Type) where
  len : Nat
  strat : List Nat
  step : Pt → Fp2 → Fp2 → Nat → Eng Pt
  get : Pt → Eng (Fp2 × Fp2 × κ)
  eval : Pt → κ → Eng Pt

/-- Party A: 4-isogenies, an entry n standing for 2n doublings (R291). -/
def isogeniesA (c : Config) : Isogenies Coeffs4 :=
  { len := c.chainLenA
    strat := c.stratA
    step := fun P v0 v1 n => xdble c P v0 v1 (2 * n)
    get := get4 c
    eval := eval4 c }

/-- Party B: 3-isogenies, an entry n standing for n triplings (R291). -/
def isogeniesB (c : Config) : Isogenies Coeffs2 :=
  { len := c.chainLenB
    strat := c.stratB
    step := fun P v0 v1 n => xtple c P v1 v0 n
    get := get3 c
    eval := eval3 c }

/-- The state of the chain walk (R51, R291): the active point R with its index, the stack of points tagged with their
index, bottom first, the strategy entries left, the curve pair and the auxiliary points. -/
structure Walk where
  pt : Pt
  index : Nat
  stack : List (Pt × Nat)
  strat : List Nat
  v0 : Fp2
  v1 : Fp2
  aux : List Pt
deriving DecidableEq, Repr

/-- Evaluate an isogeny at points in order (R291). -/
def evalAll (ev : Pt → Eng Pt) : List Pt → Eng (List Pt)
  | [] => return []
  | t :: ts => do
    let u ← ev t
    let us ← evalAll ev ts
    return u :: us

/-- while index < target: push R and index, take the next strategy entry n, step n times, add n to index (R291). A
well-formed configuration's table does not end while the loop runs (R290). -/
def descend {κ : Type} (ops : Isogenies κ) (target : Nat) : List Nat → Walk → Eng Walk
  | [], v => return { v with strat := [] }
  | n :: rest, v =>
    if v.index < target then do
      let r ← ops.step v.pt v.v0 v.v1 n
      descend ops target rest { v with pt := r, index := v.index + n, stack := v.stack ++ [(v.pt, v.index)] }
    else return { v with strat := n :: rest }

/-- Construct the isogeny whose kernel is the active point and evaluate it at the stacked points, bottom to top, and then at
the auxiliary points (R291). -/
def takeIsogeny {κ : Type} (ops : Isogenies κ) (v : Walk) : Eng (Walk × κ) := do
  let (v0, v1, coeff) ← ops.get v.pt
  let pts ← evalAll (fun t => ops.eval t coeff) (v.stack.map (·.1))
  let aux ← evalAll (fun t => ops.eval t coeff) v.aux
  return ({ v with v0 := v0, v1 := v1, stack := pts.zip (v.stack.map (·.2)), aux := aux }, coeff)

/-- R = pop pts; index = pop idx (R291). The stack of a well-formed configuration is not empty here (R290). -/
def popWalk (v : Walk) : Walk :=
  match v.stack.getLast? with
  | some (t, i) => { v with pt := t, index := i, stack := v.stack.dropLast }
  | none => v

/-- The rows of the walk whose target M − row runs from m down to 1 (R291). -/
def walkRows {κ : Type} (ops : Isogenies κ) : Nat → Walk → Eng Walk
  | 0, v => return v
  | m + 1, v => do
    let v ← descend ops (m + 1) v.strat v
    let (v, _) ← takeIsogeny ops v
    walkRows ops m (popWalk v)

/-- The chain walk from its first row (R291): rows 1 to M − 1, then the last isogeny. It returns the final pair, the last
coefficients and the images of the auxiliary points. -/
def walkChain {κ : Type} (ops : Isogenies κ) (R : Pt) (v0 v1 : Fp2) (aux : List Pt) : Eng (Fp2 × Fp2 × κ × List Pt) := do
  let v ← walkRows ops (ops.len - 1)
    { pt := R, index := 0, stack := [], strat := ops.strat, v0 := v0, v1 := v1, aux := aux }
  let (v0, v1, coeff) ← ops.get v.pt
  let aux ← evalAll (fun t => ops.eval t coeff) v.aux
  return (v0, v1, coeff, aux)

/-- chain(A, …) (R291): with odd eA a leading 2-isogeny, then the walk. -/
def chainOfA (c : Config) (R : Pt) (v0 v1 : Fp2) (aux : List Pt) : Eng (Fp2 × Fp2 × Coeffs4 × List Pt) :=
  if c.eA % 2 == 1 then do
    let S ← xdble c R v0 v1 (c.eA - 1)
    let (v0, v1, coeff) ← get2 c S
    let aux ← evalAll (fun t => eval2 c t coeff) aux
    let R ← eval2 c R coeff
    walkChain (isogeniesA c) R v0 v1 aux
  else walkChain (isogeniesA c) R v0 v1 aux

/-- chain(B, …) (R291). -/
def chainOfB (c : Config) (R : Pt) (v0 v1 : Fp2) (aux : List Pt) : Eng (Fp2 × Fp2 × Coeffs2 × List Pt) :=
  walkChain (isogeniesB c) R v0 v1 aux

end Sys2Proof.Machine
end

