-- ==== Sys2Proof/Machine/Sequenced.lean ====
section
/-! DEFINITION. The sequenced commands (45_sequenced.md, R282, R283, R292, R293). -/

namespace Sys2Proof.Machine

/-- Alice's three-point ladder (R282). -/
def ladderARule (rd rs1 rs2 rs3 : RegNum) : Rule :=
  { srcs := regsQ rs1 ++ regsQ rs2 ++ regsQ rs3 ++ regsQ ca ++ [.sk]
    dsts := regsP rd
    body := fun c l => do
      let t ← ladder c (l.rQ rs1) (l.rQ rs2) (l.rQ rs3) (l.rQ ca) l.rSK c.nbA
      return t.parts }

/-- LADDER_A (R282). -/
def execLadderA (rd rs1 rs2 rs3 : RegNum) (s : State) : Host.Outcome State Fault Refusal :=
  runCommand (.ladderA rd rs1 rs2 rs3) (ladderARule rd rs1 rs2 rs3) s

/-- Bob's three-point ladder (R283). -/
def ladderBRule (rd rs1 rs2 rs3 : RegNum) : Rule :=
  { srcs := regsQ rs1 ++ regsQ rs2 ++ regsQ rs3 ++ regsQ ca ++ [.sk]
    dsts := regsP rd
    body := fun c l => do
      let t ← ladder c (l.rQ rs1) (l.rQ rs2) (l.rQ rs3) (l.rQ ca) l.rSK c.nbB
      return t.parts }

/-- LADDER_B (R283). -/
def execLadderB (rd rs1 rs2 rs3 : RegNum) (s : State) : Host.Outcome State Fault Refusal :=
  runCommand (.ladderB rd rs1 rs2 rs3) (ladderBRule rd rs1 rs2 rs3) s

/-- Alice's isogeny chain (R292). -/
def chainARule (rd rs1 : RegNum) (aux : Bool) : Rule :=
  { srcs := regsAux aux rd ++ regsP rs1 ++ regsQ cv0 ++ regsQ cv1
    dsts := regsQ cv0 ++ regsQ cv1 ++ regsQ coef0 ++ regsQ coef1 ++ regsQ coef2 ++ regsAux aux rd
    body := fun c l => do
      let (a, d, k, pts) ← chainOfA c (l.rP rs1) (l.rQ cv0) (l.rQ cv1) (l.rAux aux rd)
      return a.parts ++ d.parts ++ k.c0.parts ++ k.c1.parts ++ k.c2.parts ++ pts.flatMap Pt.parts }

/-- CHAIN_A (R292). -/
def execChainA (rd rs1 : RegNum) (aux : Bool) (s : State) : Host.Outcome State Fault Refusal :=
  runCommand (.chainA rd rs1 aux) (chainARule rd rs1 aux) s

/-- Bob's isogeny chain; COEF2 is not written (R293). -/
def chainBRule (rd rs1 : RegNum) (aux : Bool) : Rule :=
  { srcs := regsAux aux rd ++ regsP rs1 ++ regsQ cv0 ++ regsQ cv1
    dsts := regsQ cv0 ++ regsQ cv1 ++ regsQ coef0 ++ regsQ coef1 ++ regsAux aux rd
    body := fun c l => do
      let (a, d, k, pts) ← chainOfB c (l.rP rs1) (l.rQ cv0) (l.rQ cv1) (l.rAux aux rd)
      return a.parts ++ d.parts ++ k.c0.parts ++ k.c1.parts ++ pts.flatMap Pt.parts }

/-- CHAIN_B (R293). -/
def execChainB (rd rs1 : RegNum) (aux : Bool) (s : State) : Host.Outcome State Fault Refusal :=
  runCommand (.chainB rd rs1 aux) (chainBRule rd rs1 aux) s

end Sys2Proof.Machine
end

