-- ==== Sys2Proof/Machine/Dispatch.lean ====
section
/-! DEFINITION. The meaning of each command of R106, one arm per constructor. -/

namespace Sys2Proof.Machine

def exec (i : Instr) (s : State) : Host.Outcome State Fault Refusal :=
  match i with
  | .nop => Sys2Proof.Machine.execNop s
  | .mpAdd rd rs1 rs2 => Sys2Proof.Machine.execMpAdd rd rs1 rs2 s
  | .mpSub rd rs1 rs2 => Sys2Proof.Machine.execMpSub rd rs1 rs2 s
  | .mpMul rd rs1 rs2 => Sys2Proof.Machine.execMpMul rd rs1 rs2 s
  | .mpRdc rd rs1 => Sys2Proof.Machine.execMpRdc rd rs1 s
  | .mpDadd rd rs1 rs2 => Sys2Proof.Machine.execMpDadd rd rs1 rs2 s
  | .mpDsub rd rs1 rs2 => Sys2Proof.Machine.execMpDsub rd rs1 rs2 s
  | .fpAdd rd rs1 rs2 => Sys2Proof.Machine.execFpAdd rd rs1 rs2 s
  | .fpSub rd rs1 rs2 => Sys2Proof.Machine.execFpSub rd rs1 rs2 s
  | .fpNeg rd rs1 => Sys2Proof.Machine.execFpNeg rd rs1 s
  | .fpDiv2 rd rs1 => Sys2Proof.Machine.execFpDiv2 rd rs1 s
  | .fpCorr rd rs1 => Sys2Proof.Machine.execFpCorr rd rs1 s
  | .fpMul rd rs1 rs2 => Sys2Proof.Machine.execFpMul rd rs1 rs2 s
  | .fpSqr rd rs1 => Sys2Proof.Machine.execFpSqr rd rs1 s
  | .fpInv rd rs1 => Sys2Proof.Machine.execFpInv rd rs1 s
  | .fpToMont rd rs1 => Sys2Proof.Machine.execFpToMont rd rs1 s
  | .fpFromMont rd rs1 => Sys2Proof.Machine.execFpFromMont rd rs1 s
  | .fpMov rd rs1 => Sys2Proof.Machine.execFpMov rd rs1 s
  | .fpLdc rd k => Sys2Proof.Machine.execFpLdc rd k s
  | .fpSel rd rs1 rs2 rs3 => Sys2Proof.Machine.execFpSel rd rs1 rs2 rs3 s
  | .skBit rd imm => Sys2Proof.Machine.execSkBit rd imm s
  | .fp2Add rd rs1 rs2 => Sys2Proof.Machine.execFp2Add rd rs1 rs2 s
  | .fp2Sub rd rs1 rs2 => Sys2Proof.Machine.execFp2Sub rd rs1 rs2 s
  | .fp2Neg rd rs1 => Sys2Proof.Machine.execFp2Neg rd rs1 s
  | .fp2Div2 rd rs1 => Sys2Proof.Machine.execFp2Div2 rd rs1 s
  | .fp2Corr rd rs1 => Sys2Proof.Machine.execFp2Corr rd rs1 s
  | .fp2Mul rd rs1 rs2 => Sys2Proof.Machine.execFp2Mul rd rs1 rs2 s
  | .fp2Sqr rd rs1 => Sys2Proof.Machine.execFp2Sqr rd rs1 s
  | .fp2Inv rd rs1 => Sys2Proof.Machine.execFp2Inv rd rs1 s
  | .fp2ToMont rd rs1 => Sys2Proof.Machine.execFp2ToMont rd rs1 s
  | .fp2FromMont rd rs1 => Sys2Proof.Machine.execFp2FromMont rd rs1 s
  | .fp2Mov rd rs1 => Sys2Proof.Machine.execFp2Mov rd rs1 s
  | .fp2Sel rd rs1 rs2 rs3 => Sys2Proof.Machine.execFp2Sel rd rs1 rs2 rs3 s
  | .xDbl rd rs1 => Sys2Proof.Machine.execXDbl rd rs1 s
  | .xDble rd rs1 imm => Sys2Proof.Machine.execXDble rd rs1 imm s
  | .xTpl rd rs1 => Sys2Proof.Machine.execXTpl rd rs1 s
  | .xTple rd rs1 imm => Sys2Proof.Machine.execXTple rd rs1 imm s
  | .xDblAdd rd rs1 rs2 rs3 => Sys2Proof.Machine.execXDblAdd rd rs1 rs2 rs3 s
  | .get4 rs1 => Sys2Proof.Machine.execGet4 rs1 s
  | .eval4 rd => Sys2Proof.Machine.execEval4 rd s
  | .get3 rs1 => Sys2Proof.Machine.execGet3 rs1 s
  | .eval3 rd => Sys2Proof.Machine.execEval3 rd s
  | .get2 rs1 => Sys2Proof.Machine.execGet2 rs1 s
  | .eval2 rd => Sys2Proof.Machine.execEval2 rd s
  | .inv3Way rs1 rs2 rs3 => Sys2Proof.Machine.execInv3Way rs1 rs2 rs3 s
  | .getA rd rs1 rs2 rs3 => Sys2Proof.Machine.execGetA rd rs1 rs2 rs3 s
  | .jInv rd rs1 rs2 => Sys2Proof.Machine.execJInv rd rs1 rs2 s
  | .ladderA rd rs1 rs2 rs3 => Sys2Proof.Machine.execLadderA rd rs1 rs2 rs3 s
  | .ladderB rd rs1 rs2 rs3 => Sys2Proof.Machine.execLadderB rd rs1 rs2 rs3 s
  | .chainA rd rs1 aux => Sys2Proof.Machine.execChainA rd rs1 aux s
  | .chainB rd rs1 aux => Sys2Proof.Machine.execChainB rd rs1 aux s

end Sys2Proof.Machine
end

