-- ==== Sys2Proof/Machine/HostPort.lean ====
section
/-! DEFINITION. The host port (20_memory.md): the address map (R72 to R74), the words a host reads (R75, R77) and the effect
of a host write (R76 to R78, R315). A write to CMD is in Accept.lean. The engine has no other memory (R70). -/

namespace Sys2Proof.Machine

/-- What an aligned address of the host window designates (R72 to R74). -/
inductive Target where
  | id
  | config0
  | config1
  | status
  | cmd
  | rom (k j : Nat)
  | reg (lane : Nat) (name : RegName) (j : Nat)
deriving DecidableEq, Repr

/-- The address map inside the constant ROM window, from its base 0x001000 (R73). -/
def romTarget (c : Config) (o : Nat) : Option Target :=
  if o / 0x100 < 6 ∧ o % 0x100 / 8 < c.n then some (.rom (o / 0x100) (o % 0x100 / 8)) else none

/-- The address map inside a lane window, from the lane's base (R74). -/
def laneTarget (c : Config) (lane o : Nat) : Option Target :=
  if o < 0x4000 then
    if o % 0x100 / 8 < c.n then some (.reg lane (.e (BitVec.ofNat 6 (o / 0x100))) (o % 0x100 / 8)) else none
  else if 0x8000 ≤ o ∧ o < 0x8800 then
    if (o - 0x8000) % 0x200 / 8 < 2 * c.n then
      some (.reg lane (.d (BitVec.ofNat 6 ((o - 0x8000) / 0x200))) ((o - 0x8000) % 0x200 / 8))
    else none
  else if 0xC000 ≤ o then
    if (o - 0xC000) / 8 < c.skWords then some (.reg lane .sk ((o - 0xC000) / 8)) else none
  else none

/-- The address map (R72 to R74); every other address is unmapped. -/
def targetOf (c : Config) (a : Nat) : Option Target :=
  if a = 0x000000 then some .id
  else if a = 0x000008 then some .config0
  else if a = 0x000010 then some .config1
  else if a = 0x000018 then some .status
  else if a = 0x000020 then some .cmd
  else if 0x001000 ≤ a ∧ a < 0x100000 then romTarget c (a - 0x001000)
  else if 0x100000 ≤ a ∧ (a - 0x100000) / 0x10000 < c.k then
    laneTarget c ((a - 0x100000) / 0x10000) ((a - 0x100000) % 0x10000)
  else none

/-- The base address of lane ℓ, LB(ℓ) (R74). -/
def laneBase (lane : Nat) : Nat := 0x100000 + lane * 0x10000

/-- The address of limb or word j of a register of a lane (R74). -/
def regAddress (lane : Nat) (name : RegName) (j : Nat) : Nat :=
  match name with
  | .e i => laneBase lane + i.toNat * 0x100 + 8 * j
  | .d i => laneBase lane + 0x8000 + i.toNat * 0x200 + 8 * j
  | .sk => laneBase lane + 0xC000 + 8 * j

/-- The bits of a register's word on the host port: w for a limb, 64 for a word of SK (R75, R77). -/
def wordBits (c : Config) : RegName → Nat
  | .e _ | .d _ => c.w
  | .sk => 64

/-- The word a host read of a written limb or word returns (R75, R77). -/
def registerWord (c : Config) (name : RegName) (v j : Nat) : HostWord := BitVec.ofNat 64 (limbOf (wordBits c name) v j)

/-- The unspecified word a host read of an unwritten limb or word returns: bits at or above w of a limb, and bits at or
above SK_BITS of SK, are 0 (R75, R77, U3). -/
def unspecifiedWord (c : Config) (name : RegName) (draw j : Nat) : HostWord :=
  registerWord c name (Config.freeValue draw 0 0 * 2 ^ (wordBits c name * j) % capacity c name) j

/-- Entry j of a register's written marks (R76, R77). -/
def Reg.wordWritten (x : Reg) (j : Nat) : Bool := x.written.getD j false

/-- Answer the oldest access (R78, R80). -/
def State.respond (s : State) (data : HostWord) (busError : Bool) : State :=
  { s with responses := { data := data, busError := busError } :: s.responses }

/-- A bus error has no effect on any state; a read that gets one returns 0 (R78), and so does a write here (log entry 16). -/
def State.busError (s : State) : State := s.respond 0 true

/-- A host read of a register's word: its value once it is written, else a draw (R75, R77). -/
def State.readRegister (s : State) (lane : Nat) (name : RegName) (j : Nat) : State :=
  match s.lanes[lane]? with
  | some l =>
    if (l.get name).wordWritten j then s.respond (registerWord s.cfg name (l.val name) j) false
    else { s with draws := s.draws + 1 }.respond (unspecifiedWord s.cfg name s.draws j) false
  | none => s.busError

/-- A host read (R45 to R48, R73, R75): it has no side effect on the engine. -/
def State.hostRead (s : State) : Target → State
  | .id => s.respond Config.idWord false
  | .config0 => s.respond s.cfg.config0Word false
  | .config1 => s.respond s.cfg.config1Word false
  | .status => s.respond s.status.word false
  | .cmd => s.respond 0 false
  | .rom k j => s.respond (BitVec.ofNat 64 (limbOf s.cfg.w (s.cfg.rom k) j)) false
  | .reg lane name j => s.readRegister lane name j

/-- A host write of u to limb or word j of a register (R76, R77). -/
def Reg.hostWrite (c : Config) (x : Reg) (name : RegName) (j u : Nat) : Reg :=
  match name with
  | .e _ | .d _ => x.hostWriteLimb c.w j u
  | .sk => x.hostWriteScalar c j u

/-- A host write to a register of one lane (R76, R77). -/
def State.writeRegister (s : State) (lane : Nat) (name : RegName) (j : Nat) (u : HostWord) : State :=
  { s with lanes := s.lanes.modify lane fun l => l.put name ((l.get name).hostWrite s.cfg name j u.toNat) }

/-- A host write to STATUS (R315): bit 1 clears ERR and ERRCODE, every other bit is ignored. -/
def State.writeStatus (s : State) (u : HostWord) : State := if u.getLsbD 1 then s.clearError else s

/-- The accesses the port answers at once while BUSY = 1: reads of ID, CONFIG0, CONFIG1 and STATUS (R81). Whether such a read that
is not 64 bits wide gets its bus error (R71, R78) at once or stalls the spec leaves open: here only the aligned 64-bit reads are
answered at once, and every other one stalls and gets its bus error when BUSY is 0, which is the model's choice (log entry 24). -/
def Access.answeredAtOnce (a : Access) : Bool :=
  a.kind == .read && a.bytes == 8 && (a.addr == 0x00 || a.addr == 0x08 || a.addr == 0x10 || a.addr == 0x18)

/-- An aligned 64-bit access (R71). -/
def Access.wellShaped (a : Access) : Bool := a.bytes == 8 && a.addr.toNat % 8 == 0

/-- A host write of a command word to CMD (R48). -/
def cmdWrite (v : HostWord) : Access := { addr := 0x20, bytes := 8, kind := .write v }

end Sys2Proof.Machine
end

