-- ==== Sys2Proof/Machine/Accept.lean ====
section
/-! DEFINITION. The acceptance of a command word (R310, R311), the performing of a host access (R78, R80) and one clock of the
engine (R81, R82, R350, R353). -/

namespace Sys2Proof.Machine

/-- The clocks an accepted command keeps BUSY at 1: LAT(opcode, IMM12, AUX), zero only for NOP (R353). -/
def latency (c : Config) (w : CmdWord) : Nat :=
  let f := w.fields
  if f.opc == 0 then c.lat f.opc f.imm (f.rs2.getLsbD 0) else c.lat f.opc f.imm (f.rs2.getLsbD 0) + 1

/-- BUSY and the latch of an accepted command whose register writes are made (R310, R311). Every access to lane state stalls
while BUSY = 1, so the host sees those writes at completion (R81, R311). -/
def State.startBusy (s : State) (w : CmdWord) : State :=
  { s with
    status := { s.status with busy := latency s.cfg w != 0 }
    latch := if latency s.cfg w = 0 then none else some w
    clocksLeft := latency s.cfg w }

/-- A command that executed leaves the engine busy; a rejected one never sets BUSY (R311, R312). -/
def State.afterCommand (s : State) (w : CmdWord) : State := if s.status.err then s else s.startBusy w

/-- Acceptance of the value v written to CMD (R310, R312, R314): discarded unread while ERR = 1, rejected by the code of
the first check that fails, else executed. -/
def accept (v : HostWord) (s : State) : Host.Outcome State Fault Refusal :=
  if s.status.err then .next s
  else
    match decode (v.setWidth 32) with
    | .error e => .next (s.reject e)
    | .ok i =>
      match exec i s with
      | .next t => .next (t.afterCommand (v.setWidth 32))
      | .fault r => .fault r
      | .refused r => .refused r

/-- Perform a host write to a mapped address (R48, R76 to R78, R315). -/
def performWrite (u : HostWord) (s : State) : Target → Host.Outcome State Fault Refusal
  | .id | .config0 | .config1 | .rom _ _ => .next s.busError
  | .status => .next ((s.writeStatus u).respond 0 false)
  | .cmd => accept u (s.respond 0 false)
  | .reg lane name j => .next ((s.writeRegister lane name j u).respond 0 false)

/-- Perform one host access (R78). -/
def perform (a : Access) (s : State) : Host.Outcome State Fault Refusal :=
  if a.wellShaped then
    match targetOf s.cfg a.addr.toNat with
    | none => .next s.busError
    | some t =>
      match a.kind with
      | .read => .next (s.hostRead t)
      | .write u => performWrite u s t
  else .next s.busError

/-- One clock of the command in progress, if there is one: when its last clock has passed, BUSY becomes 0 and the latch is
empty (R311, R353). -/
def State.tick (s : State) : State :=
  if s.status.busy then
    if s.clocksLeft ≤ 1 then { s with status := { s.status with busy := false }, latch := none, clocksLeft := 0 }
    else { s with clocksLeft := s.clocksLeft - 1 }
  else s

/-- A register that the reset input leaves unwritten, with an unspecified value below its capacity (R350): free value number
`slot` of the draw. -/
def Reg.unspecified (c : Config) (name : RegName) (draw lane slot : Nat) : Reg :=
  { val := Config.freeValue draw lane slot % capacity c name, written := List.replicate (limbCount c name) false }

/-- The registers of the lane numbered `lane` after the reset input (R350). -/
def Lane.unspecified (c : Config) (draw lane : Nat) : Lane :=
  { e := Vector.ofFn fun i => Reg.unspecified c (.e 0) draw lane i
    d := Vector.ofFn fun i => Reg.unspecified c (.d 0) draw lane (64 + i)
    sk := Reg.unspecified c .sk draw lane 68 }

/-- The engine's reset input (R350): any command in progress is abandoned, STATUS is 0, the latch is cleared and every register
of every lane is unwritten, with an unspecified value. -/
def State.resetInput (s : State) : State :=
  { s with
    lanes := (List.range s.cfg.k).map (Lane.unspecified s.cfg s.draws)
    status := Status.reset
    latch := none
    clocksLeft := 0
    draws := s.draws + 1 }

/-- The oldest host event leaves the port. -/
def State.pop (s : State) : State := { s with port := s.port.tail }

/-- One clock with an access at the head of the port: while BUSY = 1 it stalls, unless it is one that is answered at once
(R81); else it is performed (R82). -/
def clockAccess (a : Access) (s : State) : Host.Outcome State Fault Refusal :=
  if s.status.busy then
    if a.answeredAtOnce then
      match perform a s.pop with
      | .next t => .next t.tick
      | .fault r => .fault r
      | .refused r => .refused r
    else .next s.tick
  else perform a s.pop

/-- One clock of the engine (R81, R82, R350). With nothing at the port it waits (R345, R350). -/
def clock (s : State) : Host.Outcome State Fault Refusal :=
  match s.port.head? with
  | none => .next s.tick
  | some .idle => .next s.pop.tick
  | some .reset => .next s.pop.resetInput
  | some (.access a) => clockAccess a s

/-- The next command word is at the head of the port and is taken at the next clock: no command is in progress and ERR is
clear (R310, R314). -/
def State.withCommand (s : State) (w : CmdWord) : State :=
  { s with
    status := Status.reset
    latch := none
    clocksLeft := 0
    port := .access (cmdWrite (w.setWidth 64)) :: s.port }

end Sys2Proof.Machine
end

