-- ==== Sys2Proof/Machine/Step.lean ====
section
/-! DEFINITION. One step of the machine: one clock of an engine whose configuration is well formed. -/

namespace Sys2Proof.Machine

/-- One clock (R81, R82, R310, R350). A configuration that is not well formed is refused (R12). -/
def step (s : State) : Host.Outcome State Fault Refusal :=
  if s.cfg.wf then clock s else .refused .configNotWellFormed

/-- s with the command word w of nbits bits (bits above nbits are 0) written to CMD by the host's next access, so that the
next step takes it: no command is in progress and ERR is clear. -/
def State.withFetchWord (s : State) (nbits w : Nat) : State := s.withCommand (BitVec.ofNat 32 (w % 2 ^ nbits))

end Sys2Proof.Machine
end

