-- ==== Sys2Proof/Machine/Assembler.lean ====
section
/-! DEFINITION. The assembler's side of 30_encoding.md section 4: the spelling of a command (R111) and the expansions of the
pseudo-commands (R112). Neither is an engine operation. -/

namespace Sys2Proof.Machine

/-- The mnemonic of a command (R106). -/
def mnemonic : Instr → String
  | .nop => "NOP"
  | .mpAdd _ _ _ => "MP_ADD"
  | .mpSub _ _ _ => "MP_SUB"
  | .mpMul _ _ _ => "MP_MUL"
  | .mpRdc _ _ => "MP_RDC"
  | .mpDadd _ _ _ => "MP_DADD"
  | .mpDsub _ _ _ => "MP_DSUB"
  | .fpAdd _ _ _ => "FP_ADD"
  | .fpSub _ _ _ => "FP_SUB"
  | .fpNeg _ _ => "FP_NEG"
  | .fpDiv2 _ _ => "FP_DIV2"
  | .fpCorr _ _ => "FP_CORR"
  | .fpMul _ _ _ => "FP_MUL"
  | .fpSqr _ _ => "FP_SQR"
  | .fpInv _ _ => "FP_INV"
  | .fpToMont _ _ => "FP_TOMONT"
  | .fpFromMont _ _ => "FP_FROMMONT"
  | .fpMov _ _ => "FP_MOV"
  | .fpLdc _ _ => "FP_LDC"
  | .fpSel _ _ _ _ => "FP_SEL"
  | .skBit _ _ => "SK_BIT"
  | .fp2Add _ _ _ => "FP2_ADD"
  | .fp2Sub _ _ _ => "FP2_SUB"
  | .fp2Neg _ _ => "FP2_NEG"
  | .fp2Div2 _ _ => "FP2_DIV2"
  | .fp2Corr _ _ => "FP2_CORR"
  | .fp2Mul _ _ _ => "FP2_MUL"
  | .fp2Sqr _ _ => "FP2_SQR"
  | .fp2Inv _ _ => "FP2_INV"
  | .fp2ToMont _ _ => "FP2_TOMONT"
  | .fp2FromMont _ _ => "FP2_FROMMONT"
  | .fp2Mov _ _ => "FP2_MOV"
  | .fp2Sel _ _ _ _ => "FP2_SEL"
  | .xDbl _ _ => "XDBL"
  | .xDble _ _ _ => "XDBLE"
  | .xTpl _ _ => "XTPL"
  | .xTple _ _ _ => "XTPLE"
  | .xDblAdd _ _ _ _ => "XDBLADD"
  | .get4 _ => "GET4"
  | .eval4 _ => "EVAL4"
  | .get3 _ => "GET3"
  | .eval3 _ => "EVAL3"
  | .get2 _ => "GET2"
  | .eval2 _ => "EVAL2"
  | .inv3Way _ _ _ => "INV3WAY"
  | .getA _ _ _ _ => "GETA"
  | .jInv _ _ _ => "JINV"
  | .ladderA _ _ _ _ => "LADDER_A"
  | .ladderB _ _ _ _ => "LADDER_B"
  | .chainA _ _ _ => "CHAIN_A"
  | .chainB _ _ _ => "CHAIN_B"

/-- The name of a ROM constant in class K (R111). -/
def romName (k : RegNum) : String :=
  match k.toNat with
  | 0 => "#ZERO"
  | 1 => "#MONT_ONE"
  | 2 => "#MONT_R2"
  | 3 => "#ONE"
  | 4 => "#PRIME"
  | 5 => "#PRIME2"
  | n => "#" ++ n.repr

/-- The spelling of an operand (R111); none for an absent flag and for the RD of a CHAIN command without aux points, which is
reserved (R108). -/
def Operand.spell : Operand → Option String
  | .e v => some ("e" ++ v.toNat.repr)
  | .q v => some ("q" ++ v.toNat.repr)
  | .p v => some ("p" ++ v.toNat.repr)
  | .d v => some ("d" ++ v.toNat.repr)
  | .k v => some (romName v)
  | .imm v => some ("#" ++ v.toNat.repr)
  | .flag aux => if aux then some "aux" else none
  | .x aux v => if aux then some ("p" ++ v.toNat.repr) else none

/-- One line of assembler: the mnemonic and the operands in the order RD, RS1, RS2, RS3, reserved fields omitted (R111). -/
def assemble (i : Instr) : String :=
  match i.operands.filterMap Operand.spell with
  | [] => mnemonic i
  | ops => mnemonic i ++ " " ++ String.intercalate ", " ops

/-- The pseudo-commands of R112, over Q and P base indices and E register numbers. -/
inductive Pseudo where
  | fp2One (b : RegNum)
  | fp2Zero (b : RegNum)
  | ptMov (d s : RegNum)
  | ptAff (b s : RegNum)
  | fp2Dbl (d s : RegNum)
  | fpDbl (d s : RegNum)
deriving DecidableEq, Repr

/-- The commands the assembler writes for a pseudo-command (R112). -/
def Pseudo.expand : Pseudo → List Instr
  | .fp2One b => [.fpLdc b 1, .fpLdc (b + 1) 0]
  | .fp2Zero b => [.fpLdc b 0, .fpLdc (b + 1) 0]
  | .ptMov d s => [.fp2Mov d s, .fp2Mov (d + 2) (s + 2)]
  | .ptAff b s => [.fp2Mov b s, .fpLdc (b + 2) 1, .fpLdc (b + 3) 0]
  | .fp2Dbl d s => [.fp2Add d s s]
  | .fpDbl d s => [.fpAdd d s s]

end Sys2Proof.Machine
end

