-- ==== Sys2Proof/Safety.lean ====
section
/-! DEFINITION. What counts as a well-behaved run (R320, R322): the spec's stricter reading of a command, which stops with
BoundFault or UnwrittenRead where the hardware goes on, and the trace of operation kinds of a command (R352). `step` is the
hardware's reading; `strictStep` answers a next state only where the two agree. After them the terms in which the results of
commands are claimed: the field element a register's value represents (R17, R33, R34), and the formulas of the curve and
isogeny commands as polynomials over a commutative ring, the ladder and the chain walk over field elements. -/

namespace Sys2Proof.Machine

/-- The rule of each command. -/
def ruleOf : Instr → Rule
  | .nop => nopRule
  | .mpAdd rd rs1 rs2 => mpAddRule rd rs1 rs2
  | .mpSub rd rs1 rs2 => mpSubRule rd rs1 rs2
  | .mpMul rd rs1 rs2 => mpMulRule rd rs1 rs2
  | .mpRdc rd rs1 => mpRdcRule rd rs1
  | .mpDadd rd rs1 rs2 => mpDaddRule rd rs1 rs2
  | .mpDsub rd rs1 rs2 => mpDsubRule rd rs1 rs2
  | .fpAdd rd rs1 rs2 => fpAddRule rd rs1 rs2
  | .fpSub rd rs1 rs2 => fpSubRule rd rs1 rs2
  | .fpNeg rd rs1 => fpNegRule rd rs1
  | .fpDiv2 rd rs1 => fpDiv2Rule rd rs1
  | .fpCorr rd rs1 => fpCorrRule rd rs1
  | .fpMul rd rs1 rs2 => fpMulRule rd rs1 rs2
  | .fpSqr rd rs1 => fpSqrRule rd rs1
  | .fpInv rd rs1 => fpInvRule rd rs1
  | .fpToMont rd rs1 => fpToMontRule rd rs1
  | .fpFromMont rd rs1 => fpFromMontRule rd rs1
  | .fpMov rd rs1 => fpMovRule rd rs1
  | .fpLdc rd k => fpLdcRule rd k
  | .fpSel rd rs1 rs2 rs3 => fpSelRule rd rs1 rs2 rs3
  | .skBit rd imm => skBitRule rd imm
  | .fp2Add rd rs1 rs2 => fp2AddRule rd rs1 rs2
  | .fp2Sub rd rs1 rs2 => fp2SubRule rd rs1 rs2
  | .fp2Neg rd rs1 => fp2NegRule rd rs1
  | .fp2Div2 rd rs1 => fp2Div2Rule rd rs1
  | .fp2Corr rd rs1 => fp2CorrRule rd rs1
  | .fp2Mul rd rs1 rs2 => fp2MulRule rd rs1 rs2
  | .fp2Sqr rd rs1 => fp2SqrRule rd rs1
  | .fp2Inv rd rs1 => fp2InvRule rd rs1
  | .fp2ToMont rd rs1 => fp2ToMontRule rd rs1
  | .fp2FromMont rd rs1 => fp2FromMontRule rd rs1
  | .fp2Mov rd rs1 => fp2MovRule rd rs1
  | .fp2Sel rd rs1 rs2 rs3 => fp2SelRule rd rs1 rs2 rs3
  | .xDbl rd rs1 => xDblRule rd rs1
  | .xDble rd rs1 imm => xDbleRule rd rs1 imm
  | .xTpl rd rs1 => xTplRule rd rs1
  | .xTple rd rs1 imm => xTpleRule rd rs1 imm
  | .xDblAdd rd rs1 rs2 rs3 => xDblAddRule rd rs1 rs2 rs3
  | .get4 rs1 => get4Rule rs1
  | .eval4 rd => eval4Rule rd
  | .get3 rs1 => get3Rule rs1
  | .eval3 rd => eval3Rule rd
  | .get2 rs1 => get2Rule rs1
  | .eval2 rd => eval2Rule rd
  | .inv3Way rs1 rs2 rs3 => inv3WayRule rs1 rs2 rs3
  | .getA rd rs1 rs2 rs3 => getARule rd rs1 rs2 rs3
  | .jInv rd rs1 rs2 => jInvRule rd rs1 rs2
  | .ladderA rd rs1 rs2 rs3 => ladderARule rd rs1 rs2 rs3
  | .ladderB rd rs1 rs2 rs3 => ladderBRule rd rs1 rs2 rs3
  | .chainA rd rs1 aux => chainARule rd rs1 aux
  | .chainB rd rs1 aux => chainBRule rd rs1 aux

/-- The model fault a rule has on the lane numbered `lane`: the first source that has not been written, all sources being
read before anything is computed (R322, R355), else the first bound that breaks (R320). That an unwritten source comes before a
broken bound, and which of several is named, is the model's choice (log entry 18). -/
def Rule.faultOn (rule : Rule) (c : Config) (lane : Nat) (l : Lane) : Option Fault :=
  match rule.srcs.find? fun name => !(l.get name).isWritten with
  | some name => some (.unwrittenRead name lane)
  | none =>
    match rule.outcome c l with
    | .ok _ => none
    | .error op => some (.boundFault op lane)

/-- The model fault a rule has on a list of lanes numbered from `first`: that of the lowest-numbered lane that has one
(R320; for UnwrittenRead the model's choice, log entry 18). -/
def Rule.firstFault (rule : Rule) (c : Config) : Nat → List Lane → Option Fault
  | _, [] => none
  | first, l :: ls =>
    match rule.faultOn c first l with
    | some f => some f
    | none => rule.firstFault c (first + 1) ls

/-- A command as the spec's model reads it (R320, R322): it stops at a command that is executed and breaks a bound or reads
an unwritten register. -/
def strictExec (i : Instr) (s : State) : Host.Outcome State Fault Refusal :=
  if s.cfg.wf && (operandError s.cfg.skBits i).isNone then
    match (ruleOf i).firstFault s.cfg 0 s.lanes with
    | some f => .fault f
    | none => exec i s
  else exec i s

/-- The command that the next step takes from the port, if it takes one that is executed or rejected by its operands. -/
def State.nextCommand (s : State) : Option Instr :=
  match s.port.head? with
  | some (.access a) =>
    match a.kind with
    | .write v =>
      if a.wellShaped && a.addr == 0x20 && !s.status.busy && !s.status.err then
        match decode (v.setWidth 32) with
        | .ok i => some i
        | .error _ => none
      else none
    | .read => none
  | _ => none

/-- One step of the spec's stricter run: as `step`, but it stops with the model fault of the command it takes (R320, R322). -/
def strictStep (s : State) : Host.Outcome State Fault Refusal :=
  match s.nextCommand with
  | some i =>
    match strictExec i s with
    | .fault f => .fault f
    | .next _ | .refused _ => step s
  | none => step s

/-- A command is well behaved in a state: it raises neither BoundFault nor UnwrittenRead in any lane (R320, R322). -/
def WellBehaved (i : Instr) (s : State) : Prop := (ruleOf i).firstFault s.cfg 0 s.lanes = none

/-- The trace of the operation kinds a command performs on a lane, oldest first; none if a bound breaks (R352). -/
def opTrace (c : Config) (i : Instr) (l : Lane) : Option (List OpKind) :=
  match ((ruleOf i).body c l).run [] with
  | .ok (_, kinds) => some kinds.reverse
  | .error _ => none

/-! ## What a command reads and writes, and the invariant of the engine -/

/-- The E registers b, b+1, …, n of them. -/
def eRange (b : RegNum) (n : Nat) : List RegName := (List.range n).map fun k => .e (b + BitVec.ofNat 6 k)

/-- The three aux points of a CHAIN command, Pt(b), Pt(b+4) and Pt(b+8): twelve E registers (R292). -/
def auxRange (aux : Bool) (b : RegNum) : List RegName := if aux then eRange b 12 else []

/-- The registers each command reads, implicit ones included, as the tables of R36 and R106 and the headings of the commands
name them: CA is E54 and E55, CV0 and CV1 are E56 to E59, COEF0 to COEF2 are E48 to E53. -/
def reads : Instr → List RegName
  | .nop => []
  | .mpAdd _ rs1 rs2 | .mpSub _ rs1 rs2 | .mpMul _ rs1 rs2 => [.e rs1, .e rs2]
  | .mpRdc _ rs1 => [.d rs1]
  | .mpDadd _ rs1 rs2 | .mpDsub _ rs1 rs2 => [.d rs1, .d rs2]
  | .fpAdd _ rs1 rs2 | .fpSub _ rs1 rs2 | .fpMul _ rs1 rs2 => [.e rs1, .e rs2]
  | .fpNeg _ rs1 | .fpDiv2 _ rs1 | .fpCorr _ rs1 | .fpSqr _ rs1 | .fpInv _ rs1 | .fpToMont _ rs1 | .fpFromMont _ rs1
  | .fpMov _ rs1 => [.e rs1]
  | .fpLdc _ _ => []
  | .fpSel _ rs1 rs2 rs3 => [.e rs1, .e rs2, .e rs3]
  | .skBit _ _ => [.sk]
  | .fp2Add _ rs1 rs2 | .fp2Sub _ rs1 rs2 | .fp2Mul _ rs1 rs2 | .jInv _ rs1 rs2 => eRange rs1 2 ++ eRange rs2 2
  | .fp2Neg _ rs1 | .fp2Div2 _ rs1 | .fp2Corr _ rs1 | .fp2Sqr _ rs1 | .fp2Inv _ rs1 | .fp2ToMont _ rs1
  | .fp2FromMont _ rs1 | .fp2Mov _ rs1 => eRange rs1 2
  | .fp2Sel _ rs1 rs2 rs3 => eRange rs1 2 ++ eRange rs2 2 ++ [.e rs3]
  | .xDbl _ rs1 | .xDble _ rs1 _ | .xTpl _ rs1 | .xTple _ rs1 _ => eRange rs1 4 ++ eRange 56 4
  | .xDblAdd rd rs1 rs2 rs3 => eRange rd 4 ++ eRange rs1 4 ++ eRange rs2 2 ++ eRange rs3 2
  | .get4 rs1 | .get3 rs1 | .get2 rs1 => eRange rs1 4
  | .eval4 rd => eRange rd 4 ++ eRange 48 6
  | .eval3 rd | .eval2 rd => eRange rd 4 ++ eRange 48 4
  | .inv3Way rs1 rs2 rs3 | .getA _ rs1 rs2 rs3 => eRange rs1 2 ++ eRange rs2 2 ++ eRange rs3 2
  | .ladderA _ rs1 rs2 rs3 | .ladderB _ rs1 rs2 rs3 =>
    eRange rs1 2 ++ eRange rs2 2 ++ eRange rs3 2 ++ eRange 54 2 ++ [.sk]
  | .chainA rd rs1 aux | .chainB rd rs1 aux => auxRange aux rd ++ eRange rs1 4 ++ eRange 56 4

/-- The registers each command writes, implicit ones included (R36, R106). -/
def writes : Instr → List RegName
  | .nop => []
  | .mpAdd rd _ _ | .mpSub rd _ _ | .mpRdc rd _ => [.e rd]
  | .mpMul rd _ _ | .mpDadd rd _ _ | .mpDsub rd _ _ => [.d rd]
  | .fpAdd rd _ _ | .fpSub rd _ _ | .fpNeg rd _ | .fpDiv2 rd _ | .fpCorr rd _ | .fpMul rd _ _ | .fpSqr rd _ | .fpInv rd _
  | .fpToMont rd _ | .fpFromMont rd _ | .fpMov rd _ | .fpLdc rd _ | .fpSel rd _ _ _ | .skBit rd _ => [.e rd]
  | .fp2Add rd _ _ | .fp2Sub rd _ _ | .fp2Neg rd _ | .fp2Div2 rd _ | .fp2Corr rd _ | .fp2Mul rd _ _ | .fp2Sqr rd _
  | .fp2Inv rd _ | .fp2ToMont rd _ | .fp2FromMont rd _ | .fp2Mov rd _ | .fp2Sel rd _ _ _ | .getA rd _ _ _
  | .jInv rd _ _ => eRange rd 2
  | .xDbl rd _ | .xDble rd _ _ | .xTpl rd _ | .xTple rd _ _ => eRange rd 4
  | .xDblAdd rd rs1 _ _ => eRange rd 4 ++ eRange rs1 4
  | .get4 _ => eRange 56 4 ++ eRange 48 6
  | .get3 _ | .get2 _ => eRange 56 4 ++ eRange 48 4
  | .eval4 rd | .eval3 rd | .eval2 rd => eRange rd 4
  | .inv3Way rs1 rs2 rs3 => eRange rs1 2 ++ eRange rs2 2 ++ eRange rs3 2
  | .ladderA rd _ _ _ | .ladderB rd _ _ _ => eRange rd 4
  | .chainA rd _ aux => eRange 56 4 ++ eRange 48 6 ++ auxRange aux rd
  | .chainB rd _ aux => eRange 56 4 ++ eRange 48 4 ++ auxRange aux rd

/-- A name of a register that exists: ND is 4 (R35). -/
def RegName.valid : RegName → Bool
  | .d i => i.toNat < 4
  | .e _ | .sk => true

/-- Every register of a lane holds a value below its capacity and has one written mark for each of its limbs or words (R31,
R35, R44, R76, R77). -/
def Lane.Inv (c : Config) (l : Lane) : Prop :=
  ∀ name : RegName, (l.get name).val < capacity c name ∧ (l.get name).written.length = limbCount c name

/-- The invariant of the engine: a well-formed configuration (R12); one lane for each ℓ < K, each with values below their
capacities (R30, R31, R35, R44); a legal STATUS (R45, R315); and a command in the latch, one that the decoder accepts, for
exactly the clocks BUSY is 1 (R51, R310, R311). -/
structure State.Inv (s : State) : Prop where
  wf : s.cfg.wf = true
  laneCount : s.lanes.length = s.cfg.k
  lanes : ∀ l ∈ s.lanes, l.Inv s.cfg
  status : s.status.legal = true
  latched : s.latch.isSome = s.status.busy
  clocks : decide (0 < s.clocksLeft) = s.status.busy
  latchLegal : ∀ w, s.latch = some w → commandError s.cfg.skBits w = none

/-- What a computation of the engine answers: its value, or the first bound it breaks. -/
def Eng.answer {α : Type} (m : Eng α) : Except BoundOp α := m.run' []

/-- A command answers a next state in which every lane holds `values lane` in the registers `dsts`, in that order, and nothing
else is changed. -/
def Writes (i : Instr) (s : State) (dsts : List RegName) (values : Lane → List Nat) : Prop :=
  exec i s = .next { s with lanes := s.lanes.map fun l => l.writeAll s.cfg (dsts.zip (values l)) }

end Sys2Proof.Machine

namespace Sys2Proof.Config

/-! ## What a register's value represents (R17, R33, R34) -/

/-- GF(p²) = GF(p)[i]/(i² + 1) over the residues modulo p (R33). -/
abbrev GF2 (c : Config) : Type := QuadraticAlgebra (ZMod c.p) (-1) 0

/-- The field element that the Montgomery-domain value a represents, a·R⁻¹ mod p (R17). -/
def elem (c : Config) (a : Nat) : ZMod c.p := (a : ZMod c.p) * (c.r : ZMod c.p)⁻¹

/-- The element of GF(p²) that a pair of Montgomery-domain values represents (R17, R33). -/
def elem2 (c : Config) (u : Fp2) : c.GF2 := ⟨c.elem u.a0, c.elem u.a1⟩

/-- The integer that REDC returns for x (R150): (x + q·p) div R with q = (−x·pinv) mod R. -/
def montgomery (c : Config) (x : Nat) : Nat := (x + ((-(x : Int)) * c.pinv % c.r).toNat * c.p) / c.r

/-- The working bound [0, 2p] of R160. -/
def Working (c : Config) (a : Nat) : Prop := a ≤ 2 * c.p

/-- Both components are in the working bound. -/
def Working2 (c : Config) (u : Fp2) : Prop := c.Working u.a0 ∧ c.Working u.a1

/-- All four components are in the working bound. -/
def WorkingPt (c : Config) (t : Pt) : Prop := c.Working2 t.x ∧ c.Working2 t.z

/-- The value FP2_INV computes, as an element of GF(p²) (R208): the conjugate times the norm to the power p − 2. It is the
inverse of a nonzero element when p is prime, and 0 for 0. -/
def inv2 (c : Config) (z : c.GF2) : c.GF2 :=
  ⟨z.re * (z.re * z.re + z.im * z.im) ^ (c.p - 2), -z.im * (z.re * z.re + z.im * z.im) ^ (c.p - 2)⟩

end Sys2Proof.Config

namespace Sys2Proof.Field

open Sys2Proof.Machine

variable {F : Type} [CommRing F]

/-- A projective x-only point over F (R34). -/
structure Point (F : Type) where
  x : F
  z : F
deriving DecidableEq, Repr

/-- [2]P for the pair (A24plus, C24) = (a, d) (R231): C24·(X²−Z²)² : 4XZ·(C24·(X−Z)² + 4·A24plus·XZ). -/
def dbl (a d : F) (P : Point F) : Point F :=
  ⟨d * (P.x ^ 2 - P.z ^ 2) ^ 2, 4 * P.x * P.z * (d * (P.x - P.z) ^ 2 + 4 * a * P.x * P.z)⟩

/-- A24minus·(X−Z)⁴ − A24plus·(X+Z)⁴ (R233). -/
def tplT (m a : F) (P : Point F) : F := m * (P.x - P.z) ^ 4 - a * (P.x + P.z) ^ 4

/-- 2·(X²−Z²)·(A24plus·(X+Z)² − A24minus·(X−Z)²) (R233). -/
def tplU (m a : F) (P : Point F) : F :=
  2 * (P.x ^ 2 - P.z ^ 2) * (a * (P.x + P.z) ^ 2 - m * (P.x - P.z) ^ 2)

/-- [3]P for the pair (A24minus, A24plus) = (m, a) (R233). -/
def tpl (m a : F) (P : Point F) : Point F :=
  ⟨2 * P.x * (tplT m a P + tplU m a P) ^ 2, 2 * P.z * (tplT m a P - tplU m a P) ^ 2⟩

/-- (2P, P + Q) for xPQ = x(P − Q) and a = (A + 2)/4 (R235). -/
def dblAdd (P Q : Point F) (xPQ a : F) : Point F × Point F :=
  (⟨(P.x ^ 2 - P.z ^ 2) ^ 2, 4 * P.x * P.z * ((P.x - P.z) ^ 2 + 4 * a * P.x * P.z)⟩,
    ⟨4 * (P.x * Q.x - P.z * Q.z) ^ 2, 4 * (P.z * Q.x - P.x * Q.z) ^ 2 * xPQ⟩)

/-- The codomain's pair and the coefficients of the 4-isogeny with kernel K (R250). -/
def get4 (K : Point F) : F × F × (F × F × F) :=
  (4 * K.x ^ 4, 4 * K.z ^ 4, (4 * K.z ^ 2, K.x - K.z, K.x + K.z))

/-- (X+Z)·coeff[1] (R251). -/
def eval4S (k : F × F × F) (P : Point F) : F := (P.x + P.z) * k.2.1

/-- (X−Z)·coeff[2] (R251). -/
def eval4D (k : F × F × F) (P : Point F) : F := (P.x - P.z) * k.2.2

/-- The image of P under the 4-isogeny with coefficients k (R251). -/
def eval4 (k : F × F × F) (P : Point F) : Point F :=
  ⟨((eval4S k P + eval4D k P) ^ 2 + k.1 * (P.x ^ 2 - P.z ^ 2)) * (eval4S k P + eval4D k P) ^ 2,
    (eval4S k P - eval4D k P) ^ 2 * ((eval4S k P - eval4D k P) ^ 2 - k.1 * (P.x ^ 2 - P.z ^ 2))⟩

/-- The codomain's pair and the coefficients of the 3-isogeny with kernel K (R254). -/
def get3 (K : Point F) : F × F × (F × F) :=
  ((3 * K.x + K.z) ^ 3 * (K.x - K.z), (3 * K.x - K.z) ^ 3 * (K.x + K.z), (K.x - K.z, K.x + K.z))

/-- The image of P under the 3-isogeny with coefficients k (R255). -/
def eval3 (k : F × F) (P : Point F) : Point F :=
  ⟨P.x * ((P.x + P.z) * k.1 + (P.x - P.z) * k.2) ^ 2, P.z * ((P.x - P.z) * k.2 - (P.x + P.z) * k.1) ^ 2⟩

/-- The codomain's pair and the kernel of the 2-isogeny with kernel K (R258). -/
def get2 (K : Point F) : F × F × (F × F) := (K.z ^ 2 - K.x ^ 2, K.z ^ 2, (K.x, K.z))

/-- The image of P under the 2-isogeny with kernel (k.1 : k.2) (R259). -/
def eval2 (k : F × F) (P : Point F) : Point F :=
  ⟨2 * P.x * (P.x * k.1 - P.z * k.2), 2 * P.z * (P.x * k.2 - P.z * k.1)⟩

/-- The three-point ladder (R281) for the bits of m, least significant first: `prev` is the bit before, and R2 and R change
places whenever a bit differs from the one before it. -/
def ladder (a24 : F) : List Bool → Bool → Point F → Point F → Point F → Point F
  | [], prev, _, r2, r => if prev then r2 else r
  | bit :: bits, prev, r0, r2, r =>
    let u := if bit == prev then r2 else r
    let v := if bit == prev then r else r2
    let t := dblAdd r0 u v.x a24
    ladder a24 bits bit t.1 ⟨t.2.x * v.z, t.2.z⟩ v

/-- The isogenies of one party over F (R291). -/
structure Party (F κ : Type) where
  step : F → F → Nat → Point F → Point F
  get : Point F → F × F × κ
  eval : κ → Point F → Point F

/-- Party A: an entry n of the strategy stands for 2n doublings (R291). -/
def partyA : Party F (F × F × F) :=
  { step := fun v0 v1 n => (dbl v0 v1)^[2 * n]
    get := get4
    eval := eval4 }

/-- Party B: an entry n of the strategy stands for n triplings (R291). -/
def partyB : Party F (F × F) :=
  { step := fun v0 v1 n => (tpl v1 v0)^[n]
    get := get3
    eval := eval3 }

/-- The state of the chain walk over F (R291): the active point and its index, the stack with its top first, the strategy
entries left, the pair and the auxiliary points. -/
structure Walk (F : Type) where
  pt : Point F
  index : Nat
  stack : List (Point F × Nat)
  strat : List Nat
  v0 : F
  v1 : F
  aux : List (Point F)

/-- The descent of one row: while index < target, push the active point and multiply it by the next entry (R291). -/
def descend {κ : Type} (P : Party F κ) (target : Nat) : List Nat → Walk F → Walk F
  | [], v => { v with strat := [] }
  | n :: rest, v =>
    if v.index < target then
      descend P target rest
        { v with pt := P.step v.v0 v.v1 n v.pt, index := v.index + n, stack := (v.pt, v.index) :: v.stack }
    else { v with strat := n :: rest }

/-- The isogeny whose kernel is the active point, taken at every stacked and auxiliary point, and the pop of the stack's top
(R291). -/
def climb {κ : Type} (P : Party F κ) (v : Walk F) : Walk F :=
  let g := P.get v.pt
  let stack := v.stack.map fun t => (P.eval g.2.2 t.1, t.2)
  { v with
    pt := (stack.head?.map (·.1)).getD v.pt
    index := (stack.head?.map (·.2)).getD v.index
    stack := stack.tail
    v0 := g.1
    v1 := g.2.1
    aux := v.aux.map (P.eval g.2.2) }

/-- The rows whose target M − row runs from m down to 1 (R291). -/
def rows {κ : Type} (P : Party F κ) : Nat → Walk F → Walk F
  | 0, v => v
  | m + 1, v => rows P m (climb P (descend P (m + 1) v.strat v))

/-- The chain walk from its first row, for a chain of length len (R291): the final pair, the last coefficients and the images
of the auxiliary points. -/
def walk {κ : Type} (P : Party F κ) (len : Nat) (strat : List Nat) (R : Point F) (v0 v1 : F) (aux : List (Point F)) :
    F × F × κ × List (Point F) :=
  let v := rows P (len - 1) { pt := R, index := 0, stack := [], strat := strat, v0 := v0, v1 := v1, aux := aux }
  let g := P.get v.pt
  (g.1, g.2.1, g.2.2, v.aux.map (P.eval g.2.2))

/-- Alice's chain: with odd eA a 2-isogeny comes first, whose kernel is [2^(eA−1)]R (R291). -/
def chainA (c : Config) (R : Point F) (v0 v1 : F) (aux : List (Point F)) : F × F × (F × F × F) × List (Point F) :=
  if c.eA % 2 == 1 then
    let g := get2 ((dbl v0 v1)^[c.eA - 1] R)
    walk partyA c.chainLenA c.stratA (eval2 g.2.2 R) g.1 g.2.1 (aux.map (eval2 g.2.2))
  else walk partyA c.chainLenA c.stratA R v0 v1 aux

/-- Bob's chain (R291). -/
def chainB (c : Config) (R : Point F) (v0 v1 : F) (aux : List (Point F)) : F × F × (F × F) × List (Point F) :=
  walk partyB c.chainLenB c.stratB R v0 v1 aux

end Sys2Proof.Field

/-- The point over GF(p²) that the four values of a point register represent (R34). -/
def Sys2Proof.Config.elemPt (c : Sys2Proof.Config) (t : Sys2Proof.Pt) : Sys2Proof.Field.Point c.GF2 :=
  ⟨c.elem2 t.x, c.elem2 t.z⟩
end

