-- ==== Sys2Proof/Certificates/Slice0/Obligations.lean ====
section
/-! DEFINITION. The statements for the provers. The rules of the spec they rest on are named in each docstring; what the
docstring calls the model's choice is no rule of the spec. A hypothesis `i.wellFormed s.cfg.skBits = true` says that the
command passes every check of R110, so that it is executed and not rejected. `Config.Working` is the bound [0, 2p] of R160. -/

open Sys2Proof Sys2Proof.Machine

/-! ## Encoding -/

/-- Decoding the word of a well-formed command gives the command back, with every operand at every value the encoding admits,
and the word passes every check of R110 (30_encoding.md sections 1 to 3). -/
def Obligations.DecodeEncodeRoundTrip : Prop :=
  ∀ (skBits : Nat) (i : Instr), i.wellFormed skBits = true →
    decode (encode i) = .ok i ∧ commandError skBits (encode i) = none

/-- A word that decodes has one meaning and no bit of it is dropped: it is the word of the command it decodes to
(30_encoding.md sections 1 to 3). -/
def Obligations.EncodeDecodeRoundTrip : Prop :=
  ∀ (w : CmdWord) (i : Instr), decode w = .ok i → encode i = w

/-- The decoder and the masks of spec/opcode_table.json agree: a word that decodes matches the row of its command, and a word
that matches a row decodes to a command of that row, but for a CHAIN word with AUX = 0 and RD ≠ 0, which a mask cannot express
(30_encoding.md, header). -/
def Obligations.DecodeMatchesTable : Prop :=
  (∀ (w : CmdWord) (i : Instr), decode w = .ok i → w &&& i.tableRow.1 = i.tableRow.2) ∧
    ∀ (w : CmdWord) (i : Instr), w &&& i.tableRow.1 = i.tableRow.2 →
      (∃ j, decode w = .ok j ∧ j.tableRow = i.tableRow) ∨
        (decode w = .error .reservedField ∧
          (i.tableRow.2 = 0x52000000#32 ∨ i.tableRow.2 = 0x53000000#32) ∧
          w.getLsbD 6 = false ∧ w.extractLsb' 18 6 ≠ 0)

/-- The OPC values of R107. -/
def illegalOpcode (opc : Nat) : Prop :=
  (0x07 ≤ opc ∧ opc ≤ 0x0F) ∨ (0x1E ≤ opc ∧ opc ≤ 0x1F) ∨ (0x2C ≤ opc ∧ opc ≤ 0x2F) ∨ (0x35 ≤ opc ∧ opc ≤ 0x3F) ∨
    (0x49 ≤ opc ∧ opc ≤ 0x4F) ∨ (0x54 ≤ opc ∧ opc ≤ 0xFF)

/-- R107. A word has an illegal opcode exactly when its OPC is in the list; written to CMD it is rejected with ILLEGAL_OPCODE
and has no other effect; and every other OPC is that of a command, so that there is no custom space. -/
def Obligations.IllegalOpcodes : Prop :=
  (∀ w : CmdWord, illegalOpcode (w.extractLsb' 24 8).toNat ↔ decode w = .error .illegalOpcode) ∧
    (∀ (v : HostWord) (s : State), illegalOpcode (v.extractLsb' 24 8).toNat → s.status.err = false →
      accept v s = .next { s with status := { s.status with err := true, errcode := 1 } }) ∧
    ∀ w : CmdWord, ¬ illegalOpcode (w.extractLsb' 24 8).toNat →
      ∃ i : Instr, i.tableRow.2.extractLsb' 24 8 = w.extractLsb' 24 8

/-- R108. Of the words with the opcode of a row, exactly those are rejected with RESERVED_FIELD that have a bit in a reserved
field, or are a CHAIN command with AUX = 0 and RD ≠ 0; the rejection has no other effect. -/
def Obligations.ReservedFields : Prop :=
  (∀ (w : CmdWord) (i : Instr), w.extractLsb' 24 8 = i.tableRow.2.extractLsb' 24 8 →
    (decode w = .error .reservedField ↔
      w &&& (i.tableRow.1 &&& 0x00FFFFFF#32) ≠ 0 ∨
        ((w.extractLsb' 24 8 = 0x52 ∨ w.extractLsb' 24 8 = 0x53) ∧ w.getLsbD 6 = false ∧ w.extractLsb' 18 6 ≠ 0))) ∧
    ∀ (v : HostWord) (s : State), decode (v.setWidth 32) = .error .reservedField → s.status.err = false →
      accept v s = .next { s with status := { s.status with err := true, errcode := 2 } }

/-- The checks of R110 on operand values pass exactly for the well-formed commands (30_encoding.md section 2, 60_exceptions.md
section 2). -/
def Obligations.OperandCheckIsWellFormed : Prop :=
  ∀ (skBits : Nat) (i : Instr), operandError skBits i = none ↔ i.wellFormed skBits = true

/-- Words written out from the spec's encoding, at least one of each family, and their assembler spelling (30_encoding.md
section 4 and the examples of the commands); the eight example words of 60_exceptions.md section 2 and their codes; and the
range check of SK_BIT (41_fp.md section 5, with SK_BITS = 5). -/
def Obligations.DecodeSanity : Prop :=
  decode 0x00000000#32 = .ok .nop ∧ decode 0x03001080#32 = .ok (.mpMul 0 1 2) ∧
    decode 0x1C001083#32 = .ok (.fpSel 0 1 2 3) ∧ decode 0x1D000003#32 = .ok (.skBit 0 3) ∧
    decode 0x25002100#32 = .ok (.fp2Mul 0 2 4) ∧ decode 0x31004007#32 = .ok (.xDble 0 4 7) ∧
    decode 0x3400420A#32 = .ok (.xDblAdd 0 4 8 10) ∧ decode 0x40004000#32 = .ok (.get4 4) ∧
    decode 0x46000084#32 = .ok (.inv3Way 0 2 4) ∧ decode 0x5001869C#32 = .ok (.ladderA 0 24 26 28) ∧
    decode 0x5200C040#32 = .ok (.chainA 0 12 true) ∧
    assemble (.fp2Mul 0 2 4) = "FP2_MUL q0, q2, q4" ∧ assemble (.xDble 0 4 7) = "XDBLE p0, p4, #7" ∧
    assemble (.chainA 0 12 true) = "CHAIN_A p0, p12, aux" ∧
    commandError 5 0x07000000#32 = some .illegalOpcode ∧ commandError 5 0x12001001#32 = some .reservedField ∧
    commandError 5 0x25042100#32 = some .misalignedOperand ∧ commandError 5 0x03101080#32 = some .operandRange ∧
    commandError 5 0x34000208#32 = some .operandOverlap ∧ commandError 5 0x52A00040#32 = some .operandOverlap ∧
    commandError 5 0x52E00040#32 = some .operandRange ∧ commandError 5 0x52100000#32 = some .reservedField ∧
    commandError 5 0x1D000005#32 = some .operandRange ∧ commandError 5 0x1D000003#32 = none ∧
    errorCode .illegalOpcode = 1 ∧ errorCode .reservedField = 2 ∧ errorCode .misalignedOperand = 3 ∧
    errorCode .operandRange = 4 ∧ errorCode .operandOverlap = 5

/-! ## Taking a command -/

/-- A step with a command word at the head of the port, no command in progress and ERR clear is the command's meaning on the
state from which the host's write has been taken and answered; a command that was not rejected then leaves BUSY, the latch and
the clock count as its latency says. The second part says the same of `withFetchWord`. (60_exceptions.md section 1,
20_memory.md section 5; that the register writes are made at acceptance and seen at completion is the model's choice, log entry
7, and so is the response 0 to the write, log entry 16.) -/
def Obligations.StepRunsDecoded : Prop :=
  (∀ (s : State) (v : HostWord) (rest : List HostEvent) (i : Instr), s.cfg.wf = true → s.status.busy = false →
    s.status.err = false → s.port = .access (cmdWrite v) :: rest → decode (v.setWidth 32) = .ok i →
    step s =
      match exec i { s with port := rest, responses := ⟨0, false⟩ :: s.responses } with
      | .next t =>
        if t.status.err then .next t
        else .next
          { t with
            status := { t.status with busy := latency t.cfg (v.setWidth 32) != 0 }
            latch := if latency t.cfg (v.setWidth 32) = 0 then none else some (v.setWidth 32)
            clocksLeft := latency t.cfg (v.setWidth 32) }
      | .fault r => .fault r
      | .refused r => .refused r) ∧
    ∀ (s : State) (w : CmdWord) (i : Instr), s.cfg.wf = true → decode w = .ok i →
      step (s.withFetchWord 32 w.toNat) =
        match exec i { s with status := Status.reset, latch := none, clocksLeft := 0,
                              responses := ⟨0, false⟩ :: s.responses } with
        | .next t =>
          if t.status.err then .next t
          else .next
            { t with
              status := { t.status with busy := latency t.cfg w != 0 }
              latch := if latency t.cfg w = 0 then none else some w
              clocksLeft := latency t.cfg w }
        | .fault r => .fault r
        | .refused r => .refused r

/-- A command word that a check of R110 rejects changes ERR and ERRCODE and nothing else (the first part, and the third
says that no later command runs until ERR is cleared); it is not even looked at while an earlier command is in progress (the
second part; 60_exceptions.md section 2). The effect is R312's. The model's choices are that the response to the host's write is 0
without a bus error (log entry 16), and that no register changes at a step with BUSY = 1, since the earlier command's register
writes were made at its acceptance (log entry 7). -/
def Obligations.RejectionEffect : Prop :=
  (∀ (s : State) (v : HostWord) (rest : List HostEvent) (e : CmdError), s.cfg.wf = true → s.status.busy = false →
    s.status.err = false → s.port = .access (cmdWrite v) :: rest →
    commandError s.cfg.skBits (v.setWidth 32) = some e →
    step s = .next { s with port := rest, responses := ⟨0, false⟩ :: s.responses,
                            status := { busy := false, err := true, errcode := errorCode e } }) ∧
    (∀ (s : State) (v : HostWord) (rest : List HostEvent), s.cfg.wf = true → s.status.busy = true →
      s.port = .access (cmdWrite v) :: rest →
      ∃ t, step s = .next t ∧ t.port = s.port ∧ t.responses = s.responses ∧ t.lanes = s.lanes ∧
        t.status.err = s.status.err ∧ t.status.errcode = s.status.errcode) ∧
    ∀ (s : State) (v : HostWord) (rest : List HostEvent), s.cfg.wf = true → s.status.busy = false →
      s.status.err = true → s.port = .access (cmdWrite v) :: rest →
      step s = .next { s with port := rest, responses := ⟨0, false⟩ :: s.responses }

/-- While ERR = 1 every command word written to CMD is discarded: a host that writes any number of them loses them all,
and the state keeps its first error (R314; 60_exceptions.md section 2). That each write is answered with 0 is the model's choice (log entry 16). -/
def Obligations.StickyError : Prop :=
  ∀ (ws : List HostWord) (s : State) (rest : List HostEvent), s.cfg.wf = true → s.status.busy = false →
    s.status.err = true → s.port = (ws.map fun v => .access (cmdWrite v)) ++ rest →
    core.run ws.length s =
      .next { s with port := rest, responses := List.replicate ws.length ⟨0, false⟩ ++ s.responses }

/-- A write of v to STATUS clears ERR and ERRCODE when v[1] = 1 and does nothing otherwise; it stalls while BUSY = 1; and
every step keeps STATUS legal, so BUSY is 0 whenever ERR is 1 (R315; 60_exceptions.md section 2). That the write is answered with 0 is the model's choice (log
entry 16). -/
def Obligations.StatusClearing : Prop :=
  (∀ (s : State) (v : HostWord) (rest : List HostEvent), s.cfg.wf = true → s.status.busy = false →
    s.port = .access { addr := 0x18, bytes := 8, kind := .write v } :: rest →
    step s = .next { s with port := rest, responses := ⟨0, false⟩ :: s.responses,
                            status := if v.getLsbD 1 then { busy := false, err := false, errcode := 0 } else s.status }) ∧
    (∀ (s : State) (v : HostWord) (rest : List HostEvent), s.cfg.wf = true → s.status.busy = true →
      s.port = .access { addr := 0x18, bytes := 8, kind := .write v } :: rest →
      ∃ t, step s = .next t ∧ t.port = s.port ∧ t.status.err = s.status.err ∧ t.status.errcode = s.status.errcode) ∧
    ∀ s t : State, s.status.legal = true → step s = .next t → t.status.legal = true ∧ (t.status.err → !t.status.busy)

/-- While BUSY = 1 the port answers aligned 64-bit reads of ID, CONFIG0, CONFIG1 and STATUS at once and stalls every other access, a
CMD write among them; with BUSY = 0 the oldest access is performed (R81; 20_memory.md section 5). The model's choices are that no
register changes at a step with BUSY = 1, the one that ends the command included, since a command's register writes are made at
its acceptance (log entry 7; R310 makes them between BUSY <- 1 and BUSY <- 0), and that a read of one of the four registers that is
not 64 bits wide stalls too before it gets its bus error (log entry 24). -/
def Obligations.BusyStalls : Prop :=
  (∀ (s : State) (a : Access) (rest : List HostEvent), s.cfg.wf = true → s.status.busy = true →
    s.port = .access a :: rest →
    ¬ (a.kind = .read ∧ a.bytes = 8 ∧ (a.addr = 0x00 ∨ a.addr = 0x08 ∨ a.addr = 0x10 ∨ a.addr = 0x18)) →
    ∃ t, step s = .next t ∧ t.port = s.port ∧ t.responses = s.responses ∧ t.lanes = s.lanes ∧ t.draws = s.draws ∧
      t.status.err = s.status.err ∧ t.status.errcode = s.status.errcode) ∧
    (∀ (s : State) (a : Access) (rest : List HostEvent), s.cfg.wf = true → s.status.busy = true →
      s.port = .access a :: rest → a.kind = .read → a.bytes = 8 →
      (a.addr = 0x00 ∨ a.addr = 0x08 ∨ a.addr = 0x10 ∨ a.addr = 0x18) →
      ∃ t, step s = .next t ∧ t.port = rest ∧ t.lanes = s.lanes ∧
        t.responses = { data := if a.addr = 0x00 then Config.idWord else if a.addr = 0x08 then s.cfg.config0Word
                          else if a.addr = 0x10 then s.cfg.config1Word else s.status.word,
                        busError := false } :: s.responses) ∧
    ∀ (s : State) (a : Access) (rest : List HostEvent), s.cfg.wf = true → s.status.busy = false →
      s.port = .access a :: rest → step s = perform a { s with port := rest }

/-- A command keeps BUSY at 1 for exactly the clocks its latency gives, while the host waits or its next access stalls; then
BUSY is 0 and the latch is empty (60_exceptions.md section 1, 70_reset_and_hazards.md section 2). That nothing else, no register
in particular, changes while BUSY = 1 and at completion is the model's choice: it makes a command's register writes at
acceptance (log entry 7), where R310 makes them between BUSY <- 1 and BUSY <- 0. Which accesses stall is R81 with log entry 24. -/
def Obligations.BusyEndsAfterLatency : Prop :=
  ∀ (n : Nat) (s : State), s.cfg.wf = true → s.status.busy = true → s.clocksLeft = n + 1 →
    (s.port = [] ∨ ∃ a rest, s.port = .access a :: rest ∧ a.answeredAtOnce = false) →
    core.run (n + 1) s =
        .next { s with status := { s.status with busy := false }, latch := none, clocksLeft := 0 } ∧
      ∀ m, m ≤ n → core.run m s = .next { s with clocksLeft := n + 1 - m }

/-- Constant time (70_reset_and_hazards.md section 2): the operation kinds that a command performs are the same for any two
lanes, whatever their registers hold, SK included; and what a CMD write does to STATUS, to the latch and to the clocks it will
take is the same in any two states with one configuration. What the trace records is log entry 19, and that the clocks are an
unknown function of the configuration and the word is log entry 8. -/
def Obligations.ConstantTime : Prop :=
  (∀ (c : Config) (i : Instr) (l m : Lane) (ks ls : List OpKind), opTrace c i l = some ks → opTrace c i m = some ls →
    ks = ls) ∧
    ∀ (s t s' t' : State) (v : HostWord) (rest rest' : List HostEvent), s.Inv → t.Inv → s.cfg = t.cfg →
      s.status.busy = false → t.status.busy = false → s.status.err = false → t.status.err = false →
      s.port = .access (cmdWrite v) :: rest → t.port = .access (cmdWrite v) :: rest' →
      step s = .next s' → step t = .next t' →
      s'.status = t'.status ∧ s'.latch = t'.latch ∧ s'.clocksLeft = t'.clocksLeft

/-! ## The whole machine -/

/-- The state after reset meets the invariant, for every well-formed configuration and for the one State.reset is built for; in
it STATUS is 0, no command is in progress and no register of any lane counts as written (10_state.md section 11; the choice of
that configuration is the model's, log entry 5). -/
def Obligations.InvariantAfterReset : Prop :=
  State.reset.Inv ∧ ∀ c : Config, c.wf = true →
    (State.resetWith c).Inv ∧ (State.resetWith c).status = { busy := false, err := false, errcode := 0 } ∧
      (State.resetWith c).latch = none ∧
      ∀ l ∈ (State.resetWith c).lanes, ∀ name : RegName, (l.get name).isWritten = false

/-- Every step keeps the invariant: the configuration well formed, one lane for each ℓ < K, every register below its capacity,
STATUS legal, and a legal command in the latch exactly while BUSY = 1 (10_state.md sections 1 to 3, 7, 8 and 10,
60_exceptions.md section 1). -/
def Obligations.InvariantPreserved : Prop :=
  ∀ s t : State, s.Inv → step s = .next t → t.Inv

/-- The machine never stops: with a well-formed configuration every step has a next state, whatever the registers hold and
whatever the host does; with one that is not, every step and every command is refused (00_scope.md section 4, 60_exceptions.md
section 3; that the hardware's reading is `step` is log entry 3). -/
def Obligations.StepAlwaysAnswers : Prop :=
  ∀ s : State, (s.cfg.wf = true → (∃ t, step s = .next t) ∧ ∀ i, ∃ t, exec i s = .next t) ∧
    (s.cfg.wf = false → step s = .refused .configNotWellFormed ∧ ∀ i, exec i s = .refused .configNotWellFormed)

/-- The frame of every command: it changes no register but those it writes, in no lane, and nothing else of the engine or of
its port; a rejected one changes only STATUS. The engine has no memory and no flags (10_state.md sections 1 to 7, 60_exceptions.md
section 1, 70_reset_and_hazards.md section 3; `draws` is the model's own, log entry 3). -/
def Obligations.CommandFrame : Prop :=
  ∀ (i : Instr) (s t : State), exec i s = .next t →
    t.cfg = s.cfg ∧ t.latch = s.latch ∧ t.clocksLeft = s.clocksLeft ∧ t.port = s.port ∧ t.responses = s.responses ∧
      t.lanes.length = s.lanes.length ∧ t.status.busy = s.status.busy ∧
      (i.wellFormed s.cfg.skBits = true → t.status = s.status) ∧
      (i.wellFormed s.cfg.skBits = false → t.lanes = s.lanes ∧ t.draws = s.draws) ∧
      ∀ (k : Nat) (l m : Lane), s.lanes[k]? = some l → t.lanes[k]? = some m →
        ∀ name : RegName, name.valid = true → name ∉ writes i → m.get name = l.get name

/-- What a command writes in a lane depends on nothing but the configuration and the registers it reads in that lane
(10_state.md sections 5 and 6, 70_reset_and_hazards.md section 3). Where a bound breaks R320 leaves the values unspecified, and
two runs from states with one draw number leave the same ones only because the model indexes its free values by the draw, the
lane and the place of the destination: in that case the statement is the model's choice (log entries 3 and 17). -/
def Obligations.OnlyReadsMatter : Prop :=
  ∀ (i : Instr) (s t s' t' : State), i.wellFormed s.cfg.skBits = true → s.cfg = t.cfg → s.draws = t.draws →
    exec i s = .next s' → exec i t = .next t' →
    ∀ (k : Nat) (l m l' m' : Lane), s.lanes[k]? = some l → t.lanes[k]? = some m → s'.lanes[k]? = some l' →
      t'.lanes[k]? = some m' → (∀ name ∈ reads i, l.val name = m.val name) →
      ∀ name ∈ writes i, l'.get name = m'.get name

/-- Lanes are independent (60_exceptions.md section 4): in two states with one configuration and one draw number (the model's
own counter, log entry 3) what a command leaves in a lane depends on that lane alone; and, where no bound breaks in it, it is
what an engine with K = 1 that holds only that lane leaves. R343 excepts a lane in which a bound breaks, and for such a lane the
first part holds only because the model indexes its free values by the draw, the lane and the place of the destination: that
case is the model's choice (log entries 3 and 17). -/
def Obligations.LanesIndependent : Prop :=
  (∀ (i : Instr) (s t s' t' : State), s.cfg = t.cfg → s.draws = t.draws → exec i s = .next s' → exec i t = .next t' →
    ∀ k : Nat, s.lanes[k]? = t.lanes[k]? → s'.lanes[k]? = t'.lanes[k]?) ∧
    ∀ (i : Instr) (s t u : State) (k : Nat) (l : Lane), exec i s = .next t → s.lanes[k]? = some l →
      (ruleOf i).breaks s.cfg l = false →
      exec i { s with cfg := { s.cfg with k := 1 }, lanes := [l] } = .next u → u.lanes[0]? = t.lanes[k]?

/-- A broken bound, as the hardware takes it (60_exceptions.md section 3): nothing is reported and the command completes; in a
lane where no bound breaks the registers written hold the rule's values; in a lane where one does they hold values below their
capacity, of which nothing more is said; in both they count as written. A register becomes written when a command writes it
(R40, 10_state.md section 5), but that this holds in a lane where a bound breaks is the model's choice (log entry 3): R320 does not
say it, and the header of 45_sequenced.md says that a command that raises BoundFault writes no destination. -/
def Obligations.BoundBreakCompletes : Prop :=
  ∀ (i : Instr) (s : State), s.cfg.wf = true → i.wellFormed s.cfg.skBits = true →
    ∃ t, exec i s = .next t ∧ t.status = s.status ∧
      ∀ (k : Nat) (l m : Lane), s.lanes[k]? = some l → t.lanes[k]? = some m →
        (∀ vs, (ruleOf i).outcome s.cfg l = .ok vs → m = l.writeAll s.cfg ((writes i).zip vs)) ∧
        ((ruleOf i).breaks s.cfg l = true → ∀ name ∈ writes i, m.val name < capacity s.cfg name) ∧
        ∀ name ∈ writes i, (m.get name).isWritten = true

/-- The model faults of 60_exceptions.md section 3, as the spec's stricter run takes them: a command that reads a register not
written since reset stops with UnwrittenRead, and one whose registers are written and that breaks a bound stops with
BoundFault; a command that does neither runs as in `exec`. R320 gives BoundFault to the lowest-numbered lane; R322 gives
UnwrittenRead no order, so that in a lane it comes before BoundFault, and that the lowest-numbered lane with either fault wins,
is the model's choice (log entry 18). Which of several unwritten registers is named the statement leaves open. -/
def Obligations.StrictFaults : Prop :=
  ∀ (i : Instr) (s : State), s.cfg.wf = true → i.wellFormed s.cfg.skBits = true →
    (∀ (k : Nat) (l : Lane), s.lanes[k]? = some l →
      (∀ (j : Nat) (m : Lane), j < k → s.lanes[j]? = some m →
        (∀ name ∈ reads i, (m.get name).isWritten = true) ∧ (ruleOf i).breaks s.cfg m = false) →
      (∀ name ∈ reads i, (l.get name).isWritten = false →
        ∃ name' ∈ reads i, (l.get name').isWritten = false ∧ strictExec i s = .fault (.unwrittenRead name' k)) ∧
      ∀ op, (∀ name ∈ reads i, (l.get name).isWritten = true) → (ruleOf i).outcome s.cfg l = .error op →
        strictExec i s = .fault (.boundFault op k)) ∧
    ((∀ l ∈ s.lanes, (∀ name ∈ reads i, (l.get name).isWritten = true) ∧ (ruleOf i).breaks s.cfg l = false) →
      strictExec i s = exec i s)

/-- The stricter run refines the hardware: where it goes on, the hardware takes the same step, and where it stops the hardware
goes on (60_exceptions.md section 3). -/
def Obligations.StrictRefines : Prop :=
  (∀ s t : State, strictStep s = .next t → step s = .next t) ∧
    ∀ (s : State) (f : Fault), strictStep s = .fault f → ∃ t, step s = .next t

/-- The reset input, at any time: a command in progress is abandoned, BUSY, ERR and ERRCODE become 0, the latch is
emptied, every register of every lane becomes unwritten, with some value below its capacity, and the configuration stays; then
the engine waits (R350; 70_reset_and_hazards.md section 1). That it takes one clock, in its turn among the host's events, is the model's choice (log entries 9 and 21). -/
def Obligations.ResetInput : Prop :=
  ∀ (s : State) (rest : List HostEvent), s.cfg.wf = true → s.port = .reset :: rest →
    ∃ t, step s = .next t ∧ t.status = { busy := false, err := false, errcode := 0 } ∧ t.latch = none ∧
      t.clocksLeft = 0 ∧ t.cfg = s.cfg ∧ t.port = rest ∧ t.lanes.length = s.cfg.k ∧
      (∀ l ∈ t.lanes, ∀ (name : RegName) (j : Nat), (l.get name).wordWritten j = false) ∧
      (∀ l ∈ t.lanes, ∀ name : RegName, (l.get name).isWritten = false ∧ l.val name < capacity s.cfg name) ∧
      (rest = [] → step t = .next t)

/-! ## The host port -/

/-- A host read of ID returns 0x41565853 in bits 31:0, 1 in bits 47:32 and 0 above; a write of it is a bus error (R46; 10_state.md
section 8, 20_memory.md section 3). That the data of the answer to that write is 0 is the model's choice (log entry 16). -/
def Obligations.IdRegister : Prop :=
  (∀ (s : State) (rest : List HostEvent), s.cfg.wf = true →
    s.port = .access { addr := 0x00, bytes := 8, kind := .read } :: rest →
    ∃ t r, step s = .next t ∧ t.responses = ⟨r, false⟩ :: s.responses ∧ r.extractLsb' 0 32 = 0x41565853#32 ∧
      r.extractLsb' 32 16 = 0x0001#16 ∧ r.extractLsb' 48 16 = 0#16) ∧
    ∀ (s : State) (v : HostWord) (rest : List HostEvent), s.cfg.wf = true → s.status.busy = false →
      s.port = .access { addr := 0x00, bytes := 8, kind := .write v } :: rest →
      step s = .next { s with port := rest, responses := ⟨0, true⟩ :: s.responses }

/-- The configuration is hardwired: no step changes it. With BUSY = 0 a host read of CONFIG0 or CONFIG1 answers its word (with
BUSY = 1 too: BusyStalls), and a host read of CMD, which is write-only, answers 0; a read changes nothing but the port and the
responses. The words hold the values of the configuration in their fields, for a configuration whose values fit them
(10_state.md section 8, R47 and R48; what a value that does not fit reads as is the model's choice, log entry 12). -/
def Obligations.ConfigRegisters : Prop :=
  (∀ s t : State, step s = .next t → t.cfg = s.cfg) ∧
  (∀ (s : State) (rest : List HostEvent), s.cfg.wf = true → s.status.busy = false →
    (s.port = .access { addr := 0x08, bytes := 8, kind := .read } :: rest →
      step s = .next { s with port := rest, responses := ⟨s.cfg.config0Word, false⟩ :: s.responses }) ∧
    (s.port = .access { addr := 0x10, bytes := 8, kind := .read } :: rest →
      step s = .next { s with port := rest, responses := ⟨s.cfg.config1Word, false⟩ :: s.responses }) ∧
    (s.port = .access { addr := 0x20, bytes := 8, kind := .read } :: rest →
      step s = .next { s with port := rest, responses := ⟨0, false⟩ :: s.responses })) ∧
  ∀ c : Config, c.wf = true → c.eA < 65536 → c.eB < 65536 → c.skBits < 65536 → c.obobBits < 65536 → c.maxPts < 256 →
    c.invNT < 256 →
    (c.config0Word.extractLsb' 0 8).toNat = c.w ∧ (c.config0Word.extractLsb' 8 8).toNat = c.n ∧
      (c.config0Word.extractLsb' 16 8).toNat = c.k ∧ c.config0Word.extractLsb' 24 8 = 0#8 ∧
      (c.config0Word.extractLsb' 32 16).toNat = c.eA ∧ (c.config0Word.extractLsb' 48 16).toNat = c.eB ∧
      (c.config1Word.extractLsb' 0 16).toNat = c.skBits ∧ (c.config1Word.extractLsb' 16 16).toNat = c.obobBits ∧
      (c.config1Word.extractLsb' 32 8).toNat = c.maxPts ∧ (c.config1Word.extractLsb' 40 8).toNat = c.invNT ∧
      (c.config1Word.extractLsb' 48 8).toNat =
        (if c.eA = 216 ∧ c.eB = 137 then 0 else if c.eA = 250 ∧ c.eB = 159 then 1
          else if c.eA = 305 ∧ c.eB = 192 then 2 else if c.eA = 372 ∧ c.eB = 239 then 3 else 0xFF) ∧
      c.config1Word.extractLsb' 56 8 = 0#8

/-- The bits of STATUS as a host reads them, at any time: BUSY, ERR, ERRCODE, and 0 in every reserved bit (10_state.md section
8). -/
def Obligations.StatusRegister : Prop :=
  ∀ (s : State) (rest : List HostEvent), s.cfg.wf = true →
    s.port = .access { addr := 0x18, bytes := 8, kind := .read } :: rest →
    ∃ t r, step s = .next t ∧ t.responses = ⟨r, false⟩ :: s.responses ∧ r.getLsbD 0 = s.status.busy ∧
      r.getLsbD 1 = s.status.err ∧ r.extractLsb' 2 2 = 0#2 ∧ r.extractLsb' 4 4 = s.status.errcode ∧
      r.extractLsb' 8 56 = 0#56

/-- A host write of u to limb j of an E or D register replaces limb j by the low w bits of u, marks it written, and
changes nothing else; a register counts as written once each of its limbs is marked, or once a command has written it (R76; 20_memory.md section 3). That the
write is answered with 0 is the model's choice (log entry 16). -/
def Obligations.HostWriteLimb : Prop :=
  (∀ (s : State) (rest : List HostEvent) (lane j : Nat) (l : Lane) (name : RegName) (u : HostWord), s.cfg.wf = true →
    s.status.busy = false → lane < s.cfg.k → s.lanes[lane]? = some l → name ≠ .sk → name.valid = true →
    j < limbCount s.cfg name →
    s.port = .access { addr := BitVec.ofNat 24 (regAddress lane name j), bytes := 8, kind := .write u } :: rest →
    step s = .next
      { s with
        port := rest
        responses := ⟨0, false⟩ :: s.responses
        lanes := s.lanes.set lane (l.put name
          { val := l.val name - l.val name / 2 ^ (s.cfg.w * j) % 2 ^ s.cfg.w * 2 ^ (s.cfg.w * j) +
              u.toNat % 2 ^ s.cfg.w * 2 ^ (s.cfg.w * j)
            written := (l.get name).written.set j true }) }) ∧
    (∀ x : Reg, x.isWritten = true ↔ ∀ j, j < x.written.length → x.wordWritten j = true) ∧
    ∀ (c : Config) (l : Lane) (name : RegName) (v : Nat), ((l.write c name v).get name).isWritten = true

/-- A host read of limb j of an E or D register returns (v div 2^(w·j)) mod 2^w when that limb has been written, and some word
below 2^w when it has not; it changes no register, no STATUS bit and no latch (20_memory.md sections 3 and 4). R75 says the
first of a written register; that it holds of a written limb of a register whose other limbs are not all written is the model's
choice (log entry 4). -/
def Obligations.HostReadLimb : Prop :=
  ∀ (s : State) (rest : List HostEvent) (lane j : Nat) (l : Lane) (name : RegName), s.cfg.wf = true →
    s.status.busy = false → lane < s.cfg.k → s.lanes[lane]? = some l → name ≠ .sk → name.valid = true →
    j < limbCount s.cfg name →
    s.port = .access { addr := BitVec.ofNat 24 (regAddress lane name j), bytes := 8, kind := .read } :: rest →
    ∃ t r, step s = .next t ∧ t.responses = ⟨r, false⟩ :: s.responses ∧ t.lanes = s.lanes ∧ t.status = s.status ∧
      t.latch = s.latch ∧ t.port = rest ∧ r.toNat < 2 ^ s.cfg.w ∧
      ((l.get name).wordWritten j = true → r.toNat = l.val name / 2 ^ (s.cfg.w * j) % 2 ^ s.cfg.w)

/-- A host write of u to word j of SK sets bits 64j+63 to 64j of SK to u, drops bits at or above SK_BITS and leaves the other
bits, and SK then counts as written exactly if every other word was; a read of word j returns those bits, 0 at or above SK_BITS,
once that word has been written (20_memory.md section 3). The write clause is R77's, but that the write is answered with 0 is
the model's choice (log entry 16); and so is that the read clause holds once word j is written, though the other words of SK
may not be (log entry 4). -/
def Obligations.HostScalar : Prop :=
  (∀ (s : State) (rest : List HostEvent) (lane j : Nat) (l : Lane) (u : HostWord), s.cfg.wf = true →
    s.status.busy = false → lane < s.cfg.k → s.lanes[lane]? = some l → j < s.cfg.skWords →
    l.sk.val < 2 ^ s.cfg.skBits →
    s.port = .access { addr := BitVec.ofNat 24 (regAddress lane .sk j), bytes := 8, kind := .write u } :: rest →
    ∃ x : Reg,
      step s = .next { s with port := rest, responses := ⟨0, false⟩ :: s.responses,
                              lanes := s.lanes.set lane { l with sk := x } } ∧
        x.written = l.sk.written.set j true ∧
        (l.sk.written.length = s.cfg.skWords →
          (x.isWritten = true ↔ ∀ i, i < s.cfg.skWords → i = j ∨ l.sk.wordWritten i = true)) ∧
        ∀ b : Nat, x.val.testBit b =
          if s.cfg.skBits ≤ b then false
          else if 64 * j ≤ b ∧ b < 64 * j + 64 then u.getLsbD (b - 64 * j) else l.sk.val.testBit b) ∧
    ∀ (s : State) (rest : List HostEvent) (lane j : Nat) (l : Lane), s.cfg.wf = true →
      s.status.busy = false → lane < s.cfg.k → s.lanes[lane]? = some l → j < s.cfg.skWords →
      l.sk.val < 2 ^ s.cfg.skBits →
      s.port = .access { addr := BitVec.ofNat 24 (regAddress lane .sk j), bytes := 8, kind := .read } :: rest →
      ∃ t r, step s = .next t ∧ t.responses = ⟨r, false⟩ :: s.responses ∧ t.lanes = s.lanes ∧
        (∀ b : Nat, b < 64 → s.cfg.skBits ≤ 64 * j + b → r.getLsbD b = false) ∧
        (l.sk.wordWritten j = true → ∀ b : Nat, b < 64 → r.getLsbD b = l.sk.val.testBit (64 * j + b))

/-- A host that writes every limb of an E register, in the order of their addresses, makes it written and leaves in it the
value whose limbs they are (20_memory.md section 3, 70_reset_and_hazards.md section 3). -/
def Obligations.HostLoadsRegister : Prop :=
  ∀ (c : Config) (x : Reg) (u : Nat → Nat), c.wf = true → x.val < c.r → x.written.length = c.n →
    let y := (List.range c.n).foldl (fun z j => z.hostWriteLimb c.w j (u j)) x
    y.isWritten = true ∧ y.val < c.r ∧ y.val = ((List.range c.n).map fun j => u j % 2 ^ c.w * 2 ^ (c.w * j)).sum

/-- The lane windows: each limb of E[i] and D[d] and each word of SK of a lane below K is at its address; and an aligned
address that is none of these, nor in the ROM window or a shared register, is unmapped; an access to an unmapped address gets a
bus error; and N is at most 32, K at most 16 (R74; 20_memory.md sections 2 and 3). That the data of the answer to such a write is
0 is the model's choice (log entry 16). -/
def Obligations.AddressMap : Prop :=
  (∀ (c : Config) (lane j : Nat) (name : RegName), c.wf = true → lane < c.k → name.valid = true → j < limbCount c name →
    targetOf c (regAddress lane name j) = some (.reg lane name j)) ∧
    (∀ (c : Config) (a : Nat) (t : Target), c.wf = true → a % 8 = 0 → a < 2 ^ 24 → targetOf c a = some t →
      match t with
      | .reg lane name j => lane < c.k ∧ name.valid = true ∧ j < limbCount c name ∧ a = regAddress lane name j
      | .rom k j => k < 6 ∧ j < c.n ∧ a = 0x001000 + k * 0x100 + 8 * j
      | .id => a = 0x000000
      | .config0 => a = 0x000008
      | .config1 => a = 0x000010
      | .status => a = 0x000018
      | .cmd => a = 0x000020) ∧
    (∀ (s : State) (a : Access) (rest : List HostEvent), s.cfg.wf = true → s.status.busy = false →
      s.port = .access a :: rest → targetOf s.cfg a.addr.toNat = none →
      step s = .next { s with port := rest, responses := ⟨0, true⟩ :: s.responses }) ∧
    ∀ c : Config, c.wf = true → c.n ≤ 32 ∧ c.k ≤ 16

/-- R73. A host read of limb j of ROM constant k returns limb j of the constant; and the constants are those of R49: 0, R mod p,
R² mod p, 1, p and 2p. -/
def Obligations.RomWindow : Prop :=
  (∀ (s : State) (rest : List HostEvent) (k j : Nat), s.cfg.wf = true → s.status.busy = false → k < 6 → j < s.cfg.n →
    s.port = .access { addr := BitVec.ofNat 24 (0x001000 + k * 0x100 + 8 * j), bytes := 8, kind := .read } :: rest →
    ∃ r : HostWord, step s = .next { s with port := rest, responses := ⟨r, false⟩ :: s.responses } ∧
      r.toNat = s.cfg.rom k / 2 ^ (s.cfg.w * j) % 2 ^ s.cfg.w) ∧
    ∀ c : Config, c.rom 0 = 0 ∧ c.rom 1 = c.r % c.p ∧ c.rom 2 = c.r ^ 2 % c.p ∧ c.rom 3 = 1 ∧ c.rom 4 = c.p ∧
      c.rom 5 = 2 * c.p

/-- The accesses that get a bus error (R78), for a configuration c. -/
def badAccess (c : Config) (a : Access) : Prop :=
  a.bytes ≠ 8 ∨ a.addr.toNat % 8 ≠ 0 ∨ targetOf c a.addr.toNat = none ∨
    ∃ v, a.kind = .write v ∧ (targetOf c a.addr.toNat = some .id ∨ targetOf c a.addr.toNat = some .config0 ∨
      targetOf c a.addr.toNat = some .config1 ∨ ∃ k j, targetOf c a.addr.toNat = some (.rom k j))

/-- A bus error has no effect on any state and answers 0 with the error response; the accesses that get one are exactly
those that are not 64 bits wide or not aligned, those to an unmapped address and writes to ID, CONFIG0, CONFIG1 or the ROM
window, so that a write to the reserved bits of STATUS gets none (R78; 20_memory.md section 3). R78 gives the data 0 for a read; that
the answer to a write has it too is the model's choice (log entry 16). -/
def Obligations.BusErrors : Prop :=
  (∀ (s : State) (a : Access) (rest : List HostEvent), s.cfg.wf = true → s.status.busy = false →
    s.port = .access a :: rest → badAccess s.cfg a →
    step s = .next { s with port := rest, responses := ⟨0, true⟩ :: s.responses }) ∧
    ∀ (s t : State) (a : Access) (rest : List HostEvent), s.lanes.length = s.cfg.k → s.status.busy = false →
      s.port = .access a :: rest → ¬ badAccess s.cfg a → step s = .next t →
      ∃ r, t.responses = ⟨r, false⟩ :: s.responses

/-- Host reads have no side effect on the engine (20_memory.md section 4): no register, no STATUS bit, no latch and no clock
count changes but by the clock that passes while BUSY = 1. That no register changes at a step with BUSY = 1, the one that ends the
command included, is the model's choice: a command's register writes are made at its acceptance (log entry 7), where R310 makes
them before BUSY <- 0. -/
def Obligations.ReadsHaveNoSideEffect : Prop :=
  ∀ (s t : State) (a : Access) (rest : List HostEvent), a.kind = .read → s.port = .access a :: rest → step s = .next t →
    t.cfg = s.cfg ∧ t.lanes = s.lanes ∧ t.status.err = s.status.err ∧ t.status.errcode = s.status.errcode ∧
      (s.status.busy = false → t.status = s.status ∧ t.latch = s.latch ∧ t.clocksLeft = s.clocksLeft ∧ t.port = rest)

/-! ## Montgomery reduction and the laws of the field functions -/

/-- R52. MONT_ONE, MONT_R2 and ONE2 are R mod p, R² mod p and (MONT_ONE, 0); pinv is the inverse of p modulo R, below R; p is
odd. -/
def Obligations.DerivedConstants : Prop :=
  ∀ c : Config, c.wf = true →
    c.montOne = c.r % c.p ∧ c.montR2 = c.r ^ 2 % c.p ∧ c.one2 = ⟨c.montOne, 0⟩ ∧ c.pinv < c.r ∧
      c.p * c.pinv % c.r = 1 ∧ c.p % 2 = 1

/-- R150. REDC answers (x + q·p) div R, an exact division, with q = (−x·pinv) mod R for x < p·R: an integer below 2p whose product
with R is congruent to x modulo p; and it breaks its bound for every other x. -/
def Obligations.RedcFormula : Prop :=
  ∀ (c : Config) (x : Nat), c.wf = true →
    (x < c.p * c.r → ∃ q, q < c.r ∧ (q : Int) ≡ -(x : Int) * c.pinv [ZMOD c.r] ∧
      (redc c x).answer = .ok ((x + q * c.p) / c.r) ∧ c.r ∣ x + q * c.p ∧
      (x + q * c.p) / c.r * c.r ≡ x [MOD c.p] ∧ (x + q * c.p) / c.r < 2 * c.p) ∧
    (c.p * c.r ≤ x → (redc c x).answer = .error .redc)

/-- For x < p·R the engine's REDC completes with a value v, for which, with q = (−x·pinv) mod R: (x + q·p) is divisible by R and
v is the quotient; v·R ≡ x (mod p); v < x/R + p < 2p; v = 0 for x = 0; and v < (3/4)p + p < 2p for x ≤ 24p² (40_limb.md section
3). -/
def Obligations.RedcProperties : Prop :=
  ∀ (c : Config) (x : Nat), c.wf = true → x < c.p * c.r →
    ∃ v q : Nat, (redc c x).answer = .ok v ∧ q < c.r ∧ (q : Int) ≡ -(x : Int) * c.pinv [ZMOD c.r] ∧
      c.r ∣ x + q * c.p ∧ v * c.r = x + q * c.p ∧
      v * c.r ≡ x [MOD c.p] ∧
      (v : ℚ) < x / c.r + c.p ∧ (x : ℚ) / c.r + c.p < 2 * c.p ∧
      (x = 0 → v = 0) ∧
      (x ≤ 24 * c.p ^ 2 → (v : ℚ) < 3 / 4 * c.p + c.p ∧ (3 / 4 * c.p + c.p : ℚ) < 2 * c.p)

/-- R153. On working operands MP_MUL then MP_RDC leave in e what FP_MUL leaves there; and the sequence of eight limb commands
leaves in e_c1, whichever E register that is, the component c1 of FP2_MUL, bit for bit (the two registers of the sums are none of
the operands and differ); its sums cannot overflow, for 4p < R. -/
def Obligations.CompositionLaw : Prop :=
  (∀ c : Config, c.wf = true → 4 * c.p < c.r) ∧ (∀ (s s1 s2 s3 : State) (d e a b : RegNum), s.cfg.wf = true → d.toNat < 4 →
    (∀ l ∈ s.lanes, l.rE a ≤ 2 * s.cfg.p ∧ l.rE b ≤ 2 * s.cfg.p) →
    exec (.mpMul d a b) s = .next s1 → exec (.mpRdc e d) s1 = .next s2 → exec (.fpMul e a b) s = .next s3 →
    s2.lanes.map (·.rE e) = s3.lanes.map (·.rE e)) ∧
    ∀ (s s1 s2 s3 s4 s5 s6 s7 s8 s9 : State) (x y a b q es et ec : RegNum), s.cfg.wf = true →
      x.isQ = true → y.isQ = true → q.isQ = true →
      es ∉ [x, x + 1, y, y + 1] → et ∉ [x, x + 1, y, y + 1, es] → a = x + 1 → b = y + 1 →
      (∀ l ∈ s.lanes, l.rE x ≤ 2 * s.cfg.p ∧ l.rE a ≤ 2 * s.cfg.p ∧ l.rE y ≤ 2 * s.cfg.p ∧ l.rE b ≤ 2 * s.cfg.p) →
      exec (.mpAdd es x a) s = .next s1 → exec (.mpAdd et y b) s1 = .next s2 →
      exec (.mpMul 0 es et) s2 = .next s3 → exec (.mpMul 1 x y) s3 = .next s4 → exec (.mpMul 2 a b) s4 = .next s5 →
      exec (.mpDsub 0 0 1) s5 = .next s6 → exec (.mpDsub 0 0 2) s6 = .next s7 → exec (.mpRdc ec 0) s7 = .next s8 →
      exec (.fp2Mul q x y) s = .next s9 →
      s8.lanes.map (·.rE ec) = s9.lanes.map (·.rE (q + 1))

/-- A function of one operand completes, with a value of at most `top`, exactly when the operand is in [0, 2p], and otherwise
breaks the bound `op`. -/
def bounded1 (c : Config) (op : BoundOp) (top : Nat) (f : Nat → Eng Nat) : Prop :=
  ∀ a, (a ≤ 2 * c.p → ∃ v, (f a).answer = .ok v ∧ v ≤ top) ∧ (2 * c.p < a → (f a).answer = .error op)

/-- The same of a function of two operands. -/
def bounded2 (c : Config) (op : BoundOp) (top : Nat) (f : Nat → Nat → Eng Nat) : Prop :=
  ∀ a b, (a ≤ 2 * c.p ∧ b ≤ 2 * c.p → ∃ v, (f a b).answer = .ok v ∧ v ≤ top) ∧
    (2 * c.p < a ∨ 2 * c.p < b → (f a b).answer = .error op)

/-- The working bound: every Fp function completes on operands in [0, 2p] with a value in [0, 2p], fpcorr and frommont with
one in [0, p), and breaks its own bound on any other operand; FP_MOV, FP_SEL, FP_LDC and SK_BIT break none (R160; 41_fp.md section
1). That the bound of each function bears the function's name is the model's choice (log entry 20): R160 writes op. -/
def Obligations.WorkingBound : Prop :=
  ∀ c : Config, c.wf = true →
    (bounded2 c .fpadd (2 * c.p) (fpadd c) ∧ bounded2 c .fpsub (2 * c.p) (fpsub c) ∧
      bounded1 c .fpneg (2 * c.p) (fpneg c) ∧ bounded1 c .fpdiv2 (2 * c.p) (fpdiv2 c) ∧
      bounded1 c .fpcorr (c.p - 1) (fpcorr c) ∧ bounded2 c .fpmul (2 * c.p) (fpmul c) ∧
      bounded1 c .fpsqr (2 * c.p) (fpsqr c) ∧ bounded1 c .fpinv (2 * c.p) (fpinv c) ∧
      bounded1 c .tomont (2 * c.p) (tomont c) ∧ bounded1 c .frommont (c.p - 1) (frommont c)) ∧
    ∀ (l : Lane) (rd rs1 rs2 rs3 : RegNum) (n : Imm12),
      (ruleOf (.fpMov rd rs1)).breaks c l = false ∧ (ruleOf (.fpSel rd rs1 rs2 rs3)).breaks c l = false ∧
        (ruleOf (.fpLdc rd rs1)).breaks c l = false ∧ (ruleOf (.skBit rd n)).breaks c l = false

/-- R176. The laws of the Fp functions on a, b in [0, 2p], the last of them but three for p prime. -/
def Obligations.FpLaws : Prop :=
  ∀ (c : Config) (a b : Nat), c.wf = true → a ≤ 2 * c.p → b ≤ 2 * c.p →
    (∃ v, (fpadd c a b).answer = .ok v ∧ v ≡ a + b [MOD c.p]) ∧
    (∃ v, (fpsub c a b).answer = .ok v ∧ (v : Int) ≡ a - b [ZMOD c.p]) ∧
    (∃ v, (fpneg c a).answer = .ok v ∧ (v : Int) ≡ -a [ZMOD c.p]) ∧
    (∃ v, (fpdiv2 c a).answer = .ok v ∧ 2 * v ≡ a [MOD c.p]) ∧
    (fpcorr c a).answer = .ok (a % c.p) ∧
    (∃ v, (fpmul c a b).answer = .ok v ∧ v * c.r ≡ a * b [MOD c.p]) ∧
    (fpsqr c a).answer = (fpmul c a a).answer ∧
    (∃ v, (tomont c a).answer = .ok v ∧ v ≡ a * c.r [MOD c.p]) ∧
    (∃ v, (frommont c a).answer = .ok v ∧ v < c.p ∧ v * c.r ≡ a [MOD c.p]) ∧
    (c.p.Prime → a % c.p ≠ 0 →
      ∃ v u, (fpinv c a).answer = .ok v ∧ (fpmul c a v).answer = .ok u ∧ u ≡ c.r [MOD c.p] ∧
        (frommont c u).answer = .ok 1) ∧
    (a < c.p → ∃ v, (tomont c a).answer = .ok v ∧ (frommont c v).answer = .ok a) ∧
    (∃ x y v, (tomont c a).answer = .ok x ∧ (tomont c b).answer = .ok y ∧ (fpmul c x y).answer = .ok v ∧
      (frommont c v).answer = .ok (a * b % c.p)) ∧
    (∃ v u, (fpneg c a).answer = .ok v ∧ (fpadd c a v).answer = .ok u ∧ u ≡ 0 [MOD c.p])

/-- R213. The laws of the Fp² functions on operands with components in [0, 2p], the inversion law for p prime; the last part says
that fp2sqr and fp2mul do not agree bit for bit. -/
def Obligations.Fp2Laws : Prop :=
  (∀ (c : Config) (a b : Fp2), c.wf = true → c.Working2 a → c.Working2 b →
    (∃ v, (fp2mul c a b).answer = .ok v ∧
      (v.a0 * c.r : Int) ≡ a.a0 * b.a0 - a.a1 * b.a1 [ZMOD c.p] ∧
      (v.a1 * c.r : Int) ≡ a.a0 * b.a1 + a.a1 * b.a0 [ZMOD c.p]) ∧
    (∃ v u w, (fp2sqr c a).answer = .ok v ∧ (fp2mul c a a).answer = .ok u ∧ (fp2corr c v).answer = .ok w ∧
      (fp2corr c u).answer = .ok w) ∧
    (a.a0 < c.p → a.a1 < c.p → b.a0 < c.p → b.a1 < c.p →
      ∃ x y v w, (fp2tomont c a).answer = .ok x ∧ (fp2tomont c b).answer = .ok y ∧ (fp2mul c x y).answer = .ok v ∧
        (fp2frommont c v).answer = .ok w ∧ (w.a0 : Int) = (a.a0 * b.a0 - a.a1 * b.a1 : Int) % c.p ∧
        (w.a1 : Int) = (a.a0 * b.a1 + a.a1 * b.a0 : Int) % c.p) ∧
    (c.p.Prime → (a.a0 % c.p ≠ 0 ∨ a.a1 % c.p ≠ 0) →
      ∃ v u, (fp2inv c a).answer = .ok v ∧ (fp2mul c a v).answer = .ok u ∧ u.a0 ≡ c.montOne [MOD c.p] ∧
        u.a1 ≡ 0 [MOD c.p]) ∧
    (a.a0 < c.p → a.a1 < c.p → ∃ v, (fp2tomont c a).answer = .ok v ∧ (fp2frommont c v).answer = .ok a) ∧
    (∃ v u, (fp2neg c a).answer = .ok v ∧ (fp2add c a v).answer = .ok u ∧ u.a0 ≡ 0 [MOD c.p] ∧ u.a1 ≡ 0 [MOD c.p])) ∧
    ∃ (c : Config) (a : Fp2), c.wf = true ∧ c.Working2 a ∧ (fp2sqr c a).answer ≠ (fp2mul c a a).answer

/-! ## The results of the commands

Each statement says that `exec` answers a next state, which one, and with it that nothing else changes. -/

/-- NOP and the limb commands: NOP changes nothing; MP_ADD, MP_SUB, MP_MUL, MP_DADD and MP_DSUB are the integer operations while
the result is in the register's range; MP_RDC is REDC for an operand below p·R; and outside those ranges each breaks its bound,
under the name 40_limb.md gives it (30_encoding.md section 3, 40_limb.md sections 2 and 3, 60_exceptions.md section 3). -/
def Obligations.LimbResults : Prop :=
  ∀ s : State, s.cfg.wf = true →
    exec .nop s = .next s ∧
    (∀ rd rs1 rs2 : RegNum, (∀ l ∈ s.lanes, l.rE rs1 + l.rE rs2 < s.cfg.r) →
      Writes (.mpAdd rd rs1 rs2) s [.e rd] fun l => [l.rE rs1 + l.rE rs2]) ∧
    (∀ rd rs1 rs2 : RegNum, (∀ l ∈ s.lanes, l.rE rs2 ≤ l.rE rs1) →
      Writes (.mpSub rd rs1 rs2) s [.e rd] fun l => [l.rE rs1 - l.rE rs2]) ∧
    (∀ rd rs1 rs2 : RegNum, rd.toNat < 4 → Writes (.mpMul rd rs1 rs2) s [.d rd] fun l => [l.rE rs1 * l.rE rs2]) ∧
    (∀ rd rs1 : RegNum, rs1.toNat < 4 → (∀ l ∈ s.lanes, l.rD rs1 < s.cfg.p * s.cfg.r) →
      Writes (.mpRdc rd rs1) s [.e rd] fun l => [s.cfg.montgomery (l.rD rs1)]) ∧
    (∀ rd rs1 rs2 : RegNum, rd.toNat < 4 → rs1.toNat < 4 → rs2.toNat < 4 →
      (∀ l ∈ s.lanes, l.rD rs1 + l.rD rs2 < s.cfg.r ^ 2) →
      Writes (.mpDadd rd rs1 rs2) s [.d rd] fun l => [l.rD rs1 + l.rD rs2]) ∧
    (∀ rd rs1 rs2 : RegNum, rd.toNat < 4 → rs1.toNat < 4 → rs2.toNat < 4 → (∀ l ∈ s.lanes, l.rD rs2 ≤ l.rD rs1) →
      Writes (.mpDsub rd rs1 rs2) s [.d rd] fun l => [l.rD rs1 - l.rD rs2]) ∧
    ∀ (rd rs1 rs2 : RegNum) (l : Lane),
      (s.cfg.r ≤ l.rE rs1 + l.rE rs2 → (ruleOf (.mpAdd rd rs1 rs2)).outcome s.cfg l = .error .mpAdd) ∧
      (l.rE rs1 < l.rE rs2 → (ruleOf (.mpSub rd rs1 rs2)).outcome s.cfg l = .error .mpSub) ∧
      (s.cfg.p * s.cfg.r ≤ l.rD rs1 → (ruleOf (.mpRdc rd rs1)).outcome s.cfg l = .error .redc) ∧
      (s.cfg.r ^ 2 ≤ l.rD rs1 + l.rD rs2 → (ruleOf (.mpDadd rd rs1 rs2)).outcome s.cfg l = .error .mpDadd) ∧
      (l.rD rs1 < l.rD rs2 → (ruleOf (.mpDsub rd rs1 rs2)).outcome s.cfg l = .error .mpDsub)

/-- The additive Fp commands on operands in [0, 2p]: FP_ADD subtracts 2p from a sum that reaches it, FP_SUB adds 2p to a
negative difference, FP_NEG is 2p − a, FP_DIV2 halves a or a + p, FP_CORR is a mod p (41_fp.md section 2). -/
def Obligations.FpAdditiveResults : Prop :=
  ∀ (s : State) (rd rs1 rs2 : RegNum), s.cfg.wf = true → (∀ l ∈ s.lanes, l.rE rs1 ≤ 2 * s.cfg.p) →
    ((∀ l ∈ s.lanes, l.rE rs2 ≤ 2 * s.cfg.p) →
      Writes (.fpAdd rd rs1 rs2) s [.e rd] (fun l =>
        [if 2 * s.cfg.p ≤ l.rE rs1 + l.rE rs2 then l.rE rs1 + l.rE rs2 - 2 * s.cfg.p else l.rE rs1 + l.rE rs2]) ∧
      Writes (.fpSub rd rs1 rs2) s [.e rd] fun l =>
        [((l.rE rs1 : Int) - l.rE rs2 + if (l.rE rs1 : Int) - l.rE rs2 < 0 then 2 * s.cfg.p else 0).toNat]) ∧
    Writes (.fpNeg rd rs1) s [.e rd] (fun l => [2 * s.cfg.p - l.rE rs1]) ∧
    Writes (.fpDiv2 rd rs1) s [.e rd] (fun l =>
      [(if l.rE rs1 % 2 = 1 then l.rE rs1 + s.cfg.p else l.rE rs1) / 2]) ∧
    Writes (.fpCorr rd rs1) s [.e rd] fun l => [l.rE rs1 % s.cfg.p]

/-- The multiplicative Fp commands and the domain conversions on operands in [0, 2p], through REDC (41_fp.md sections 3 and
4). -/
def Obligations.FpMultiplicativeResults : Prop :=
  ∀ (s : State) (rd rs1 rs2 : RegNum), s.cfg.wf = true → (∀ l ∈ s.lanes, l.rE rs1 ≤ 2 * s.cfg.p) →
    ((∀ l ∈ s.lanes, l.rE rs2 ≤ 2 * s.cfg.p) →
      Writes (.fpMul rd rs1 rs2) s [.e rd] fun l => [s.cfg.montgomery (l.rE rs1 * l.rE rs2)]) ∧
    Writes (.fpSqr rd rs1) s [.e rd] (fun l => [s.cfg.montgomery (l.rE rs1 * l.rE rs1)]) ∧
    Writes (.fpToMont rd rs1) s [.e rd] (fun l => [s.cfg.montgomery (l.rE rs1 * s.cfg.montR2)]) ∧
    Writes (.fpFromMont rd rs1) s [.e rd] fun l => [s.cfg.montgomery (l.rE rs1) % s.cfg.p]

/-- FP_INV completes on every operand in [0, 2p], 0 included; its result is a working value that represents the operand to the
power p − 2, which for p prime is the inverse of a nonzero element and 0 for 0 (41_fp.md section 3, 60_exceptions.md section
3). -/
def Obligations.FpInverseResult : Prop :=
  ∀ (s : State) (rd rs1 : RegNum), s.cfg.wf = true → (∀ l ∈ s.lanes, l.rE rs1 ≤ 2 * s.cfg.p) →
    ∃ f : Nat → Nat, Writes (.fpInv rd rs1) s [.e rd] (fun l => [f (l.rE rs1)]) ∧
      ∀ a, a ≤ 2 * s.cfg.p →
        f a < 2 * s.cfg.p ∧ s.cfg.elem (f a) = s.cfg.elem a ^ (s.cfg.p - 2) ∧
        (s.cfg.p.Prime → (a % s.cfg.p ≠ 0 → s.cfg.elem a * s.cfg.elem (f a) = 1) ∧
          (a % s.cfg.p = 0 → s.cfg.elem (f a) = 0)) ∧
        f 0 = 0

/-- FP_MOV, FP_LDC, FP_SEL and SK_BIT, without a bound on what they copy: the source, ROM[k], the first or the second operand
by bit 0 of the selector, bit n of SK (41_fp.md section 5). -/
def Obligations.FpMoveResults : Prop :=
  ∀ s : State, s.cfg.wf = true →
    (∀ rd rs1 : RegNum, Writes (.fpMov rd rs1) s [.e rd] fun l => [l.rE rs1]) ∧
    (∀ rd k : RegNum, k.toNat < 6 → Writes (.fpLdc rd k) s [.e rd] fun _ =>
      [if k = 0 then 0 else if k = 1 then s.cfg.r % s.cfg.p else if k = 2 then s.cfg.r ^ 2 % s.cfg.p
        else if k = 3 then 1 else if k = 4 then s.cfg.p else 2 * s.cfg.p]) ∧
    (∀ rd rs1 rs2 rs3 : RegNum, Writes (.fpSel rd rs1 rs2 rs3) s [.e rd] fun l =>
      [if (l.rE rs3).testBit 0 then l.rE rs1 else l.rE rs2]) ∧
    ∀ (rd : RegNum) (n : Imm12), n.toNat < s.cfg.skBits →
      Writes (.skBit rd n) s [.e rd] fun l => [if l.sk.val.testBit n.toNat then 1 else 0]

/-- FP2_MOV and FP2_SEL copy any values, without a bound; the component-wise Fp² commands, on operands whose components are in
[0, 2p], write in each component what the Fp function gives (42_fp2.md sections 1, 3 and 4). -/
def Obligations.Fp2ComponentResults : Prop :=
  ∀ (s : State) (rd rs1 rs2 rs3 : RegNum), s.cfg.wf = true → rd.isQ = true → rs1.isQ = true → rs2.isQ = true →
    Writes (.fp2Mov rd rs1) s [.e rd, .e (rd + 1)] (fun l => [l.rE rs1, l.rE (rs1 + 1)]) ∧
    Writes (.fp2Sel rd rs1 rs2 rs3) s [.e rd, .e (rd + 1)] (fun l =>
      if (l.rE rs3).testBit 0 then [l.rE rs1, l.rE (rs1 + 1)] else [l.rE rs2, l.rE (rs2 + 1)]) ∧
    ((∀ l ∈ s.lanes, s.cfg.Working2 (l.rQ rs1)) →
    ((∀ l ∈ s.lanes, s.cfg.Working2 (l.rQ rs2)) →
      (∃ f : Nat → Nat → Nat, (∀ a b, a ≤ 2 * s.cfg.p → b ≤ 2 * s.cfg.p → (fpadd s.cfg a b).answer = .ok (f a b)) ∧
        Writes (.fp2Add rd rs1 rs2) s [.e rd, .e (rd + 1)] fun l =>
          [f (l.rE rs1) (l.rE rs2), f (l.rE (rs1 + 1)) (l.rE (rs2 + 1))]) ∧
      ∃ f : Nat → Nat → Nat, (∀ a b, a ≤ 2 * s.cfg.p → b ≤ 2 * s.cfg.p → (fpsub s.cfg a b).answer = .ok (f a b)) ∧
        Writes (.fp2Sub rd rs1 rs2) s [.e rd, .e (rd + 1)] fun l =>
          [f (l.rE rs1) (l.rE rs2), f (l.rE (rs1 + 1)) (l.rE (rs2 + 1))]) ∧
    Writes (.fp2Neg rd rs1) s [.e rd, .e (rd + 1)] (fun l => [2 * s.cfg.p - l.rE rs1, 2 * s.cfg.p - l.rE (rs1 + 1)]) ∧
    Writes (.fp2Div2 rd rs1) s [.e rd, .e (rd + 1)] (fun l =>
      [(l.rE rs1 + s.cfg.p * (l.rE rs1 % 2)) / 2, (l.rE (rs1 + 1) + s.cfg.p * (l.rE (rs1 + 1) % 2)) / 2]) ∧
    Writes (.fp2Corr rd rs1) s [.e rd, .e (rd + 1)] (fun l => [l.rE rs1 % s.cfg.p, l.rE (rs1 + 1) % s.cfg.p]) ∧
    Writes (.fp2ToMont rd rs1) s [.e rd, .e (rd + 1)] (fun l =>
      [s.cfg.montgomery (l.rE rs1 * s.cfg.montR2), s.cfg.montgomery (l.rE (rs1 + 1) * s.cfg.montR2)]) ∧
    Writes (.fp2FromMont rd rs1) s [.e rd, .e (rd + 1)] (fun l =>
      [s.cfg.montgomery (l.rE rs1) % s.cfg.p, s.cfg.montgomery (l.rE (rs1 + 1)) % s.cfg.p]))

/-- FP2_MUL and FP2_SQR on operands whose components are in [0, 2p]: the components are REDC of the integers of R205 and R206,
and they represent the product and the square in GF(p²) (42_fp2.md section 2). -/
def Obligations.Fp2ProductResults : Prop :=
  ∀ (s : State) (rd rs1 rs2 : RegNum), s.cfg.wf = true → rd.isQ = true → rs1.isQ = true → rs2.isQ = true →
    (∀ l ∈ s.lanes, s.cfg.Working2 (l.rQ rs1)) →
    ((∀ l ∈ s.lanes, s.cfg.Working2 (l.rQ rs2)) →
      Writes (.fp2Mul rd rs1 rs2) s [.e rd, .e (rd + 1)] (fun l =>
        [s.cfg.montgomery ((((l.rE rs1 * l.rE rs2 : Nat) : Int) - (l.rE (rs1 + 1) * l.rE (rs2 + 1) : Nat)) %
            (s.cfg.p * s.cfg.r : Nat)).toNat,
          s.cfg.montgomery (l.rE rs1 * l.rE (rs2 + 1) + l.rE (rs1 + 1) * l.rE rs2)]) ∧
      ∀ l ∈ s.lanes, ∀ v : Fp2, (fp2mul s.cfg (l.rQ rs1) (l.rQ rs2)).answer = .ok v →
        s.cfg.elem2 v = s.cfg.elem2 (l.rQ rs1) * s.cfg.elem2 (l.rQ rs2)) ∧
    Writes (.fp2Sqr rd rs1) s [.e rd, .e (rd + 1)] (fun l =>
      [s.cfg.montgomery ((l.rE rs1 + l.rE (rs1 + 1)) * (l.rE rs1 + 4 * s.cfg.p - l.rE (rs1 + 1))),
        s.cfg.montgomery (2 * l.rE rs1 * l.rE (rs1 + 1))]) ∧
    ∀ l ∈ s.lanes, ∀ v : Fp2, (fp2sqr s.cfg (l.rQ rs1)).answer = .ok v →
      s.cfg.elem2 v = s.cfg.elem2 (l.rQ rs1) ^ 2

/-- FP2_INV completes on every operand with components in [0, 2p], 0 included, and its result is a working value that represents
the conjugate times the norm to the power p − 2, which for p prime is the inverse of every nonzero element and 0 for 0
(42_fp2.md section 3, 60_exceptions.md section 3). -/
def Obligations.Fp2InverseResult : Prop :=
  ∀ (s : State) (rd rs1 : RegNum), s.cfg.wf = true → rd.isQ = true → rs1.isQ = true →
    (∀ l ∈ s.lanes, s.cfg.Working2 (l.rQ rs1)) →
    ∃ f : Fp2 → Fp2, Writes (.fp2Inv rd rs1) s [.e rd, .e (rd + 1)] (fun l => (f (l.rQ rs1)).parts) ∧
      (∀ a, s.cfg.Working2 a → s.cfg.Working2 (f a) ∧ s.cfg.elem2 (f a) = s.cfg.inv2 (s.cfg.elem2 a)) ∧
      (s.cfg.p.Prime → (∀ z : s.cfg.GF2, z ≠ 0 → z * s.cfg.inv2 z = 1) ∧ s.cfg.inv2 0 = 0)

/-- The registers of the point Pt(b) (R14). -/
def pointRegs (b : RegNum) : List RegName := [.e b, .e (b + 1), .e (b + 2), .e (b + 3)]

/-- The registers of CV0 and CV1 (R36). -/
def curveRegs : List RegName := [.e 56, .e 57, .e 58, .e 59]

/-- XDBL, XDBLE, XTPL and XTPLE on working operands: the point they leave represents [2]P, [2^e]P, [3]P and [3^e]P by the
formulas of Safety.lean, with (A24plus, C24) = (CV0, CV1) for doubling and (A24minus, A24plus) = (CV1, CV0) for tripling;
with a repeat count of 0 they copy the point, without a bound on it (43_curve.md sections 2 and 3). -/
def Obligations.CurveResults : Prop :=
  ∀ (s : State) (rd rs1 : RegNum) (e : Imm12), s.cfg.wf = true → rd.isP = true → rs1.isP = true →
    (Writes (.xDble rd rs1 0) s (pointRegs rd) (fun l => [l.rE rs1, l.rE (rs1 + 1), l.rE (rs1 + 2), l.rE (rs1 + 3)]) ∧
      Writes (.xTple rd rs1 0) s (pointRegs rd) fun l => [l.rE rs1, l.rE (rs1 + 1), l.rE (rs1 + 2), l.rE (rs1 + 3)]) ∧
    ((∀ l ∈ s.lanes, s.cfg.WorkingPt (l.rP rs1) ∧ s.cfg.Working2 (l.rQ 56) ∧ s.cfg.Working2 (l.rQ 58)) →
    (∃ f : Lane → Pt, Writes (.xDbl rd rs1) s (pointRegs rd) (fun l => (f l).parts) ∧
      ∀ l ∈ s.lanes, s.cfg.WorkingPt (f l) ∧ s.cfg.elemPt (f l) =
        Field.dbl (s.cfg.elem2 (l.rQ 56)) (s.cfg.elem2 (l.rQ 58)) (s.cfg.elemPt (l.rP rs1))) ∧
    (∃ f : Lane → Pt, Writes (.xDble rd rs1 e) s (pointRegs rd) (fun l => (f l).parts) ∧
      ∀ l ∈ s.lanes, s.cfg.WorkingPt (f l) ∧ s.cfg.elemPt (f l) =
        (Field.dbl (s.cfg.elem2 (l.rQ 56)) (s.cfg.elem2 (l.rQ 58)))^[e.toNat] (s.cfg.elemPt (l.rP rs1))) ∧
    (∃ f : Lane → Pt, Writes (.xTpl rd rs1) s (pointRegs rd) (fun l => (f l).parts) ∧
      ∀ l ∈ s.lanes, s.cfg.WorkingPt (f l) ∧ s.cfg.elemPt (f l) =
        Field.tpl (s.cfg.elem2 (l.rQ 58)) (s.cfg.elem2 (l.rQ 56)) (s.cfg.elemPt (l.rP rs1))) ∧
    ∃ f : Lane → Pt, Writes (.xTple rd rs1 e) s (pointRegs rd) (fun l => (f l).parts) ∧
      ∀ l ∈ s.lanes, s.cfg.WorkingPt (f l) ∧ s.cfg.elemPt (f l) =
        (Field.tpl (s.cfg.elem2 (l.rQ 58)) (s.cfg.elem2 (l.rQ 56)))^[e.toNat] (s.cfg.elemPt (l.rP rs1)))

/-- XDBLADD on working operands leaves in Pt(rd) and Pt(rs1) points that represent 2P and P + Q, by the formulas of Safety.lean,
all four operands read before either is written (43_curve.md section 4). -/
def Obligations.DoubleAndAddResult : Prop :=
  ∀ (s : State) (rd rs1 rs2 rs3 : RegNum), s.cfg.wf = true → rd.isP = true → rs1.isP = true → rs2.isQ = true →
    rs3.isQ = true → rd ≠ rs1 →
    (∀ l ∈ s.lanes, s.cfg.WorkingPt (l.rP rd) ∧ s.cfg.WorkingPt (l.rP rs1) ∧ s.cfg.Working2 (l.rQ rs2) ∧
      s.cfg.Working2 (l.rQ rs3)) →
    ∃ f : Lane → Pt × Pt,
      Writes (.xDblAdd rd rs1 rs2 rs3) s (pointRegs rd ++ pointRegs rs1) (fun l => (f l).1.parts ++ (f l).2.parts) ∧
      ∀ l ∈ s.lanes, s.cfg.WorkingPt (f l).1 ∧ s.cfg.WorkingPt (f l).2 ∧
        (s.cfg.elemPt (f l).1, s.cfg.elemPt (f l).2) =
          Field.dblAdd (s.cfg.elemPt (l.rP rd)) (s.cfg.elemPt (l.rP rs1)) (s.cfg.elem2 (l.rQ rs2))
            (s.cfg.elem2 (l.rQ rs3))

/-- GET4, GET3 and GET2 on a working kernel point: CV0, CV1 and the COEF registers hold working values that represent the
codomain's pair and the coefficients by the formulas of Safety.lean; GET3 and GET2 leave COEF2, and GET2's coefficients are the
kernel's components themselves (44_isogeny.md sections 1 to 3). -/
def Obligations.IsogenyConstruction : Prop :=
  ∀ (s : State) (rs1 : RegNum), s.cfg.wf = true → rs1.isP = true → (∀ l ∈ s.lanes, s.cfg.WorkingPt (l.rP rs1)) →
    (∃ f : Lane → Fp2 × Fp2 × Coeffs4,
      Writes (.get4 rs1) s (curveRegs ++ [.e 48, .e 49, .e 50, .e 51, .e 52, .e 53]) (fun l =>
        (f l).1.parts ++ (f l).2.1.parts ++ (f l).2.2.c0.parts ++ (f l).2.2.c1.parts ++ (f l).2.2.c2.parts) ∧
      ∀ l ∈ s.lanes, (s.cfg.Working2 (f l).1 ∧ s.cfg.Working2 (f l).2.1 ∧ s.cfg.Working2 (f l).2.2.c0 ∧
          s.cfg.Working2 (f l).2.2.c1 ∧ s.cfg.Working2 (f l).2.2.c2) ∧
        (s.cfg.elem2 (f l).1, s.cfg.elem2 (f l).2.1, s.cfg.elem2 (f l).2.2.c0, s.cfg.elem2 (f l).2.2.c1,
          s.cfg.elem2 (f l).2.2.c2) = Field.get4 (s.cfg.elemPt (l.rP rs1))) ∧
    (∃ f : Lane → Fp2 × Fp2 × Coeffs2,
      Writes (.get3 rs1) s (curveRegs ++ [.e 48, .e 49, .e 50, .e 51]) (fun l =>
        (f l).1.parts ++ (f l).2.1.parts ++ (f l).2.2.c0.parts ++ (f l).2.2.c1.parts) ∧
      ∀ l ∈ s.lanes, (s.cfg.Working2 (f l).1 ∧ s.cfg.Working2 (f l).2.1 ∧ s.cfg.Working2 (f l).2.2.c0 ∧
          s.cfg.Working2 (f l).2.2.c1) ∧
        (s.cfg.elem2 (f l).1, s.cfg.elem2 (f l).2.1, s.cfg.elem2 (f l).2.2.c0, s.cfg.elem2 (f l).2.2.c1) =
          Field.get3 (s.cfg.elemPt (l.rP rs1))) ∧
    ∃ f : Lane → Fp2 × Fp2,
      Writes (.get2 rs1) s (curveRegs ++ [.e 48, .e 49, .e 50, .e 51]) (fun l =>
        (f l).1.parts ++ (f l).2.parts ++ (l.rQ rs1).parts ++ (l.rQ (rs1 + 2)).parts) ∧
      ∀ l ∈ s.lanes, s.cfg.Working2 (f l).1 ∧ s.cfg.Working2 (f l).2 ∧
        s.cfg.elem2 (f l).1 = s.cfg.elem2 (l.rQ (rs1 + 2)) ^ 2 - s.cfg.elem2 (l.rQ rs1) ^ 2 ∧
        s.cfg.elem2 (f l).2 = s.cfg.elem2 (l.rQ (rs1 + 2)) ^ 2

/-- EVAL4, EVAL3 and EVAL2 on a working point and working coefficients: the point they leave in place represents its image by
the formulas of Safety.lean (44_isogeny.md sections 1 to 3). -/
def Obligations.IsogenyEvaluation : Prop :=
  ∀ (s : State) (rd : RegNum), s.cfg.wf = true → rd.isP = true →
    (∀ l ∈ s.lanes, s.cfg.WorkingPt (l.rP rd) ∧ s.cfg.Working2 (l.rQ 48) ∧ s.cfg.Working2 (l.rQ 50)) →
    ((∀ l ∈ s.lanes, s.cfg.Working2 (l.rQ 52)) →
      ∃ f : Lane → Pt, Writes (.eval4 rd) s (pointRegs rd) (fun l => (f l).parts) ∧
        ∀ l ∈ s.lanes, s.cfg.WorkingPt (f l) ∧ s.cfg.elemPt (f l) =
          Field.eval4 (s.cfg.elem2 (l.rQ 48), s.cfg.elem2 (l.rQ 50), s.cfg.elem2 (l.rQ 52)) (s.cfg.elemPt (l.rP rd))) ∧
    (∃ f : Lane → Pt, Writes (.eval3 rd) s (pointRegs rd) (fun l => (f l).parts) ∧
      ∀ l ∈ s.lanes, s.cfg.WorkingPt (f l) ∧ s.cfg.elemPt (f l) =
        Field.eval3 (s.cfg.elem2 (l.rQ 48), s.cfg.elem2 (l.rQ 50)) (s.cfg.elemPt (l.rP rd))) ∧
    ∃ f : Lane → Pt, Writes (.eval2 rd) s (pointRegs rd) (fun l => (f l).parts) ∧
      ∀ l ∈ s.lanes, s.cfg.WorkingPt (f l) ∧ s.cfg.elemPt (f l) =
        Field.eval2 (s.cfg.elem2 (l.rQ 48), s.cfg.elem2 (l.rQ 50)) (s.cfg.elemPt (l.rP rd))

/-- INV3WAY, GETA and JINV on working operands: the products of the other two with the inverse of z1·z2·z3; the coefficient
(xPxQ + xR(xP+xQ) − 1)²/(4xPxQxR) − xP − xQ − xR; and the j-invariant 256(A²−3C²)³/(C⁴(A²−4C²)). A zero divisor stops none of
them (44_isogeny.md section 4, 60_exceptions.md section 3). -/
def Obligations.SupportResults : Prop :=
  ∀ (s : State) (rd rs1 rs2 rs3 : RegNum), s.cfg.wf = true → rd.isQ = true → rs1.isQ = true → rs2.isQ = true →
    rs3.isQ = true → (∀ l ∈ s.lanes, s.cfg.Working2 (l.rQ rs1) ∧ s.cfg.Working2 (l.rQ rs2)) →
    ((∀ l ∈ s.lanes, s.cfg.Working2 (l.rQ rs3)) →
      (rs1 ≠ rs2 → rs1 ≠ rs3 → rs2 ≠ rs3 →
        ∃ f : Lane → Fp2 × Fp2 × Fp2,
          Writes (.inv3Way rs1 rs2 rs3) s [.e rs1, .e (rs1 + 1), .e rs2, .e (rs2 + 1), .e rs3, .e (rs3 + 1)]
            (fun l => (f l).1.parts ++ (f l).2.1.parts ++ (f l).2.2.parts) ∧
          ∀ l ∈ s.lanes, ∀ z1 z2 z3 : s.cfg.GF2, z1 = s.cfg.elem2 (l.rQ rs1) → z2 = s.cfg.elem2 (l.rQ rs2) →
            z3 = s.cfg.elem2 (l.rQ rs3) →
            (s.cfg.Working2 (f l).1 ∧ s.cfg.Working2 (f l).2.1 ∧ s.cfg.Working2 (f l).2.2) ∧
            s.cfg.elem2 (f l).1 = z2 * z3 * s.cfg.inv2 (z1 * z2 * z3) ∧
            s.cfg.elem2 (f l).2.1 = z1 * z3 * s.cfg.inv2 (z1 * z2 * z3) ∧
            s.cfg.elem2 (f l).2.2 = z1 * z2 * s.cfg.inv2 (z1 * z2 * z3)) ∧
      ∃ f : Lane → Fp2, Writes (.getA rd rs1 rs2 rs3) s [.e rd, .e (rd + 1)] (fun l => (f l).parts) ∧
        ∀ l ∈ s.lanes, ∀ xP xQ xR : s.cfg.GF2, xP = s.cfg.elem2 (l.rQ rs1) → xQ = s.cfg.elem2 (l.rQ rs2) →
          xR = s.cfg.elem2 (l.rQ rs3) →
          s.cfg.Working2 (f l) ∧
          s.cfg.elem2 (f l) =
            (xP * xQ + xR * (xP + xQ) - 1) ^ 2 * s.cfg.inv2 (4 * xP * xQ * xR) - (xP + xQ + xR)) ∧
    ∃ f : Lane → Fp2, Writes (.jInv rd rs1 rs2) s [.e rd, .e (rd + 1)] (fun l => (f l).parts) ∧
      ∀ l ∈ s.lanes, ∀ A C : s.cfg.GF2, A = s.cfg.elem2 (l.rQ rs1) → C = s.cfg.elem2 (l.rQ rs2) →
        s.cfg.Working2 (f l) ∧
        s.cfg.elem2 (f l) = 256 * (A ^ 2 - 3 * C ^ 2) ^ 3 * s.cfg.inv2 (C ^ 4 * (A ^ 2 - 4 * C ^ 2))

/-- LADDER_A and LADDER_B on working operands: the point they leave represents the three-point ladder over GF(p²) of Safety.lean
on the low eA bits of SK, or the low OBOB_BITS − 1, least significant first, with 4·a24 = A + 2 (45_sequenced.md section 1). -/
def Obligations.LadderResults : Prop :=
  ∀ (s : State) (rd rs1 rs2 rs3 : RegNum), s.cfg.wf = true → rd.isP = true → rs1.isQ = true → rs2.isQ = true →
    rs3.isQ = true →
    (∀ l ∈ s.lanes, s.cfg.Working2 (l.rQ rs1) ∧ s.cfg.Working2 (l.rQ rs2) ∧ s.cfg.Working2 (l.rQ rs3) ∧
      s.cfg.Working2 (l.rQ 54)) →
    (∃ f : Lane → Pt, Writes (.ladderA rd rs1 rs2 rs3) s (pointRegs rd) (fun l => (f l).parts) ∧
      ∀ l ∈ s.lanes, s.cfg.WorkingPt (f l) ∧ ∀ a24 : s.cfg.GF2, 4 * a24 = s.cfg.elem2 (l.rQ 54) + 2 →
        s.cfg.elemPt (f l) = Field.ladder a24 ((List.range s.cfg.eA).map l.sk.val.testBit) false
          ⟨s.cfg.elem2 (l.rQ rs2), 1⟩ ⟨s.cfg.elem2 (l.rQ rs3), 1⟩ ⟨s.cfg.elem2 (l.rQ rs1), 1⟩) ∧
    ∃ f : Lane → Pt, Writes (.ladderB rd rs1 rs2 rs3) s (pointRegs rd) (fun l => (f l).parts) ∧
      ∀ l ∈ s.lanes, s.cfg.WorkingPt (f l) ∧ ∀ a24 : s.cfg.GF2, 4 * a24 = s.cfg.elem2 (l.rQ 54) + 2 →
        s.cfg.elemPt (f l) = Field.ladder a24 ((List.range (s.cfg.obobBits - 1)).map l.sk.val.testBit) false
          ⟨s.cfg.elem2 (l.rQ rs2), 1⟩ ⟨s.cfg.elem2 (l.rQ rs3), 1⟩ ⟨s.cfg.elem2 (l.rQ rs1), 1⟩

/-- The ladder's scalar (45_sequenced.md section 1): a scalar whose low bits are 0 gives (xP : ONE2) itself, as integers; and bits
of SK at or above eA for LADDER_A, at or above OBOB_BITS − 1 for LADDER_B, do not matter. -/
def Obligations.LadderScalarBits : Prop :=
  (∀ (s : State) (rd rs1 rs2 rs3 : RegNum), s.cfg.wf = true → rd.isP = true → rs1.isQ = true → rs2.isQ = true →
    rs3.isQ = true →
    (∀ l ∈ s.lanes, s.cfg.Working2 (l.rQ rs1) ∧ s.cfg.Working2 (l.rQ rs2) ∧ s.cfg.Working2 (l.rQ rs3) ∧
      s.cfg.Working2 (l.rQ 54)) →
    ((∀ l ∈ s.lanes, l.sk.val % 2 ^ s.cfg.eA = 0) →
      Writes (.ladderA rd rs1 rs2 rs3) s (pointRegs rd) fun l => [l.rE rs1, l.rE (rs1 + 1), s.cfg.r % s.cfg.p, 0]) ∧
    ((∀ l ∈ s.lanes, l.sk.val % 2 ^ (s.cfg.obobBits - 1) = 0) →
      Writes (.ladderB rd rs1 rs2 rs3) s (pointRegs rd) fun l => [l.rE rs1, l.rE (rs1 + 1), s.cfg.r % s.cfg.p, 0])) ∧
    ∀ (c : Config) (xP xQ xPQ a : Fp2) (m m' nbits : Nat), m % 2 ^ nbits = m' % 2 ^ nbits →
      (ladder c xP xQ xPQ a m nbits).answer = (ladder c xP xQ xPQ a m' nbits).answer

/-- The registers of the aux points of a CHAIN command, none with AUX = 0 (R292). -/
def auxRegs (aux : Bool) (b : RegNum) : List RegName :=
  if aux then pointRegs b ++ pointRegs (b + 4) ++ pointRegs (b + 8) else []

/-- CHAIN_A and CHAIN_B on working operands: CV0, CV1, the COEF registers (COEF2 for CHAIN_A only) and, with AUX = 1, the three
aux points hold working values that represent what the chain walk over GF(p²) of Safety.lean gives for the kernel Pt(rs1), the
pair (CV0, CV1) and the aux points; the kernel's registers, unless they are among those, are unchanged (45_sequenced.md section
2). -/
def Obligations.ChainResults : Prop :=
  ∀ (s : State) (rd rs1 : RegNum) (aux : Bool), s.cfg.wf = true → rd.isX aux = true → rs1.isP = true →
    (∀ l ∈ s.lanes, s.cfg.WorkingPt (l.rP rs1) ∧ s.cfg.Working2 (l.rQ 56) ∧ s.cfg.Working2 (l.rQ 58) ∧
      ∀ t ∈ l.rAux aux rd, s.cfg.WorkingPt t) →
    (∃ f : Lane → Fp2 × Fp2 × Coeffs4 × List Pt,
      Writes (.chainA rd rs1 aux) s (curveRegs ++ [.e 48, .e 49, .e 50, .e 51, .e 52, .e 53] ++ auxRegs aux rd) (fun l =>
        (f l).1.parts ++ (f l).2.1.parts ++ (f l).2.2.1.c0.parts ++ (f l).2.2.1.c1.parts ++ (f l).2.2.1.c2.parts ++
          (f l).2.2.2.flatMap Pt.parts) ∧
      ∀ l ∈ s.lanes, (s.cfg.Working2 (f l).1 ∧ s.cfg.Working2 (f l).2.1 ∧ s.cfg.Working2 (f l).2.2.1.c0 ∧
          s.cfg.Working2 (f l).2.2.1.c1 ∧ s.cfg.Working2 (f l).2.2.1.c2 ∧ (∀ t ∈ (f l).2.2.2, s.cfg.WorkingPt t) ∧
          (f l).2.2.2.length = if aux then 3 else 0) ∧
        (s.cfg.elem2 (f l).1, s.cfg.elem2 (f l).2.1,
          (s.cfg.elem2 (f l).2.2.1.c0, s.cfg.elem2 (f l).2.2.1.c1, s.cfg.elem2 (f l).2.2.1.c2),
          (f l).2.2.2.map s.cfg.elemPt) =
          Field.chainA s.cfg (s.cfg.elemPt (l.rP rs1)) (s.cfg.elem2 (l.rQ 56)) (s.cfg.elem2 (l.rQ 58))
            ((l.rAux aux rd).map s.cfg.elemPt)) ∧
    ∃ f : Lane → Fp2 × Fp2 × Coeffs2 × List Pt,
      Writes (.chainB rd rs1 aux) s (curveRegs ++ [.e 48, .e 49, .e 50, .e 51] ++ auxRegs aux rd) (fun l =>
        (f l).1.parts ++ (f l).2.1.parts ++ (f l).2.2.1.c0.parts ++ (f l).2.2.1.c1.parts ++
          (f l).2.2.2.flatMap Pt.parts) ∧
      ∀ l ∈ s.lanes, (s.cfg.Working2 (f l).1 ∧ s.cfg.Working2 (f l).2.1 ∧ s.cfg.Working2 (f l).2.2.1.c0 ∧
          s.cfg.Working2 (f l).2.2.1.c1 ∧ (∀ t ∈ (f l).2.2.2, s.cfg.WorkingPt t) ∧
          (f l).2.2.2.length = if aux then 3 else 0) ∧
        (s.cfg.elem2 (f l).1, s.cfg.elem2 (f l).2.1, (s.cfg.elem2 (f l).2.2.1.c0, s.cfg.elem2 (f l).2.2.1.c1),
          (f l).2.2.2.map s.cfg.elemPt) =
          Field.chainB s.cfg (s.cfg.elemPt (l.rP rs1)) (s.cfg.elem2 (l.rQ 56)) (s.cfg.elem2 (l.rQ 58))
            ((l.rAux aux rd).map s.cfg.elemPt)

/-- A chain of one isogeny is one GET and the EVALs: with M = 1 and no leading 2-isogeny, CHAIN_B (eB = 1) leaves what GET3 and
three EVAL3 leave, and CHAIN_A (eA = 2) what GET4 and three EVAL4 leave (45_sequenced.md section 2). -/
def Obligations.ChainOfOneIsGetAndEvals : Prop :=
  ∀ (s t s1 s2 s3 s4 : State) (rd rs1 : RegNum), s.cfg.wf = true → rd.isX true = true → rs1.isP = true →
    (∀ l ∈ s.lanes, s.cfg.WorkingPt (l.rP rs1) ∧ ∀ u ∈ l.rAux true rd, s.cfg.WorkingPt u) →
    (s.cfg.eB = 1 → exec (.chainB rd rs1 true) s = .next t → exec (.get3 rs1) s = .next s1 →
      exec (.eval3 rd) s1 = .next s2 → exec (.eval3 (rd + 4)) s2 = .next s3 → exec (.eval3 (rd + 8)) s3 = .next s4 →
      t = s4) ∧
    (s.cfg.eA = 2 → exec (.chainA rd rs1 true) s = .next t → exec (.get4 rs1) s = .next s1 →
      exec (.eval4 rd) s1 = .next s2 → exec (.eval4 (rd + 4)) s2 = .next s3 → exec (.eval4 (rd + 8)) s3 = .next s4 →
      t = s4)

/-- A row of the chain walk, of the target m, before its pop (R291). -/
def rowToPop {κ : Type} (ops : Isogenies κ) (m : Nat) (v : Walk) : Eng Walk := do
  let v ← descend ops m v.strat v
  let (v, _) ← takeIsogeny ops v
  return v

/-- Some rows of the chain walk, the first of the target m, and one row more before its pop (R291). -/
def walkToPop {κ : Type} (ops : Isogenies κ) : Nat → Nat → Walk → Eng Walk
  | 0, m, v => rowToPop ops m v
  | rows + 1, m, v => do
    let v ← rowToPop ops m v
    walkToPop ops rows (m - 1) (popWalk v)

/-- The walk of one party uses its strategy table exactly. From any points and any pair, and whatever entries `more` would follow
the table's own: the rows 1 to M − 1 take all the table's entries and no more, and end with the stack empty and the index 0 (the
first part); on working points they complete (the second); and `walkRows` pops, at the end of each row, the walk that `walkToPop`
gives, in which the descent has reached the target and the stack is not empty and within MAX_PTS (the third). -/
def usesStrategyExactly {κ : Type} (c : Config) (ops : Isogenies κ) : Prop :=
  ∀ (R : Pt) (v0 v1 : Fp2) (aux : List Pt) (more : List Nat) (start : Walk),
    start = { pt := R, index := 0, stack := [], strat := ops.strat ++ more, v0 := v0, v1 := v1, aux := aux } →
    (∀ v, (walkRows ops (ops.len - 1) start).answer = .ok v → v.strat = more ∧ v.stack = [] ∧ v.index = 0) ∧
    (c.WorkingPt R → c.Working2 v0 → c.Working2 v1 → (∀ t ∈ aux, c.WorkingPt t) →
      ∃ v, (walkRows ops (ops.len - 1) start).answer = .ok v) ∧
    ∀ rows, rows < ops.len - 1 →
      (walkRows ops (ops.len - 1) start = do
        let v ← walkToPop ops rows (ops.len - 1) start
        walkRows ops (ops.len - 2 - rows) (popWalk v)) ∧
      ∀ v, (walkToPop ops rows (ops.len - 1) start).answer = .ok v →
        ops.len - 1 - rows ≤ v.index ∧ v.stack ≠ [] ∧ v.stack.length ≤ c.maxPts

/-- In a well-formed configuration the chain walks of both parties use their strategy tables exactly: every entry, none twice, none
beyond the table; they never pop an empty stack, never hold more than MAX_PTS stack entries, and end with none (45_sequenced.md
section 2, 00_scope.md section 4). -/
def Obligations.StrategyIsUsedExactly : Prop :=
  ∀ c : Config, c.wf = true → usesStrategyExactly c (isogeniesA c) ∧ usesStrategyExactly c (isogeniesB c)
end

