-- ==== Sys2Proof/Laws/Engine.lean ====
section
/-! SUPPORT. How to reason about the computations of Eng without unfolding the monad: what a computation yields (`Yields`,
`Gives`), what holds of its result when it completes (`Ensures`), and which operation kinds it records (`Traced`). Each has
a rule for pure, bind, note and require; every later lemma cites these rules. -/

namespace Sys2Proof.Laws

open Sys2Proof.Machine

/-- The computation completes with v and records ks (newest first), from whatever was recorded before. -/
def Yields {α : Type} (m : Eng α) (ks : List OpKind) (v : α) : Prop := ∀ tr, m.run tr = .ok (v, ks ++ tr)

/-- The computation completes with a value that satisfies P. -/
def Gives {α : Type} (m : Eng α) (P : α → Prop) : Prop := ∃ v ks, Yields m ks v ∧ P v

/-- If the computation completes, its value satisfies P. -/
def Ensures {α : Type} (m : Eng α) (P : α → Prop) : Prop := ∀ tr v tr', m.run tr = .ok (v, tr') → P v

/-- If the computation completes, what it records is ks. -/
def Traced {α : Type} (m : Eng α) (ks : List OpKind) : Prop := ∀ tr v tr', m.run tr = .ok (v, tr') → tr' = ks ++ tr

theorem run_bind_ok {α β : Type} {m : Eng α} {f : α → Eng β} {tr : List OpKind} {b : β} {tr' : List OpKind} :
    (m >>= f).run tr = .ok (b, tr') ↔ ∃ a tr1, m.run tr = .ok (a, tr1) ∧ (f a).run tr1 = .ok (b, tr') := by
  rw [StateT.run_bind]
  constructor
  · intro h
    match hm : m.run tr with
    | .ok (a, tr1) => exact ⟨a, tr1, rfl, by simpa [hm, bind, Except.bind] using h⟩
    | .error e => simp [hm, bind, Except.bind] at h
  · rintro ⟨a, tr1, hm, hf⟩
    simpa [hm, bind, Except.bind] using hf

theorem run_bind_of_ok {α β : Type} {m : Eng α} {f : α → Eng β} {tr : List OpKind} {a : α} {tr1 : List OpKind}
    (h : m.run tr = .ok (a, tr1)) : (m >>= f).run tr = (f a).run tr1 := by
  rw [StateT.run_bind, h]; rfl

@[simp] theorem run_pure_eq {α : Type} (a : α) (tr : List OpKind) : (pure a : Eng α).run tr = .ok (a, tr) := rfl

@[simp] theorem run_note (k : OpKind) (tr : List OpKind) : (note k).run tr = .ok ((), k :: tr) := rfl

theorem run_require (op : BoundOp) (b : Bool) (tr : List OpKind) :
    (require op b).run tr = if b then .ok ((), tr) else .error op := by
  cases b <;> rfl

/-! ## Yields -/

theorem Yields.pure {α : Type} (a : α) : Yields (pure a : Eng α) [] a := fun _ => rfl

theorem Yields.note (k : OpKind) : Yields (note k) [k] () := fun _ => rfl

theorem Yields.require {op : BoundOp} {b : Bool} (h : b = true) : Yields (require op b) [] () := by
  intro tr; simp [run_require, h]

theorem Yields.bind {α β : Type} {m : Eng α} {f : α → Eng β} {ks ls : List OpKind} {a : α} {b : β}
    (hm : Yields m ks a) (hf : Yields (f a) ls b) : Yields (m >>= f) (ls ++ ks) b := by
  intro tr
  rw [run_bind_of_ok (hm tr), hf, List.append_assoc]

/-- The rule for bind, with the record given as one list. -/
theorem Yields.bind_eq {α β : Type} {m : Eng α} {f : α → Eng β} {rs ks ls : List OpKind} {a : α} {b : β}
    (hm : Yields m ks a) (hf : Yields (f a) ls b) (h : rs = ls ++ ks) : Yields (m >>= f) rs b := h ▸ hm.bind hf

theorem Yields.unique {α : Type} {m : Eng α} {ks ls : List OpKind} {a b : α} (h : Yields m ks a) (h' : Yields m ls b) :
    a = b := by
  have h1 := (h []).symm.trans (h' [])
  injection h1 with h2
  exact congrArg Prod.fst h2

/-! ## Gives -/

theorem Gives.pure {α : Type} {P : α → Prop} {a : α} (h : P a) : Gives (pure a : Eng α) P := ⟨a, [], Yields.pure a, h⟩

theorem Gives.bind {α β : Type} {m : Eng α} {f : α → Eng β} {P : α → Prop} {Q : β → Prop} (hm : Gives m P)
    (hf : ∀ a, P a → Gives (f a) Q) : Gives (m >>= f) Q := by
  obtain ⟨a, ks, ha, hP⟩ := hm
  obtain ⟨b, ls, hb, hQ⟩ := hf a hP
  exact ⟨b, ls ++ ks, ha.bind hb, hQ⟩

theorem Gives.mono {α : Type} {m : Eng α} {P Q : α → Prop} (hm : Gives m P) (h : ∀ a, P a → Q a) : Gives m Q := by
  obtain ⟨a, ks, ha, hP⟩ := hm
  exact ⟨a, ks, ha, h a hP⟩

theorem Gives.note {k : OpKind} {P : Unit → Prop} (h : P ()) : Gives (note k) P := ⟨(), [k], Yields.note k, h⟩

theorem Gives.require {op : BoundOp} {b : Bool} {P : Unit → Prop} (hb : b = true) (h : P ()) : Gives (require op b) P :=
  ⟨(), [], Yields.require hb, h⟩

/-- What a rule's body gives is the rule's outcome. -/
theorem Gives.outcome {rule : Rule} {c : Config} {l : Lane} {P : List Nat → Prop} (h : Gives (rule.body c l) P) :
    ∃ vs, rule.outcome c l = .ok vs ∧ P vs := by
  obtain ⟨vs, ks, hv, hP⟩ := h
  refine ⟨vs, ?_, hP⟩
  have := hv []
  simp [Rule.outcome, StateT.run'_eq, this, Functor.map, Except.map]

/-! ## Ensures -/

theorem Ensures.pure {α : Type} {P : α → Prop} {a : α} (h : P a) : Ensures (pure a : Eng α) P := by
  intro tr v tr' hv
  cases hv
  exact h

theorem Ensures.bind {α β : Type} {m : Eng α} {f : α → Eng β} {P : α → Prop} {Q : β → Prop} (hm : Ensures m P)
    (hf : ∀ a, P a → Ensures (f a) Q) : Ensures (m >>= f) Q := by
  intro tr b tr' h
  obtain ⟨a, tr1, h1, h2⟩ := run_bind_ok.1 h
  exact hf a (hm tr a tr1 h1) tr1 b tr' h2

theorem Ensures.trivial {α : Type} {m : Eng α} : Ensures m fun _ => True := fun _ _ _ _ => True.intro

/-- A computation whose last part ensures Q whatever it starts from. -/
theorem Ensures.tail {α β : Type} {m : Eng α} {f : α → Eng β} {Q : β → Prop} (hf : ∀ a, Ensures (f a) Q) :
    Ensures (m >>= f) Q := Ensures.trivial.bind fun a _ => hf a

theorem Ensures.require {op : BoundOp} {b : Bool} : Ensures (require op b) fun _ => b = true := by
  intro tr v tr' h
  rw [run_require] at h
  cases b
  · simp at h
  · rfl

/-! ## Traced -/

theorem Traced.pure {α : Type} (a : α) : Traced (pure a : Eng α) [] := by
  intro tr v tr' h
  cases h
  rfl

theorem Traced.note (k : OpKind) : Traced (note k) [k] := by
  intro tr v tr' h
  cases h
  rfl

theorem Traced.require (op : BoundOp) (b : Bool) : Traced (require op b) [] := by
  intro tr v tr' h
  rw [run_require] at h
  cases b
  · simp at h
  · cases h
    rfl

theorem Traced.bind {α β : Type} {m : Eng α} {f : α → Eng β} {ks ls : List OpKind} (hm : Traced m ks)
    (hf : ∀ a, Traced (f a) ls) : Traced (m >>= f) (ls ++ ks) := by
  intro tr b tr' h
  obtain ⟨a, tr1, h1, h2⟩ := run_bind_ok.1 h
  rw [hf a tr1 b tr' h2, hm tr a tr1 h1, List.append_assoc]

/-- A family of computations records the same kinds, whichever of them completes (R352). -/
def Uniform {ι α : Type} (f : ι → Eng α) : Prop := ∃ ks, ∀ x, Traced (f x) ks

end Sys2Proof.Laws
end

