-- ==== Sys2Proof/Laws/State.lean ====
section
/-! SUPPORT. One lemma per field and update of State, so that no later proof unfolds a record update, and the laws of a
lane's registers: what a put, a write and a list of writes change and what they leave. -/

namespace Sys2Proof.Laws

open Sys2Proof.Machine

variable (s : State)

@[simp] theorem reject_cfg (e : CmdError) : (s.reject e).cfg = s.cfg := rfl
@[simp] theorem reject_lanes (e : CmdError) : (s.reject e).lanes = s.lanes := rfl
@[simp] theorem reject_busy (e : CmdError) : (s.reject e).status.busy = s.status.busy := rfl
@[simp] theorem reject_err (e : CmdError) : (s.reject e).status.err = true := rfl
@[simp] theorem reject_errcode (e : CmdError) : (s.reject e).status.errcode = errorCode e := rfl
@[simp] theorem reject_latch (e : CmdError) : (s.reject e).latch = s.latch := rfl
@[simp] theorem reject_clocksLeft (e : CmdError) : (s.reject e).clocksLeft = s.clocksLeft := rfl
@[simp] theorem reject_port (e : CmdError) : (s.reject e).port = s.port := rfl
@[simp] theorem reject_responses (e : CmdError) : (s.reject e).responses = s.responses := rfl
@[simp] theorem reject_draws (e : CmdError) : (s.reject e).draws = s.draws := rfl

@[simp] theorem clearError_cfg : s.clearError.cfg = s.cfg := rfl
@[simp] theorem clearError_lanes : s.clearError.lanes = s.lanes := rfl
@[simp] theorem clearError_busy : s.clearError.status.busy = s.status.busy := rfl
@[simp] theorem clearError_err : s.clearError.status.err = false := rfl
@[simp] theorem clearError_errcode : s.clearError.status.errcode = 0 := rfl
@[simp] theorem clearError_latch : s.clearError.latch = s.latch := rfl
@[simp] theorem clearError_clocksLeft : s.clearError.clocksLeft = s.clocksLeft := rfl
@[simp] theorem clearError_port : s.clearError.port = s.port := rfl
@[simp] theorem clearError_responses : s.clearError.responses = s.responses := rfl
@[simp] theorem clearError_draws : s.clearError.draws = s.draws := rfl

@[simp] theorem runLanes_cfg (rule : Rule) : (s.runLanes rule).cfg = s.cfg := rfl
@[simp] theorem runLanes_lanes (rule : Rule) :
    (s.runLanes rule).lanes = s.lanes.mapIdx fun k l => rule.onLane s.cfg s.draws k l := rfl
@[simp] theorem runLanes_status (rule : Rule) : (s.runLanes rule).status = s.status := rfl
@[simp] theorem runLanes_latch (rule : Rule) : (s.runLanes rule).latch = s.latch := rfl
@[simp] theorem runLanes_clocksLeft (rule : Rule) : (s.runLanes rule).clocksLeft = s.clocksLeft := rfl
@[simp] theorem runLanes_port (rule : Rule) : (s.runLanes rule).port = s.port := rfl
@[simp] theorem runLanes_responses (rule : Rule) : (s.runLanes rule).responses = s.responses := rfl

@[simp] theorem respond_cfg (d : HostWord) (b : Bool) : (s.respond d b).cfg = s.cfg := rfl
@[simp] theorem respond_lanes (d : HostWord) (b : Bool) : (s.respond d b).lanes = s.lanes := rfl
@[simp] theorem respond_status (d : HostWord) (b : Bool) : (s.respond d b).status = s.status := rfl
@[simp] theorem respond_latch (d : HostWord) (b : Bool) : (s.respond d b).latch = s.latch := rfl
@[simp] theorem respond_clocksLeft (d : HostWord) (b : Bool) : (s.respond d b).clocksLeft = s.clocksLeft := rfl
@[simp] theorem respond_port (d : HostWord) (b : Bool) : (s.respond d b).port = s.port := rfl
@[simp] theorem respond_responses (d : HostWord) (b : Bool) : (s.respond d b).responses = ⟨d, b⟩ :: s.responses := rfl
@[simp] theorem respond_draws (d : HostWord) (b : Bool) : (s.respond d b).draws = s.draws := rfl

@[simp] theorem pop_cfg : s.pop.cfg = s.cfg := rfl
@[simp] theorem pop_lanes : s.pop.lanes = s.lanes := rfl
@[simp] theorem pop_status : s.pop.status = s.status := rfl
@[simp] theorem pop_latch : s.pop.latch = s.latch := rfl
@[simp] theorem pop_clocksLeft : s.pop.clocksLeft = s.clocksLeft := rfl
@[simp] theorem pop_port : s.pop.port = s.port.tail := rfl
@[simp] theorem pop_responses : s.pop.responses = s.responses := rfl
@[simp] theorem pop_draws : s.pop.draws = s.draws := rfl

@[simp] theorem startBusy_cfg (w : CmdWord) : (s.startBusy w).cfg = s.cfg := rfl
@[simp] theorem startBusy_lanes (w : CmdWord) : (s.startBusy w).lanes = s.lanes := rfl
@[simp] theorem startBusy_busy (w : CmdWord) : (s.startBusy w).status.busy = (latency s.cfg w != 0) := rfl
@[simp] theorem startBusy_err (w : CmdWord) : (s.startBusy w).status.err = s.status.err := rfl
@[simp] theorem startBusy_errcode (w : CmdWord) : (s.startBusy w).status.errcode = s.status.errcode := rfl
@[simp] theorem startBusy_latch (w : CmdWord) :
    (s.startBusy w).latch = if latency s.cfg w = 0 then none else some w := rfl
@[simp] theorem startBusy_clocksLeft (w : CmdWord) : (s.startBusy w).clocksLeft = latency s.cfg w := rfl
@[simp] theorem startBusy_port (w : CmdWord) : (s.startBusy w).port = s.port := rfl
@[simp] theorem startBusy_responses (w : CmdWord) : (s.startBusy w).responses = s.responses := rfl
@[simp] theorem startBusy_draws (w : CmdWord) : (s.startBusy w).draws = s.draws := rfl

@[simp] theorem resetInput_cfg : s.resetInput.cfg = s.cfg := rfl
@[simp] theorem resetInput_lanes : s.resetInput.lanes = (List.range s.cfg.k).map (Lane.unspecified s.cfg s.draws) := rfl
@[simp] theorem resetInput_status : s.resetInput.status = Status.reset := rfl
@[simp] theorem resetInput_latch : s.resetInput.latch = none := rfl
@[simp] theorem resetInput_clocksLeft : s.resetInput.clocksLeft = 0 := rfl
@[simp] theorem resetInput_port : s.resetInput.port = s.port := rfl
@[simp] theorem resetInput_responses : s.resetInput.responses = s.responses := rfl
@[simp] theorem resetInput_draws : s.resetInput.draws = s.draws + 1 := rfl

@[simp] theorem withCommand_cfg (w : CmdWord) : (s.withCommand w).cfg = s.cfg := rfl
@[simp] theorem withCommand_lanes (w : CmdWord) : (s.withCommand w).lanes = s.lanes := rfl
@[simp] theorem withCommand_status (w : CmdWord) : (s.withCommand w).status = Status.reset := rfl
@[simp] theorem withCommand_port (w : CmdWord) :
    (s.withCommand w).port = .access (cmdWrite (w.setWidth 64)) :: s.port := rfl

variable (lane : Nat) (name : RegName) (j : Nat) (u : HostWord)

@[simp] theorem writeRegister_cfg : (s.writeRegister lane name j u).cfg = s.cfg := rfl
@[simp] theorem writeRegister_lanes :
    (s.writeRegister lane name j u).lanes =
      s.lanes.modify lane fun l => l.put name ((l.get name).hostWrite s.cfg name j u.toNat) := rfl
@[simp] theorem writeRegister_status : (s.writeRegister lane name j u).status = s.status := rfl
@[simp] theorem writeRegister_latch : (s.writeRegister lane name j u).latch = s.latch := rfl
@[simp] theorem writeRegister_clocksLeft : (s.writeRegister lane name j u).clocksLeft = s.clocksLeft := rfl
@[simp] theorem writeRegister_port : (s.writeRegister lane name j u).port = s.port := rfl
@[simp] theorem writeRegister_responses : (s.writeRegister lane name j u).responses = s.responses := rfl
@[simp] theorem writeRegister_draws : (s.writeRegister lane name j u).draws = s.draws := rfl

/-- One clock touches only BUSY, the latch and the count of clocks. -/
theorem tick_frame :
    s.tick.cfg = s.cfg ∧ s.tick.lanes = s.lanes ∧ s.tick.port = s.port ∧ s.tick.responses = s.responses ∧
      s.tick.draws = s.draws ∧ s.tick.status.err = s.status.err ∧ s.tick.status.errcode = s.status.errcode := by
  unfold State.tick
  split <;> [split; skip] <;> simp

/-! ## The registers of a lane -/

/-- A register name with the bits of a class-D field that select no register cleared: two names designate one register
exactly when their selectors are equal. -/
def selector : RegName → RegName
  | .e i => .e i
  | .d i => .d ((i.setWidth 2).setWidth 6)
  | .sk => .sk

@[simp] theorem selector_e (i : RegNum) : selector (.e i) = .e i := rfl

theorem setWidth2_eq {i j : RegNum} (h : i.setWidth 2 = j.setWidth 2) : selector (.d i) = selector (.d j) := by
  simp [selector, h]

variable (l : Lane)

@[simp] theorem get_put_self (name : RegName) (x : Reg) : (l.put name x).get name = x := by
  cases name <;> simp [Lane.put, Lane.get]

theorem get_put_of_ne {name other : RegName} (h : selector name ≠ selector other) (x : Reg) :
    (l.put name x).get other = l.get other := by
  cases name with
  | e i =>
    cases other with
    | e k =>
      have : i.toNat ≠ k.toNat := fun hk => h (by rw [BitVec.eq_of_toNat_eq hk])
      simp [Lane.put, Lane.get, this]
    | d k => rfl
    | sk => rfl
  | d i =>
    cases other with
    | e k => rfl
    | d k =>
      have : (i.setWidth 2).toNat ≠ (k.setWidth 2).toNat := fun hk => h (setWidth2_eq (BitVec.eq_of_toNat_eq hk))
      simp only [Lane.put, Lane.get]
      exact Vector.getElem_set_ne _ _ this
    | sk => rfl
  | sk =>
    cases other with
    | e k => rfl
    | d k => rfl
    | sk => exact absurd rfl h

@[simp] theorem val_write_self (c : Config) (name : RegName) (v : Nat) : (l.write c name v).val name = v := by
  simp [Lane.write, Lane.val]

@[simp] theorem isWritten_write_self (c : Config) (name : RegName) (v : Nat) :
    ((l.write c name v).get name).isWritten = true := by
  simp [Lane.write, Reg.isWritten]

theorem get_write_of_ne {name other : RegName} (h : selector name ≠ selector other) (c : Config) (v : Nat) :
    (l.write c name v).get other = l.get other := get_put_of_ne l h _

theorem writeAll_cons (c : Config) (nv : RegName × Nat) (ws : List (RegName × Nat)) :
    l.writeAll c (nv :: ws) = (l.write c nv.1 nv.2).writeAll c ws := rfl

@[simp] theorem writeAll_nil (c : Config) : l.writeAll c [] = l := rfl

/-- A list of writes leaves every register it does not name. -/
theorem get_writeAll_of_notMem (c : Config) {other : RegName} (ws : List (RegName × Nat)) (l : Lane)
    (h : ∀ nv ∈ ws, selector nv.1 ≠ selector other) : (l.writeAll c ws).get other = l.get other := by
  induction ws generalizing l with
  | nil => rfl
  | cons nv ws ih =>
    rw [writeAll_cons, ih _ fun x hx => h x (List.mem_cons_of_mem _ hx)]
    exact get_write_of_ne l (h nv List.mem_cons_self) c nv.2

/-- What a rule does to a lane: it writes its destinations, each with some value, and nothing else (R320, R355). -/
theorem onLane_writes (rule : Rule) (c : Config) (draw lane : Nat) (l : Lane) :
    ∃ ws : List (RegName × Nat), rule.onLane c draw lane l = l.writeAll c ws ∧ ∀ nv ∈ ws, nv.1 ∈ rule.dsts := by
  unfold Rule.onLane
  split
  · exact ⟨_, rfl, fun nv h => (List.of_mem_zip h).1⟩
  · refine ⟨_, rfl, fun nv h => ?_⟩
    obtain ⟨k, hk, rfl⟩ := List.mem_iff_getElem.1 h
    simp [Rule.unspecified]

/-- A rule that gives values on a lane writes them to its destinations (R310). -/
theorem onLane_of_outcome {rule : Rule} {c : Config} {l : Lane} {vs : List Nat} (h : rule.outcome c l = .ok vs)
    (draw lane : Nat) : rule.onLane c draw lane l = l.writeAll c (rule.dsts.zip vs) := by
  simp [Rule.onLane, h]

/-- Everything a command can do: it is refused with a configuration that is not well formed, rejected by its operands, or
run in every lane (R12, R310, R312). -/
theorem runCommand_cases (i : Instr) (rule : Rule) (s : State) :
    (s.cfg.wf = false ∧ runCommand i rule s = .refused .configNotWellFormed) ∨
      (s.cfg.wf = true ∧ ∃ e, operandError s.cfg.skBits i = some e ∧ runCommand i rule s = .next (s.reject e)) ∨
      (s.cfg.wf = true ∧ operandError s.cfg.skBits i = none ∧ runCommand i rule s = .next (s.runLanes rule)) := by
  unfold runCommand
  cases hw : s.cfg.wf
  · exact .inl ⟨rfl, by simp⟩
  · cases he : operandError s.cfg.skBits i with
    | some e => exact .inr (.inl ⟨rfl, e, rfl, by simp⟩)
    | none => exact .inr (.inr ⟨rfl, rfl, by simp⟩)

end Sys2Proof.Laws
end

