-- ==== Sys2Proof/Laws/Commands.lean ====
section
/-! SUPPORT. What every command does, said once through its rule: `exec` is `runCommand` of the command's rule, the rule's
register lists are the tables `reads` and `writes`, and a command whose rule gives its values in every lane writes them and
changes nothing else. Later proofs cite these and never unfold `exec` or a meaning. -/

namespace Sys2Proof.Laws

open Sys2Proof.Machine

/-- Every meaning runs its command's rule. -/
theorem exec_eq (i : Instr) (s : State) : exec i s = runCommand i (ruleOf i) s := by
  cases i <;> rfl

theorem eRange_two (b : RegNum) : eRange b 2 = regsQ b := by
  simp [eRange, regsQ, List.range_succ]

theorem eRange_four (b : RegNum) : eRange b 4 = regsP b := by
  simp [eRange, regsP, regsQ, List.range_succ, BitVec.add_assoc]

theorem eRange_twelve (b : RegNum) : eRange b 12 = regsP b ++ regsP (b + 4) ++ regsP (b + 8) := by
  simp [eRange, regsP, regsQ, List.range_succ, BitVec.add_assoc]

theorem auxRange_eq (aux : Bool) (b : RegNum) : auxRange aux b = regsAux aux b := by
  cases aux
  · rfl
  · exact eRange_twelve b

/-- The sources of a command's rule are the registers the command reads. -/
theorem mem_srcs_iff (i : Instr) (name : RegName) : name ∈ (ruleOf i).srcs ↔ name ∈ reads i := by
  have h56 : regsP 56 = regsQ cv0 ++ regsQ cv1 := rfl
  have h48 : eRange 48 6 = regsQ coef0 ++ regsQ coef1 ++ regsQ coef2 := rfl
  have h48' : regsP 48 = regsQ coef0 ++ regsQ coef1 := rfl
  have h54 : regsQ 54 = regsQ ca := rfl
  cases i <;> simp only [reads, eRange_two, eRange_four, auxRange_eq, h56, h48, h48', h54] <;>
    first
    | rfl
    | simp only [ruleOf, fpSelRule, fp2SelRule, xTplRule, xTpleRule, chainARule, chainBRule, List.mem_append,
        List.mem_cons, List.not_mem_nil]
      tauto

/-- The destinations of a command's rule are the registers the command writes. -/
theorem dsts_eq (i : Instr) : (ruleOf i).dsts = writes i := by
  cases i <;> simp only [writes, eRange_two, eRange_four, auxRange_eq] <;> rfl

/-- Everything a command can do (R12, R310, R312). -/
theorem exec_cases (i : Instr) (s : State) :
    (s.cfg.wf = false ∧ exec i s = .refused .configNotWellFormed) ∨
      (s.cfg.wf = true ∧ ∃ e, operandError s.cfg.skBits i = some e ∧ exec i s = .next (s.reject e)) ∨
      (s.cfg.wf = true ∧ operandError s.cfg.skBits i = none ∧ exec i s = .next (s.runLanes (ruleOf i))) := by
  rw [exec_eq]
  exact runCommand_cases i (ruleOf i) s

/-- A lane on which a rule gives values breaks no bound. -/
theorem breaks_of_outcome {rule : Rule} {c : Config} {l : Lane} {vs : List Nat} (h : rule.outcome c l = .ok vs) :
    rule.breaks c l = false := by
  simp [Rule.breaks, h]

/-- A rule that gives its values in every lane leaves a state that differs in the destinations alone. -/
theorem runLanes_of_outcome {s : State} {rule : Rule} {f : Lane → List Nat}
    (h : ∀ l ∈ s.lanes, rule.outcome s.cfg l = .ok (f l)) :
    s.runLanes rule = { s with lanes := s.lanes.map fun l => l.writeAll s.cfg (rule.dsts.zip (f l)) } := by
  have h1 : (s.lanes.mapIdx fun k l => rule.onLane s.cfg s.draws k l) =
      s.lanes.map fun l => l.writeAll s.cfg (rule.dsts.zip (f l)) := by
    refine List.ext_getElem (by simp) fun k hk hk' => ?_
    simp only [List.getElem_mapIdx, List.getElem_map]
    exact onLane_of_outcome (h _ (List.getElem_mem _)) s.draws k
  have h2 : s.lanes.any (rule.breaks s.cfg) = false := by
    rw [List.any_eq_false]
    exact fun l hl => by simp [breaks_of_outcome (h l hl)]
  simp [State.runLanes, h1, h2]

/-- A command that passes its operand checks and whose rule gives the values f in every lane writes them (R310). -/
theorem writes_of_outcome {i : Instr} {s : State} {f : Lane → List Nat} (hw : s.cfg.wf = true)
    (ho : operandError s.cfg.skBits i = none) (h : ∀ l ∈ s.lanes, (ruleOf i).outcome s.cfg l = .ok (f l)) :
    Writes i s (writes i) f := by
  obtain ⟨hf, -⟩ | ⟨-, e, he, -⟩ | ⟨-, -, hx⟩ := exec_cases i s
  · simp [hw] at hf
  · simp [ho] at he
  · unfold Writes
    rw [hx, runLanes_of_outcome h, dsts_eq]

/-- The same for a rule whose body gives, in every lane, values that satisfy P: some choice of values is written, and each lane's
values satisfy P. The argument a₀ only says that there are such values. -/
theorem writes_of_gives {i : Instr} {s : State} {α : Type} (a₀ : α) {parts : α → List Nat} {P : Lane → α → Prop}
    (hw : s.cfg.wf = true) (ho : operandError s.cfg.skBits i = none)
    (h : ∀ l ∈ s.lanes, Gives ((ruleOf i).body s.cfg l) fun vs => ∃ a, vs = parts a ∧ P l a) :
    ∃ f : Lane → α, Writes i s (writes i) (fun l => parts (f l)) ∧ ∀ l ∈ s.lanes, P l (f l) := by
  classical
  have h' : ∀ l : Lane, ∃ a : α, l ∈ s.lanes → (ruleOf i).outcome s.cfg l = .ok (parts a) ∧ P l a := by
    intro l
    by_cases hl : l ∈ s.lanes
    · obtain ⟨vs, hv, a, rfl, hP⟩ := (h l hl).outcome
      exact ⟨a, fun _ => ⟨hv, hP⟩⟩
    · exact ⟨a₀, fun hl' => absurd hl' hl⟩
  choose f hf using h'
  exact ⟨f, writes_of_outcome hw ho fun l hl => (hf l hl).1, fun l hl => (hf l hl).2⟩

end Sys2Proof.Laws
end

