-- ==== Sys2Proof/Laws/Params.lean ====
section
/-! SUPPORT. What a well-formed configuration guarantees: the size and parity of p, the bound R ≥ 32p, that pinv is the
inverse of p modulo R (R52), and that R is a unit modulo p. -/

namespace Sys2Proof.Laws

open Sys2Proof.Machine

variable {c : Config}

/-- The conjuncts of R12 and of the ranges, as propositions. -/
theorem wf_iff (c : Config) : c.wf = true ↔
    32 * c.p ≤ c.r ∧ 2 ≤ c.eA ∧ 1 ≤ c.eB ∧ (1 ≤ c.w ∧ c.w ≤ 64) ∧ (1 ≤ c.n ∧ c.n ≤ 32) ∧ (1 ≤ c.k ∧ c.k ≤ 16) ∧
      (1 ≤ c.invNT ∧ (∀ x ∈ c.invSteps, x.2 < c.invNT) ∧ c.chainExponent = (c.p - 3) / 4) ∧
      Config.strategyOk c.chainLenA c.maxPts c.stratA = true ∧ Config.strategyOk c.chainLenB c.maxPts c.stratB = true := by
  simp [Config.wf, and_assoc]

theorem wf_r (h : c.wf = true) : 32 * c.p ≤ c.r := ((wf_iff c).1 h).1

theorem wf_eA (h : c.wf = true) : 2 ≤ c.eA := ((wf_iff c).1 h).2.1

theorem wf_eB (h : c.wf = true) : 1 ≤ c.eB := ((wf_iff c).1 h).2.2.1

theorem r_pos (c : Config) : 0 < c.r := Nat.two_pow_pos _

theorem p_add_one (c : Config) : c.p + 1 = 2 ^ c.eA * 3 ^ c.eB :=
  Nat.sub_add_cancel (Nat.mul_pos (Nat.two_pow_pos _) (Nat.pow_pos (by decide)))

/-- p ≡ 3 (mod 4) and p ≥ 11 (R8). -/
theorem p_mod_four (h : c.wf = true) : c.p % 4 = 3 ∧ 11 ≤ c.p := by
  have hp := p_add_one c
  obtain ⟨a, ha⟩ := Nat.exists_eq_add_of_le (wf_eA h)
  obtain ⟨b, hb⟩ := Nat.exists_eq_add_of_le (wf_eB h)
  have h1 : 2 ^ c.eA * 3 ^ c.eB = 12 * (2 ^ a * 3 ^ b) := by rw [ha, hb]; ring
  have h2 : 0 < 2 ^ a * 3 ^ b := Nat.mul_pos (Nat.two_pow_pos _) (Nat.pow_pos (by decide))
  omega

theorem p_pos (h : c.wf = true) : 0 < c.p := by have := (p_mod_four h).2; omega

theorem p_odd (h : c.wf = true) : c.p % 2 = 1 := by have := (p_mod_four h).1; omega

/-- Each round of the Newton iteration doubles the number of low bits in which q·x is 1. -/
theorem newton_dvd {q n : Nat} (hq : q % 2 = 1) (k : Nat) :
    (2 : Int) ^ (min (2 ^ k) n) ∣ (q : Int) * Config.newtonInverse q (2 ^ n) k - 1 := by
  induction k with
  | zero =>
    have : (2 : Int) ^ (min (2 ^ 0) n) ∣ (2 : Int) ^ 1 := pow_dvd_pow 2 (by omega)
    refine this.trans ?_
    simp only [Config.newtonInverse]
    omega
  | succ k ih =>
    set x := Config.newtonInverse q (2 ^ n) k with hx
    obtain ⟨t, ht⟩ := ih
    set e := min (2 ^ k) n with he
    have hm : (Config.newtonInverse q (2 ^ n) (k + 1) : Int) =
        (x : Int) * (2 + ((2 : Int) ^ n - (q * x : Int) % 2 ^ n)) % 2 ^ n := by
      have hlt : q * x % 2 ^ n ≤ 2 ^ n := (Nat.mod_lt _ (Nat.two_pow_pos n)).le
      simp only [Config.newtonInverse, ← hx]
      push_cast [Nat.cast_sub hlt]
      rfl
    have h1 : (q : Int) * x = (2 : Int) ^ n * ((q * x : Int) / 2 ^ n) + (q * x : Int) % 2 ^ n :=
      (Int.mul_ediv_add_emod _ _).symm
    have h2 := (Int.mul_ediv_add_emod ((x : Int) * (2 + ((2 : Int) ^ n - (q * x : Int) % 2 ^ n))) (2 ^ n)).symm
    have hle : min (2 ^ (k + 1)) n ≤ n := Nat.min_le_right _ _
    have hle2 : min (2 ^ (k + 1)) n ≤ 2 * e := by rw [pow_succ]; omega
    have hd1 : (2 : Int) ^ (min (2 ^ (k + 1)) n) ∣ (2 : Int) ^ n := pow_dvd_pow 2 hle
    have hd2 : (2 : Int) ^ (min (2 ^ (k + 1)) n) ∣ ((q : Int) * x - 1) ^ 2 := by
      rw [ht, mul_pow, ← pow_mul, Nat.mul_comm e 2]
      exact (pow_dvd_pow 2 hle2).mul_right _
    rw [hm]
    set m := (q * x : Int) % 2 ^ n with hmdef
    set d := (q * x : Int) / 2 ^ n with hddef
    set y := (x : Int) * (2 + ((2 : Int) ^ n - m)) % 2 ^ n with hy
    set z := (x : Int) * (2 + ((2 : Int) ^ n - m)) / 2 ^ n with hz
    have : (q : Int) * y - 1 = (2 : Int) ^ n * (q * (x + x * d - z)) - ((q : Int) * x - 1) ^ 2 := by
      have e1 : m = (q : Int) * x - 2 ^ n * d := by linarith
      have e2 : y = (x : Int) * (2 + ((2 : Int) ^ n - m)) - 2 ^ n * z := by linarith
      rw [e2, e1]
      ring
    rw [this]
    exact dvd_sub (hd1.mul_right _) hd2

/-- pinv is the inverse of p modulo R (R52). -/
theorem p_mul_pinv (h : c.wf = true) : c.p * c.pinv % c.r = 1 := by
  have hn : 1 ≤ c.w * c.n := Nat.mul_pos ((wf_iff c).1 h).2.2.2.1.1 ((wf_iff c).1 h).2.2.2.2.1.1
  have hd := newton_dvd (n := c.w * c.n) (p_odd h) (Nat.log2 (c.w * c.n) + 1)
  have hmin : min (2 ^ (Nat.log2 (c.w * c.n) + 1)) (c.w * c.n) = c.w * c.n :=
    Nat.min_eq_right (Nat.lt_log2_self).le
  rw [hmin] at hd
  have hr : 1 < c.r := Nat.one_lt_two_pow (by omega)
  have : (c.p * c.pinv : Int) ≡ 1 [ZMOD (c.r : Int)] := by
    apply Int.ModEq.symm
    rw [Int.modEq_iff_dvd]
    simpa [Config.r, Config.pinv] using hd
  have h2 : c.p * c.pinv ≡ 1 [MOD c.r] := by exact_mod_cast this
  have h3 := h2
  unfold Nat.ModEq at h3
  rwa [Nat.mod_eq_of_lt hr] at h3

/-- R is a unit modulo p (R17). -/
theorem r_coprime (h : c.wf = true) : Nat.Coprime c.r c.p := by
  apply Nat.Coprime.pow_left
  exact (Nat.coprime_two_left).2 (Nat.odd_iff.2 (p_odd h))

theorem r_mul_inv (h : c.wf = true) : (c.r : ZMod c.p) * (c.r : ZMod c.p)⁻¹ = 1 :=
  ZMod.coe_mul_inv_eq_one _ (r_coprime h)

theorem p_cast_zero : (c.p : ZMod c.p) = 0 := ZMod.natCast_self _

/-- Two values represent one element exactly when they are congruent modulo p (R17). -/
theorem elem_eq_iff (h : c.wf = true) (a b : Nat) : c.elem a = c.elem b ↔ a % c.p = b % c.p := by
  have hu : IsUnit ((c.r : ZMod c.p)⁻¹) :=
    IsUnit.of_mul_eq_one (c.r : ZMod c.p) (by rw [mul_comm]; exact r_mul_inv h)
  unfold Config.elem
  rw [hu.mul_left_inj]
  exact ZMod.natCast_eq_natCast_iff' a b c.p

@[simp] theorem elem_zero : c.elem 0 = 0 := by simp [Config.elem]

/-- MONT_ONE represents 1 (R52). -/
theorem elem_montOne (h : c.wf = true) : c.elem c.montOne = 1 := by
  have h1 : ((c.r % c.p : Nat) : ZMod c.p) = (c.r : ZMod c.p) := ZMod.natCast_mod _ _
  rw [Config.elem, Config.montOne, h1]
  exact r_mul_inv h

end Sys2Proof.Laws
end

