-- ==== Sys2Proof/Laws/FpArith.lean ====
section
/-! SUPPORT. One specification lemma for each function of FpArith.lean: on operands in its bound it gives a value in its
result interval that represents the field operation's result (`_gives`); whenever it completes its result is in that
interval (`_ensures`); and the operation kinds it records do not depend on its operands (`_traced`). -/

namespace Sys2Proof.Laws

open Sys2Proof.Machine

variable {c : Config}

/-! ## REDC -/

/-- The value REDC returns for x (R150). -/
def redcValue (c : Config) (x : Nat) : Nat := (x + (c.r - x % c.r) * c.pinv % c.r * c.p) / c.r

theorem redc_yields {x : Nat} (h : x < c.p * c.r) : Yields (redc c x) [.redc] (redcValue c x) := by
  refine (Yields.note .redc).bind_eq ((Yields.require ?_).bind_eq (Yields.pure _) rfl) rfl
  simpa using h

/-- (x + q·p) is divisible by R (R151(a)). -/
theorem redc_exact (hw : c.wf = true) (x : Nat) :
    c.r * redcValue c x = x + (c.r - x % c.r) * c.pinv % c.r * c.p := by
  have hr := r_pos c
  have hdvd : c.r ∣ x + (c.r - x % c.r) * c.pinv % c.r * c.p := by
    have h1 : (x + (c.r - x % c.r) * c.pinv % c.r * c.p) ≡ x + (c.r - x % c.r) [MOD c.r] := by
      refine Nat.ModEq.add_left x ?_
      have h2 : (c.r - x % c.r) * c.pinv % c.r * c.p ≡ (c.r - x % c.r) * c.pinv * c.p [MOD c.r] :=
        (Nat.mod_modEq _ _).mul_right _
      have h3 : c.pinv * c.p ≡ 1 [MOD c.r] := by
        have hlt : 1 < c.r := by
          have := wf_r hw
          have := p_pos hw
          omega
        unfold Nat.ModEq
        rw [Nat.mul_comm, p_mul_pinv hw, Nat.mod_eq_of_lt hlt]
      have h4 := h3.mul_left (c.r - x % c.r)
      rw [Nat.mul_one, ← Nat.mul_assoc] at h4
      exact h2.trans h4
    refine (Nat.modEq_zero_iff_dvd).1 (h1.trans ?_)
    refine (Nat.modEq_zero_iff_dvd).2 ?_
    have hlt := Nat.mod_lt x hr
    have hx := Nat.div_add_mod x c.r
    exact ⟨x / c.r + 1, by rw [Nat.mul_add, Nat.mul_one]; omega⟩
  exact Nat.mul_div_cancel' hdvd

/-- REDC(x) < 2p (R151(c)). -/
theorem redcValue_lt {x : Nat} (h : x < c.p * c.r) : redcValue c x < 2 * c.p := by
  have hr := r_pos c
  unfold redcValue
  rw [Nat.div_lt_iff_lt_mul hr]
  have hq : (c.r - x % c.r) * c.pinv % c.r < c.r := Nat.mod_lt _ hr
  nlinarith [Nat.mul_le_mul_right c.p hq.le]

/-- REDC(x)·R ≡ x (mod p) (R151(b)), as field elements. -/
theorem redcValue_cast (hw : c.wf = true) (x : Nat) :
    (redcValue c x : ZMod c.p) = (x : ZMod c.p) * (c.r : ZMod c.p)⁻¹ := by
  have h1 : (c.r : ZMod c.p) * (redcValue c x : ZMod c.p) = (x : ZMod c.p) := by
    have := congrArg (Nat.cast : Nat → ZMod c.p) (redc_exact hw x)
    push_cast at this
    rw [this, p_cast_zero, mul_zero, add_zero]
  calc (redcValue c x : ZMod c.p) = (c.r * (c.r : ZMod c.p)⁻¹) * redcValue c x := by rw [r_mul_inv hw, one_mul]
    _ = (c.r * redcValue c x) * (c.r : ZMod c.p)⁻¹ := by ring
    _ = _ := by rw [h1]

@[simp] theorem redcValue_zero (c : Config) : redcValue c 0 = 0 := by
  unfold redcValue
  simp

/-- REDC's value, written with the integer remainder of R150. -/
theorem redcValue_eq_montgomery (c : Config) (x : Nat) : redcValue c x = c.montgomery x := by
  have hr := r_pos c
  have h : (((c.r - x % c.r) * c.pinv % c.r : Nat) : Int) = -(x : Int) * c.pinv % c.r := by
    have hle := (Nat.mod_lt x hr).le
    push_cast [Nat.cast_sub hle]
    refine Int.ModEq.mul_right _ ?_
    rw [Int.modEq_iff_dvd]
    have := Int.mul_ediv_add_emod (x : Int) c.r
    exact ⟨-((x : Int) / c.r) - 1, by linarith⟩
  unfold redcValue Config.montgomery
  rw [← h, Int.toNat_natCast]

theorem redc_ensures (x : Nat) : Ensures (redc c x) fun v => v < 2 * c.p := by
  refine Ensures.tail fun _ => Ensures.require.bind fun _ h => ?_
  exact Ensures.pure (redcValue_lt (by simpa using h))

theorem redc_traced (x : Nat) : Traced (redc c x) [.redc] :=
  (Traced.note _).bind fun _ => (Traced.require _ _).bind fun _ => Traced.pure _

/-! ## Bounds -/

theorem inBound_yields {op : BoundOp} {a : Nat} (h : c.Working a) : Yields (inBound c op a) [] () :=
  Yields.require (decide_eq_true h)

theorem inBound_ensures {op : BoundOp} {a : Nat} : Ensures (inBound c op a) fun _ => c.Working a :=
  fun tr v tr' h => by simpa [Config.Working] using Ensures.require tr v tr' h

theorem inBound_traced (op : BoundOp) (a : Nat) : Traced (inBound c op a) [] := Traced.require _ _

/-- The products of working operands are below p·R (R166). -/
theorem mul_lt (hw : c.wf = true) {a b : Nat} (ha : c.Working a) (hb : c.Working b) : a * b < c.p * c.r := by
  have h1 := Nat.mul_le_mul ha hb
  have h2 := wf_r hw
  have h3 := p_pos hw
  unfold Config.Working at *
  nlinarith

/-! ## The functions -/

theorem fpadd_yields {a b : Nat} (ha : c.Working a) (hb : c.Working b) :
    Yields (fpadd c a b) [.add] (if 2 * c.p ≤ a + b then a + b - 2 * c.p else a + b) :=
  (Yields.note _).bind_eq ((inBound_yields ha).bind_eq ((inBound_yields hb).bind_eq (Yields.pure _) rfl) rfl) rfl

theorem fpadd_value {a b : Nat} (ha : c.Working a) (hb : c.Working b) :
    c.Working (if 2 * c.p ≤ a + b then a + b - 2 * c.p else a + b) ∧
      c.elem (if 2 * c.p ≤ a + b then a + b - 2 * c.p else a + b) = c.elem a + c.elem b := by
  unfold Config.Working Config.elem at *
  split
  · rename_i h
    refine ⟨by omega, ?_⟩
    rw [Nat.cast_sub h]
    push_cast [p_cast_zero]
    ring
  · refine ⟨by omega, ?_⟩
    push_cast
    ring

theorem fpadd_gives {a b : Nat} (ha : c.Working a) (hb : c.Working b) :
    Gives (fpadd c a b) fun v => c.Working v ∧ c.elem v = c.elem a + c.elem b :=
  ⟨_, _, fpadd_yields ha hb, fpadd_value ha hb⟩

theorem fpadd_ensures (a b : Nat) : Ensures (fpadd c a b) c.Working :=
  Ensures.tail fun _ => inBound_ensures.bind fun _ ha => inBound_ensures.bind fun _ hb =>
    Ensures.pure (fpadd_value ha hb).1

theorem fpadd_traced (a b : Nat) : Traced (fpadd c a b) [.add] :=
  (Traced.note _).bind fun _ => (inBound_traced _ _).bind fun _ => (inBound_traced _ _).bind fun _ => Traced.pure _

theorem fpsub_yields {a b : Nat} (ha : c.Working a) (hb : c.Working b) :
    Yields (fpsub c a b) [.sub] (if a < b then a + 2 * c.p - b else a - b) :=
  (Yields.note _).bind_eq ((inBound_yields ha).bind_eq ((inBound_yields hb).bind_eq (Yields.pure _) rfl) rfl) rfl

theorem fpsub_value {a b : Nat} (ha : c.Working a) (hb : c.Working b) :
    c.Working (if a < b then a + 2 * c.p - b else a - b) ∧
      c.elem (if a < b then a + 2 * c.p - b else a - b) = c.elem a - c.elem b := by
  unfold Config.Working Config.elem at *
  split
  · refine ⟨by omega, ?_⟩
    rw [Nat.cast_sub (by omega)]
    push_cast [p_cast_zero]
    ring
  · refine ⟨by omega, ?_⟩
    rw [Nat.cast_sub (by omega)]
    ring

theorem fpsub_gives {a b : Nat} (ha : c.Working a) (hb : c.Working b) :
    Gives (fpsub c a b) fun v => c.Working v ∧ c.elem v = c.elem a - c.elem b :=
  ⟨_, _, fpsub_yields ha hb, fpsub_value ha hb⟩

theorem fpsub_ensures (a b : Nat) : Ensures (fpsub c a b) c.Working :=
  Ensures.tail fun _ => inBound_ensures.bind fun _ ha => inBound_ensures.bind fun _ hb =>
    Ensures.pure (fpsub_value ha hb).1

theorem fpsub_traced (a b : Nat) : Traced (fpsub c a b) [.sub] :=
  (Traced.note _).bind fun _ => (inBound_traced _ _).bind fun _ => (inBound_traced _ _).bind fun _ => Traced.pure _

theorem fpneg_yields {a : Nat} (ha : c.Working a) : Yields (fpneg c a) [.neg] (2 * c.p - a) :=
  (Yields.note _).bind_eq ((inBound_yields ha).bind_eq (Yields.pure _) rfl) rfl

theorem fpneg_value {a : Nat} (ha : c.Working a) : c.Working (2 * c.p - a) ∧ c.elem (2 * c.p - a) = -c.elem a := by
  unfold Config.Working Config.elem at *
  refine ⟨by omega, ?_⟩
  rw [Nat.cast_sub ha]
  push_cast [p_cast_zero]
  ring

theorem fpneg_gives {a : Nat} (ha : c.Working a) : Gives (fpneg c a) fun v => c.Working v ∧ c.elem v = -c.elem a :=
  ⟨_, _, fpneg_yields ha, fpneg_value ha⟩

theorem fpneg_ensures (a : Nat) : Ensures (fpneg c a) c.Working :=
  Ensures.tail fun _ => inBound_ensures.bind fun _ ha => Ensures.pure (fpneg_value ha).1

theorem fpneg_traced (a : Nat) : Traced (fpneg c a) [.neg] :=
  (Traced.note _).bind fun _ => (inBound_traced _ _).bind fun _ => Traced.pure _

theorem fpdiv2_yields {a : Nat} (ha : c.Working a) : Yields (fpdiv2 c a) [.div2] ((a + c.p * (a % 2)) / 2) :=
  (Yields.note _).bind_eq ((inBound_yields ha).bind_eq (Yields.pure _) rfl) rfl

theorem fpdiv2_bound {a : Nat} (ha : c.Working a) : c.Working ((a + c.p * (a % 2)) / 2) := by
  unfold Config.Working at *
  have : c.p * (a % 2) ≤ c.p * 1 := Nat.mul_le_mul_left _ (by omega)
  omega

/-- Twice the half is a, exactly as the halving adds p to an odd a (R164). -/
theorem fpdiv2_double (hw : c.wf = true) (a : Nat) :
    c.elem ((a + c.p * (a % 2)) / 2) + c.elem ((a + c.p * (a % 2)) / 2) = c.elem a := by
  have hp := p_odd hw
  have h2 : 2 * ((a + c.p * (a % 2)) / 2) = a + c.p * (a % 2) := by
    rcases Nat.mod_two_eq_zero_or_one a with h | h
    · rw [h]
      omega
    · rw [h]
      omega
  have h3 := congrArg (Nat.cast : Nat → ZMod c.p) h2
  push_cast [p_cast_zero] at h3
  unfold Config.elem
  have h4 : (c.r : ZMod c.p)⁻¹ * (2 * (((a + c.p * (a % 2)) / 2 : Nat) : ZMod c.p)) =
      (c.r : ZMod c.p)⁻¹ * ((a : ZMod c.p) + 0 * ((a % 2 : Nat) : ZMod c.p)) := by rw [h3]
  linear_combination h4

theorem fpdiv2_gives (hw : c.wf = true) {a : Nat} (ha : c.Working a) :
    Gives (fpdiv2 c a) fun v => c.Working v ∧ c.elem v + c.elem v = c.elem a :=
  ⟨_, _, fpdiv2_yields ha, fpdiv2_bound ha, fpdiv2_double hw a⟩

theorem fpdiv2_ensures (a : Nat) : Ensures (fpdiv2 c a) c.Working :=
  Ensures.tail fun _ => inBound_ensures.bind fun _ ha => Ensures.pure (fpdiv2_bound ha)

theorem fpdiv2_traced (a : Nat) : Traced (fpdiv2 c a) [.div2] :=
  (Traced.note _).bind fun _ => (inBound_traced _ _).bind fun _ => Traced.pure _

theorem fpcorr_yields {a : Nat} (ha : c.Working a) : Yields (fpcorr c a) [.corr] (a % c.p) :=
  (Yields.note _).bind_eq ((inBound_yields ha).bind_eq (Yields.pure _) rfl) rfl

theorem elem_mod (a : Nat) : c.elem (a % c.p) = c.elem a := by
  unfold Config.elem
  rw [ZMod.natCast_mod]

theorem mod_working {a b : Nat} (ha : a ≤ b) (hb : c.Working b) : c.Working (a % c.p) :=
  ((Nat.mod_le a c.p).trans ha).trans hb

theorem fpcorr_gives {a : Nat} (ha : c.Working a) :
    Gives (fpcorr c a) fun v => c.Working v ∧ c.elem v = c.elem a :=
  ⟨_, _, fpcorr_yields ha, mod_working le_rfl ha, elem_mod a⟩

theorem fpcorr_ensures (a : Nat) : Ensures (fpcorr c a) c.Working :=
  Ensures.tail fun _ => inBound_ensures.bind fun _ ha => Ensures.pure (mod_working le_rfl ha)

theorem fpcorr_traced (a : Nat) : Traced (fpcorr c a) [.corr] :=
  (Traced.note _).bind fun _ => (inBound_traced _ _).bind fun _ => Traced.pure _

theorem fpmul_yields (hw : c.wf = true) {a b : Nat} (ha : c.Working a) (hb : c.Working b) :
    Yields (fpmul c a b) [.redc, .mul] (redcValue c (a * b)) :=
  (Yields.note _).bind_eq ((inBound_yields ha).bind_eq ((inBound_yields hb).bind_eq (redc_yields (mul_lt hw ha hb)) rfl) rfl) rfl

theorem redc_mul_elem (hw : c.wf = true) (a b : Nat) : c.elem (redcValue c (a * b)) = c.elem a * c.elem b := by
  unfold Config.elem
  rw [redcValue_cast hw]
  push_cast
  ring

theorem redcValue_working {x : Nat} (h : x < c.p * c.r) : c.Working (redcValue c x) := (redcValue_lt h).le

theorem fpmul_gives (hw : c.wf = true) {a b : Nat} (ha : c.Working a) (hb : c.Working b) :
    Gives (fpmul c a b) fun v => c.Working v ∧ c.elem v = c.elem a * c.elem b :=
  ⟨_, _, fpmul_yields hw ha hb, redcValue_working (mul_lt hw ha hb), redc_mul_elem hw a b⟩

theorem fpmul_ensures (a b : Nat) : Ensures (fpmul c a b) c.Working :=
  Ensures.tail fun _ => Ensures.tail fun _ => Ensures.tail fun _ tr v tr' h => (redc_ensures _ tr v tr' h).le

theorem fpmul_traced (a b : Nat) : Traced (fpmul c a b) [.redc, .mul] :=
  (Traced.note _).bind fun _ => (inBound_traced _ _).bind fun _ => (inBound_traced _ _).bind fun _ => redc_traced _

theorem fpsqr_yields (hw : c.wf = true) {a : Nat} (ha : c.Working a) :
    Yields (fpsqr c a) [.redc, .sqr] (redcValue c (a * a)) :=
  (Yields.note _).bind_eq ((inBound_yields ha).bind_eq (redc_yields (mul_lt hw ha ha)) rfl) rfl

theorem fpsqr_gives (hw : c.wf = true) {a : Nat} (ha : c.Working a) :
    Gives (fpsqr c a) fun v => c.Working v ∧ c.elem v = c.elem a * c.elem a :=
  ⟨_, _, fpsqr_yields hw ha, redcValue_working (mul_lt hw ha ha), redc_mul_elem hw a a⟩

theorem fpsqr_ensures (a : Nat) : Ensures (fpsqr c a) c.Working :=
  Ensures.tail fun _ => Ensures.tail fun _ tr v tr' h => (redc_ensures _ tr v tr' h).le

theorem fpsqr_traced (a : Nat) : Traced (fpsqr c a) [.redc, .sqr] :=
  (Traced.note _).bind fun _ => (inBound_traced _ _).bind fun _ => redc_traced _

/-! ## Domain conversion -/

theorem montR2_working (hw : c.wf = true) : c.Working c.montR2 := by
  have := Nat.mod_lt (c.r ^ 2) (p_pos hw)
  unfold Config.Working Config.montR2
  omega

theorem one_working (hw : c.wf = true) : c.Working 1 := by
  have := p_pos hw
  unfold Config.Working
  omega

theorem tomont_yields (hw : c.wf = true) {a : Nat} (ha : c.Working a) :
    Yields (tomont c a) [.redc] (redcValue c (a * c.montR2)) :=
  (inBound_yields ha).bind_eq (redc_yields (mul_lt hw ha (montR2_working hw))) rfl

/-- tomont(a) represents the residue of a (R170). -/
theorem tomont_elem (hw : c.wf = true) (a : Nat) : c.elem (redcValue c (a * c.montR2)) = (a : ZMod c.p) := by
  have h1 : ((c.montR2 : Nat) : ZMod c.p) = (c.r : ZMod c.p) ^ 2 := by
    rw [Config.montR2, ZMod.natCast_mod, Nat.cast_pow]
  have h2 := r_mul_inv hw
  unfold Config.elem
  rw [redcValue_cast hw, Nat.cast_mul, h1]
  calc (a : ZMod c.p) * (c.r : ZMod c.p) ^ 2 * (c.r : ZMod c.p)⁻¹ * (c.r : ZMod c.p)⁻¹
      = a * (c.r * (c.r : ZMod c.p)⁻¹) * (c.r * (c.r : ZMod c.p)⁻¹) := by ring
    _ = a := by rw [h2, mul_one, mul_one]

theorem tomont_ensures (a : Nat) : Ensures (tomont c a) c.Working :=
  Ensures.tail fun _ tr v tr' h => (redc_ensures _ tr v tr' h).le

theorem tomont_traced (a : Nat) : Traced (tomont c a) [.redc] := (inBound_traced _ _).bind fun _ => redc_traced _

theorem frommont_yields (hw : c.wf = true) {a : Nat} (ha : c.Working a) :
    Yields (frommont c a) [.redc] (redcValue c (a * 1) % c.p) :=
  (inBound_yields ha).bind_eq ((redc_yields (mul_lt hw ha (one_working hw))).bind_eq (Yields.pure _) rfl) rfl

/-- frommont(a) is the canonical residue that a represents (R171). -/
theorem frommont_cast (hw : c.wf = true) (a : Nat) :
    ((redcValue c (a * 1) % c.p : Nat) : ZMod c.p) = c.elem a := by
  rw [ZMod.natCast_mod, redcValue_cast hw, Nat.mul_one]
  rfl

theorem frommont_ensures (a : Nat) : Ensures (frommont c a) c.Working :=
  Ensures.tail fun _ => (redc_ensures _).bind fun _ h => Ensures.pure ((Nat.mod_le _ _).trans h.le)

theorem frommont_traced (a : Nat) : Traced (frommont c a) [.redc] :=
  (inBound_traced _ _).bind fun _ => (redc_traced _).bind fun _ => Traced.pure _

/-! ## Inversion -/

/-- m squarings of acc (R169). -/
theorem fpsqrTimes_gives (hw : c.wf = true) (m : Nat) {acc : Nat} (ha : c.Working acc) :
    Gives (fpsqrTimes c m acc) fun v => c.Working v ∧ c.elem v = c.elem acc ^ 2 ^ m := by
  induction m generalizing acc with
  | zero => exact Gives.pure ⟨ha, by simp⟩
  | succ m ih =>
    refine (fpsqr_gives hw ha).bind fun v hv => (ih hv.1).mono fun u hu => ⟨hu.1, ?_⟩
    rw [hu.2, hv.2]
    ring

/-- The further entries of the table T: entry i of them represents prev·tt^(i+1) (R169). -/
theorem fpinvTableFrom_gives (hw : c.wf = true) {tt : Nat} (htt : c.Working tt) (m : Nat) {prev : Nat}
    (hp : c.Working prev) :
    Gives (fpinvTableFrom c tt prev m) fun ts => ts.length = m ∧
      ∀ i (h : i < ts.length), c.Working ts[i] ∧ c.elem ts[i] = c.elem prev * c.elem tt ^ (i + 1) := by
  induction m generalizing prev with
  | zero => exact Gives.pure ⟨rfl, fun i h => absurd h (by simp)⟩
  | succ m ih =>
    refine (fpmul_gives hw hp htt).bind fun t ht => (ih ht.1).bind fun ts hts => Gives.pure ⟨by simp [hts.1], ?_⟩
    intro i hi
    cases i with
    | zero => exact ⟨ht.1, by simpa using ht.2⟩
    | succ i =>
      have := hts.2 i (by simpa using hi)
      refine ⟨this.1, ?_⟩
      simp only [List.getElem_cons_succ]
      rw [this.2, ht.2]
      ring

/-- The table T: INV_NT entries, T[i] representing a^(2i+1) (R168, R169). -/
theorem fpinvTable_gives (hw : c.wf = true) {a : Nat} (ha : c.Working a) :
    Gives (fpinvTable c a) fun ts => ∀ i, i < c.invNT → c.Working (ts.getD i 0) ∧
      c.elem (ts.getD i 0) = c.elem a ^ (2 * i + 1) := by
  have hnt := ((wf_iff c).1 hw).2.2.2.2.2.2.1.1
  unfold fpinvTable
  split
  · refine (fpsqr_gives hw ha).bind fun tt htt => (fpinvTableFrom_gives hw htt.1 _ ha).bind fun ts hts => ?_
    refine Gives.pure fun i hi => ?_
    cases i with
    | zero => exact ⟨ha, by simp⟩
    | succ i =>
      have hlt : i < ts.length := by rw [hts.1]; omega
      have := hts.2 i hlt
      simp only [List.getD_cons_succ, List.getD_eq_getElem _ _ hlt]
      refine ⟨this.1, ?_⟩
      rw [this.2, htt.2]
      ring
  · refine Gives.pure fun i hi => ?_
    have : i = 0 := by omega
    subst this
    exact ⟨ha, by simp⟩

/-- The steps of the chain take a power of a to the power the chain computes from its exponent (R168, R169). -/
theorem fpinvSteps_gives (hw : c.wf = true) {a : Nat} {table : List Nat}
    (ht : ∀ i, i < c.invNT → c.Working (table.getD i 0) ∧ c.elem (table.getD i 0) = c.elem a ^ (2 * i + 1))
    (steps : List (Nat × Nat)) (hs : ∀ x ∈ steps, x.2 < c.invNT) {acc e : Nat} (hacc : c.Working acc)
    (he : c.elem acc = c.elem a ^ e) :
    Gives (fpinvSteps c table steps acc) fun v => c.Working v ∧ c.elem v = c.elem a ^ Config.chainExponentFrom e steps := by
  induction steps generalizing acc e with
  | nil => exact Gives.pure ⟨hacc, he⟩
  | cons x rest ih =>
    obtain ⟨s, i⟩ := x
    have hi := ht i (hs (s, i) List.mem_cons_self)
    refine (fpsqrTimes_gives hw s hacc).bind fun u hu => (fpmul_gives hw hu.1 hi.1).bind fun v hv => ?_
    refine ih (fun y hy => hs y (List.mem_cons_of_mem _ hy)) hv.1 ?_
    rw [hv.2, hu.2, hi.2, he]
    ring

/-- fpinv raises to the power p − 2 (R169). -/
theorem fpinv_gives (hw : c.wf = true) {a : Nat} (ha : c.Working a) :
    Gives (fpinv c a) fun v => c.Working v ∧ c.elem v = c.elem a ^ (c.p - 2) := by
  have hc := ((wf_iff c).1 hw).2.2.2.2.2.2.1
  refine (show Gives (inBound c .fpinv a) (fun _ => True) from ⟨(), [], inBound_yields ha, trivial⟩).bind fun _ _ => ?_
  refine (fpinvTable_gives hw ha).bind fun table ht => ?_
  refine (fpinvSteps_gives hw ht c.invSteps hc.2.1 (e := 1) ha (by simp)).bind fun v1 h1 => ?_
  refine (fpsqr_gives hw h1.1).bind fun v2 h2 => (fpsqr_gives hw h2.1).bind fun v3 h3 => ?_
  refine (fpmul_gives hw ha h3.1).mono fun v4 h4 => ⟨h4.1, ?_⟩
  have hexp : Config.chainExponentFrom 1 c.invSteps = (c.p - 3) / 4 := hc.2.2
  have hp := p_mod_four hw
  have : c.p - 2 = 1 + 4 * ((c.p - 3) / 4) := by omega
  rw [h4.2, h3.2, h2.2, h1.2, hexp, this]
  ring

theorem fpinv_ensures (a : Nat) : Ensures (fpinv c a) c.Working :=
  Ensures.tail fun _ => Ensures.tail fun _ => Ensures.tail fun _ => Ensures.tail fun _ => Ensures.tail fun _ =>
    fpmul_ensures _ _

/-! The kinds an inversion records depend on the configuration alone (R352). -/

theorem fpsqrTimes_uniform (m : Nat) : Uniform (fpsqrTimes c m) := by
  induction m with
  | zero => exact ⟨[], fun acc => Traced.pure acc⟩
  | succ m ih =>
    obtain ⟨ks, hk⟩ := ih
    exact ⟨_, fun acc => (fpsqr_traced acc).bind hk⟩

theorem fpinvTableFrom_uniform (m : Nat) : Uniform fun (x : Nat × Nat) => fpinvTableFrom c x.1 x.2 m := by
  induction m with
  | zero => exact ⟨[], fun x => Traced.pure _⟩
  | succ m ih =>
    obtain ⟨ks, hk⟩ := ih
    exact ⟨_, fun x => (fpmul_traced _ _).bind fun t => (hk (x.1, t)).bind fun _ => Traced.pure _⟩

theorem fpinvTable_uniform : Uniform (fpinvTable c) := by
  obtain ⟨ks, hk⟩ := fpinvTableFrom_uniform (c := c) (c.invNT - 1)
  by_cases h : 2 ≤ c.invNT
  · refine ⟨([] ++ ks) ++ [OpKind.redc, OpKind.sqr], fun a => ?_⟩
    simp only [fpinvTable, h, if_true]
    exact (fpsqr_traced a).bind fun tt => (hk (tt, a)).bind fun _ => Traced.pure _
  · refine ⟨[], fun a => ?_⟩
    simp only [fpinvTable, h, if_false]
    exact Traced.pure _

theorem fpinvSteps_uniform (steps : List (Nat × Nat)) :
    Uniform fun (x : List Nat × Nat) => fpinvSteps c x.1 steps x.2 := by
  induction steps with
  | nil => exact ⟨[], fun x => Traced.pure _⟩
  | cons y rest ih =>
    obtain ⟨ks, hk⟩ := ih
    obtain ⟨ls, hl⟩ := fpsqrTimes_uniform (c := c) y.1
    exact ⟨_, fun x => (hl x.2).bind fun u => (fpmul_traced _ _).bind fun v => hk (x.1, v)⟩

theorem fpinv_uniform : Uniform (fpinv c) := by
  obtain ⟨ks, hk⟩ := fpinvTable_uniform (c := c)
  obtain ⟨ls, hl⟩ := fpinvSteps_uniform (c := c) c.invSteps
  exact ⟨_, fun a => (inBound_traced _ _).bind fun _ => (hk a).bind fun t => (hl (t, a)).bind fun _ =>
    (fpsqr_traced _).bind fun _ => (fpsqr_traced _).bind fun _ => fpmul_traced _ _⟩

end Sys2Proof.Laws
end

