-- ==== Sys2Proof/Laws/Fp2Arith.lean ====
section
/-! SUPPORT. One specification lemma for each function of Fp2Arith.lean: what it gives on operands in the working bound, as
an element of GF(p²), and the operation kinds it records. The later files cite these and do not unfold the functions. -/

namespace Sys2Proof.Laws

open Sys2Proof.Machine

variable {c : Config}

/-- What a function of two working operands gives: a working value that represents `v`. -/
def Gives2 (c : Config) (m : Eng Fp2) (v : c.GF2) : Prop := Gives m fun u => c.Working2 u ∧ c.elem2 u = v

theorem Gives2.mono {m : Eng Fp2} {v w : c.GF2} (h : Gives2 c m v) (hvw : v = w) : Gives2 c m w := hvw ▸ h

theorem Gives2.bind {β : Type} {m : Eng Fp2} {v : c.GF2} {f : Fp2 → Eng β} {Q : β → Prop} (hm : Gives2 c m v)
    (hf : ∀ u, c.Working2 u → c.elem2 u = v → Gives (f u) Q) : Gives (m >>= f) Q :=
  Gives.bind hm fun u h => hf u h.1 h.2

/-! ## The component-wise functions -/

theorem lift1_yields {f : Nat → Eng Nat} {a : Fp2} {ks ls : List OpKind} {v0 v1 : Nat} (h0 : Yields (f a.a0) ks v0)
    (h1 : Yields (f a.a1) ls v1) : Yields (lift1 f a) (ls ++ ks) ⟨v0, v1⟩ :=
  h0.bind_eq (h1.bind_eq (Yields.pure _) rfl) (by simp)

theorem lift2_yields {f : Nat → Nat → Eng Nat} {a b : Fp2} {ks ls : List OpKind} {v0 v1 : Nat}
    (h0 : Yields (f a.a0 b.a0) ks v0) (h1 : Yields (f a.a1 b.a1) ls v1) :
    Yields (lift2 f a b) (ls ++ ks) ⟨v0, v1⟩ :=
  h0.bind_eq (h1.bind_eq (Yields.pure _) rfl) (by simp)

theorem lift1_gives {f : Nat → Eng Nat} {a : Fp2} {P Q : Nat → Prop} (h0 : Gives (f a.a0) P) (h1 : Gives (f a.a1) Q) :
    Gives (lift1 f a) fun u => P u.a0 ∧ Q u.a1 :=
  h0.bind fun _ hp => h1.bind fun _ hq => Gives.pure ⟨hp, hq⟩

theorem lift2_gives {f : Nat → Nat → Eng Nat} {a b : Fp2} {P Q : Nat → Prop} (h0 : Gives (f a.a0 b.a0) P)
    (h1 : Gives (f a.a1 b.a1) Q) : Gives (lift2 f a b) fun u => P u.a0 ∧ Q u.a1 :=
  h0.bind fun _ hp => h1.bind fun _ hq => Gives.pure ⟨hp, hq⟩

theorem lift1_traced {f : Nat → Eng Nat} {ks : List OpKind} (h : ∀ a, Traced (f a) ks) (a : Fp2) :
    Traced (lift1 f a) (ks ++ ks) := by
  have := (h a.a0).bind fun c0 => (h a.a1).bind fun c1 => Traced.pure (Fp2.mk c0 c1)
  simpa [lift1] using this

theorem lift2_traced {f : Nat → Nat → Eng Nat} {ks : List OpKind} (h : ∀ a b, Traced (f a b) ks) (a b : Fp2) :
    Traced (lift2 f a b) (ks ++ ks) := by
  have := (h a.a0 b.a0).bind fun c0 => (h a.a1 b.a1).bind fun c1 => Traced.pure (Fp2.mk c0 c1)
  simpa [lift2] using this

/-- Both components in their interval, whatever the operand. -/
theorem lift1_ensures {f : Nat → Eng Nat} {P : Nat → Prop} (h : ∀ a, Ensures (f a) P) (a : Fp2) :
    Ensures (lift1 f a) fun u => P u.a0 ∧ P u.a1 :=
  (h a.a0).bind fun _ hp => (h a.a1).bind fun _ hq => Ensures.pure ⟨hp, hq⟩

theorem lift2_ensures {f : Nat → Nat → Eng Nat} {P : Nat → Prop} (h : ∀ a b, Ensures (f a b) P) (a b : Fp2) :
    Ensures (lift2 f a b) fun u => P u.a0 ∧ P u.a1 :=
  (h a.a0 b.a0).bind fun _ hp => (h a.a1 b.a1).bind fun _ hq => Ensures.pure ⟨hp, hq⟩

theorem fp2add_gives {a b : Fp2} (ha : c.Working2 a) (hb : c.Working2 b) :
    Gives2 c (fp2add c a b) (c.elem2 a + c.elem2 b) :=
  (lift2_gives (fpadd_gives ha.1 hb.1) (fpadd_gives ha.2 hb.2)).mono fun _ h =>
    ⟨⟨h.1.1, h.2.1⟩, QuadraticAlgebra.ext h.1.2 h.2.2⟩

theorem fp2sub_gives {a b : Fp2} (ha : c.Working2 a) (hb : c.Working2 b) :
    Gives2 c (fp2sub c a b) (c.elem2 a - c.elem2 b) :=
  (lift2_gives (fpsub_gives ha.1 hb.1) (fpsub_gives ha.2 hb.2)).mono fun _ h =>
    ⟨⟨h.1.1, h.2.1⟩, QuadraticAlgebra.ext h.1.2 h.2.2⟩

theorem fp2neg_gives {a : Fp2} (ha : c.Working2 a) : Gives2 c (fp2neg c a) (-c.elem2 a) :=
  (lift1_gives (fpneg_gives ha.1) (fpneg_gives ha.2)).mono fun _ h => ⟨⟨h.1.1, h.2.1⟩, QuadraticAlgebra.ext h.1.2 h.2.2⟩

theorem fp2corr_gives {a : Fp2} (ha : c.Working2 a) : Gives2 c (fp2corr c a) (c.elem2 a) :=
  (lift1_gives (fpcorr_gives ha.1) (fpcorr_gives ha.2)).mono fun _ h => ⟨⟨h.1.1, h.2.1⟩, QuadraticAlgebra.ext h.1.2 h.2.2⟩

theorem fp2div2_gives (hw : c.wf = true) {a : Fp2} (ha : c.Working2 a) :
    Gives (fp2div2 c a) fun u => c.Working2 u ∧ c.elem2 u + c.elem2 u = c.elem2 a :=
  (lift1_gives (fpdiv2_gives hw ha.1) (fpdiv2_gives hw ha.2)).mono fun _ h =>
    ⟨⟨h.1.1, h.2.1⟩, QuadraticAlgebra.ext h.1.2 h.2.2⟩

/-! ## Multiplication and squaring -/

theorem p_sq_lt (hw : c.wf = true) : 24 * (c.p * c.p) < c.p * c.r := by
  have h1 := wf_r hw
  have h2 := p_pos hw
  nlinarith

/-- The element that REDC of a natural number that is x modulo p represents. -/
theorem elem_redc (hw : c.wf = true) {x : Nat} {y : ZMod c.p} (h : (x : ZMod c.p) = y) :
    c.elem (redcValue c x) = y * (c.r : ZMod c.p)⁻¹ * (c.r : ZMod c.p)⁻¹ := by
  unfold Config.elem
  rw [redcValue_cast hw, h]

/-- The integers REDC reduces in fp2mul are below p·R (R205). -/
theorem fp2mul_bounds (hw : c.wf = true) {a b : Fp2} (ha : c.Working2 a) (hb : c.Working2 b) :
    (a.a0 + a.a1) * (b.a0 + b.a1) - a.a0 * b.a0 - a.a1 * b.a1 < c.p * c.r ∧
      (if a.a0 * b.a0 < a.a1 * b.a1 then a.a0 * b.a0 + c.p * c.r - a.a1 * b.a1
        else a.a0 * b.a0 - a.a1 * b.a1) < c.p * c.r := by
  obtain ⟨ha0, ha1⟩ := ha
  obtain ⟨hb0, hb1⟩ := hb
  unfold Config.Working at *
  have hp := p_sq_lt hw
  have e : (a.a0 + a.a1) * (b.a0 + b.a1) - a.a0 * b.a0 - a.a1 * b.a1 = a.a0 * b.a1 + a.a1 * b.a0 := by
    have : (a.a0 + a.a1) * (b.a0 + b.a1) = a.a0 * b.a0 + a.a1 * b.a1 + (a.a0 * b.a1 + a.a1 * b.a0) := by ring
    omega
  have m00 := Nat.mul_le_mul ha0 hb0
  have m11 := Nat.mul_le_mul ha1 hb1
  have m01 := Nat.mul_le_mul ha0 hb1
  have m10 := Nat.mul_le_mul ha1 hb0
  have hq : 2 * c.p * (2 * c.p) = 4 * (c.p * c.p) := by ring
  rw [hq] at m00 m11 m01 m10
  refine ⟨by omega, ?_⟩
  split <;> omega

/-- fp2mul gives the product (R205, R213). -/
theorem fp2mul_gives (hw : c.wf = true) {a b : Fp2} (ha : c.Working2 a) (hb : c.Working2 b) :
    Gives2 c (fp2mul c a b) (c.elem2 a * c.elem2 b) := by
  have hlt := fp2mul_bounds hw ha hb
  have hred := fun (x : Nat) (hx : x < c.p * c.r) => (show Gives (redc c x) (fun v => v = redcValue c x) from
    ⟨_, _, redc_yields hx, rfl⟩)
  have hin := fun (op : BoundOp) (x : Nat) (hx : c.Working x) =>
    (show Gives (inBound c op x) (fun _ => True) from ⟨(), [], inBound_yields hx, trivial⟩)
  refine (hin _ _ ha.1).bind fun _ _ => (hin _ _ ha.2).bind fun _ _ => (hin _ _ hb.1).bind fun _ _ =>
    (hin _ _ hb.2).bind fun _ _ => (hred _ hlt.1).bind fun c1 h1 => (hred _ hlt.2).bind fun c0 h0 => Gives.pure ?_
  subst h1 h0
  refine ⟨⟨redcValue_working hlt.2, redcValue_working hlt.1⟩, QuadraticAlgebra.ext ?_ ?_⟩
  · have hc : ((if a.a0 * b.a0 < a.a1 * b.a1 then a.a0 * b.a0 + c.p * c.r - a.a1 * b.a1
        else a.a0 * b.a0 - a.a1 * b.a1 : Nat) : ZMod c.p) = (a.a0 : ZMod c.p) * b.a0 - a.a1 * b.a1 := by
      have hm : a.a1 * b.a1 ≤ c.p * c.r := by
        have := Nat.mul_le_mul ha.2 hb.2
        have := p_sq_lt hw
        have hq : 2 * c.p * (2 * c.p) = 4 * (c.p * c.p) := by ring
        omega
      split
      · rw [Nat.cast_sub (by omega)]
        push_cast [p_cast_zero]
        ring
      · rw [Nat.cast_sub (by omega)]
        push_cast
        ring
    refine (elem_redc hw hc).trans ?_
    simp only [Config.elem2, Config.elem, QuadraticAlgebra.re_mul]
    ring
  · have hc : (((a.a0 + a.a1) * (b.a0 + b.a1) - a.a0 * b.a0 - a.a1 * b.a1 : Nat) : ZMod c.p) =
        (a.a0 : ZMod c.p) * b.a1 + a.a1 * b.a0 := by
      have e : (a.a0 + a.a1) * (b.a0 + b.a1) - a.a0 * b.a0 - a.a1 * b.a1 = a.a0 * b.a1 + a.a1 * b.a0 := by
        have : (a.a0 + a.a1) * (b.a0 + b.a1) = a.a0 * b.a0 + a.a1 * b.a1 + (a.a0 * b.a1 + a.a1 * b.a0) := by ring
        omega
      rw [e]
      push_cast
      ring
    refine (elem_redc hw hc).trans ?_
    simp only [Config.elem2, Config.elem, QuadraticAlgebra.im_mul]
    ring

/-- The integers REDC reduces in fp2sqr are below p·R: the larger is at most 24p² (R206). -/
theorem fp2sqr_bounds (hw : c.wf = true) {a : Fp2} (ha : c.Working2 a) :
    (a.a0 + a.a1) * (a.a0 + 4 * c.p - a.a1) < c.p * c.r ∧ (a.a0 + a.a0) * a.a1 < c.p * c.r := by
  obtain ⟨ha0, ha1⟩ := ha
  unfold Config.Working at *
  have hp := p_sq_lt hw
  have m1 : (a.a0 + a.a1) * (a.a0 + 4 * c.p - a.a1) ≤ (4 * c.p) * (6 * c.p) :=
    Nat.mul_le_mul (by omega) (by omega)
  have m2 : (a.a0 + a.a0) * a.a1 ≤ (4 * c.p) * (2 * c.p) := Nat.mul_le_mul (by omega) ha1
  have q1 : 4 * c.p * (6 * c.p) = 24 * (c.p * c.p) := by ring
  have q2 : 4 * c.p * (2 * c.p) = 8 * (c.p * c.p) := by ring
  omega

/-- fp2sqr gives the square (R206, R213). -/
theorem fp2sqr_gives (hw : c.wf = true) {a : Fp2} (ha : c.Working2 a) :
    Gives2 c (fp2sqr c a) (c.elem2 a * c.elem2 a) := by
  have hlt := fp2sqr_bounds hw ha
  have hred := fun (x : Nat) (hx : x < c.p * c.r) => (show Gives (redc c x) (fun v => v = redcValue c x) from
    ⟨_, _, redc_yields hx, rfl⟩)
  have hin := fun (op : BoundOp) (x : Nat) (hx : c.Working x) =>
    (show Gives (inBound c op x) (fun _ => True) from ⟨(), [], inBound_yields hx, trivial⟩)
  refine (hin _ _ ha.1).bind fun _ _ => (hin _ _ ha.2).bind fun _ _ => (hred _ hlt.1).bind fun c0 h0 =>
    (hred _ hlt.2).bind fun c1 h1 => Gives.pure ?_
  subst h0 h1
  refine ⟨⟨redcValue_working hlt.1, redcValue_working hlt.2⟩, QuadraticAlgebra.ext ?_ ?_⟩
  · have hc : (((a.a0 + a.a1) * (a.a0 + 4 * c.p - a.a1) : Nat) : ZMod c.p) =
        ((a.a0 : ZMod c.p) + a.a1) * (a.a0 - a.a1) := by
      have : a.a1 ≤ a.a0 + 4 * c.p := by
        have := ha.2
        unfold Config.Working at this
        omega
      push_cast [Nat.cast_sub this, p_cast_zero]
      ring
    refine (elem_redc hw hc).trans ?_
    simp only [Config.elem2, Config.elem, QuadraticAlgebra.re_mul]
    ring
  · have hc : (((a.a0 + a.a0) * a.a1 : Nat) : ZMod c.p) = (a.a0 : ZMod c.p) * a.a1 + a.a1 * a.a0 := by
      push_cast
      ring
    refine (elem_redc hw hc).trans ?_
    simp only [Config.elem2, Config.elem, QuadraticAlgebra.im_mul]
    ring

/-! ## Inversion and conversion -/

/-- fp2inv gives the conjugate times the norm to the power p − 2 (R208). -/
theorem fp2inv_gives (hw : c.wf = true) {a : Fp2} (ha : c.Working2 a) : Gives2 c (fp2inv c a) (c.inv2 (c.elem2 a)) := by
  have hin := fun (op : BoundOp) (x : Nat) (hx : c.Working x) =>
    (show Gives (inBound c op x) (fun _ => True) from ⟨(), [], inBound_yields hx, trivial⟩)
  refine (hin _ _ ha.1).bind fun _ _ => (hin _ _ ha.2).bind fun _ _ => (fpsqr_gives hw ha.1).bind fun t0 h0 =>
    (fpsqr_gives hw ha.2).bind fun t1 h1 => (fpadd_gives h0.1 h1.1).bind fun n hn => (fpinv_gives hw hn.1).bind
      fun ni hni => (fpmul_gives hw ha.1 hni.1).bind fun c0 hc0 => (fpneg_gives ha.2).bind fun m1 hm1 =>
        (fpmul_gives hw hm1.1 hni.1).bind fun c1 hc1 => Gives.pure ⟨⟨hc0.1, hc1.1⟩, QuadraticAlgebra.ext ?_ ?_⟩
  · show c.elem c0 = _
    rw [hc0.2, hni.2, hn.2, h0.2, h1.2]
    rfl
  · show c.elem c1 = _
    rw [hc1.2, hm1.2, hni.2, hn.2, h0.2, h1.2]
    rfl

theorem fp2tomont_gives (hw : c.wf = true) {a : Fp2} (ha : c.Working2 a) :
    Gives2 c (fp2tomont c a) ⟨(a.a0 : ZMod c.p), (a.a1 : ZMod c.p)⟩ := by
  have h : ∀ x, c.Working x → Gives (tomont c x) fun v => c.Working v ∧ c.elem v = (x : ZMod c.p) := fun x hx =>
    ⟨_, _, tomont_yields hw hx, redcValue_working (mul_lt hw hx (montR2_working hw)), tomont_elem hw x⟩
  exact (lift1_gives (h _ ha.1) (h _ ha.2)).mono fun _ h => ⟨⟨h.1.1, h.2.1⟩, QuadraticAlgebra.ext h.1.2 h.2.2⟩

/-- ONE2 is a working value that represents 1 (R52). -/
theorem one2_working (hw : c.wf = true) : c.Working2 c.one2 := by
  have := Nat.mod_lt c.r (p_pos hw)
  unfold Config.Working2 Config.Working Config.one2 Config.montOne
  exact ⟨by dsimp only; omega, Nat.zero_le _⟩

theorem elem2_one2 (hw : c.wf = true) : c.elem2 c.one2 = 1 := by
  refine QuadraticAlgebra.ext ?_ ?_
  · exact elem_montOne hw
  · exact elem_zero

/-! ## The kinds recorded -/

theorem fp2add_traced (a b : Fp2) : Traced (fp2add c a b) [.add, .add] := lift2_traced fpadd_traced a b

theorem fp2sub_traced (a b : Fp2) : Traced (fp2sub c a b) [.sub, .sub] := lift2_traced fpsub_traced a b

theorem fp2neg_traced (a : Fp2) : Traced (fp2neg c a) [.neg, .neg] := lift1_traced fpneg_traced a

theorem fp2div2_traced (a : Fp2) : Traced (fp2div2 c a) [.div2, .div2] := lift1_traced fpdiv2_traced a

theorem fp2corr_traced (a : Fp2) : Traced (fp2corr c a) [.corr, .corr] := lift1_traced fpcorr_traced a

theorem fp2mul_traced (a b : Fp2) : Traced (fp2mul c a b) [.redc, .redc] := by
  exact (inBound_traced _ _).bind fun _ => (inBound_traced _ _).bind fun _ => (inBound_traced _ _).bind fun _ =>
    (inBound_traced _ _).bind fun _ => (redc_traced _).bind fun _ => (redc_traced _).bind fun _ => Traced.pure _

theorem fp2sqr_traced (a : Fp2) : Traced (fp2sqr c a) [.redc, .redc] := by
  exact (inBound_traced _ _).bind fun _ => (inBound_traced _ _).bind fun _ => (redc_traced _).bind fun _ =>
    (redc_traced _).bind fun _ => Traced.pure _

theorem fp2inv_uniform : Uniform (fp2inv c) := by
  obtain ⟨ks, hk⟩ := fpinv_uniform (c := c)
  exact ⟨_, fun a => (inBound_traced _ _).bind fun _ => (inBound_traced _ _).bind fun _ => (fpsqr_traced _).bind fun _ =>
    (fpsqr_traced _).bind fun _ => (fpadd_traced _ _).bind fun _ => (hk _).bind fun _ => (fpmul_traced _ _).bind fun _ =>
      (fpneg_traced _).bind fun _ => (fpmul_traced _ _).bind fun _ => Traced.pure _⟩

/-! ## Results in bound, whatever the operands -/

theorem fp2add_ensures (a b : Fp2) : Ensures (fp2add c a b) c.Working2 := lift2_ensures fpadd_ensures a b

theorem fp2sub_ensures (a b : Fp2) : Ensures (fp2sub c a b) c.Working2 := lift2_ensures fpsub_ensures a b

theorem fp2mul_ensures (a b : Fp2) : Ensures (fp2mul c a b) c.Working2 :=
  Ensures.tail fun _ => Ensures.tail fun _ => Ensures.tail fun _ => Ensures.tail fun _ =>
    (redc_ensures _).bind fun _ h1 => (redc_ensures _).bind fun _ h0 => Ensures.pure ⟨h0.le, h1.le⟩

theorem fp2sqr_ensures (a : Fp2) : Ensures (fp2sqr c a) c.Working2 :=
  Ensures.tail fun _ => Ensures.tail fun _ => (redc_ensures _).bind fun _ h0 => (redc_ensures _).bind fun _ h1 =>
    Ensures.pure ⟨h0.le, h1.le⟩

theorem fp2inv_ensures (a : Fp2) : Ensures (fp2inv c a) c.Working2 :=
  Ensures.tail fun _ => Ensures.tail fun _ => Ensures.tail fun _ => Ensures.tail fun _ => Ensures.tail fun _ =>
    Ensures.tail fun _ => (fpmul_ensures _ _).bind fun _ h0 => Ensures.tail fun _ => (fpmul_ensures _ _).bind fun _ h1 =>
      Ensures.pure ⟨h0, h1⟩

end Sys2Proof.Laws
end

