-- ==== Sys2Proof/Laws/CurveArith.lean ====
section
/-! SUPPORT. One specification lemma for each function of CurveArith.lean: the point it gives, as polynomials over GF(p²) in
its operands' elements; and that the operation kinds it records do not depend on its operands. -/

namespace Sys2Proof.Laws

open Sys2Proof.Machine

variable {c : Config}

/-- What a function that returns a point gives: a working point that represents T. -/
def GivesPt (c : Config) (m : Eng Pt) (T : Field.Point c.GF2) : Prop := Gives m fun t => c.WorkingPt t ∧ c.elemPt t = T

theorem GivesPt.pure {t : Pt} {T : Field.Point c.GF2} (h : c.WorkingPt t) (hx : c.elem2 t.x = T.x)
    (hz : c.elem2 t.z = T.z) : GivesPt c (Pure.pure t) T := by
  refine Gives.pure ⟨h, ?_⟩
  cases T
  simp_all [Config.elemPt]

/-- xdbl gives C24·(X²−Z²)² : 4XZ·(C24·(X−Z)² + 4·A24plus·XZ) (R231). -/
theorem xdbl_gives (hw : c.wf = true) {P : Pt} {a d : Fp2} (hP : c.WorkingPt P) (ha : c.Working2 a) (hd : c.Working2 d) :
    GivesPt c (xdbl c P a d) (Field.dbl (c.elem2 a) (c.elem2 d) (c.elemPt P)) := by
  obtain ⟨hx, hz⟩ := hP
  unfold xdbl GivesPt
  refine (fp2sub_gives hx hz).bind fun t0 w0 e0 => (fp2add_gives hx hz).bind fun t1 w1 e1 => ?_
  refine (fp2sqr_gives hw w0).bind fun t2 w2 e2 => (fp2sqr_gives hw w1).bind fun t3 w3 e3 => ?_
  refine (fp2mul_gives hw hd w2).bind fun t4 w4 e4 => (fp2mul_gives hw w3 w4).bind fun t5 w5 e5 => ?_
  refine (fp2sub_gives w3 w2).bind fun t6 w6 e6 => (fp2mul_gives hw ha w6).bind fun t7 w7 e7 => ?_
  refine (fp2add_gives w4 w7).bind fun t8 w8 e8 => (fp2mul_gives hw w8 w6).bind fun t9 w9 e9 => ?_
  refine GivesPt.pure ⟨w5, w9⟩ ?_ ?_ <;> simp only [Field.dbl, Config.elemPt]
  · rw [e5, e4, e3, e2, e1, e0]
    ring
  · rw [e9, e8, e7, e6, e4, e3, e2, e1, e0]
    ring

/-- xtpl gives 2X·(T + U)² : 2Z·(T − U)² with T = A24minus·(X−Z)⁴ − A24plus·(X+Z)⁴ and
U = 2·(X²−Z²)·(A24plus·(X+Z)² − A24minus·(X−Z)²) (R233). -/
theorem xtpl_gives (hw : c.wf = true) {P : Pt} {m a : Fp2} (hP : c.WorkingPt P) (hm : c.Working2 m) (ha : c.Working2 a) :
    GivesPt c (xtpl c P m a) (Field.tpl (c.elem2 m) (c.elem2 a) (c.elemPt P)) := by
  obtain ⟨hx, hz⟩ := hP
  unfold xtpl GivesPt
  refine (fp2sub_gives hx hz).bind fun t0 w0 e0 => (fp2sqr_gives hw w0).bind fun t1 w1 e1 => ?_
  refine (fp2add_gives hx hz).bind fun t2 w2 e2 => (fp2sqr_gives hw w2).bind fun t3 w3 e3 => ?_
  refine (fp2add_gives w2 w0).bind fun t4 w4 e4 => (fp2sub_gives w2 w0).bind fun t5 w5 e5 => ?_
  refine (fp2sqr_gives hw w4).bind fun t6 w6 e6 => (fp2sub_gives w6 w3).bind fun t7 w7 e7 => ?_
  refine (fp2sub_gives w7 w1).bind fun t8 w8 e8 => (fp2mul_gives hw w3 ha).bind fun t9 w9 e9 => ?_
  refine (fp2mul_gives hw w9 w3).bind fun t10 w10 e10 => (fp2mul_gives hw w1 hm).bind fun t11 w11 e11 => ?_
  refine (fp2mul_gives hw w1 w11).bind fun t12 w12 e12 => (fp2sub_gives w12 w10).bind fun t13 w13 e13 => ?_
  refine (fp2sub_gives w9 w11).bind fun t14 w14 e14 => (fp2mul_gives hw w14 w8).bind fun t15 w15 e15 => ?_
  refine (fp2add_gives w13 w15).bind fun t16 w16 e16 => (fp2sqr_gives hw w16).bind fun t17 w17 e17 => ?_
  refine (fp2mul_gives hw w4 w17).bind fun t18 w18 e18 => (fp2sub_gives w13 w15).bind fun t19 w19 e19 => ?_
  refine (fp2sqr_gives hw w19).bind fun t20 w20 e20 => (fp2mul_gives hw w5 w20).bind fun t21 w21 e21 => ?_
  refine GivesPt.pure ⟨w18, w21⟩ ?_ ?_ <;> simp only [Field.tpl, Field.tplT, Field.tplU, Config.elemPt]
  · rw [e18, e17, e16, e15, e14, e13, e12, e11, e10, e9, e8, e7, e6, e4, e3, e2, e1, e0]
    ring
  · rw [e21, e20, e19, e15, e14, e13, e12, e11, e10, e9, e8, e7, e6, e5, e4, e3, e2, e1, e0]
    ring

/-- xdbladd gives 2P = (XP²−ZP²)² : 4XPZP·((XP−ZP)² + 4·A24·XPZP) and
P+Q = 4·(XPXQ−ZPZQ)² : 4·(ZPXQ−XPZQ)²·XPQ (R235). -/
theorem xdbladd_gives (hw : c.wf = true) {P Q : Pt} {x a : Fp2} (hP : c.WorkingPt P) (hQ : c.WorkingPt Q) (hx : c.Working2 x)
    (ha : c.Working2 a) :
    Gives (xdbladd c P Q x a) fun t => c.WorkingPt t.1 ∧ c.WorkingPt t.2 ∧
      (c.elemPt t.1, c.elemPt t.2) = Field.dblAdd (c.elemPt P) (c.elemPt Q) (c.elem2 x) (c.elem2 a) := by
  obtain ⟨hPx, hPz⟩ := hP
  obtain ⟨hQx, hQz⟩ := hQ
  unfold xdbladd
  refine (fp2add_gives hPx hPz).bind fun t0 w0 e0 => (fp2sub_gives hPx hPz).bind fun t1 w1 e1 => ?_
  refine (fp2sqr_gives hw w0).bind fun t2 w2 e2 => (fp2sub_gives hQx hQz).bind fun t3 w3 e3 => ?_
  refine (fp2corr_gives w3).bind fun t4 w4 e4 => (fp2add_gives hQx hQz).bind fun t5 w5 e5 => ?_
  refine (fp2mul_gives hw w0 w4).bind fun t6 w6 e6 => (fp2sqr_gives hw w1).bind fun t7 w7 e7 => ?_
  refine (fp2mul_gives hw w1 w5).bind fun t8 w8 e8 => (fp2sub_gives w2 w7).bind fun t9 w9 e9 => ?_
  refine (fp2mul_gives hw w2 w7).bind fun t10 w10 e10 => (fp2mul_gives hw w9 ha).bind fun t11 w11 e11 => ?_
  refine (fp2sub_gives w6 w8).bind fun t12 w12 e12 => (fp2add_gives w11 w7).bind fun t13 w13 e13 => ?_
  refine (fp2add_gives w6 w8).bind fun t14 w14 e14 => (fp2mul_gives hw w13 w9).bind fun t15 w15 e15 => ?_
  refine (fp2sqr_gives hw w12).bind fun t16 w16 e16 => (fp2sqr_gives hw w14).bind fun t17 w17 e17 => ?_
  refine (fp2mul_gives hw w16 hx).bind fun t18 w18 e18 => ?_
  refine Gives.pure ⟨⟨w10, w15⟩, ⟨w17, w18⟩, ?_⟩
  simp only [Field.dblAdd, Config.elemPt, Prod.mk.injEq, Field.Point.mk.injEq]
  refine ⟨⟨?_, ?_⟩, ?_, ?_⟩
  · rw [e10, e7, e2, e1, e0]
    ring
  · rw [e15, e13, e11, e9, e7, e2, e1, e0]
    ring
  · rw [e17, e14, e8, e6, e5, e4, e3, e1, e0]
    ring
  · rw [e18, e16, e12, e8, e6, e5, e4, e3, e1, e0]
    ring

/-- xdble gives e doublings; e = 0 checks no bound (R232). -/
theorem xdble_gives (hw : c.wf = true) {a d : Fp2} (ha : c.Working2 a) (hd : c.Working2 d) (e : Nat) {P : Pt}
    (hP : c.WorkingPt P) : GivesPt c (xdble c P a d e) ((Field.dbl (c.elem2 a) (c.elem2 d))^[e] (c.elemPt P)) := by
  induction e generalizing P with
  | zero => exact Gives.pure ⟨hP, rfl⟩
  | succ e ih => exact Gives.bind (xdbl_gives hw hP ha hd) fun t h => (ih h.1).mono fun u hu => ⟨hu.1, by rw [hu.2, h.2]; rfl⟩

/-- xtple gives e triplings; e = 0 checks no bound (R234). -/
theorem xtple_gives (hw : c.wf = true) {m a : Fp2} (hm : c.Working2 m) (ha : c.Working2 a) (e : Nat) {P : Pt}
    (hP : c.WorkingPt P) : GivesPt c (xtple c P m a e) ((Field.tpl (c.elem2 m) (c.elem2 a))^[e] (c.elemPt P)) := by
  induction e generalizing P with
  | zero => exact Gives.pure ⟨hP, rfl⟩
  | succ e ih => exact Gives.bind (xtpl_gives hw hP hm ha) fun t h => (ih h.1).mono fun u hu => ⟨hu.1, by rw [hu.2, h.2]; rfl⟩

/-! ## The kinds recorded -/

theorem xdbl_uniform : Uniform fun (x : Pt × Fp2 × Fp2) => xdbl c x.1 x.2.1 x.2.2 :=
  ⟨_, fun _ => (fp2sub_traced _ _).bind fun _ => (fp2add_traced _ _).bind fun _ => (fp2sqr_traced _).bind fun _ =>
    (fp2sqr_traced _).bind fun _ => (fp2mul_traced _ _).bind fun _ => (fp2mul_traced _ _).bind fun _ =>
    (fp2sub_traced _ _).bind fun _ => (fp2mul_traced _ _).bind fun _ => (fp2add_traced _ _).bind fun _ =>
    (fp2mul_traced _ _).bind fun _ => Traced.pure _⟩

theorem xtpl_uniform : Uniform fun (x : Pt × Fp2 × Fp2) => xtpl c x.1 x.2.1 x.2.2 :=
  ⟨_, fun _ => (fp2sub_traced _ _).bind fun _ => (fp2sqr_traced _).bind fun _ => (fp2add_traced _ _).bind fun _ =>
    (fp2sqr_traced _).bind fun _ => (fp2add_traced _ _).bind fun _ => (fp2sub_traced _ _).bind fun _ =>
    (fp2sqr_traced _).bind fun _ => (fp2sub_traced _ _).bind fun _ => (fp2sub_traced _ _).bind fun _ =>
    (fp2mul_traced _ _).bind fun _ => (fp2mul_traced _ _).bind fun _ => (fp2mul_traced _ _).bind fun _ =>
    (fp2mul_traced _ _).bind fun _ => (fp2sub_traced _ _).bind fun _ => (fp2sub_traced _ _).bind fun _ =>
    (fp2mul_traced _ _).bind fun _ => (fp2add_traced _ _).bind fun _ => (fp2sqr_traced _).bind fun _ =>
    (fp2mul_traced _ _).bind fun _ => (fp2sub_traced _ _).bind fun _ => (fp2sqr_traced _).bind fun _ =>
    (fp2mul_traced _ _).bind fun _ => Traced.pure _⟩

theorem xdbladd_uniform : Uniform fun (x : Pt × Pt × Fp2 × Fp2) => xdbladd c x.1 x.2.1 x.2.2.1 x.2.2.2 :=
  ⟨_, fun _ => (fp2add_traced _ _).bind fun _ => (fp2sub_traced _ _).bind fun _ => (fp2sqr_traced _).bind fun _ =>
    (fp2sub_traced _ _).bind fun _ => (fp2corr_traced _).bind fun _ => (fp2add_traced _ _).bind fun _ =>
    (fp2mul_traced _ _).bind fun _ => (fp2sqr_traced _).bind fun _ => (fp2mul_traced _ _).bind fun _ =>
    (fp2sub_traced _ _).bind fun _ => (fp2mul_traced _ _).bind fun _ => (fp2mul_traced _ _).bind fun _ =>
    (fp2sub_traced _ _).bind fun _ => (fp2add_traced _ _).bind fun _ => (fp2add_traced _ _).bind fun _ =>
    (fp2mul_traced _ _).bind fun _ => (fp2sqr_traced _).bind fun _ => (fp2sqr_traced _).bind fun _ =>
    (fp2mul_traced _ _).bind fun _ => Traced.pure _⟩

theorem xdble_uniform (e : Nat) : Uniform fun (x : Pt × Fp2 × Fp2) => xdble c x.1 x.2.1 x.2.2 e := by
  obtain ⟨ks, hk⟩ := xdbl_uniform (c := c)
  induction e with
  | zero => exact ⟨[], fun x => Traced.pure _⟩
  | succ e ih =>
    obtain ⟨ls, hl⟩ := ih
    exact ⟨ls ++ ks, fun x => (hk x).bind fun t => hl (t, x.2)⟩

theorem xtple_uniform (e : Nat) : Uniform fun (x : Pt × Fp2 × Fp2) => xtple c x.1 x.2.1 x.2.2 e := by
  obtain ⟨ks, hk⟩ := xtpl_uniform (c := c)
  induction e with
  | zero => exact ⟨[], fun x => Traced.pure _⟩
  | succ e ih =>
    obtain ⟨ls, hl⟩ := ih
    exact ⟨ls ++ ks, fun x => (hk x).bind fun t => hl (t, x.2)⟩

end Sys2Proof.Laws
end

