-- ==== Sys2Proof/Laws/Encoding.lean ====
section
/-! SUPPORT. The two word formats against the fields of a word (R101): the fields of a word built from fields, and a word
rebuilt from its fields. -/

namespace Sys2Proof.Laws

/-- The fields of a format-R word (R101). -/
theorem fields_formatR (opc : BitVec 8) (rd rs1 rs2 rs3 : RegNum) :
    (formatR opc rd rs1 rs2 rs3).fields = ⟨opc, rd, rs1, rs2, rs3, rs2 ++ rs3⟩ := by
  unfold CmdWord.fields formatR
  congr 1 <;> ext i hi <;> simp <;> grind

/-- The fields of a format-I word (R101). -/
theorem fields_formatI (opc : BitVec 8) (rd rs1 : RegNum) (imm : Imm12) :
    (formatI opc rd rs1 imm).fields = ⟨opc, rd, rs1, imm.extractLsb' 6 6, imm.extractLsb' 0 6, imm⟩ := by
  unfold CmdWord.fields formatI
  congr 1 <;> ext i hi <;> simp <;> grind

/-- A word is the format-R word of its fields (R101). -/
theorem formatR_fields (w : CmdWord) : formatR w.fields.opc w.fields.rd w.fields.rs1 w.fields.rs2 w.fields.rs3 = w := by
  unfold CmdWord.fields formatR
  ext i hi
  simp
  grind

/-- A word is the format-I word of its fields (R101). -/
theorem formatI_fields (w : CmdWord) : formatI w.fields.opc w.fields.rd w.fields.rs1 w.fields.imm = w := by
  unfold CmdWord.fields formatI
  ext i hi
  simp
  grind

/-- Two words with the same five fields are the same word (R101). -/
theorem eq_of_fields {v w : CmdWord} (h : v.fields = w.fields) : v = w := by
  rw [← formatR_fields v, ← formatR_fields w, h]

/-- The fields of a masked word are the masked fields (R101). -/
theorem fields_and (v w : CmdWord) :
    (v &&& w).fields = ⟨v.fields.opc &&& w.fields.opc, v.fields.rd &&& w.fields.rd, v.fields.rs1 &&& w.fields.rs1,
      v.fields.rs2 &&& w.fields.rs2, v.fields.rs3 &&& w.fields.rs3, v.fields.imm &&& w.fields.imm⟩ := by
  unfold CmdWord.fields
  congr 1 <;> ext i hi <;> simp

/-- A row fixes the opcode, its match is 0 in every field, and its mask is 0 in the fields that are free (R106, R108). -/
def rowFits (opc : BitVec 8) (mask row : CmdWord) (free : Bool × Bool × Bool × Bool) : Bool :=
  opc &&& mask.fields.opc == row.fields.opc
    && row.fields.rd == 0#6 && row.fields.rs1 == 0#6 && row.fields.rs2 == 0#6 && row.fields.rs3 == 0#6
    && (!free.1 || mask.fields.rd == 0#6) && (!free.2.1 || mask.fields.rs1 == 0#6)
    && (!free.2.2.1 || mask.fields.rs2 == 0#6) && (!free.2.2.2 || mask.fields.rs3 == 0#6)

/-- A format-R word whose fields are free or 0 where the row has them so matches the row. -/
theorem formatR_fits {opc : BitVec 8} {rd rs1 rs2 rs3 : RegNum} {mask row : CmdWord} (free : Bool × Bool × Bool × Bool)
    (h : rowFits opc mask row free = true) (hd : free.1 = true ∨ rd = 0#6) (h1 : free.2.1 = true ∨ rs1 = 0#6)
    (h2 : free.2.2.1 = true ∨ rs2 = 0#6) (h3 : free.2.2.2 = true ∨ rs3 = 0#6) :
    formatR opc rd rs1 rs2 rs3 &&& mask = row := by
  have key : ∀ {f : Bool} {x m : BitVec 6}, (f = true ∨ x = 0#6) → (f = false ∨ m = 0#6) → x &&& m = 0#6 := by
    rintro f x m (rfl | rfl) hm
    · rcases hm with hm | rfl
      · exact absurd hm (by decide)
      · simp
    · simp
  simp only [rowFits, Bool.and_eq_true, beq_iff_eq, Bool.or_eq_true, Bool.not_eq_true'] at h
  obtain ⟨⟨⟨⟨⟨⟨⟨⟨ho, r0⟩, r1⟩, r2⟩, r3⟩, m0⟩, m1⟩, m2⟩, m3⟩ := h
  rw [← formatR_fields (_ &&& _), ← formatR_fields row, fields_and, fields_formatR, ho, r0, r1, r2, r3]
  rw [key hd m0, key h1 m1, key h2 m2, key h3 m3]

/-- A format-I word is the format-R word whose RS2 and RS3 are the halves of IMM12 (R101). -/
theorem formatI_eq (opc : BitVec 8) (rd rs1 : RegNum) (imm : Imm12) :
    formatI opc rd rs1 imm = formatR opc rd rs1 (imm.extractLsb' 6 6) (imm.extractLsb' 0 6) := by
  rw [← formatR_fields (formatI opc rd rs1 imm), fields_formatI]

end Sys2Proof.Laws
end

