-- ==== Sys2Proof/Laws/IsogenyArith.lean ====
section
/-! SUPPORT. One specification lemma for each function of IsogenyArith.lean: what it gives, as polynomials over GF(p²) in its
operands' elements, and that the operation kinds it records do not depend on its operands. -/

namespace Sys2Proof.Laws

open Sys2Proof.Machine

variable {c : Config}

/-- get4 gives the pair (4X⁴, 4Z⁴) and the coefficients 4Z², X − Z and X + Z (R250). -/
theorem get4_gives (hw : c.wf = true) {K : Pt} (hK : c.WorkingPt K) :
    Gives (get4 c K) fun t => c.Working2 t.1 ∧ c.Working2 t.2.1 ∧
      (c.Working2 t.2.2.c0 ∧ c.Working2 t.2.2.c1 ∧ c.Working2 t.2.2.c2) ∧
      (c.elem2 t.1, c.elem2 t.2.1, c.elem2 t.2.2.c0, c.elem2 t.2.2.c1, c.elem2 t.2.2.c2) = Field.get4 (c.elemPt K) := by
  obtain ⟨hx, hz⟩ := hK
  unfold get4
  refine (fp2sub_gives hx hz).bind fun t0 w0 e0 => (fp2add_gives hx hz).bind fun t1 w1 e1 => ?_
  refine (fp2sqr_gives hw hz).bind fun t2 w2 e2 => (fp2add_gives w2 w2).bind fun t3 w3 e3 => ?_
  refine (fp2sqr_gives hw w3).bind fun t4 w4 e4 => (fp2add_gives w3 w3).bind fun t5 w5 e5 => ?_
  refine (fp2sqr_gives hw hx).bind fun t6 w6 e6 => (fp2add_gives w6 w6).bind fun t7 w7 e7 => ?_
  refine (fp2sqr_gives hw w7).bind fun t8 w8 e8 => ?_
  refine Gives.pure ⟨w8, w4, ⟨w5, w0, w1⟩, ?_⟩
  simp only [Field.get4, Config.elemPt, Prod.mk.injEq]
  refine ⟨?_, ?_, ?_, e0, e1⟩
  · rw [e8, e7, e6]
    ring
  · rw [e4, e3, e2]
    ring
  · rw [e5, e3, e2]
    ring

/-- eval4 gives (G² + H)·G² : D²·(D² − H) with G, D = (X+Z)·c1 ± (X−Z)·c2 and H = c0·(X²−Z²) (R251). -/
theorem eval4_gives (hw : c.wf = true) {P : Pt} {k : Coeffs4} (hP : c.WorkingPt P) (h0 : c.Working2 k.c0) (h1 : c.Working2 k.c1)
    (h2 : c.Working2 k.c2) :
    GivesPt c (eval4 c P k)
      (Field.eval4 (c.elem2 k.c0, c.elem2 k.c1, c.elem2 k.c2) (c.elemPt P)) := by
  obtain ⟨hx, hz⟩ := hP
  unfold eval4 GivesPt
  refine (fp2add_gives hx hz).bind fun t0 w0 e0 => (fp2sub_gives hx hz).bind fun t1 w1 e1 => ?_
  refine (fp2mul_gives hw w0 h1).bind fun t2 w2 e2 => (fp2mul_gives hw w1 h2).bind fun t3 w3 e3 => ?_
  refine (fp2mul_gives hw w0 w1).bind fun t4 w4 e4 => (fp2mul_gives hw w4 h0).bind fun t5 w5 e5 => ?_
  refine (fp2add_gives w2 w3).bind fun t6 w6 e6 => (fp2sub_gives w2 w3).bind fun t7 w7 e7 => ?_
  refine (fp2sqr_gives hw w6).bind fun t8 w8 e8 => (fp2sqr_gives hw w7).bind fun t9 w9 e9 => ?_
  refine (fp2add_gives w8 w5).bind fun t10 w10 e10 => (fp2sub_gives w9 w5).bind fun t11 w11 e11 => ?_
  refine (fp2mul_gives hw w10 w8).bind fun t12 w12 e12 => (fp2mul_gives hw w9 w11).bind fun t13 w13 e13 => ?_
  refine GivesPt.pure ⟨w12, w13⟩ ?_ ?_ <;> simp only [Field.eval4, Field.eval4S, Field.eval4D, Config.elemPt]
  · rw [e12, e10, e8, e6, e5, e4, e3, e2, e1, e0]
    ring
  · rw [e13, e11, e9, e7, e5, e4, e3, e2, e1, e0]
    ring

/-- get3 gives the pair ((3X+Z)³(X−Z), (3X−Z)³(X+Z)) and the coefficients X − Z and X + Z (R254). -/
theorem get3_gives (hw : c.wf = true) {K : Pt} (hK : c.WorkingPt K) :
    Gives (get3 c K) fun t => c.Working2 t.1 ∧ c.Working2 t.2.1 ∧ (c.Working2 t.2.2.c0 ∧ c.Working2 t.2.2.c1) ∧
      (c.elem2 t.1, c.elem2 t.2.1, c.elem2 t.2.2.c0, c.elem2 t.2.2.c1) = Field.get3 (c.elemPt K) := by
  obtain ⟨hx, hz⟩ := hK
  unfold get3
  refine (fp2sub_gives hx hz).bind fun t0 w0 e0 => (fp2sqr_gives hw w0).bind fun t1 w1 e1 => ?_
  refine (fp2add_gives hx hz).bind fun t2 w2 e2 => (fp2sqr_gives hw w2).bind fun t3 w3 e3 => ?_
  refine (fp2add_gives w1 w3).bind fun t4 w4 e4 => (fp2add_gives w0 w2).bind fun t5 w5 e5 => ?_
  refine (fp2sqr_gives hw w5).bind fun t6 w6 e6 => (fp2sub_gives w6 w4).bind fun t7 w7 e7 => ?_
  refine (fp2add_gives w3 w7).bind fun t8 w8 e8 => (fp2add_gives w7 w1).bind fun t9 w9 e9 => ?_
  refine (fp2add_gives w1 w9).bind fun t10 w10 e10 => (fp2add_gives w10 w10).bind fun t11 w11 e11 => ?_
  refine (fp2add_gives w3 w11).bind fun t12 w12 e12 => (fp2mul_gives hw w8 w12).bind fun t13 w13 e13 => ?_
  refine (fp2add_gives w3 w8).bind fun t14 w14 e14 => (fp2add_gives w14 w14).bind fun t15 w15 e15 => ?_
  refine (fp2add_gives w1 w15).bind fun t16 w16 e16 => (fp2mul_gives hw w9 w16).bind fun t17 w17 e17 => ?_
  refine Gives.pure ⟨w17, w13, ⟨w0, w2⟩, ?_⟩
  simp only [Field.get3, Config.elemPt, Prod.mk.injEq]
  refine ⟨?_, ?_, e0, e2⟩
  · rw [e17, e16, e15, e14, e9, e8, e7, e6, e5, e4, e3, e2, e1, e0]
    ring
  · rw [e13, e12, e11, e10, e9, e8, e7, e6, e5, e4, e3, e2, e1, e0]
    ring

/-- eval3 gives X·((X+Z)·c0 + (X−Z)·c1)² : Z·((X−Z)·c1 − (X+Z)·c0)² (R255). -/
theorem eval3_gives (hw : c.wf = true) {P : Pt} {k : Coeffs2} (hP : c.WorkingPt P) (h0 : c.Working2 k.c0) (h1 : c.Working2 k.c1) :
    GivesPt c (eval3 c P k) (Field.eval3 (c.elem2 k.c0, c.elem2 k.c1) (c.elemPt P)) := by
  obtain ⟨hx, hz⟩ := hP
  unfold eval3 GivesPt
  refine (fp2add_gives hx hz).bind fun t0 w0 e0 => (fp2sub_gives hx hz).bind fun t1 w1 e1 => ?_
  refine (fp2mul_gives hw w0 h0).bind fun t2 w2 e2 => (fp2mul_gives hw w1 h1).bind fun t3 w3 e3 => ?_
  refine (fp2add_gives w2 w3).bind fun t4 w4 e4 => (fp2sub_gives w3 w2).bind fun t5 w5 e5 => ?_
  refine (fp2sqr_gives hw w4).bind fun t6 w6 e6 => (fp2sqr_gives hw w5).bind fun t7 w7 e7 => ?_
  refine (fp2mul_gives hw hx w6).bind fun t8 w8 e8 => (fp2mul_gives hw hz w7).bind fun t9 w9 e9 => ?_
  refine GivesPt.pure ⟨w8, w9⟩ ?_ ?_ <;> simp only [Field.eval3, Config.elemPt]
  · rw [e8, e6, e4, e3, e2, e1, e0]
    ring
  · rw [e9, e7, e5, e3, e2, e1, e0]
    ring

/-- get2 gives the pair (Z² − X², Z²) and the kernel (R258). -/
theorem get2_gives (hw : c.wf = true) {K : Pt} (hK : c.WorkingPt K) :
    Gives (get2 c K) fun t => c.Working2 t.1 ∧ c.Working2 t.2.1 ∧ t.2.2 = ⟨K.x, K.z⟩ ∧
      (c.elem2 t.1, c.elem2 t.2.1, c.elem2 t.2.2.c0, c.elem2 t.2.2.c1) = Field.get2 (c.elemPt K) := by
  obtain ⟨hx, hz⟩ := hK
  unfold get2
  refine (fp2sqr_gives hw hx).bind fun t0 w0 e0 => (fp2sqr_gives hw hz).bind fun t1 w1 e1 => ?_
  refine (fp2sub_gives w1 w0).bind fun t2 w2 e2 => ?_
  refine Gives.pure ⟨w2, w1, rfl, ?_⟩
  simp only [Field.get2, Config.elemPt, Prod.mk.injEq, and_true]
  refine ⟨?_, ?_⟩
  · rw [e2, e1, e0]
    ring
  · rw [e1]
    ring

/-- eval2 gives 2X·(X·c0 − Z·c1) : 2Z·(X·c1 − Z·c0) (R259). -/
theorem eval2_gives (hw : c.wf = true) {P : Pt} {k : Coeffs2} (hP : c.WorkingPt P) (h0 : c.Working2 k.c0) (h1 : c.Working2 k.c1) :
    GivesPt c (eval2 c P k) (Field.eval2 (c.elem2 k.c0, c.elem2 k.c1) (c.elemPt P)) := by
  obtain ⟨hx, hz⟩ := hP
  unfold eval2 GivesPt
  refine (fp2add_gives h0 h1).bind fun t0 w0 e0 => (fp2sub_gives h0 h1).bind fun t1 w1 e1 => ?_
  refine (fp2add_gives hx hz).bind fun t2 w2 e2 => (fp2sub_gives hx hz).bind fun t3 w3 e3 => ?_
  refine (fp2mul_gives hw w0 w3).bind fun t4 w4 e4 => (fp2mul_gives hw w1 w2).bind fun t5 w5 e5 => ?_
  refine (fp2add_gives w4 w5).bind fun t6 w6 e6 => (fp2sub_gives w4 w5).bind fun t7 w7 e7 => ?_
  refine (fp2mul_gives hw hx w6).bind fun t8 w8 e8 => (fp2mul_gives hw hz w7).bind fun t9 w9 e9 => ?_
  refine GivesPt.pure ⟨w8, w9⟩ ?_ ?_ <;> simp only [Field.eval2, Config.elemPt]
  · rw [e8, e6, e5, e4, e3, e2, e1, e0]
    ring
  · rw [e9, e7, e5, e4, e3, e2, e1, e0]
    ring

/-- inv3way gives z2·z3·J, z1·z3·J and z1·z2·J, J the inverse of the product (R262). -/
theorem inv3way_gives (hw : c.wf = true) {z1 z2 z3 : Fp2} (h1 : c.Working2 z1) (h2 : c.Working2 z2) (h3 : c.Working2 z3) :
    Gives (inv3way c z1 z2 z3) fun t => c.Working2 t.1 ∧ c.Working2 t.2.1 ∧ c.Working2 t.2.2 ∧
      c.elem2 t.1 = c.elem2 z2 * c.elem2 z3 * c.inv2 (c.elem2 z1 * c.elem2 z2 * c.elem2 z3) ∧
      c.elem2 t.2.1 = c.elem2 z1 * c.elem2 z3 * c.inv2 (c.elem2 z1 * c.elem2 z2 * c.elem2 z3) ∧
      c.elem2 t.2.2 = c.elem2 z1 * c.elem2 z2 * c.inv2 (c.elem2 z1 * c.elem2 z2 * c.elem2 z3) := by
  unfold inv3way
  refine (fp2mul_gives hw h1 h2).bind fun t0 w0 e0 => (fp2mul_gives hw h3 w0).bind fun t1 w1 e1 => ?_
  refine (fp2inv_gives hw w1).bind fun t2 w2 e2 => (fp2mul_gives hw h3 w2).bind fun t3 w3 e3 => ?_
  refine (fp2mul_gives hw w3 h2).bind fun t4 w4 e4 => (fp2mul_gives hw w3 h1).bind fun t5 w5 e5 => ?_
  refine (fp2mul_gives hw w0 w2).bind fun t6 w6 e6 => ?_
  have hJ : c.elem2 z1 * c.elem2 z2 * c.elem2 z3 = c.elem2 z3 * (c.elem2 z1 * c.elem2 z2) := by ring
  refine Gives.pure ⟨w4, w5, w6, ?_, ?_, ?_⟩
  · rw [hJ, e4, e3, e2, e1, e0]
    ring
  · rw [hJ, e5, e3, e2, e1, e0]
    ring
  · rw [hJ, e6, e2, e1, e0]

/-- geta gives (xPxQ + xR(xP+xQ) − 1)²·(4xPxQxR)⁻¹ − xP − xQ − xR (R264). -/
theorem geta_gives (hw : c.wf = true) {xP xQ xR : Fp2} (hP : c.Working2 xP) (hQ : c.Working2 xQ) (hR : c.Working2 xR) :
    Gives2 c (geta c xP xQ xR)
      ((c.elem2 xP * c.elem2 xQ + c.elem2 xR * (c.elem2 xP + c.elem2 xQ) - 1) ^ 2 *
        c.inv2 (4 * c.elem2 xP * c.elem2 xQ * c.elem2 xR) - (c.elem2 xP + c.elem2 xQ + c.elem2 xR)) := by
  unfold geta Gives2
  refine (fp2add_gives hP hQ).bind fun t0 w0 e0 => (fp2mul_gives hw hP hQ).bind fun t1 w1 e1 => ?_
  refine (fp2mul_gives hw hR w0).bind fun t2 w2 e2 => (fp2add_gives w1 w2).bind fun t3 w3 e3 => ?_
  refine (fp2mul_gives hw w1 hR).bind fun t4 w4 e4 => (fp2sub_gives w3 (one2_working hw)).bind fun t5 w5 e5 => ?_
  refine (fp2add_gives w4 w4).bind fun t6 w6 e6 => (fp2add_gives w0 hR).bind fun t7 w7 e7 => ?_
  refine (fp2add_gives w6 w6).bind fun t8 w8 e8 => (fp2sqr_gives hw w5).bind fun t9 w9 e9 => ?_
  refine (fp2inv_gives hw w8).bind fun t10 w10 e10 => (fp2mul_gives hw w9 w10).bind fun t11 w11 e11 => ?_
  have hJ : 4 * c.elem2 xP * c.elem2 xQ * c.elem2 xR = c.elem2 xP * c.elem2 xQ * c.elem2 xR +
      c.elem2 xP * c.elem2 xQ * c.elem2 xR + (c.elem2 xP * c.elem2 xQ * c.elem2 xR +
        c.elem2 xP * c.elem2 xQ * c.elem2 xR) := by ring
  refine Gives2.mono (fp2sub_gives w11 w7) ?_
  rw [hJ, e11, e10, e9, e8, e7, e6, e5, e4, e3, e2, e1, e0, elem2_one2 hw]
  ring

/-- jinv gives 256(A²−3C²)³·(C⁴(A²−4C²))⁻¹ (R266). -/
theorem jinv_gives (hw : c.wf = true) {a d : Fp2} (ha : c.Working2 a) (hd : c.Working2 d) :
    Gives2 c (jinv c a d)
      (256 * (c.elem2 a ^ 2 - 3 * c.elem2 d ^ 2) ^ 3 *
        c.inv2 (c.elem2 d ^ 4 * (c.elem2 a ^ 2 - 4 * c.elem2 d ^ 2))) := by
  unfold jinv Gives2
  refine (fp2sqr_gives hw ha).bind fun t0 w0 e0 => (fp2sqr_gives hw hd).bind fun t1 w1 e1 => ?_
  refine (fp2add_gives w1 w1).bind fun t2 w2 e2 => (fp2sub_gives w0 w2).bind fun t3 w3 e3 => ?_
  refine (fp2sub_gives w3 w1).bind fun t4 w4 e4 => (fp2sub_gives w4 w1).bind fun t5 w5 e5 => ?_
  refine (fp2sqr_gives hw w1).bind fun t6 w6 e6 => (fp2mul_gives hw w5 w6).bind fun t7 w7 e7 => ?_
  refine (fp2add_gives w4 w4).bind fun t8 w8 e8 => (fp2add_gives w8 w8).bind fun t9 w9 e9 => ?_
  refine (fp2sqr_gives hw w9).bind fun t10 w10 e10 => (fp2mul_gives hw w9 w10).bind fun t11 w11 e11 => ?_
  refine (fp2add_gives w11 w11).bind fun t12 w12 e12 => (fp2add_gives w12 w12).bind fun t13 w13 e13 => ?_
  refine (fp2inv_gives hw w7).bind fun t14 w14 e14 => ?_
  have hJ : c.elem2 d ^ 4 * (c.elem2 a ^ 2 - 4 * c.elem2 d ^ 2) = c.elem2 t7 := by
    rw [e7, e6, e5, e4, e3, e2, e1, e0]
    ring
  refine Gives2.mono (fp2mul_gives hw w14 w13) ?_
  rw [hJ, e14, e13, e12, e11, e10, e9, e8, e4, e3, e2, e1, e0]
  ring

/-! ## The kinds recorded -/

theorem get4_uniform : Uniform fun (x : Pt) => get4 c x :=
  ⟨_, fun _ => (fp2sub_traced _ _).bind fun _ => (fp2add_traced _ _).bind fun _ => (fp2sqr_traced _).bind fun _ =>
    (fp2add_traced _ _).bind fun _ => (fp2sqr_traced _).bind fun _ => (fp2add_traced _ _).bind fun _ =>
    (fp2sqr_traced _).bind fun _ => (fp2add_traced _ _).bind fun _ => (fp2sqr_traced _).bind fun _ =>
    Traced.pure _⟩

theorem eval4_uniform : Uniform fun (x : Pt × Coeffs4) => eval4 c x.1 x.2 :=
  ⟨_, fun _ => (fp2add_traced _ _).bind fun _ => (fp2sub_traced _ _).bind fun _ =>
    (fp2mul_traced _ _).bind fun _ => (fp2mul_traced _ _).bind fun _ => (fp2mul_traced _ _).bind fun _ =>
    (fp2mul_traced _ _).bind fun _ => (fp2add_traced _ _).bind fun _ => (fp2sub_traced _ _).bind fun _ =>
    (fp2sqr_traced _).bind fun _ => (fp2sqr_traced _).bind fun _ => (fp2add_traced _ _).bind fun _ =>
    (fp2sub_traced _ _).bind fun _ => (fp2mul_traced _ _).bind fun _ => (fp2mul_traced _ _).bind fun _ =>
    Traced.pure _⟩

theorem get3_uniform : Uniform fun (x : Pt) => get3 c x :=
  ⟨_, fun _ => (fp2sub_traced _ _).bind fun _ => (fp2sqr_traced _).bind fun _ => (fp2add_traced _ _).bind fun _ =>
    (fp2sqr_traced _).bind fun _ => (fp2add_traced _ _).bind fun _ => (fp2add_traced _ _).bind fun _ =>
    (fp2sqr_traced _).bind fun _ => (fp2sub_traced _ _).bind fun _ => (fp2add_traced _ _).bind fun _ =>
    (fp2add_traced _ _).bind fun _ => (fp2add_traced _ _).bind fun _ => (fp2add_traced _ _).bind fun _ =>
    (fp2add_traced _ _).bind fun _ => (fp2mul_traced _ _).bind fun _ => (fp2add_traced _ _).bind fun _ =>
    (fp2add_traced _ _).bind fun _ => (fp2add_traced _ _).bind fun _ => (fp2mul_traced _ _).bind fun _ =>
    Traced.pure _⟩

theorem eval3_uniform : Uniform fun (x : Pt × Coeffs2) => eval3 c x.1 x.2 :=
  ⟨_, fun _ => (fp2add_traced _ _).bind fun _ => (fp2sub_traced _ _).bind fun _ =>
    (fp2mul_traced _ _).bind fun _ => (fp2mul_traced _ _).bind fun _ => (fp2add_traced _ _).bind fun _ =>
    (fp2sub_traced _ _).bind fun _ => (fp2sqr_traced _).bind fun _ => (fp2sqr_traced _).bind fun _ =>
    (fp2mul_traced _ _).bind fun _ => (fp2mul_traced _ _).bind fun _ => Traced.pure _⟩

theorem get2_uniform : Uniform fun (x : Pt) => get2 c x :=
  ⟨_, fun _ => (fp2sqr_traced _).bind fun _ => (fp2sqr_traced _).bind fun _ => (fp2sub_traced _ _).bind fun _ =>
    Traced.pure _⟩

theorem eval2_uniform : Uniform fun (x : Pt × Coeffs2) => eval2 c x.1 x.2 :=
  ⟨_, fun _ => (fp2add_traced _ _).bind fun _ => (fp2sub_traced _ _).bind fun _ =>
    (fp2add_traced _ _).bind fun _ => (fp2sub_traced _ _).bind fun _ => (fp2mul_traced _ _).bind fun _ =>
    (fp2mul_traced _ _).bind fun _ => (fp2add_traced _ _).bind fun _ => (fp2sub_traced _ _).bind fun _ =>
    (fp2mul_traced _ _).bind fun _ => (fp2mul_traced _ _).bind fun _ => Traced.pure _⟩

theorem inv3way_uniform : Uniform fun (x : Fp2 × Fp2 × Fp2) => inv3way c x.1 x.2.1 x.2.2 :=
  let ⟨_, hk⟩ := fp2inv_uniform (c := c)
  ⟨_, fun _ => (fp2mul_traced _ _).bind fun _ => (fp2mul_traced _ _).bind fun _ => (hk _).bind fun _ =>
    (fp2mul_traced _ _).bind fun _ => (fp2mul_traced _ _).bind fun _ => (fp2mul_traced _ _).bind fun _ =>
    (fp2mul_traced _ _).bind fun _ => Traced.pure _⟩

theorem geta_uniform : Uniform fun (x : Fp2 × Fp2 × Fp2) => geta c x.1 x.2.1 x.2.2 :=
  let ⟨_, hk⟩ := fp2inv_uniform (c := c)
  ⟨_, fun _ => (fp2add_traced _ _).bind fun _ => (fp2mul_traced _ _).bind fun _ =>
    (fp2mul_traced _ _).bind fun _ => (fp2add_traced _ _).bind fun _ => (fp2mul_traced _ _).bind fun _ =>
    (fp2sub_traced _ _).bind fun _ => (fp2add_traced _ _).bind fun _ => (fp2add_traced _ _).bind fun _ =>
    (fp2add_traced _ _).bind fun _ => (fp2sqr_traced _).bind fun _ => (hk _).bind fun _ =>
    (fp2mul_traced _ _).bind fun _ => fp2sub_traced _ _⟩

theorem jinv_uniform : Uniform fun (x : Fp2 × Fp2) => jinv c x.1 x.2 :=
  let ⟨_, hk⟩ := fp2inv_uniform (c := c)
  ⟨_, fun _ => (fp2sqr_traced _).bind fun _ => (fp2sqr_traced _).bind fun _ => (fp2add_traced _ _).bind fun _ =>
    (fp2sub_traced _ _).bind fun _ => (fp2sub_traced _ _).bind fun _ => (fp2sub_traced _ _).bind fun _ =>
    (fp2sqr_traced _).bind fun _ => (fp2mul_traced _ _).bind fun _ => (fp2add_traced _ _).bind fun _ =>
    (fp2add_traced _ _).bind fun _ => (fp2sqr_traced _).bind fun _ => (fp2mul_traced _ _).bind fun _ =>
    (fp2add_traced _ _).bind fun _ => (fp2add_traced _ _).bind fun _ => (hk _).bind fun _ =>
    fp2mul_traced _ _⟩

end Sys2Proof.Laws
end

