-- ==== Sys2Proof/Laws/PerInstr.lean ====
section
/-! SUPPORT. The families of statements made instruction by instruction. EncodesRow: the word of an instruction matches that
instruction's row of spec/opcode_table.json, whatever its operands. -/

namespace Sys2Proof.Laws.EncodesRow

set_option Elab.async false

/-- The word of the instruction, under its row's mask, is its row's match (R106). -/
def Statement (i : Instr) : Prop := encode i &&& i.tableRow.1 = i.tableRow.2

theorem nop : Statement .nop := by
  simp only [Statement, encode, Instr.tableRow]
  exact formatR_fits (false, false, false, false) (by decide) (.inr rfl) (.inr rfl) (.inr rfl) (.inr rfl)

theorem mpAdd (rd rs1 rs2 : RegNum) : Statement (.mpAdd rd rs1 rs2) := by
  simp only [Statement, encode, Instr.tableRow]
  exact formatR_fits (true, true, true, false) (by decide) (.inl rfl) (.inl rfl) (.inl rfl) (.inr rfl)

theorem mpSub (rd rs1 rs2 : RegNum) : Statement (.mpSub rd rs1 rs2) := by
  simp only [Statement, encode, Instr.tableRow]
  exact formatR_fits (true, true, true, false) (by decide) (.inl rfl) (.inl rfl) (.inl rfl) (.inr rfl)

theorem mpMul (rd rs1 rs2 : RegNum) : Statement (.mpMul rd rs1 rs2) := by
  simp only [Statement, encode, Instr.tableRow]
  exact formatR_fits (true, true, true, false) (by decide) (.inl rfl) (.inl rfl) (.inl rfl) (.inr rfl)

theorem mpRdc (rd rs1 : RegNum) : Statement (.mpRdc rd rs1) := by
  simp only [Statement, encode, Instr.tableRow]
  exact formatR_fits (true, true, false, false) (by decide) (.inl rfl) (.inl rfl) (.inr rfl) (.inr rfl)

theorem mpDadd (rd rs1 rs2 : RegNum) : Statement (.mpDadd rd rs1 rs2) := by
  simp only [Statement, encode, Instr.tableRow]
  exact formatR_fits (true, true, true, false) (by decide) (.inl rfl) (.inl rfl) (.inl rfl) (.inr rfl)

theorem mpDsub (rd rs1 rs2 : RegNum) : Statement (.mpDsub rd rs1 rs2) := by
  simp only [Statement, encode, Instr.tableRow]
  exact formatR_fits (true, true, true, false) (by decide) (.inl rfl) (.inl rfl) (.inl rfl) (.inr rfl)

theorem fpAdd (rd rs1 rs2 : RegNum) : Statement (.fpAdd rd rs1 rs2) := by
  simp only [Statement, encode, Instr.tableRow]
  exact formatR_fits (true, true, true, false) (by decide) (.inl rfl) (.inl rfl) (.inl rfl) (.inr rfl)

theorem fpSub (rd rs1 rs2 : RegNum) : Statement (.fpSub rd rs1 rs2) := by
  simp only [Statement, encode, Instr.tableRow]
  exact formatR_fits (true, true, true, false) (by decide) (.inl rfl) (.inl rfl) (.inl rfl) (.inr rfl)

theorem fpNeg (rd rs1 : RegNum) : Statement (.fpNeg rd rs1) := by
  simp only [Statement, encode, Instr.tableRow]
  exact formatR_fits (true, true, false, false) (by decide) (.inl rfl) (.inl rfl) (.inr rfl) (.inr rfl)

theorem fpDiv2 (rd rs1 : RegNum) : Statement (.fpDiv2 rd rs1) := by
  simp only [Statement, encode, Instr.tableRow]
  exact formatR_fits (true, true, false, false) (by decide) (.inl rfl) (.inl rfl) (.inr rfl) (.inr rfl)

theorem fpCorr (rd rs1 : RegNum) : Statement (.fpCorr rd rs1) := by
  simp only [Statement, encode, Instr.tableRow]
  exact formatR_fits (true, true, false, false) (by decide) (.inl rfl) (.inl rfl) (.inr rfl) (.inr rfl)

theorem fpMul (rd rs1 rs2 : RegNum) : Statement (.fpMul rd rs1 rs2) := by
  simp only [Statement, encode, Instr.tableRow]
  exact formatR_fits (true, true, true, false) (by decide) (.inl rfl) (.inl rfl) (.inl rfl) (.inr rfl)

theorem fpSqr (rd rs1 : RegNum) : Statement (.fpSqr rd rs1) := by
  simp only [Statement, encode, Instr.tableRow]
  exact formatR_fits (true, true, false, false) (by decide) (.inl rfl) (.inl rfl) (.inr rfl) (.inr rfl)

theorem fpInv (rd rs1 : RegNum) : Statement (.fpInv rd rs1) := by
  simp only [Statement, encode, Instr.tableRow]
  exact formatR_fits (true, true, false, false) (by decide) (.inl rfl) (.inl rfl) (.inr rfl) (.inr rfl)

theorem fpToMont (rd rs1 : RegNum) : Statement (.fpToMont rd rs1) := by
  simp only [Statement, encode, Instr.tableRow]
  exact formatR_fits (true, true, false, false) (by decide) (.inl rfl) (.inl rfl) (.inr rfl) (.inr rfl)

theorem fpFromMont (rd rs1 : RegNum) : Statement (.fpFromMont rd rs1) := by
  simp only [Statement, encode, Instr.tableRow]
  exact formatR_fits (true, true, false, false) (by decide) (.inl rfl) (.inl rfl) (.inr rfl) (.inr rfl)

theorem fpMov (rd rs1 : RegNum) : Statement (.fpMov rd rs1) := by
  simp only [Statement, encode, Instr.tableRow]
  exact formatR_fits (true, true, false, false) (by decide) (.inl rfl) (.inl rfl) (.inr rfl) (.inr rfl)

theorem fpLdc (rd k : RegNum) : Statement (.fpLdc rd k) := by
  simp only [Statement, encode, Instr.tableRow]
  exact formatR_fits (true, true, false, false) (by decide) (.inl rfl) (.inl rfl) (.inr rfl) (.inr rfl)

theorem fpSel (rd rs1 rs2 rs3 : RegNum) : Statement (.fpSel rd rs1 rs2 rs3) := by
  simp only [Statement, encode, Instr.tableRow]
  exact formatR_fits (true, true, true, true) (by decide) (.inl rfl) (.inl rfl) (.inl rfl) (.inl rfl)

theorem skBit (rd : RegNum) (imm : Imm12) : Statement (.skBit rd imm) := by
  simp only [Statement, encode, Instr.tableRow, formatI_eq]
  exact formatR_fits (true, false, true, true) (by decide) (.inl rfl) (.inr rfl) (.inl rfl) (.inl rfl)

theorem fp2Add (rd rs1 rs2 : RegNum) : Statement (.fp2Add rd rs1 rs2) := by
  simp only [Statement, encode, Instr.tableRow]
  exact formatR_fits (true, true, true, false) (by decide) (.inl rfl) (.inl rfl) (.inl rfl) (.inr rfl)

theorem fp2Sub (rd rs1 rs2 : RegNum) : Statement (.fp2Sub rd rs1 rs2) := by
  simp only [Statement, encode, Instr.tableRow]
  exact formatR_fits (true, true, true, false) (by decide) (.inl rfl) (.inl rfl) (.inl rfl) (.inr rfl)

theorem fp2Neg (rd rs1 : RegNum) : Statement (.fp2Neg rd rs1) := by
  simp only [Statement, encode, Instr.tableRow]
  exact formatR_fits (true, true, false, false) (by decide) (.inl rfl) (.inl rfl) (.inr rfl) (.inr rfl)

theorem fp2Div2 (rd rs1 : RegNum) : Statement (.fp2Div2 rd rs1) := by
  simp only [Statement, encode, Instr.tableRow]
  exact formatR_fits (true, true, false, false) (by decide) (.inl rfl) (.inl rfl) (.inr rfl) (.inr rfl)

theorem fp2Corr (rd rs1 : RegNum) : Statement (.fp2Corr rd rs1) := by
  simp only [Statement, encode, Instr.tableRow]
  exact formatR_fits (true, true, false, false) (by decide) (.inl rfl) (.inl rfl) (.inr rfl) (.inr rfl)

theorem fp2Mul (rd rs1 rs2 : RegNum) : Statement (.fp2Mul rd rs1 rs2) := by
  simp only [Statement, encode, Instr.tableRow]
  exact formatR_fits (true, true, true, false) (by decide) (.inl rfl) (.inl rfl) (.inl rfl) (.inr rfl)

theorem fp2Sqr (rd rs1 : RegNum) : Statement (.fp2Sqr rd rs1) := by
  simp only [Statement, encode, Instr.tableRow]
  exact formatR_fits (true, true, false, false) (by decide) (.inl rfl) (.inl rfl) (.inr rfl) (.inr rfl)

theorem fp2Inv (rd rs1 : RegNum) : Statement (.fp2Inv rd rs1) := by
  simp only [Statement, encode, Instr.tableRow]
  exact formatR_fits (true, true, false, false) (by decide) (.inl rfl) (.inl rfl) (.inr rfl) (.inr rfl)

theorem fp2ToMont (rd rs1 : RegNum) : Statement (.fp2ToMont rd rs1) := by
  simp only [Statement, encode, Instr.tableRow]
  exact formatR_fits (true, true, false, false) (by decide) (.inl rfl) (.inl rfl) (.inr rfl) (.inr rfl)

theorem fp2FromMont (rd rs1 : RegNum) : Statement (.fp2FromMont rd rs1) := by
  simp only [Statement, encode, Instr.tableRow]
  exact formatR_fits (true, true, false, false) (by decide) (.inl rfl) (.inl rfl) (.inr rfl) (.inr rfl)

theorem fp2Mov (rd rs1 : RegNum) : Statement (.fp2Mov rd rs1) := by
  simp only [Statement, encode, Instr.tableRow]
  exact formatR_fits (true, true, false, false) (by decide) (.inl rfl) (.inl rfl) (.inr rfl) (.inr rfl)

theorem fp2Sel (rd rs1 rs2 rs3 : RegNum) : Statement (.fp2Sel rd rs1 rs2 rs3) := by
  simp only [Statement, encode, Instr.tableRow]
  exact formatR_fits (true, true, true, true) (by decide) (.inl rfl) (.inl rfl) (.inl rfl) (.inl rfl)

theorem xDbl (rd rs1 : RegNum) : Statement (.xDbl rd rs1) := by
  simp only [Statement, encode, Instr.tableRow]
  exact formatR_fits (true, true, false, false) (by decide) (.inl rfl) (.inl rfl) (.inr rfl) (.inr rfl)

theorem xDble (rd rs1 : RegNum) (imm : Imm12) : Statement (.xDble rd rs1 imm) := by
  simp only [Statement, encode, Instr.tableRow, formatI_eq]
  exact formatR_fits (true, true, true, true) (by decide) (.inl rfl) (.inl rfl) (.inl rfl) (.inl rfl)

theorem xTpl (rd rs1 : RegNum) : Statement (.xTpl rd rs1) := by
  simp only [Statement, encode, Instr.tableRow]
  exact formatR_fits (true, true, false, false) (by decide) (.inl rfl) (.inl rfl) (.inr rfl) (.inr rfl)

theorem xTple (rd rs1 : RegNum) (imm : Imm12) : Statement (.xTple rd rs1 imm) := by
  simp only [Statement, encode, Instr.tableRow, formatI_eq]
  exact formatR_fits (true, true, true, true) (by decide) (.inl rfl) (.inl rfl) (.inl rfl) (.inl rfl)

theorem xDblAdd (rd rs1 rs2 rs3 : RegNum) : Statement (.xDblAdd rd rs1 rs2 rs3) := by
  simp only [Statement, encode, Instr.tableRow]
  exact formatR_fits (true, true, true, true) (by decide) (.inl rfl) (.inl rfl) (.inl rfl) (.inl rfl)

theorem get4 (rs1 : RegNum) : Statement (.get4 rs1) := by
  simp only [Statement, encode, Instr.tableRow]
  exact formatR_fits (false, true, false, false) (by decide) (.inr rfl) (.inl rfl) (.inr rfl) (.inr rfl)

theorem eval4 (rd : RegNum) : Statement (.eval4 rd) := by
  simp only [Statement, encode, Instr.tableRow]
  exact formatR_fits (true, false, false, false) (by decide) (.inl rfl) (.inr rfl) (.inr rfl) (.inr rfl)

theorem get3 (rs1 : RegNum) : Statement (.get3 rs1) := by
  simp only [Statement, encode, Instr.tableRow]
  exact formatR_fits (false, true, false, false) (by decide) (.inr rfl) (.inl rfl) (.inr rfl) (.inr rfl)

theorem eval3 (rd : RegNum) : Statement (.eval3 rd) := by
  simp only [Statement, encode, Instr.tableRow]
  exact formatR_fits (true, false, false, false) (by decide) (.inl rfl) (.inr rfl) (.inr rfl) (.inr rfl)

theorem get2 (rs1 : RegNum) : Statement (.get2 rs1) := by
  simp only [Statement, encode, Instr.tableRow]
  exact formatR_fits (false, true, false, false) (by decide) (.inr rfl) (.inl rfl) (.inr rfl) (.inr rfl)

theorem eval2 (rd : RegNum) : Statement (.eval2 rd) := by
  simp only [Statement, encode, Instr.tableRow]
  exact formatR_fits (true, false, false, false) (by decide) (.inl rfl) (.inr rfl) (.inr rfl) (.inr rfl)

theorem inv3Way (rs1 rs2 rs3 : RegNum) : Statement (.inv3Way rs1 rs2 rs3) := by
  simp only [Statement, encode, Instr.tableRow]
  exact formatR_fits (false, true, true, true) (by decide) (.inr rfl) (.inl rfl) (.inl rfl) (.inl rfl)

theorem getA (rd rs1 rs2 rs3 : RegNum) : Statement (.getA rd rs1 rs2 rs3) := by
  simp only [Statement, encode, Instr.tableRow]
  exact formatR_fits (true, true, true, true) (by decide) (.inl rfl) (.inl rfl) (.inl rfl) (.inl rfl)

theorem jInv (rd rs1 rs2 : RegNum) : Statement (.jInv rd rs1 rs2) := by
  simp only [Statement, encode, Instr.tableRow]
  exact formatR_fits (true, true, true, false) (by decide) (.inl rfl) (.inl rfl) (.inl rfl) (.inr rfl)

theorem ladderA (rd rs1 rs2 rs3 : RegNum) : Statement (.ladderA rd rs1 rs2 rs3) := by
  simp only [Statement, encode, Instr.tableRow]
  exact formatR_fits (true, true, true, true) (by decide) (.inl rfl) (.inl rfl) (.inl rfl) (.inl rfl)

theorem ladderB (rd rs1 rs2 rs3 : RegNum) : Statement (.ladderB rd rs1 rs2 rs3) := by
  simp only [Statement, encode, Instr.tableRow]
  exact formatR_fits (true, true, true, true) (by decide) (.inl rfl) (.inl rfl) (.inl rfl) (.inl rfl)

theorem chainA (rd rs1 : RegNum) (aux : Bool) : Statement (.chainA rd rs1 aux) := by
  simp only [Statement, encode, Instr.tableRow]
  cases aux
  · exact formatR_fits (true, true, false, false) (by decide) (.inl rfl) (.inl rfl) (.inr rfl) (.inr rfl)
  · rw [← formatR_fields (_ &&& _), fields_and, fields_formatR]
    simp [CmdWord.fields, flagField, formatR]

theorem chainB (rd rs1 : RegNum) (aux : Bool) : Statement (.chainB rd rs1 aux) := by
  simp only [Statement, encode, Instr.tableRow]
  cases aux
  · exact formatR_fits (true, true, false, false) (by decide) (.inl rfl) (.inl rfl) (.inr rfl) (.inr rfl)
  · rw [← formatR_fields (_ &&& _), fields_and, fields_formatR]
    simp [CmdWord.fields, flagField, formatR]

end Sys2Proof.Laws.EncodesRow
end

