-- ==== Sys2Proof/Laws/SequencedArith.lean ====
section
/-! SUPPORT. The ladder and the chain walk: on working operands they complete, with working results that represent the ladder
and the chain walk over GF(p²) of Safety.lean; and the index side of the chain walk is the one `Config.wf` speaks of. -/

namespace Sys2Proof.Laws

open Sys2Proof.Machine

variable {c : Config}

/-! ## The ladder -/

/-- Halving is unique, because p is odd (R164). -/
theorem add_self_inj (hw : c.wf = true) {x y : ZMod c.p} (h : x + x = y + y) : x = y := by
  have hu : IsUnit ((2 : Nat) : ZMod c.p) := by
    rw [ZMod.isUnit_iff_coprime]
    exact (Nat.coprime_two_left).2 (Nat.odd_iff.2 (p_odd hw))
  have : ((2 : Nat) : ZMod c.p) * x = ((2 : Nat) : ZMod c.p) * y := by
    push_cast
    linear_combination h
  exact hu.mul_left_cancel this

theorem add_self_inj2 (hw : c.wf = true) {x y : c.GF2} (h : x + x = y + y) : x = y :=
  QuadraticAlgebra.ext (add_self_inj hw (congrArg QuadraticAlgebra.re h))
    (add_self_inj hw (congrArg QuadraticAlgebra.im h))

/-- The three points of the ladder are working points. -/
def Ladder.Working (c : Config) (s : Ladder) : Prop := c.WorkingPt s.r0 ∧ c.WorkingPt s.r2 ∧ c.WorkingPt s.r

/-- One iteration completes, with working points (R281). -/
theorem ladderStep_gives (hw : c.wf = true) {a24 : Fp2} (ha : c.Working2 a24) (bit : Bool) {s : Ladder}
    (hs : Ladder.Working c s) :
    Gives (ladderStep c a24 bit s) fun t => Ladder.Working c t ∧ t.prev = bit ∧
      c.elemPt t.r = (if bit == s.prev then c.elemPt s.r else c.elemPt s.r2) ∧
      (c.elemPt t.r0, c.elemPt t.r2) =
        (let d := Field.dblAdd (c.elemPt s.r0) (if bit == s.prev then c.elemPt s.r2 else c.elemPt s.r)
          (if bit == s.prev then c.elemPt s.r else c.elemPt s.r2).x (c.elem2 a24)
        (d.1, ⟨d.2.x * (if bit == s.prev then c.elemPt s.r else c.elemPt s.r2).z, d.2.z⟩)) := by
  obtain ⟨h0, h2, hr⟩ := hs
  have hswap : ∀ b : Bool, (if (b ^^ s.prev) then s.r2 else s.r) = if b == s.prev then s.r else s.r2 := by
    intro b; cases b <;> cases s.prev <;> rfl
  have hswap2 : ∀ b : Bool, (if (b ^^ s.prev) then s.r else s.r2) = if b == s.prev then s.r2 else s.r := by
    intro b; cases b <;> cases s.prev <;> rfl
  unfold ladderStep Ladder.cswap
  simp only [hswap, hswap2]
  generalize hu : (if bit == s.prev then s.r2 else s.r) = u
  generalize hv : (if bit == s.prev then s.r else s.r2) = v
  have hwu : c.WorkingPt u := by subst hu; split <;> assumption
  have hwv : c.WorkingPt v := by subst hv; split <;> assumption
  have eu : (if bit == s.prev then c.elemPt s.r2 else c.elemPt s.r) = c.elemPt u := by subst hu; split <;> rfl
  have ev : (if bit == s.prev then c.elemPt s.r else c.elemPt s.r2) = c.elemPt v := by subst hv; split <;> rfl
  rw [eu, ev]
  refine (xdbladd_gives hw h0 hwu hwv.1 ha).bind fun d hd => ?_
  obtain ⟨d0, d2⟩ := d
  obtain ⟨w0, w2, e⟩ := hd
  refine (fp2mul_gives hw w2.1 hwv.2).bind fun x wx ex => Gives.pure ⟨⟨w0, ⟨wx, w2.2⟩, hwv⟩, rfl, rfl, ?_⟩
  have e' : Field.dblAdd (c.elemPt s.r0) (c.elemPt u) (c.elemPt v).x (c.elem2 a24) = (c.elemPt d0, c.elemPt d2) := e.symm
  simp only [e', Prod.mk.injEq, true_and]
  simp only [Config.elemPt, ex]

/-- The loop completes, and its point after the final swap is the ladder's over GF(p²) (R281). -/
theorem ladderLoop_gives (hw : c.wf = true) {a24 : Fp2} (ha : c.Working2 a24) (m left : Nat) {i : Nat} {s : Ladder}
    (hs : Ladder.Working c s) :
    Gives (ladderLoop c a24 m left i s) fun t => c.WorkingPt (t.cswap t.prev).r ∧
      c.elemPt (t.cswap t.prev).r = Field.ladder (c.elem2 a24) ((List.range' i left).map m.testBit) s.prev
        (c.elemPt s.r0) (c.elemPt s.r2) (c.elemPt s.r) := by
  induction left generalizing i s with
  | zero =>
    refine Gives.pure ?_
    obtain ⟨-, h2, hr⟩ := hs
    unfold Ladder.cswap
    cases s.prev
    · exact ⟨hr, rfl⟩
    · exact ⟨h2, rfl⟩
  | succ left ih =>
    refine (ladderStep_gives hw ha (m.testBit i) hs).bind fun t ht => (ih ht.1).mono fun u hu => ⟨hu.1, ?_⟩
    have h1 : c.elemPt t.r0 = _ := congrArg Prod.fst ht.2.2.2
    have h2 : c.elemPt t.r2 = _ := congrArg Prod.snd ht.2.2.2
    rw [hu.2, ht.2.1, ht.2.2.1, h1, h2, List.range'_succ, List.map_cons]
    rfl

/-- The ladder completes on working operands, and gives the ladder over GF(p²) with 4·a24 = A + 2 (R281). -/
theorem ladder_gives (hw : c.wf = true) {xP xQ xPQ a : Fp2} (hP : c.Working2 xP) (hQ : c.Working2 xQ)
    (hPQ : c.Working2 xPQ) (ha : c.Working2 a) (m nbits : Nat) {a24 : c.GF2} (h4 : 4 * a24 = c.elem2 a + 2) :
    GivesPt c (ladder c xP xQ xPQ a m nbits)
      (Field.ladder a24 ((List.range nbits).map m.testBit) false ⟨c.elem2 xQ, 1⟩ ⟨c.elem2 xPQ, 1⟩ ⟨c.elem2 xP, 1⟩) := by
  have h1 := one2_working hw
  have e1 := elem2_one2 hw
  unfold ladder
  refine (fp2add_gives h1 h1).bind fun t0 w0 e0 => (fp2add_gives ha w0).bind fun t1 w1 e2 => ?_
  refine (fp2div2_gives hw w1).bind fun t2 h2 => (fp2div2_gives hw h2.1).bind fun t3 h3 => ?_
  have hA : c.elem2 t3 = a24 := by
    apply add_self_inj2 hw
    apply add_self_inj2 hw
    rw [h3.2, h2.2, e2, e0, e1]
    linear_combination -h4
  refine (ladderLoop_gives hw h3.1 m nbits (i := 0) (s := ⟨⟨xQ, c.one2⟩, ⟨xPQ, c.one2⟩, ⟨xP, c.one2⟩, false⟩)
    ⟨⟨hQ, h1⟩, ⟨hPQ, h1⟩, ⟨hP, h1⟩⟩).bind fun t ht => Gives.pure ⟨ht.1, ?_⟩
  rw [ht.2, hA]
  simp only [Config.elemPt, e1, List.range_eq_range']

/-! ## The chain walk -/

/-- The functions a party's walk uses compute, on working operands, what the party's functions over GF(p²) give. -/
structure Matches {κ κ' : Type} (c : Config) (ops : Isogenies κ) (P : Field.Party c.GF2 κ') (good : κ → Prop)
    (rep : κ → κ') : Prop where
  step : ∀ {t v0 v1}, c.WorkingPt t → c.Working2 v0 → c.Working2 v1 → ∀ n,
    GivesPt c (ops.step t v0 v1 n) (P.step (c.elem2 v0) (c.elem2 v1) n (c.elemPt t))
  get : ∀ {t}, c.WorkingPt t → Gives (ops.get t) fun g => c.Working2 g.1 ∧ c.Working2 g.2.1 ∧ good g.2.2 ∧
    (c.elem2 g.1, c.elem2 g.2.1, rep g.2.2) = P.get (c.elemPt t)
  eval : ∀ {t k}, c.WorkingPt t → good k → GivesPt c (ops.eval t k) (P.eval (rep k) (c.elemPt t))

/-- The walk over representatives stands for the walk over GF(p²). -/
def Stands (c : Config) (v : Walk) (u : Field.Walk c.GF2) : Prop :=
  (c.WorkingPt v.pt ∧ (∀ t ∈ v.stack, c.WorkingPt t.1) ∧ c.Working2 v.v0 ∧ c.Working2 v.v1 ∧ ∀ t ∈ v.aux, c.WorkingPt t) ∧
    u = ⟨c.elemPt v.pt, v.index, (v.stack.map fun t => (c.elemPt t.1, t.2)).reverse, v.strat, c.elem2 v.v0, c.elem2 v.v1,
      v.aux.map c.elemPt⟩

theorem evalAll_gives {ev : Pt → Eng Pt} {f : Field.Point c.GF2 → Field.Point c.GF2}
    (h : ∀ t, c.WorkingPt t → GivesPt c (ev t) (f (c.elemPt t))) (ts : List Pt) (ht : ∀ t ∈ ts, c.WorkingPt t) :
    Gives (evalAll ev ts) fun us => (∀ u ∈ us, c.WorkingPt u) ∧ us.map c.elemPt = ts.map fun t => f (c.elemPt t) := by
  induction ts with
  | nil => exact Gives.pure ⟨by simp, rfl⟩
  | cons t ts ih =>
    refine (h t (ht t List.mem_cons_self)).bind fun u hu => (ih fun x hx => ht x (List.mem_cons_of_mem _ hx)).bind
      fun us hus => Gives.pure ⟨?_, ?_⟩
    · intro x hx
      rcases List.mem_cons.1 hx with rfl | hx
      · exact hu.1
      · exact hus.1 x hx
    · simp [hu.2, hus.2]

variable {κ κ' : Type} {ops : Isogenies κ} {P : Field.Party c.GF2 κ'} {good : κ → Prop} {rep : κ → κ'}

theorem descend_gives (hm : Matches c ops P good rep) (target : Nat) (strat : List Nat) {v : Walk}
    {u : Field.Walk c.GF2} (hv : Stands c v u) :
    Gives (descend ops target strat v) fun v' => Stands c v' (Field.descend P target strat u) := by
  induction strat generalizing v u with
  | nil =>
    obtain ⟨hg, rfl⟩ := hv
    exact Gives.pure ⟨hg, rfl⟩
  | cons n rest ih =>
    obtain ⟨hg, rfl⟩ := hv
    unfold descend Field.descend
    dsimp only
    split
    · refine (hm.step hg.1 hg.2.2.1 hg.2.2.2.1 n).bind fun r hr => ih ⟨⟨hr.1, ?_, hg.2.2⟩, ?_⟩
      · intro t ht
        rcases List.mem_append.1 ht with h | h
        · exact hg.2.1 t h
        · rw [List.mem_singleton.1 h]
          exact hg.1
      · simp [hr.2]
    · exact Gives.pure ⟨hg, rfl⟩

theorem climb_gives (hm : Matches c ops P good rep) {v : Walk} {u : Field.Walk c.GF2} (hv : Stands c v u) :
    Gives (takeIsogeny ops v) fun v' => Stands c (popWalk v'.1) (Field.climb P u) := by
  obtain ⟨hg, rfl⟩ := hv
  unfold takeIsogeny
  refine (hm.get hg.1).bind fun g hg1 => ?_
  obtain ⟨v0, v1, k⟩ := g
  obtain ⟨w0, w1, hk, he⟩ := hg1
  have hev := fun t ht => hm.eval (t := t) ht hk
  refine (evalAll_gives hev (v.stack.map (·.1)) (by simpa using fun a b h => hg.2.1 (a, b) h)).bind fun pts hp => ?_
  refine (evalAll_gives hev v.aux hg.2.2.2.2).bind fun aux ha => Gives.pure ?_
  have hz : (pts.zip (v.stack.map (·.2))).map (fun t => (c.elemPt t.1, t.2)) =
      v.stack.map fun t => (P.eval (rep k) (c.elemPt t.1), t.2) := by
    have : (pts.zip (v.stack.map (·.2))).map (fun t => (c.elemPt t.1, t.2)) =
        (pts.map c.elemPt).zip (v.stack.map (·.2)) := by
      rw [List.zip_map_left]
      rfl
    rw [this, hp.2, List.map_map, ← List.zip_map']
    rfl
  have hzw : ∀ t ∈ pts.zip (v.stack.map (·.2)), c.WorkingPt t.1 := fun t ht => hp.1 _ (List.of_mem_zip ht).1
  have hget : P.get (c.elemPt v.pt) = (c.elem2 v0, c.elem2 v1, rep k) := he.symm
  unfold popWalk Field.climb
  dsimp only
  rw [hget]
  generalize pts.zip (v.stack.map (·.2)) = st at hz hzw
  have hz' : (v.stack.map fun t => (c.elemPt t.1, t.2)).reverse.map (fun t => (P.eval (rep k) t.1, t.2)) =
      (st.map fun t => (c.elemPt t.1, t.2)).reverse := by
    rw [hz, List.map_reverse, List.map_map]
    rfl
  dsimp only
  rw [hz']
  rcases List.eq_nil_or_concat st with rfl | ⟨st', ⟨t, i⟩, rfl⟩
  · exact ⟨⟨hg.1, by simp, w0, w1, ha.1⟩, by simp [ha.2]⟩
  · simp only [List.concat_eq_append, List.getLast?_append, List.getLast?_singleton, Option.some_or]
    refine ⟨⟨hzw (t, i) (by simp), fun x hx => hzw x ?_, w0, w1, ha.1⟩, ?_⟩
    · simp only [List.dropLast_concat] at hx
      simp [hx]
    · simp [ha.2]

theorem walkRows_gives (hm : Matches c ops P good rep) (m : Nat) {v : Walk} {u : Field.Walk c.GF2} (hv : Stands c v u) :
    Gives (walkRows ops m v) fun v' => Stands c v' (Field.rows P m u) := by
  induction m generalizing v u with
  | zero => exact Gives.pure hv
  | succ m ih =>
    have hs : u.strat = v.strat := by rw [hv.2]
    unfold walkRows Field.rows
    rw [hs]
    exact (descend_gives hm _ _ hv).bind fun v1 h1 => (climb_gives hm h1).bind fun v2 h2 => ih h2

/-- The walk completes on working operands, and gives the walk over GF(p²) (R291). -/
theorem walkChain_gives (hm : Matches c ops P good rep) {R : Pt} {v0 v1 : Fp2} {aux : List Pt} (hR : c.WorkingPt R)
    (h0 : c.Working2 v0) (h1 : c.Working2 v1) (ha : ∀ t ∈ aux, c.WorkingPt t) :
    Gives (walkChain ops R v0 v1 aux) fun g => c.Working2 g.1 ∧ c.Working2 g.2.1 ∧ good g.2.2.1 ∧
      (∀ t ∈ g.2.2.2, c.WorkingPt t) ∧
      (c.elem2 g.1, c.elem2 g.2.1, rep g.2.2.1, g.2.2.2.map c.elemPt) =
        Field.walk P ops.len ops.strat (c.elemPt R) (c.elem2 v0) (c.elem2 v1) (aux.map c.elemPt) := by
  unfold walkChain
  refine (walkRows_gives hm (ops.len - 1) (u := ⟨c.elemPt R, 0, [], ops.strat, c.elem2 v0, c.elem2 v1, aux.map c.elemPt⟩)
    ⟨⟨hR, by simp, h0, h1, ha⟩, rfl⟩).bind fun v hv => ?_
  obtain ⟨hg, hu⟩ := hv
  refine (hm.get hg.1).bind fun g hg1 => ?_
  obtain ⟨w0, w1, k⟩ := g
  obtain ⟨hw0, hw1, hk, he⟩ := hg1
  refine (evalAll_gives (fun t ht => hm.eval (t := t) ht hk) v.aux hg.2.2.2.2).bind fun aux' ha' =>
    Gives.pure ⟨hw0, hw1, hk, ha'.1, ?_⟩
  unfold Field.walk
  dsimp only
  rw [hu]
  dsimp only
  rw [← he]
  simp [ha'.2]

/-- Both components and all three coefficients are working values. -/
def Coeffs4.Working (c : Config) (k : Coeffs4) : Prop := c.Working2 k.c0 ∧ c.Working2 k.c1 ∧ c.Working2 k.c2

def Coeffs2.Working (c : Config) (k : Coeffs2) : Prop := c.Working2 k.c0 ∧ c.Working2 k.c1

/-- The elements a coefficient tuple represents (R38). -/
def elemCoeffs4 (c : Config) (k : Coeffs4) : c.GF2 × c.GF2 × c.GF2 := (c.elem2 k.c0, c.elem2 k.c1, c.elem2 k.c2)

def elemCoeffs2 (c : Config) (k : Coeffs2) : c.GF2 × c.GF2 := (c.elem2 k.c0, c.elem2 k.c1)

theorem isogeniesA_match (hw : c.wf = true) :
    Matches c (isogeniesA c) Field.partyA (Coeffs4.Working c) (elemCoeffs4 c) where
  step := fun ht h0 h1 n => xdble_gives hw h0 h1 (2 * n) ht
  get := fun ht => (get4_gives hw ht).mono fun _ h => ⟨h.1, h.2.1, h.2.2.1, h.2.2.2⟩
  eval := fun ht hk => eval4_gives hw ht hk.1 hk.2.1 hk.2.2

theorem isogeniesB_match (hw : c.wf = true) :
    Matches c (isogeniesB c) Field.partyB (Coeffs2.Working c) (elemCoeffs2 c) where
  step := fun ht h0 h1 n => xtple_gives hw h1 h0 n ht
  get := fun ht => (get3_gives hw ht).mono fun _ h => ⟨h.1, h.2.1, h.2.2.1, h.2.2.2⟩
  eval := fun ht hk => eval3_gives hw ht hk.1 hk.2

/-- Bob's chain completes on working operands, and gives the chain over GF(p²) (R291). -/
theorem chainOfB_gives (hw : c.wf = true) {R : Pt} {v0 v1 : Fp2} {aux : List Pt} (hR : c.WorkingPt R)
    (h0 : c.Working2 v0) (h1 : c.Working2 v1) (ha : ∀ t ∈ aux, c.WorkingPt t) :
    Gives (chainOfB c R v0 v1 aux) fun g => c.Working2 g.1 ∧ c.Working2 g.2.1 ∧ Coeffs2.Working c g.2.2.1 ∧
      (∀ t ∈ g.2.2.2, c.WorkingPt t) ∧
      (c.elem2 g.1, c.elem2 g.2.1, elemCoeffs2 c g.2.2.1, g.2.2.2.map c.elemPt) =
        Field.chainB c (c.elemPt R) (c.elem2 v0) (c.elem2 v1) (aux.map c.elemPt) :=
  walkChain_gives (isogeniesB_match hw) hR h0 h1 ha

/-- Alice's chain completes on working operands, and gives the chain over GF(p²) (R291). -/
theorem chainOfA_gives (hw : c.wf = true) {R : Pt} {v0 v1 : Fp2} {aux : List Pt} (hR : c.WorkingPt R)
    (h0 : c.Working2 v0) (h1 : c.Working2 v1) (ha : ∀ t ∈ aux, c.WorkingPt t) :
    Gives (chainOfA c R v0 v1 aux) fun g => c.Working2 g.1 ∧ c.Working2 g.2.1 ∧ Coeffs4.Working c g.2.2.1 ∧
      (∀ t ∈ g.2.2.2, c.WorkingPt t) ∧
      (c.elem2 g.1, c.elem2 g.2.1, elemCoeffs4 c g.2.2.1, g.2.2.2.map c.elemPt) =
        Field.chainA c (c.elemPt R) (c.elem2 v0) (c.elem2 v1) (aux.map c.elemPt) := by
  unfold chainOfA Field.chainA
  split
  · refine (xdble_gives hw h0 h1 (c.eA - 1) hR).bind fun S hS => ?_
    refine (get2_gives hw hS.1).bind fun g hg => ?_
    obtain ⟨w0, w1, k⟩ := g
    obtain ⟨hw0, hw1, rfl, he⟩ := hg
    have hev := fun t ht => eval2_gives hw (P := t) (k := ⟨S.x, S.z⟩) ht hS.1.1 hS.1.2
    refine (evalAll_gives hev aux ha).bind fun aux' ha' => (hev R hR).bind fun R' hR' => ?_
    refine (walkChain_gives (isogeniesA_match hw) hR'.1 hw0 hw1 ha'.1).mono fun g h => ⟨h.1, h.2.1, h.2.2.1, h.2.2.2.1, ?_⟩
    rw [h.2.2.2.2, hR'.2, ha'.2, ← hS.2, ← he]
    simp [isogeniesA, Function.comp_def]
  · exact walkChain_gives (isogeniesA_match hw) hR h0 h1 ha

/-! ## The walk and its index side -/

/-- The index side `u` of the walk `v`: the same index, stacked indices and strategy entries left. -/
def Shadows (v : Walk) (u : Config.IndexWalk) : Prop :=
  u.index = v.index ∧ u.stack = v.stack.map (·.2) ∧ u.strat = v.strat

theorem descend_shadows (target : Nat) (strat : List Nat) {v : Walk} {u : Config.IndexWalk} (h : Shadows v u) :
    Ensures (descend ops target strat v) fun v' => Shadows v' (Config.descendIndex target strat u) := by
  induction strat generalizing v u with
  | nil => exact Ensures.pure ⟨h.1, h.2.1, rfl⟩
  | cons n rest ih =>
    unfold descend Config.descendIndex
    rw [h.1]
    split
    · exact Ensures.tail fun r => ih ⟨rfl, by simp [h.2.1], h.2.2⟩
    · exact Ensures.pure ⟨rfl, h.2.1, rfl⟩

theorem evalAll_length (ev : Pt → Eng Pt) (ts : List Pt) : Ensures (evalAll ev ts) fun us => us.length = ts.length := by
  induction ts with
  | nil => exact Ensures.pure rfl
  | cons t ts ih => exact Ensures.tail fun u => ih.bind fun us hu => Ensures.pure (by simp [hu])

theorem takeIsogeny_shadows {v : Walk} {u : Config.IndexWalk} (h : Shadows v u) :
    Ensures (takeIsogeny ops v) fun g => Shadows g.1 u := by
  unfold takeIsogeny
  refine Ensures.tail fun g => ?_
  refine (evalAll_length _ _).bind fun pts hp => Ensures.tail fun aux => Ensures.pure ⟨h.1, ?_, h.2.2⟩
  dsimp only
  rw [List.map_snd_zip (by simpa using hp.ge), h.2.1]

theorem popWalk_shadows {v : Walk} {u : Config.IndexWalk} (h : Shadows v u) :
    Shadows (popWalk v) (Config.popIndex u) := by
  unfold popWalk Config.popIndex
  obtain ⟨h1, h2, h3⟩ := h
  rcases List.eq_nil_or_concat v.stack with hs | ⟨st, ⟨t, i⟩, hs⟩
  · simp [Shadows, h1, h2, h3, hs]
  · simp [Shadows, h2, h3, hs]

theorem walkRows_shadows (m : Nat) {v : Walk} {u : Config.IndexWalk} (h : Shadows v u) :
    Ensures (walkRows ops m v) fun v' => Shadows v' (Config.indexRows m u) := by
  induction m generalizing v u with
  | zero => exact Ensures.pure h
  | succ m ih =>
    unfold walkRows Config.indexRows
    rw [h.2.2]
    exact (descend_shadows (m + 1) v.strat h).bind fun _ h1 => (takeIsogeny_shadows h1).bind fun _ h2 =>
      ih (popWalk_shadows h2)

/-! ## The kinds recorded (R352) -/

theorem ladderStep_uniform : Uniform fun (x : Fp2 × Bool × Ladder) => ladderStep c x.1 x.2.1 x.2.2 := by
  obtain ⟨ks, hk⟩ := xdbladd_uniform (c := c)
  exact ⟨_, fun x => (hk (_, _, _, _)).bind fun _ => (fp2mul_traced _ _).bind fun _ => Traced.pure _⟩

theorem ladderLoop_uniform (left : Nat) :
    Uniform fun (x : Fp2 × Nat × Nat × Ladder) => ladderLoop c x.1 x.2.1 left x.2.2.1 x.2.2.2 := by
  obtain ⟨ks, hk⟩ := ladderStep_uniform (c := c)
  induction left with
  | zero => exact ⟨[], fun x => Traced.pure _⟩
  | succ left ih =>
    obtain ⟨ls, hl⟩ := ih
    exact ⟨_, fun x => (hk (x.1, _, _)).bind fun s => hl (x.1, x.2.1, x.2.2.1 + 1, s)⟩

/-- The ladder records the same kinds for every scalar (R281). -/
theorem ladder_uniform (nbits : Nat) :
    Uniform fun (x : Fp2 × Fp2 × Fp2 × Fp2 × Nat) => ladder c x.1 x.2.1 x.2.2.1 x.2.2.2.1 x.2.2.2.2 nbits := by
  obtain ⟨ks, hk⟩ := ladderLoop_uniform (c := c) nbits
  exact ⟨_, fun x => (fp2add_traced _ _).bind fun _ => (fp2add_traced _ _).bind fun _ => (fp2div2_traced _).bind fun _ =>
    (fp2div2_traced _).bind fun a => (hk (a, x.2.2.2.2, 0, _)).bind fun _ => Traced.pure _⟩

/-- If the computation completes, it records ks and its value satisfies P. -/
def TracedTo {α : Type} (m : Eng α) (ks : List OpKind) (P : α → Prop) : Prop := Traced m ks ∧ Ensures m P

theorem TracedTo.pure {α : Type} {P : α → Prop} {a : α} (h : P a) : TracedTo (Pure.pure a : Eng α) [] P :=
  ⟨Traced.pure a, Ensures.pure h⟩

theorem TracedTo.bind {α β : Type} {m : Eng α} {f : α → Eng β} {ks ls : List OpKind} {P : α → Prop} {Q : β → Prop}
    (hm : TracedTo m ks P) (hf : ∀ a, P a → TracedTo (f a) ls Q) : TracedTo (m >>= f) (ls ++ ks) Q := by
  refine ⟨fun tr b tr' h => ?_, hm.2.bind fun a ha => (hf a ha).2⟩
  obtain ⟨a, tr1, h1, h2⟩ := run_bind_ok.1 h
  rw [(hf a (hm.2 tr a tr1 h1)).1 tr1 b tr' h2, hm.1 tr a tr1 h1, List.append_assoc]

/-- The first part is traced to P, and what follows records ls on every value that satisfies P. -/
theorem TracedTo.traced {α β : Type} {m : Eng α} {f : α → Eng β} {ks ls : List OpKind} {P : α → Prop}
    (hm : TracedTo m ks P) (hf : ∀ a, P a → Traced (f a) ls) : Traced (m >>= f) (ls ++ ks) :=
  (hm.bind (Q := fun _ => True) fun a ha => ⟨hf a ha, Ensures.trivial⟩).1

/-- What the sequence of operations of a walk depends on: the indices and the strategy entries left, and how many auxiliary
points there are; no register's value. -/
def shape (v : Walk) : Nat × List Nat × List Nat × Nat := (v.index, v.stack.map (·.2), v.strat, v.aux.length)

theorem evalAll_tracedTo {ι : Type} {ev : ι → Pt → Eng Pt} {ks : List OpKind} (h : ∀ k t, Traced (ev k t) ks) (n : Nat) :
    ∃ ls, ∀ k ts, ts.length = n → TracedTo (evalAll (ev k) ts) ls fun us => us.length = n := by
  induction n with
  | zero =>
    refine ⟨[], fun k ts ht => ?_⟩
    rw [List.length_eq_zero_iff.1 ht]
    exact TracedTo.pure rfl
  | succ n ih =>
    obtain ⟨ls, hl⟩ := ih
    refine ⟨([] ++ ls) ++ ks, fun k ts ht => ?_⟩
    match ts, ht with
    | t :: ts, ht =>
      exact TracedTo.bind ⟨h k t, Ensures.trivial⟩ fun u _ => (hl k ts (by simpa using ht)).bind fun us hu =>
        TracedTo.pure (by simp [hu])

/-- The functions of a party record the same kinds whatever their operands. -/
structure UniformOps {κ : Type} (ops : Isogenies κ) : Prop where
  step : ∀ n, Uniform fun (x : Pt × Fp2 × Fp2) => ops.step x.1 x.2.1 x.2.2 n
  get : Uniform ops.get
  eval : Uniform fun (x : Pt × κ) => ops.eval x.1 x.2

theorem descend_tracedTo (hu : UniformOps ops) (target : Nat) (strat : List Nat) (σ : Nat × List Nat × List Nat × Nat) :
    ∃ ks σ', ∀ v, shape v = σ → TracedTo (descend ops target strat v) ks fun v' => shape v' = σ' := by
  induction strat generalizing σ with
  | nil => exact ⟨[], (σ.1, σ.2.1, [], σ.2.2.2), fun v hv => TracedTo.pure (by rw [← hv]; rfl)⟩
  | cons n rest ih =>
    by_cases h : σ.1 < target
    · obtain ⟨ks, hk⟩ := hu.step n
      obtain ⟨ls, σ', hl⟩ := ih (σ.1 + n, σ.2.1 ++ [σ.1], σ.2.2.1, σ.2.2.2)
      refine ⟨ls ++ ks, σ', fun v hv => ?_⟩
      have hi : v.index < target := by rw [← hv] at h; exact h
      unfold descend
      simp only [hi, if_true]
      refine TracedTo.bind ⟨hk (v.pt, v.v0, v.v1), Ensures.trivial⟩ fun r _ => hl _ ?_
      rw [← hv]
      simp [shape]
    · refine ⟨[], (σ.1, σ.2.1, n :: rest, σ.2.2.2), fun v hv => ?_⟩
      have hi : ¬ v.index < target := by rw [← hv] at h; exact h
      unfold descend
      simp only [hi, if_false]
      exact TracedTo.pure (by rw [← hv]; rfl)

theorem climb_tracedTo (hu : UniformOps ops) (σ : Nat × List Nat × List Nat × Nat) :
    ∃ ks σ', ∀ v, shape v = σ → TracedTo (takeIsogeny ops v) ks fun v' => shape (popWalk v'.1) = σ' := by
  obtain ⟨kg, hg⟩ := hu.get
  obtain ⟨ke, he⟩ := hu.eval
  obtain ⟨k1, h1⟩ := evalAll_tracedTo (ev := fun k t => ops.eval t k) (fun k t => he (t, k)) σ.2.1.length
  obtain ⟨k2, h2⟩ := evalAll_tracedTo (ev := fun k t => ops.eval t k) (fun k t => he (t, k)) σ.2.2.2
  refine ⟨(([] ++ k2) ++ k1) ++ kg, (σ.2.1.getLast?.getD σ.1, σ.2.1.dropLast, σ.2.2.1, σ.2.2.2), fun v hv => ?_⟩
  unfold takeIsogeny
  refine TracedTo.bind ⟨hg v.pt, Ensures.trivial⟩ fun g _ => ?_
  obtain ⟨v0, v1, k⟩ := g
  refine (h1 k _ (by rw [← hv]; simp [shape])).bind fun pts hp => ?_
  refine (h2 k v.aux (by rw [← hv]; rfl)).bind fun aux ha => TracedTo.pure ?_
  have hs : (pts.zip (v.stack.map (·.2))).map (·.2) = σ.2.1 := by
    rw [List.map_snd_zip]
    · rw [← hv]; rfl
    · rw [hp, ← hv]; simp [shape]
  generalize pts.zip (v.stack.map (·.2)) = st at hs
  unfold popWalk
  dsimp only
  rcases List.eq_nil_or_concat st with rfl | ⟨st', ⟨t, i⟩, rfl⟩
  · have : σ.2.1 = [] := hs.symm
    simp only [List.getLast?_nil, shape, this, ha, List.map_nil, Option.getD_none, List.dropLast_nil]
    rw [← hv]
    rfl
  · rw [List.concat_eq_append] at hs
    have h3 : σ.2.1.getLast?.getD σ.1 = i := by rw [← hs]; simp
    have h4 : σ.2.1.dropLast = st'.map (·.2) := by rw [← hs]; simp
    rw [h3, h4]
    simp only [List.concat_eq_append, List.getLast?_append, List.getLast?_singleton, Option.some_or, shape, ha,
      List.dropLast_concat]
    rw [← hv]
    rfl

theorem walkRows_tracedTo (hu : UniformOps ops) (m : Nat) (σ : Nat × List Nat × List Nat × Nat) :
    ∃ ks σ', ∀ v, shape v = σ → TracedTo (walkRows ops m v) ks fun v' => shape v' = σ' := by
  induction m generalizing σ with
  | zero => exact ⟨[], σ, fun v hv => TracedTo.pure hv⟩
  | succ m ih =>
    obtain ⟨k1, σ1, h1⟩ := descend_tracedTo hu (m + 1) σ.2.2.1 σ
    obtain ⟨k2, σ2, h2⟩ := climb_tracedTo hu σ1
    obtain ⟨k3, σ3, h3⟩ := ih σ2
    refine ⟨(k3 ++ k2) ++ k1, σ3, fun v hv => ?_⟩
    unfold walkRows
    have hs : v.strat = σ.2.2.1 := by rw [← hv]; rfl
    rw [hs]
    exact (h1 v hv).bind fun v1 e1 => (h2 v1 e1).bind fun v2 e2 => h3 _ e2

/-- The walk records the same kinds for all operands, for one number of auxiliary points (R294). -/
theorem walkChain_uniform (hu : UniformOps ops) (n : Nat) :
    ∃ ks, ∀ R v0 v1 aux, aux.length = n → Traced (walkChain ops R v0 v1 aux) ks := by
  obtain ⟨k1, σ1, h1⟩ := walkRows_tracedTo hu (ops.len - 1) (0, [], ops.strat, n)
  obtain ⟨kg, hg⟩ := hu.get
  obtain ⟨ke, he⟩ := hu.eval
  obtain ⟨k2, h2⟩ := evalAll_tracedTo (ev := fun k t => ops.eval t k) (fun k t => he (t, k)) σ1.2.2.2
  refine ⟨(([] ++ k2) ++ kg) ++ k1, fun R v0 v1 aux ha => ?_⟩
  unfold walkChain
  refine (h1 ⟨R, 0, [], ops.strat, v0, v1, aux⟩ (by simp [shape, ha])).traced fun v hv => (hg v.pt).bind fun g => ?_
  obtain ⟨w0, w1, k⟩ := g
  exact (h2 k v.aux (by rw [← hv]; rfl)).traced fun _ _ => Traced.pure _

theorem isogeniesA_uniform : UniformOps (isogeniesA c) where
  step := fun n => xdble_uniform (2 * n)
  get := get4_uniform
  eval := eval4_uniform

theorem isogeniesB_uniform : UniformOps (isogeniesB c) where
  step := fun n =>
    let ⟨ks, hk⟩ := xtple_uniform (c := c) n
    ⟨ks, fun x => hk (x.1, x.2.2, x.2.1)⟩
  get := get3_uniform
  eval := eval3_uniform

theorem chainOfB_uniform (n : Nat) :
    ∃ ks, ∀ R v0 v1 aux, aux.length = n → Traced (chainOfB c R v0 v1 aux) ks := walkChain_uniform isogeniesB_uniform n

theorem chainOfA_uniform (n : Nat) :
    ∃ ks, ∀ R v0 v1 aux, aux.length = n → Traced (chainOfA c R v0 v1 aux) ks := by
  obtain ⟨kw, hw⟩ := walkChain_uniform (isogeniesA_uniform (c := c)) n
  obtain ⟨kd, hd⟩ := xdble_uniform (c := c) (c.eA - 1)
  obtain ⟨kg, hg⟩ := get2_uniform (c := c)
  obtain ⟨ke, he⟩ := eval2_uniform (c := c)
  obtain ⟨k2, h2⟩ := evalAll_tracedTo (ev := fun k t => eval2 c t k) (fun k t => he (t, k)) n
  by_cases h : (c.eA % 2 == 1) = true
  · refine ⟨(((kw ++ ke) ++ k2) ++ kg) ++ kd, fun R v0 v1 aux ha => ?_⟩
    unfold chainOfA
    simp only [h, if_true]
    refine (hd (R, v0, v1)).bind fun S => (hg S).bind fun g => ?_
    obtain ⟨w0, w1, k⟩ := g
    exact (h2 k aux ha).traced fun aux' ha' => (he (R, k)).bind fun R' => hw R' w0 w1 aux' ha'
  · refine ⟨kw, fun R v0 v1 aux ha => ?_⟩
    unfold chainOfA
    simp only [h]
    exact hw R v0 v1 aux ha

end Sys2Proof.Laws
end

