-- ==== Sys2Proof/Tests/Slice0.lean ====
section
/-! SUPPORT. Tests of the model on values the spec gives, and for each statement of Obligations.lean that has hypotheses a
concrete case that meets all of them. The expected values are those of 95_test_vectors.md and of the examples in the rules,
for TOY431 (R11), but where a comment says otherwise. -/

namespace Sys2Proof.Tests

set_option Elab.async false

open Sys2Proof.Machine

/-! ## Small states and one step on them -/

/-- The writes of consecutive registers from each given one on. -/
def spread : List (RegName × List Nat) → List (RegName × Nat)
  | [] => []
  | (.e i, vs) :: rest => vs.mapIdx (fun k v => (.e (i + BitVec.ofNat 6 k), v)) ++ spread rest
  | (.d i, vs) :: rest => vs.mapIdx (fun k v => (.d (i + BitVec.ofNat 6 k), v)) ++ spread rest
  | (.sk, vs) :: rest => vs.map (fun v => (.sk, v)) ++ spread rest

/-- A lane in which the given registers are written. -/
def laneWith (c : Config) (regs : List (RegName × List Nat)) : Lane := (Lane.reset c).writeAll c (spread regs)

/-- TOY431 after reset with the given registers written. -/
def stateWith (regs : List (RegName × List Nat)) : State :=
  { State.resetWith Config.toy431 with lanes := [laneWith Config.toy431 regs] }

/-- The outcome is a next state of which p holds. -/
def holds (o : Host.Outcome State Fault Refusal) (p : State → Bool) : Bool :=
  match o with
  | .next t => p t
  | _ => false

theorem exists_of_holds {o : Host.Outcome State Fault Refusal} {p : State → Bool} (h : holds o p = true) :
    ∃ t, o = .next t ∧ p t = true := by
  cases o with
  | next t => exact ⟨t, rfl, h⟩
  | fault r => exact absurd h (by simp [holds])
  | refused r => exact absurd h (by simp [holds])

/-- The outcome is a next state. -/
theorem answers_of_holds {o : Host.Outcome State Fault Refusal} (h : holds o (fun _ => true) = true) : ∃ t, o = .next t :=
  (exists_of_holds h).imp fun _ ht => ht.1

/-- One step that takes the word w accepts it and leaves the values `after` in lane 0. -/
def runWord (w : Nat) (before after : List (RegName × List Nat)) : Bool :=
  holds (step ((stateWith before).withFetchWord 32 w)) fun t =>
    !t.status.err && t.lanes.all fun l => (spread after).all fun nv => l.val nv.1 == nv.2

/-- The model fault that the stricter run reports for the word w. -/
def strictFault (w : Nat) (before : List (RegName × List Nat)) : Option Fault :=
  match strictStep ((stateWith before).withFetchWord 32 w) with
  | .fault f => some f
  | _ => none

/-- The ERRCODE that one step taking the word w leaves (0 for an accepted word). -/
def codeOf (w : Nat) : Option Nat :=
  match step ((stateWith []).withFetchWord 32 w) with
  | .next t => some t.status.errcode.toNat
  | _ => none

/-- The length of the trace of the word w. -/
def traceLength (w : Nat) (regs : List (RegName × List Nat)) : Option Nat :=
  match decode (BitVec.ofNat 32 w) with
  | .ok i => (opTrace Config.toy431 i (laneWith Config.toy431 regs)).map List.length
  | .error _ => none

/-! ## Well-formedness: one ill-formed term for each check -/

theorem test_wf_refuses_odd_q : (Instr.fp2Mul 1 2 4).wellFormed 5 = false := by decide
theorem test_wf_refuses_unaligned_p : (Instr.xDbl 0 2).wellFormed 5 = false := by decide
theorem test_wf_refuses_d_four : (Instr.mpMul 4 1 2).wellFormed 5 = false := by decide
theorem test_wf_refuses_k_six : (Instr.fpLdc 0 6).wellFormed 5 = false := by decide
theorem test_wf_refuses_high_scalar_bit : (Instr.skBit 0 5).wellFormed 5 = false := by decide
theorem test_wf_refuses_equal_points : (Instr.xDblAdd 4 4 8 10).wellFormed 5 = false := by decide
theorem test_wf_refuses_equal_inverses : (Instr.inv3Way 2 2 4).wellFormed 5 = false := by decide
theorem test_wf_refuses_high_aux : (Instr.chainA 40 0 true).wellFormed 5 = false := by decide
theorem test_wf_refuses_unaligned_aux : (Instr.chainA 14 0 true).wellFormed 5 = false := by decide
theorem test_wf_refuses_rd_without_aux : (Instr.chainB 4 0 false).wellFormed 5 = false := by decide

/-! ## Configurations -/

/-- R11: both test configurations are well formed. TOY863 has an odd eA. -/
theorem test_toy_configurations : Config.toy431.wf = true ∧ Config.toy863.wf = true := by decide +kernel

/-- R12: one configuration too small for its prime, and one with a strategy of the wrong length, are not. -/
theorem test_wf_refuses_configurations :
    ({ Config.toy431 with n := 1 } : Config).wf = false ∧ ({ Config.toy431 with stratB := [1] } : Config).wf = false := by
  decide +kernel

/-! ## Decoding: words written out from the format of R101 and the rows of R106 -/

theorem test_decode_limb :
    decode 0b00000000000000000000000000000000#32 = .ok .nop ∧
    decode 0b00000001000000000001000010000000#32 = .ok (.mpAdd 0 1 2) ∧
    decode 0b00000010000000000001000010000000#32 = .ok (.mpSub 0 1 2) ∧
    decode 0b00000011000000000001000010000000#32 = .ok (.mpMul 0 1 2) ∧
    decode 0b00000100000011000000000000000000#32 = .ok (.mpRdc 3 0) ∧
    decode 0b00000101000010000000000001000000#32 = .ok (.mpDadd 2 0 1) ∧
    decode 0b00000110000010000000000001000000#32 = .ok (.mpDsub 2 0 1) := by decide +kernel

theorem test_decode_fp :
    decode 0x10001080#32 = .ok (.fpAdd 0 1 2) ∧ decode 0x11001080#32 = .ok (.fpSub 0 1 2) ∧
    decode 0x12001000#32 = .ok (.fpNeg 0 1) ∧ decode 0x13001000#32 = .ok (.fpDiv2 0 1) ∧
    decode 0x14001000#32 = .ok (.fpCorr 0 1) ∧ decode 0x15001080#32 = .ok (.fpMul 0 1 2) ∧
    decode 0x16001000#32 = .ok (.fpSqr 0 1) ∧ decode 0x17001000#32 = .ok (.fpInv 0 1) ∧
    decode 0x18001000#32 = .ok (.fpToMont 0 1) ∧ decode 0x19001000#32 = .ok (.fpFromMont 0 1) ∧
    decode 0x1A001000#32 = .ok (.fpMov 0 1) ∧ decode 0x1BB01000#32 = .ok (.fpLdc 44 1) ∧
    decode 0b00011100000000000001000010000011#32 = .ok (.fpSel 0 1 2 3) ∧
    decode 0b00011101111111000000000000000011#32 = .ok (.skBit 63 3) := by decide +kernel

theorem test_decode_fp2 :
    decode 0x20E36B80#32 = .ok (.fp2Add 56 54 46) ∧ decode 0x21002100#32 = .ok (.fp2Sub 0 2 4) ∧
    decode 0x22002000#32 = .ok (.fp2Neg 0 2) ∧ decode 0x23002000#32 = .ok (.fp2Div2 0 2) ∧
    decode 0x24002000#32 = .ok (.fp2Corr 0 2) ∧ decode 0b00100101000000000010000100000000#32 = .ok (.fp2Mul 0 2 4) ∧
    decode 0x26002000#32 = .ok (.fp2Sqr 0 2) ∧ decode 0x27002000#32 = .ok (.fp2Inv 0 2) ∧
    decode 0x28DA8000#32 = .ok (.fp2ToMont 54 40) ∧ decode 0x2930C000#32 = .ok (.fp2FromMont 12 12) ∧
    decode 0x2A3AC000#32 = .ok (.fp2Mov 14 44) ∧ decode 0x2B002106#32 = .ok (.fp2Sel 0 2 4 6) := by decide +kernel

theorem test_decode_curve :
    decode 0x30104000#32 = .ok (.xDbl 4 4) ∧ decode 0b00110001000000000100000000000111#32 = .ok (.xDble 0 4 7) ∧
    decode 0x32004000#32 = .ok (.xTpl 0 4) ∧ decode 0x33004FFF#32 = .ok (.xTple 0 4 4095) ∧
    decode 0x3400420A#32 = .ok (.xDblAdd 0 4 8 10) := by decide +kernel

theorem test_decode_isogeny :
    decode 0x40030000#32 = .ok (.get4 48) ∧ decode 0x41200000#32 = .ok (.eval4 8) ∧
    decode 0x42004000#32 = .ok (.get3 4) ∧ decode 0x43200000#32 = .ok (.eval3 8) ∧
    decode 0x44004000#32 = .ok (.get2 4) ∧ decode 0b01000101001000000000000000000000#32 = .ok (.eval2 8) ∧
    decode 0x4600E496#32 = .ok (.inv3Way 14 18 22) ∧ decode 0x47D9869C#32 = .ok (.getA 54 24 26 28) ∧
    decode 0x48002100#32 = .ok (.jInv 0 2 4) := by decide +kernel

theorem test_decode_sequenced :
    decode 0x5001869C#32 = .ok (.ladderA 0 24 26 28) ∧ decode 0x5101869C#32 = .ok (.ladderB 0 24 26 28) ∧
    decode 0b01010010001100000000000001000000#32 = .ok (.chainA 12 0 true) ∧ decode 0x53000000#32 = .ok (.chainB 0 0 false) := by
  decide +kernel

/-- 95_test_vectors.md section 6: words and the codes they are rejected with, 0 where they are accepted. -/
def errorVectors : List (Nat × Nat) :=
  [(0x00000000, 0), (0x00000001, 2), (0x07000000, 1), (0xFF000000, 1), (0x12001001, 2), (0x25042101, 2), (0x25042100,
   3), (0x30002000, 3), (0x03101080, 4), (0x04004000, 4), (0x1B006000, 4), (0x1D000005, 4), (0x3400020A, 5),
   (0x46002084, 5), (0x46000084, 0), (0x52900040, 0), (0x52A00040, 5), (0x52D00040, 5), (0x52E00040, 4), (0x52100000,
   2), (0x52000080, 2), (0x52300041, 2)]

theorem test_error_vectors : errorVectors.all (fun v => codeOf v.1 == some v.2) = true := by decide +kernel

/-- R310: what is written to CMD above bit 31 is ignored. -/
theorem test_cmd_high_bits :
    holds (accept 0xFFFFFFFF1B003000 (stateWith [])) (fun t => !t.status.err && t.lanes.all fun l => l.rE 0 == 1) = true := by
  decide +kernel

/-! ## The commands: the vectors of 95_test_vectors.md section 5 -/

/-- R109: NOP leaves every register. -/
theorem test_nop :
    runWord 0x00000000 [(.e 0, [5]), (.e 63, [7]), (.d 3, [9])] [(.e 0, [5]), (.e 63, [7]), (.d 3, [9])] = true := by
  decide +kernel

/-- 95_test_vectors.md section 5.1. -/
theorem test_mpAdd :
    runWord 0x01001080 [(.e 1, [65535, 0])] [(.e 0, [65535])] = true ∧
    strictFault 0x01001080 [(.e 1, [65535, 1])] = some (.boundFault .mpAdd 0) := by
  decide +kernel

/-- 95_test_vectors.md section 5.1. -/
theorem test_mpSub :
    runWord 0x02001080 [(.e 1, [500, 400])] [(.e 0, [100])] = true ∧
    strictFault 0x02001080 [(.e 1, [400, 401])] = some (.boundFault .mpSub 0) := by
  decide +kernel

/-- 95_test_vectors.md section 5.1. -/
theorem test_mpMul :
    runWord 0x03001080 [(.e 1, [65535, 65535])] [(.d 0, [4294836225])] = true ∧
    strictFault 0x03001080 [(.e 1, [120])] = some (.unwrittenRead (.e 2) 0) := by
  decide +kernel

/-- 95_test_vectors.md section 5.1. -/
theorem test_mpRdc :
    runWord 0x040C0000 [(.d 0, [28246015])] [(.e 3, [844])] = true ∧
    runWord 0x040C0000 [(.d 0, [743044])] [(.e 3, [431])] = true := by
  decide +kernel

/-- 95_test_vectors.md section 5.1. -/
theorem test_mpDadd :
    runWord 0x05080040 [(.d 0, [20160, 35])] [(.d 2, [20195])] = true ∧
    strictFault 0x05080040 [(.d 0, [4294967295, 1])] = some (.boundFault .mpDadd 0) := by
  decide +kernel

/-- 95_test_vectors.md section 5.1. -/
theorem test_mpDsub :
    runWord 0x06080040 [(.d 0, [20160, 35])] [(.d 2, [20125])] = true ∧
    strictFault 0x06080040 [(.d 0, [35, 36])] = some (.boundFault .mpDsub 0) := by
  decide +kernel

/-- 95_test_vectors.md section 5.2. -/
theorem test_fpAdd :
    runWord 0x10001080 [(.e 1, [431, 431])] [(.e 0, [0])] = true ∧
    strictFault 0x10001080 [(.e 1, [863, 0])] = some (.boundFault .fpadd 0) := by
  decide +kernel

/-- 95_test_vectors.md section 5.2. -/
theorem test_fpSub :
    runWord 0x11001080 [(.e 1, [5, 7])] [(.e 0, [860])] = true ∧
    runWord 0x11001080 [(.e 1, [862, 0])] [(.e 0, [862])] = true := by
  decide +kernel

/-- 95_test_vectors.md section 5.2. -/
theorem test_fpNeg :
    runWord 0x12001000 [(.e 1, [5])] [(.e 0, [857])] = true ∧
    runWord 0x12001000 [(.e 1, [0])] [(.e 0, [862])] = true := by
  decide +kernel

/-- 95_test_vectors.md section 5.2. -/
theorem test_fpDiv2 :
    runWord 0x13001000 [(.e 1, [7])] [(.e 0, [219])] = true ∧
    runWord 0x13001000 [(.e 1, [862])] [(.e 0, [431])] = true := by
  decide +kernel

/-- 95_test_vectors.md section 5.2. -/
theorem test_fpCorr :
    runWord 0x14001000 [(.e 1, [500])] [(.e 0, [69])] = true ∧
    runWord 0x14001000 [(.e 1, [862])] [(.e 0, [0])] = true := by
  decide +kernel

/-- 95_test_vectors.md section 5.2. -/
theorem test_fpMul :
    runWord 0x15001080 [(.e 1, [120, 168])] [(.e 0, [409])] = true ∧
    runWord 0x15001080 [(.e 1, [862, 862])] [(.e 0, [431])] = true := by
  decide +kernel

/-- 95_test_vectors.md section 5.2. -/
theorem test_fpSqr :
    runWord 0x16001000 [(.e 1, [120])] [(.e 0, [169])] = true ∧
    runWord 0x16001000 [(.e 1, [862])] [(.e 0, [431])] = true := by
  decide +kernel

/-- 95_test_vectors.md section 5.2. -/
theorem test_fpInv :
    runWord 0x17001000 [(.e 1, [120])] [(.e 0, [91])] = true ∧
    runWord 0x17001000 [(.e 1, [431])] [(.e 0, [431])] = true := by
  decide +kernel

/-- 95_test_vectors.md section 5.2. -/
theorem test_fpToMont :
    runWord 0x18001000 [(.e 1, [5])] [(.e 0, [120])] = true ∧
    runWord 0x18001000 [(.e 1, [862])] [(.e 0, [431])] = true := by
  decide +kernel

/-- 95_test_vectors.md section 5.2. -/
theorem test_fpFromMont :
    runWord 0x19001000 [(.e 1, [430])] [(.e 0, [413])] = true ∧
    runWord 0x19001000 [(.e 1, [862])] [(.e 0, [0])] = true := by
  decide +kernel

/-- 95_test_vectors.md section 5.2. -/
theorem test_fpMov :
    runWord 0x1A001000 [(.e 1, [1000])] [(.e 0, [1000])] = true := by
  decide +kernel

/-- 95_test_vectors.md section 5.2. -/
theorem test_fpLdc :
    runWord 0x1B002000 [] [(.e 0, [145])] = true ∧
    runWord 0x1B005000 [] [(.e 0, [862])] = true := by
  decide +kernel

/-- 95_test_vectors.md section 5.2. -/
theorem test_fpSel :
    runWord 0x1C001083 [(.e 1, [10, 20, 2])] [(.e 0, [20])] = true ∧
    runWord 0x1C001083 [(.e 1, [10, 20, 3])] [(.e 0, [10])] = true := by
  decide +kernel

/-- 95_test_vectors.md section 5.2. -/
theorem test_skBit :
    runWord 0x1D000003 [(.sk, [11])] [(.e 0, [1])] = true ∧
    runWord 0x1D000004 [(.sk, [11])] [(.e 0, [0])] = true := by
  decide +kernel

/-- 95_test_vectors.md section 5.3. -/
theorem test_fp2Add :
    runWord 0x20002100 [(.e 2, [120, 168, 72, 264])] [(.e 0, [192, 432])] = true ∧
    runWord 0x20002100 [(.e 2, [862, 862, 862, 862])] [(.e 0, [862, 862])] = true := by
  decide +kernel

/-- 95_test_vectors.md section 5.3. -/
theorem test_fp2Sub :
    runWord 0x21002100 [(.e 2, [120, 168, 72, 264])] [(.e 0, [48, 766])] = true := by
  decide +kernel

/-- 95_test_vectors.md section 5.3. -/
theorem test_fp2Neg :
    runWord 0x22002000 [(.e 2, [0, 862])] [(.e 0, [862, 0])] = true := by
  decide +kernel

/-- 95_test_vectors.md section 5.3. -/
theorem test_fp2Div2 :
    runWord 0x23002000 [(.e 2, [1, 862])] [(.e 0, [216, 431])] = true := by
  decide +kernel

/-- 95_test_vectors.md section 5.3. -/
theorem test_fp2Corr :
    runWord 0x24002000 [(.e 2, [500, 862])] [(.e 0, [69, 0])] = true := by
  decide +kernel

/-- 95_test_vectors.md section 5.3. -/
theorem test_fp2Mul :
    runWord 0x25002100 [(.e 2, [120, 168, 72, 264])] [(.e 0, [667, 100])] = true ∧
    runWord 0x25002080 [(.e 2, [120, 168])] [(.e 0, [717, 387])] = true := by
  decide +kernel

/-- 95_test_vectors.md section 5.3. -/
theorem test_fp2Sqr :
    runWord 0x26002000 [(.e 2, [120, 168])] [(.e 0, [286, 387])] = true ∧
    runWord 0x26002000 [(.e 2, [0, 862])] [(.e 0, [431, 0])] = true := by
  decide +kernel

/-- 95_test_vectors.md section 5.3. -/
theorem test_fp2Inv :
    runWord 0x27002000 [(.e 2, [120, 168])] [(.e 0, [188, 254])] = true ∧
    runWord 0x27002000 [(.e 2, [431, 862])] [(.e 0, [0, 0])] = true := by
  decide +kernel

/-- 95_test_vectors.md section 5.3. -/
theorem test_fp2ToMont :
    runWord 0x28002000 [(.e 2, [5, 7])] [(.e 0, [120, 168])] = true := by
  decide +kernel

/-- 95_test_vectors.md section 5.3. -/
theorem test_fp2FromMont :
    runWord 0x29002000 [(.e 2, [120, 168])] [(.e 0, [5, 7])] = true := by
  decide +kernel

/-- 95_test_vectors.md section 5.3. -/
theorem test_fp2Mov :
    runWord 0x2A002000 [(.e 2, [120, 168])] [(.e 0, [120, 168])] = true := by
  decide +kernel

/-- 95_test_vectors.md section 5.3. -/
theorem test_fp2Sel :
    runWord 0x2B002106 [(.e 2, [1, 2, 3, 4, 0])] [(.e 0, [3, 4])] = true ∧
    runWord 0x2B002106 [(.e 2, [1, 2, 3, 4, 1])] [(.e 0, [1, 2])] = true := by
  decide +kernel

/-- 95_test_vectors.md section 5.4. -/
theorem test_xDbl :
    runWord 0x30104000 [(.e 4, [229, 421, 24, 0]), (.e 56, [192, 0, 96, 0])] [(.e 4, [461, 195, 218, 318])] = true ∧
    strictFault 0x30004000 [(.e 4, [229, 421, 24, 0])] = some (.unwrittenRead (.e 56) 0) := by
  decide +kernel

/-- 95_test_vectors.md section 5.4. -/
theorem test_xDble :
    runWord 0x31004003 [(.e 4, [229, 421, 24, 0]), (.e 56, [192, 0, 96, 0])] [(.e 0, [606, 253, 625, 411])] = true ∧
    runWord 0x31004000 [(.e 4, [229, 421, 24, 0]), (.e 56, [192, 0, 96, 0])] [(.e 0, [229, 421, 24, 0])] = true := by
  decide +kernel

/-- 95_test_vectors.md section 5.4. -/
theorem test_xTpl :
    runWord 0x32004000 [(.e 4, [309, 348, 24, 0]), (.e 56, [192, 0, 96, 0])] [(.e 0, [779, 31, 4, 286])] = true := by
  decide +kernel

/-- 95_test_vectors.md section 5.4. -/
theorem test_xTple :
    runWord 0x33004002 [(.e 4, [309, 348, 24, 0]), (.e 56, [192, 0, 96, 0])] [(.e 0, [218, 124, 569, 43])] = true ∧
    runWord 0x33004000 [(.e 4, [309, 348, 24, 0]), (.e 56, [192, 0, 96, 0])] [(.e 0, [309, 348, 24, 0])] = true := by
  decide +kernel

/-- 95_test_vectors.md section 5.4. -/
theorem test_xDblAdd :
    runWord 0x3400420A [(.e 0, [229, 421, 24, 0, 139, 55, 24, 0, 136, 175, 48, 0])] [(.e 0, [654, 372, 701, 295, 128,
      130, 842, 211])] = true := by
  decide +kernel

/-- 95_test_vectors.md section 5.5. -/
theorem test_get4 :
    runWord 0x40030000 [(.e 48, [204, 144, 143, 81])] [(.e 56, [141, 63, 125, 425]), (.e 48, [16, 844, 61, 63, 347,
      225])] = true := by
  decide +kernel

/-- 95_test_vectors.md section 5.5. -/
theorem test_eval4 :
    runWord 0x41200000 [(.e 8, [309, 348, 24, 0]), (.e 48, [16, 844, 61, 63, 347, 225])] [(.e 8, [446, 328, 509, 120])] =
      true ∧
    runWord 0x41200000 [(.e 8, [204, 144, 143, 81]), (.e 48, [16, 844, 61, 63, 347, 225])] [(.e 8, [786, 322, 0, 0])] =
      true := by
  decide +kernel

/-- 95_test_vectors.md section 5.5. COEF2 is not written. -/
theorem test_get3 :
    runWord 0x42004000 [(.e 4, [218, 124, 569, 43]), (.e 52, [1, 2])] [(.e 56, [664, 18, 701, 189]), (.e 48, [511, 81,
      787, 167, 1, 2])] = true := by
  decide +kernel

/-- 95_test_vectors.md section 5.5. -/
theorem test_eval3 :
    runWord 0x43200000 [(.e 8, [229, 421, 24, 0]), (.e 48, [511, 81, 787, 167])] [(.e 8, [512, 336, 270, 402])] = true := by
  decide +kernel

/-- 95_test_vectors.md section 5.5. -/
theorem test_get2 :
    runWord 0x44004000 [(.e 4, [606, 253, 625, 411])] [(.e 56, [572, 333, 43, 395]), (.e 48, [606, 253, 625, 411])] = true := by
  decide +kernel

/-- 95_test_vectors.md section 5.5. -/
theorem test_eval2 :
    runWord 0x45200000 [(.e 8, [309, 348, 24, 0]), (.e 48, [606, 253, 625, 411])] [(.e 8, [134, 335, 269, 295])] = true := by
  decide +kernel

/-- 95_test_vectors.md section 5.5. -/
theorem test_inv3Way :
    runWord 0x46000084 [(.e 0, [48, 0, 72, 24, 120, 168])] [(.e 0, [12, 431, 352, 170, 188, 254])] = true ∧
    runWord 0x46000084 [(.e 0, [0, 0, 72, 24, 120, 168])] [(.e 0, [0, 0, 0, 0, 0, 0])] = true := by
  decide +kernel

/-- 95_test_vectors.md section 5.5. -/
theorem test_getA :
    runWord 0x47002106 [(.e 2, [229, 421, 209, 229, 210, 387])] [(.e 0, [575, 0])] = true ∧
    runWord 0x47002106 [(.e 2, [0, 0, 209, 229, 210, 387])] [(.e 0, [443, 246])] = true := by
  decide +kernel

/-- 95_test_vectors.md section 5.5. -/
theorem test_jInv :
    runWord 0x48002100 [(.e 2, [145, 0, 96, 0])] [(.e 0, [25, 431])] = true ∧
    runWord 0x48002100 [(.e 2, [48, 0, 24, 0])] [(.e 0, [0, 0])] = true := by
  decide +kernel

/-- 95_test_vectors.md section 5.6. -/
theorem test_ladderA :
    runWord 0x5001869C [(.e 54, [144, 0]), (.e 24, [229, 421, 209, 229, 210, 387]), (.sk, [27])] [(.e 0, [51, 223, 57,
      250])] = true ∧
    strictFault 0x5001869C [(.e 54, [144, 0]), (.e 24, [229, 421, 209, 229, 210, 387])] = some (.unwrittenRead .sk 0) := by
  decide +kernel

/-- 95_test_vectors.md section 5.6. -/
theorem test_ladderB :
    runWord 0x5101869C [(.e 54, [144, 0]), (.e 24, [309, 348, 345, 288, 116, 418]), (.sk, [26])] [(.e 0, [668, 274, 334,
      55])] = true := by
  decide +kernel

/-- 95_test_vectors.md section 5.6. -/
theorem test_chainA :
    runWord 0x52300040 [(.e 12, [309, 348, 24, 0, 345, 288, 24, 0, 116, 418, 24, 0]), (.e 0, [51, 223, 57, 250]), (.e 56,
      [192, 0, 96, 0])] [(.e 56, [205, 30, 115, 164]), (.e 48, [854, 740, 594, 494, 66, 438]), (.e 12, [525, 339,
      677, 28, 40, 282, 188, 131, 597, 99, 425, 290])] = true ∧
    runWord 0x52000000 [(.e 0, [51, 223, 57, 250]), (.e 56, [192, 0, 96, 0])] [(.e 56, [205, 30, 115, 164]), (.e 48,
      [854, 740, 594, 494, 66, 438])] = true := by
  decide +kernel

/-- 95_test_vectors.md section 5.6. -/
theorem test_chainB :
    runWord 0x53300040 [(.e 12, [229, 421, 24, 0, 209, 229, 24, 0, 210, 387, 24, 0]), (.e 0, [48, 120, 493, 286]), (.e
      56, [192, 0, 96, 0])] [(.e 56, [326, 398, 438, 347]), (.e 48, [299, 650, 195, 286]), (.e 12, [200, 194, 633,
      24, 707, 391, 367, 53, 173, 155, 702, 218])] = true ∧
    runWord 0x53000000 [(.e 0, [48, 120, 493, 286]), (.e 56, [192, 0, 96, 0])] [(.e 56, [326, 398, 438, 347]), (.e 48,
      [299, 650, 195, 286])] = true := by
  decide +kernel

/-- 95_test_vectors.md section 4: the lengths of the operation-kind traces. -/
theorem test_trace_lengths :
    traceLength 0x5001869C [(.sk, [13])] = some 168 ∧ traceLength 0x5101869C [(.sk, [13])] = some 168 ∧
    traceLength 0x17001000 [(.e 1, [13])] = some 26 ∧ traceLength 0x27002000 [(.e 2, [13])] = some 36 ∧
    traceLength 0x52300040 [] = some 272 ∧ traceLength 0x53300040 [] = some 436 ∧
    traceLength 0x52000000 [] = some 104 ∧ traceLength 0x31004003 [] = some 60 := by decide +kernel

/-- 95_test_vectors.md section 7: the host writes E24 = 243 limb by limb; 0xF3 goes to 0x101800. -/
theorem test_host_write :
    holds (step { stateWith [] with port := [.access { addr := 0x101800, bytes := 8, kind := .write 0xF3 }] })
      (fun t => t.lanes.all fun l => l.rE 24 == 243 && (l.get (.e 24)).written == [true, false]) = true := by decide +kernel

/-- 95_test_vectors.md section 6: after a rejection with code 1 STATUS reads 0x12. -/
theorem test_status_word : ({ busy := false, err := true, errcode := 1 } : Status).word = 0x12 := by decide +kernel

/-! ## The hypotheses of the statements, met

One theorem for each statement of Obligations.lean that has hypotheses, named after it: concrete states and operands that meet
them, for each clause, at boundary values where the clause has a range. -/

/-- A lane in which every register is written: 24 (MONT_ONE) in every E and D register, 11 in SK. -/
def fullLane : Lane :=
  { e := Vector.replicate 64 { val := 24, written := [true, true] }
    d := Vector.replicate 4 { val := 24, written := [true, true, true, true] }
    sk := { val := 11, written := [true] } }

/-- TOY431 with every register written. -/
def full : State := { State.resetWith Config.toy431 with lanes := [fullLane] }

/-- The same with another scalar and other points. -/
def fullOther : State :=
  { full with lanes := [(fullLane.writeAll Config.toy431 (spread [(.e 0, [229, 421, 862, 0])])).write Config.toy431 .sk 20] }

/-- A command in progress, with three clocks left. -/
def busyWith (port : List HostEvent) : State :=
  { full with
    status := { busy := true, err := false, errcode := 0 }, latch := some 0x17001000, clocksLeft := 3, port := port }

/-- An error that the host has not cleared. -/
def erredWith (port : List HostEvent) : State :=
  { full with status := { busy := false, err := true, errcode := 5 }, port := port }

/-- Two lanes: one with every register written, and a given one. -/
def twoLanes (l : Lane) : State := { full with cfg := { Config.toy431 with k := 2 }, lanes := [fullLane, l] }

def readOf (a : BitVec 24) : HostEvent := .access { addr := a, bytes := 8, kind := .read }

def writeOf (a : BitVec 24) (v : HostWord) : HostEvent := .access { addr := a, bytes := 8, kind := .write v }

theorem laneInv_of {c : Config} {l : Lane} (he : ∀ i : Fin 64, l.e[i].val < c.r ∧ l.e[i].written.length = c.n)
    (hd : ∀ i : Fin 4, l.d[i].val < c.r * c.r ∧ l.d[i].written.length = 2 * c.n)
    (hs : l.sk.val < 2 ^ c.skBits ∧ l.sk.written.length = c.skWords) : l.Inv c := by
  intro name
  cases name with
  | e i => exact he ⟨i.toNat, i.isLt⟩
  | d i => exact hd ⟨(i.setWidth 2).toNat, (i.setWidth 2).isLt⟩
  | sk => exact hs

theorem full_lane_inv : fullLane.Inv Config.toy431 := laneInv_of (by decide +kernel) (by decide +kernel) (by decide +kernel)

theorem fullOther_lane_inv : ∀ l ∈ fullOther.lanes, l.Inv Config.toy431 := by
  intro l hl
  rw [List.mem_singleton.1 hl]
  exact laneInv_of (by decide +kernel) (by decide +kernel) (by decide +kernel)

/-- A state between commands whose lanes meet their invariant meets the invariant. -/
theorem inv_of {s : State} (hw : s.cfg.wf = true) (hk : s.lanes.length = s.cfg.k) (hl : ∀ l ∈ s.lanes, l.Inv s.cfg)
    (hs : s.status = Status.reset) (hn : s.latch = none) (hc : s.clocksLeft = 0) : s.Inv where
  wf := hw
  laneCount := hk
  lanes := hl
  status := by rw [hs]; decide
  latched := by rw [hn, hs]; decide
  clocks := by rw [hc, hs]; decide
  latchLegal := by rw [hn]; exact fun w h => absurd h (by simp)

theorem full_inv (port : List HostEvent) : ({ full with port := port } : State).Inv :=
  inv_of (show Config.toy431.wf = true by decide +kernel) rfl (fun l hl => by rw [List.mem_singleton.1 hl]; exact full_lane_inv) rfl rfl rfl

theorem fullOther_inv (port : List HostEvent) : ({ fullOther with port := port } : State).Inv :=
  inv_of (show Config.toy431.wf = true by decide +kernel) rfl fullOther_lane_inv rfl rfl rfl

/-! ### Encoding -/

theorem witness_DecodeEncodeRoundTrip :
    (Instr.fp2Mul 62 0 2).wellFormed 5 = true ∧ (Instr.skBit 63 4).wellFormed 5 = true ∧
    (Instr.xDble 60 60 4095).wellFormed 5 = true ∧ (Instr.chainB 36 60 true).wellFormed 5 = true := by decide +kernel

theorem witness_EncodeDecodeRoundTrip :
    decode 0x53924040#32 = .ok (.chainB 36 36 true) ∧ decode 0x31F3CFFF#32 = .ok (.xDble 60 60 4095) := by decide +kernel

theorem witness_DecodeMatchesTable :
    decode 0x52300040#32 = .ok (.chainA 12 0 true) ∧
    0x52300040#32 &&& (Instr.chainA 0 0 false).tableRow.1 = (Instr.chainA 0 0 false).tableRow.2 ∧
    0x52100000#32 &&& (Instr.chainA 0 0 false).tableRow.1 = (Instr.chainA 0 0 false).tableRow.2 := by decide +kernel

theorem witness_IllegalOpcodes :
    illegalOpcode ((0xFFFFFFFF54000000 : HostWord).extractLsb' 24 8).toNat ∧ (stateWith []).status.err = false ∧
    illegalOpcode ((0x07000000 : HostWord).extractLsb' 24 8).toNat ∧
    illegalOpcode ((0xFF000000 : HostWord).extractLsb' 24 8).toNat ∧
    ¬ illegalOpcode ((0x53000000 : CmdWord).extractLsb' 24 8).toNat ∧
    ¬ illegalOpcode ((0x00000000 : CmdWord).extractLsb' 24 8).toNat := by
  unfold illegalOpcode
  decide +kernel

theorem witness_ReservedFields :
    (0x12001001#32).extractLsb' 24 8 = (Instr.fpNeg 0 0).tableRow.2.extractLsb' 24 8 ∧
    (0x52100000#32).extractLsb' 24 8 = (Instr.chainA 0 0 false).tableRow.2.extractLsb' 24 8 ∧
    decode ((0x12001001 : HostWord).setWidth 32) = .error .reservedField ∧ (stateWith []).status.err = false := by
  decide +kernel

/-! ### Taking a command -/

theorem witness_StepRunsDecoded :
    full.cfg.wf = true ∧ full.status.busy = false ∧ full.status.err = false ∧
    ({ full with port := [.access (cmdWrite 0x25002100)] } : State).port = .access (cmdWrite 0x25002100) :: [] ∧
    decode ((0x25002100 : HostWord).setWidth 32) = .ok (.fp2Mul 0 2 4) ∧ decode 0x25002100#32 = .ok (.fp2Mul 0 2 4) := by
  decide +kernel

theorem witness_RejectionEffect :
    (full.cfg.wf = true ∧ full.status.busy = false ∧ full.status.err = false ∧
      commandError full.cfg.skBits ((0x52A00040 : HostWord).setWidth 32) = some .operandOverlap ∧
      commandError full.cfg.skBits ((0x07000000 : HostWord).setWidth 32) = some .illegalOpcode) ∧
    ((busyWith [.access (cmdWrite 0x07000000)]).cfg.wf = true ∧ (busyWith [.access (cmdWrite 0x07000000)]).status.busy = true) ∧
    (erredWith [.access (cmdWrite 0)]).status.busy = false ∧ (erredWith [.access (cmdWrite 0)]).status.err = true := by
  decide +kernel

theorem witness_StickyError :
    (erredWith [.access (cmdWrite 0x25002100), .access (cmdWrite 1)]).cfg.wf = true ∧
    (erredWith [.access (cmdWrite 0x25002100), .access (cmdWrite 1)]).status.busy = false ∧
    (erredWith [.access (cmdWrite 0x25002100), .access (cmdWrite 1)]).status.err = true ∧
    (erredWith [.access (cmdWrite 0x25002100), .access (cmdWrite 1)]).port =
      ([0x25002100, 1].map fun v => .access (cmdWrite v)) ++ [] := by decide +kernel

theorem witness_StatusClearing :
    ((erredWith [writeOf 0x18 2]).cfg.wf = true ∧ (erredWith [writeOf 0x18 2]).status.busy = false ∧
      (erredWith [writeOf 0x18 2]).port = .access { addr := 0x18, bytes := 8, kind := .write 2 } :: []) ∧
    ((busyWith [writeOf 0x18 0]).status.busy = true ∧
      (busyWith [writeOf 0x18 0]).port = .access { addr := 0x18, bytes := 8, kind := .write 0 } :: []) ∧
    (erredWith [writeOf 0x18 2]).status.legal = true ∧ ∃ t, step (erredWith [writeOf 0x18 2]) = .next t :=
  ⟨by decide +kernel, by decide +kernel, by decide +kernel, answers_of_holds (by decide +kernel)⟩

theorem witness_BusyStalls :
    ((busyWith [readOf 0x20]).cfg.wf = true ∧ (busyWith [readOf 0x20]).status.busy = true ∧
      ¬ ((0x20 : BitVec 24) = 0x00 ∨ (0x20 : BitVec 24) = 0x08 ∨ (0x20 : BitVec 24) = 0x10 ∨ (0x20 : BitVec 24) = 0x18)) ∧
    (busyWith [readOf 0x18]).port = .access { addr := 0x18, bytes := 8, kind := .read } :: [] ∧
    (erredWith [readOf 0x100000]).cfg.wf = true ∧ (erredWith [readOf 0x100000]).status.busy = false := by decide +kernel

theorem witness_BusyEndsAfterLatency :
    ((busyWith []).cfg.wf = true ∧ (busyWith []).status.busy = true ∧ (busyWith []).clocksLeft = 2 + 1 ∧ (busyWith []).port = []) ∧
    (busyWith [readOf 0x100000]).port = .access { addr := 0x100000, bytes := 8, kind := .read } :: [] ∧
    Access.answeredAtOnce { addr := 0x100000, bytes := 8, kind := .read } = false := by decide +kernel

theorem witness_ConstantTime :
    ((opTrace Config.toy431 (.ladderA 0 24 26 28) fullLane).isSome = true ∧
      (fullOther.lanes.all fun l => (opTrace Config.toy431 (.ladderA 0 24 26 28) l).isSome) = true) ∧
    ({ full with port := [.access (cmdWrite 0x5001869C)] } : State).Inv ∧
    ({ fullOther with port := [.access (cmdWrite 0x5001869C)] } : State).Inv ∧ full.cfg = fullOther.cfg ∧
    (∃ t, step { full with port := [.access (cmdWrite 0x5001869C)] } = .next t) ∧
    ∃ t, step { fullOther with port := [.access (cmdWrite 0x5001869C)] } = .next t :=
  ⟨by decide +kernel, full_inv _, fullOther_inv _, rfl, answers_of_holds (by decide +kernel),
    answers_of_holds (by decide +kernel)⟩

/-! ### The whole machine -/

theorem witness_InvariantAfterReset : Config.toy863.wf = true := by decide +kernel

theorem witness_InvariantPreserved :
    ({ full with port := [.access (cmdWrite 0x17001000)] } : State).Inv ∧
    ∃ t, step { full with port := [.access (cmdWrite 0x17001000)] } = .next t :=
  ⟨full_inv _, answers_of_holds (by decide +kernel)⟩

theorem witness_StepAlwaysAnswers :
    full.cfg.wf = true ∧ ({ full with cfg := { Config.toy431 with n := 1 } } : State).cfg.wf = false := by decide +kernel

theorem witness_CommandFrame :
    (∃ t, exec (.fp2Mul 0 2 4) full = .next t) ∧ (Instr.fp2Mul 0 2 4).wellFormed full.cfg.skBits = true ∧
    (∃ t, exec (.mpMul 4 0 0) full = .next t) ∧ (Instr.mpMul 4 0 0).wellFormed full.cfg.skBits = false ∧
    (RegName.d 3).valid = true ∧ RegName.e 2 ∉ writes (.fp2Mul 0 2 4) :=
  ⟨answers_of_holds (by decide +kernel), by decide +kernel, answers_of_holds (by decide +kernel), by decide +kernel,
    by decide +kernel, by decide +kernel⟩

theorem witness_OnlyReadsMatter :
    (Instr.fpAdd 0 8 9).wellFormed full.cfg.skBits = true ∧ full.cfg = fullOther.cfg ∧ full.draws = fullOther.draws ∧
    (∃ t, exec (.fpAdd 0 8 9) full = .next t) ∧ (∃ t, exec (.fpAdd 0 8 9) fullOther = .next t) ∧
    ∀ l ∈ fullOther.lanes, ∀ name ∈ reads (.fpAdd 0 8 9), fullLane.val name = l.val name :=
  ⟨by decide +kernel, rfl, rfl, answers_of_holds (by decide +kernel), answers_of_holds (by decide +kernel), by decide +kernel⟩

theorem witness_LanesIndependent :
    (twoLanes fullLane).lanes[0]? = (twoLanes (Lane.reset Config.toy431)).lanes[0]? ∧
    (∃ t, exec (.mpAdd 0 1 2) (twoLanes fullLane) = .next t) ∧
    (∃ t, exec (.mpAdd 0 1 2) (twoLanes (Lane.reset Config.toy431)) = .next t) ∧
    (ruleOf (.mpAdd 0 1 2)).breaks (twoLanes fullLane).cfg fullLane = false ∧
    ∃ u, exec (.mpAdd 0 1 2)
      { twoLanes fullLane with cfg := { (twoLanes fullLane).cfg with k := 1 }, lanes := [fullLane] } = .next u :=
  ⟨by decide +kernel, answers_of_holds (by decide +kernel), answers_of_holds (by decide +kernel), by decide +kernel,
    answers_of_holds (by decide +kernel)⟩

theorem witness_BoundBreakCompletes :
    full.cfg.wf = true ∧ (Instr.mpSub 0 1 2).wellFormed full.cfg.skBits = true ∧
    (ruleOf (.mpSub 0 1 2)).outcome full.cfg fullLane = .ok [0] ∧
    (ruleOf (.mpSub 0 1 2)).breaks full.cfg (laneWith Config.toy431 [(.e 1, [400, 401])]) = true := by decide +kernel

theorem witness_StrictFaults :
    (Instr.mpSub 0 1 2).wellFormed full.cfg.skBits = true ∧
    ((stateWith []).lanes.all fun l => (reads (.mpSub 0 1 2)).all fun name => !(l.get name).isWritten) = true ∧
    ((stateWith [(.e 1, [400, 401])]).lanes.all fun l =>
      ((reads (.mpSub 0 1 2)).all fun name => (l.get name).isWritten) &&
        (ruleOf (.mpSub 0 1 2)).breaks Config.toy431 l) = true ∧
    ∀ l ∈ full.lanes, (∀ name ∈ reads (.mpSub 0 1 2), (l.get name).isWritten = true) ∧
      (ruleOf (.mpSub 0 1 2)).breaks full.cfg l = false := by decide +kernel

theorem witness_StrictRefines :
    holds (strictStep { full with port := [.access (cmdWrite 0x02001080)] }) (fun _ => true) = true ∧
    strictStep { stateWith [] with port := [.access (cmdWrite 0x02001080)] } = .fault (.unwrittenRead (.e 1) 0) := by
  refine ⟨by decide +kernel, rfl⟩

theorem witness_ResetInput :
    (busyWith [.reset, readOf 0x18]).cfg.wf = true ∧ (busyWith [.reset, readOf 0x18]).port = .reset :: [readOf 0x18] := by
  decide +kernel

/-! ### The host port -/

theorem witness_IdRegister :
    (busyWith [readOf 0]).port = .access { addr := 0x00, bytes := 8, kind := .read } :: [] ∧ (busyWith []).cfg.wf = true ∧
    ({ full with port := [writeOf 0 1] } : State).port = .access { addr := 0x00, bytes := 8, kind := .write 1 } :: [] ∧
    full.status.busy = false := by decide +kernel

theorem witness_ConfigRegisters :
    (∃ t, step full = .next t) ∧ full.cfg.wf = true ∧ full.status.busy = false ∧
    ({ full with port := [readOf 0x08] } : State).port = .access { addr := 0x08, bytes := 8, kind := .read } :: [] ∧
    ({ full with port := [readOf 0x10] } : State).port = .access { addr := 0x10, bytes := 8, kind := .read } :: [] ∧
    ({ full with port := [readOf 0x20] } : State).port = .access { addr := 0x20, bytes := 8, kind := .read } :: [] ∧
    Config.toy863.wf = true ∧ Config.toy863.eA < 65536 ∧ Config.toy863.eB < 65536 ∧
    Config.toy863.skBits < 65536 ∧ Config.toy863.obobBits < 65536 ∧ Config.toy863.maxPts < 256 ∧ Config.toy863.invNT < 256 :=
  ⟨answers_of_holds (by decide +kernel), by decide +kernel⟩

theorem witness_StatusRegister :
    (erredWith [readOf 0x18]).cfg.wf = true ∧
    (erredWith [readOf 0x18]).port = .access { addr := 0x18, bytes := 8, kind := .read } :: [] := by decide +kernel

theorem witness_HostWriteLimb :
    full.cfg.wf = true ∧ full.status.busy = false ∧ 0 < full.cfg.k ∧ full.lanes[0]? = some fullLane ∧
    (RegName.d 3).valid = true ∧ 3 < limbCount full.cfg (.d 3) ∧ 1 < limbCount full.cfg (.e 63) ∧
    BitVec.ofNat 24 (regAddress 0 (.d 3) 3) = 0x108618#24 ∧ BitVec.ofNat 24 (regAddress 0 (.e 63) 1) = 0x103F08#24 := by
  decide +kernel

theorem witness_HostReadLimb :
    (stateWith []).cfg.wf = true ∧ (stateWith []).status.busy = false ∧ 0 < (stateWith []).cfg.k ∧
    (stateWith []).lanes[0]? = some (laneWith Config.toy431 []) ∧ 1 < limbCount (stateWith []).cfg (.e 63) ∧
    (fullLane.get (.e 63)).wordWritten 1 = true := by decide +kernel

theorem witness_HostScalar :
    full.cfg.wf = true ∧ full.status.busy = false ∧ full.lanes[0]? = some fullLane ∧ 0 < full.cfg.skWords ∧
    fullLane.sk.val < 2 ^ full.cfg.skBits ∧ fullLane.sk.wordWritten 0 = true ∧
    fullLane.sk.written.length = full.cfg.skWords ∧
    BitVec.ofNat 24 (regAddress 0 .sk 0) = 0x10C000#24 := by decide +kernel

theorem witness_HostLoadsRegister :
    Config.toy431.wf = true ∧ (Reg.unwritten 2).val < Config.toy431.r ∧ (Reg.unwritten 2).written.length = Config.toy431.n := by
  decide +kernel

theorem witness_AddressMap :
    Config.toy431.wf = true ∧ 0 < Config.toy431.k ∧ (RegName.d 3).valid = true ∧ 3 < limbCount Config.toy431 (.d 3) ∧
    targetOf Config.toy431 0x108618 = some (.reg 0 (.d 3) 3) ∧ targetOf Config.toy431 0x001508 = some (.rom 5 1) ∧
    targetOf Config.toy431 0x10C000 = some (.reg 0 .sk 0) ∧ targetOf Config.toy431 0x000020 = some .cmd ∧
    targetOf Config.toy431 (0x000028 : BitVec 24).toNat = none ∧ targetOf Config.toy431 (0x110000 : BitVec 24).toNat = none ∧
    full.status.busy = false ∧ full.cfg.wf = true := by decide +kernel

theorem witness_RomWindow :
    full.cfg.wf = true ∧ full.status.busy = false ∧ 1 < full.cfg.n ∧
    ({ full with port := [readOf 0x001508] } : State).port =
      .access { addr := BitVec.ofNat 24 (0x001000 + 5 * 0x100 + 8 * 1), bytes := 8, kind := .read } :: [] := by decide +kernel

theorem witness_BusErrors :
    badAccess Config.toy431 { addr := 0x000028, bytes := 8, kind := .read } ∧
    badAccess Config.toy431 { addr := 0x00000C, bytes := 8, kind := .read } ∧
    badAccess Config.toy431 { addr := 0x000000, bytes := 4, kind := .read } ∧
    badAccess Config.toy431 { addr := 0x001000, bytes := 8, kind := .write 0 } ∧
    ¬ badAccess Config.toy431 { addr := 0x000018, bytes := 8, kind := .write 0xFFFFFFFFFFFFFFFD } ∧
    full.lanes.length = full.cfg.k ∧ full.status.busy = false ∧ full.cfg.wf = true ∧
    ∃ t, step { full with port := [writeOf 0x18 0xFFFFFFFFFFFFFFFD] } = .next t := by
  refine ⟨.inr (.inr (.inl (by decide +kernel))), .inr (.inl (by decide +kernel)), .inl (by decide +kernel),
    .inr (.inr (.inr ⟨0, rfl, .inr (.inr (.inr ⟨0, 0, by decide +kernel⟩))⟩)), ?_, rfl, rfl, by decide +kernel,
    answers_of_holds (by decide +kernel)⟩
  have h : targetOf Config.toy431 (0x000018 : BitVec 24).toNat = some .status := by decide +kernel
  rintro (h1 | h1 | h1 | ⟨v, -, h1 | h1 | h1 | ⟨k, j, h1⟩⟩)
  · exact h1 rfl
  · exact h1 (by decide +kernel)
  · rw [h] at h1; simp at h1
  · rw [h] at h1; simp at h1
  · rw [h] at h1; simp at h1
  · rw [h] at h1; simp at h1
  · rw [h] at h1; simp at h1

theorem witness_ReadsHaveNoSideEffect :
    (busyWith [readOf 0x18]).port = .access { addr := 0x18, bytes := 8, kind := .read } :: [] ∧
    (∃ t, step (busyWith [readOf 0x18]) = .next t) ∧ ∃ t, step { stateWith [] with port := [readOf 0x100000] } = .next t :=
  ⟨rfl, answers_of_holds (by decide +kernel), answers_of_holds (by decide +kernel)⟩

/-! ### Montgomery reduction and the field functions -/

theorem witness_DerivedConstants : Config.toy431.wf = true := by decide +kernel

theorem witness_RedcFormula :
    Config.toy431.wf = true ∧ 28246015 < Config.toy431.p * Config.toy431.r ∧
    Config.toy431.p * Config.toy431.r ≤ 28246016 := by decide +kernel

theorem witness_RedcProperties :
    Config.toy431.wf = true ∧ 24 * Config.toy431.p ^ 2 < Config.toy431.p * Config.toy431.r ∧
    0 < Config.toy431.p * Config.toy431.r := by decide +kernel

/-- Whether the commands of a list all answer a next state, one after the other. -/
def allAnswer : List Instr → State → Bool
  | [], _ => true
  | i :: is, s => holds (exec i s) fun t => allAnswer is t

theorem witness_CompositionLaw :
    (∀ l ∈ (stateWith [(.e 1, [862, 862])]).lanes, l.rE 1 ≤ 2 * Config.toy431.p ∧ l.rE 2 ≤ 2 * Config.toy431.p) ∧
    allAnswer [.mpMul 3 1 2, .mpRdc 0 3] (stateWith [(.e 1, [862, 862])]) = true ∧
    allAnswer [.fpMul 0 1 2] (stateWith [(.e 1, [862, 862])]) = true ∧
    RegNum.isQ 2 = true ∧ RegNum.isQ 4 = true ∧ RegNum.isQ 0 = true ∧ (8 : RegNum) ∉ [(2 : RegNum), 2 + 1, 4, 4 + 1] ∧
    (9 : RegNum) ∉ [(2 : RegNum), 2 + 1, 4, 4 + 1, 8] ∧
    allAnswer [.mpAdd 8 2 3, .mpAdd 9 4 5, .mpMul 0 8 9, .mpMul 1 2 4, .mpMul 2 3 5, .mpDsub 0 0 1, .mpDsub 0 0 2, .mpRdc 10 0]
      (stateWith [(.e 2, [862, 862, 862, 862])]) = true ∧
    allAnswer [.fp2Mul 0 2 4] (stateWith [(.e 2, [862, 862, 862, 862])]) = true := by decide +kernel

theorem toy431_prime : Config.toy431.p.Prime := by
  have : Config.toy431.p = 431 := by decide +kernel
  rw [this]
  norm_num

theorem witness_WorkingBound : Config.toy431.wf = true ∧ 862 ≤ 2 * Config.toy431.p ∧ 2 * Config.toy431.p < 863 := by
  decide +kernel

theorem witness_FpLaws :
    Config.toy431.p.Prime ∧ Config.toy431.wf = true ∧ 430 ≤ 2 * Config.toy431.p ∧ 862 ≤ 2 * Config.toy431.p ∧
    430 % Config.toy431.p ≠ 0 ∧ 430 < Config.toy431.p := ⟨toy431_prime, by decide +kernel⟩

theorem witness_Fp2Laws :
    Config.toy431.p.Prime ∧ Config.toy431.wf = true ∧ Config.toy431.Working2 ⟨430, 0⟩ ∧ Config.toy431.Working2 ⟨862, 862⟩ ∧
    430 < Config.toy431.p ∧ 430 % Config.toy431.p ≠ 0 := by
  refine ⟨toy431_prime, ?_⟩
  simp only [Config.Working2, Config.Working]
  decide +kernel

/-! ### The results of the commands -/

theorem witness_LimbResults :
    full.cfg.wf = true ∧ (∀ l ∈ (stateWith [(.e 1, [65535, 0])]).lanes, l.rE 1 + l.rE 2 < full.cfg.r ∧ l.rE 2 ≤ l.rE 1) ∧
    (∀ l ∈ full.lanes, l.rE 1 + l.rE 2 < full.cfg.r ∧ l.rE 2 ≤ l.rE 1 ∧ l.rD 3 < full.cfg.p * full.cfg.r ∧
      l.rD 3 + l.rD 0 < full.cfg.r ^ 2 ∧ l.rD 0 ≤ l.rD 3) ∧
    (∀ l ∈ (stateWith [(.e 1, [65535, 1]), (.d 0, [4294967295, 1])]).lanes, full.cfg.r ≤ l.rE 1 + l.rE 2 ∧ l.rE 2 < l.rE 1 ∧
      full.cfg.p * full.cfg.r ≤ l.rD 0 ∧ full.cfg.r ^ 2 ≤ l.rD 0 + l.rD 1 ∧ l.rD 1 < l.rD 0) ∧
    ((3 : RegNum).toNat < 4) := by decide +kernel

theorem witness_FpAdditiveResults :
    full.cfg.wf = true ∧
    ∀ l ∈ (stateWith [(.e 1, [862, 0])]).lanes, l.rE 1 ≤ 2 * full.cfg.p ∧ l.rE 2 ≤ 2 * full.cfg.p := by decide +kernel

theorem witness_FpMultiplicativeResults :
    full.cfg.wf = true ∧
    ∀ l ∈ (stateWith [(.e 1, [862, 862])]).lanes, l.rE 1 ≤ 2 * full.cfg.p ∧ l.rE 2 ≤ 2 * full.cfg.p := by decide +kernel

theorem witness_FpInverseResult :
    full.cfg.wf = true ∧ (∀ l ∈ (stateWith [(.e 1, [862])]).lanes, l.rE 1 ≤ 2 * full.cfg.p) ∧ full.cfg.p.Prime ∧
    430 % full.cfg.p ≠ 0 ∧ 862 % full.cfg.p = 0 :=
  ⟨by decide +kernel, by decide +kernel, toy431_prime, by decide +kernel, by decide +kernel⟩

theorem witness_FpMoveResults :
    full.cfg.wf = true ∧ (5 : RegNum).toNat < 6 ∧ (4 : Imm12).toNat < full.cfg.skBits := by decide +kernel

/-- Working operands at their largest in Q(2) and Q(4). -/
theorem largest_working :
    ∀ l ∈ (stateWith [(.e 2, [862, 862, 862, 862])]).lanes,
      Config.toy431.Working2 (l.rQ 2) ∧ Config.toy431.Working2 (l.rQ 4) := by
  simp only [Config.Working2, Config.Working]
  decide +kernel

theorem witness_Fp2ComponentResults :
    Config.toy431.wf = true ∧ RegNum.isQ 62 = true ∧ RegNum.isQ 2 = true ∧ RegNum.isQ 4 = true ∧
    ∀ l ∈ (stateWith [(.e 2, [862, 862, 862, 862])]).lanes,
      Config.toy431.Working2 (l.rQ 2) ∧ Config.toy431.Working2 (l.rQ 4) :=
  ⟨by decide +kernel, by decide, by decide, by decide, largest_working⟩

theorem witness_Fp2ProductResults :
    Config.toy431.wf = true ∧ RegNum.isQ 0 = true ∧ RegNum.isQ 2 = true ∧ RegNum.isQ 4 = true ∧
    (∀ l ∈ (stateWith [(.e 2, [862, 862, 862, 862])]).lanes,
      Config.toy431.Working2 (l.rQ 2) ∧ Config.toy431.Working2 (l.rQ 4)) ∧
    (fp2mul Config.toy431 ⟨862, 862⟩ ⟨862, 862⟩).answer = .ok ⟨0, 431⟩ ∧
    (fp2sqr Config.toy431 ⟨862, 862⟩).answer = .ok ⟨431, 431⟩ :=
  ⟨by decide +kernel, by decide, by decide, by decide, largest_working, rfl, rfl⟩

theorem witness_Fp2InverseResult :
    Config.toy431.wf = true ∧ RegNum.isQ 0 = true ∧ RegNum.isQ 2 = true ∧
    (∀ l ∈ (stateWith [(.e 2, [862, 862, 862, 862])]).lanes, Config.toy431.Working2 (l.rQ 2)) ∧ Config.toy431.p.Prime :=
  ⟨by decide +kernel, by decide, by decide, fun l hl => (largest_working l hl).1, toy431_prime⟩

/-- Every register of `full` holds 24, a working value. -/
theorem full_rE (b : RegNum) : fullLane.rE b = 24 := by simp [Lane.rE, Lane.val, Lane.get, fullLane]

theorem full_working2 (b : RegNum) : Config.toy431.Working2 (fullLane.rQ b) := by
  simp only [Config.Working2, Config.Working, Lane.rQ, full_rE]
  decide +kernel

theorem full_workingPt (b : RegNum) : Config.toy431.WorkingPt (fullLane.rP b) := ⟨full_working2 b, full_working2 (b + 2)⟩

theorem full_lanes {P : Lane → Prop} (h : P fullLane) : ∀ l ∈ full.lanes, P l := fun l hl => by
  rw [List.mem_singleton.1 hl]
  exact h

theorem witness_CurveResults :
    full.cfg.wf = true ∧ RegNum.isP 60 = true ∧ RegNum.isP 4 = true ∧
    ∀ l ∈ full.lanes, full.cfg.WorkingPt (l.rP 4) ∧ full.cfg.Working2 (l.rQ 56) ∧ full.cfg.Working2 (l.rQ 58) :=
  ⟨by decide +kernel, by decide, by decide, full_lanes ⟨full_workingPt 4, full_working2 56, full_working2 58⟩⟩

theorem witness_DoubleAndAddResult :
    full.cfg.wf = true ∧ RegNum.isP 0 = true ∧ RegNum.isP 60 = true ∧ RegNum.isQ 8 = true ∧ (0 : RegNum) ≠ 60 ∧
    ∀ l ∈ full.lanes, full.cfg.WorkingPt (l.rP 0) ∧ full.cfg.WorkingPt (l.rP 60) ∧ full.cfg.Working2 (l.rQ 8) ∧
      full.cfg.Working2 (l.rQ 8) :=
  ⟨by decide +kernel, by decide, by decide, by decide, by decide,
    full_lanes ⟨full_workingPt 0, full_workingPt 60, full_working2 8, full_working2 8⟩⟩

theorem witness_IsogenyConstruction :
    full.cfg.wf = true ∧ RegNum.isP 48 = true ∧ ∀ l ∈ full.lanes, full.cfg.WorkingPt (l.rP 48) :=
  ⟨by decide +kernel, by decide, full_lanes (full_workingPt 48)⟩

theorem witness_IsogenyEvaluation :
    full.cfg.wf = true ∧ RegNum.isP 48 = true ∧
    ∀ l ∈ full.lanes, (full.cfg.WorkingPt (l.rP 48) ∧ full.cfg.Working2 (l.rQ 48) ∧ full.cfg.Working2 (l.rQ 50)) ∧
      full.cfg.Working2 (l.rQ 52) :=
  ⟨by decide +kernel, by decide,
    full_lanes ⟨⟨full_workingPt 48, full_working2 48, full_working2 50⟩, full_working2 52⟩⟩

theorem witness_SupportResults :
    full.cfg.wf = true ∧ RegNum.isQ 62 = true ∧ RegNum.isQ 0 = true ∧ RegNum.isQ 2 = true ∧ RegNum.isQ 4 = true ∧
    (0 : RegNum) ≠ 2 ∧ (0 : RegNum) ≠ 4 ∧ (2 : RegNum) ≠ 4 ∧
    ∀ l ∈ full.lanes, full.cfg.Working2 (l.rQ 0) ∧ full.cfg.Working2 (l.rQ 2) ∧ full.cfg.Working2 (l.rQ 4) :=
  ⟨by decide +kernel, by decide, by decide, by decide, by decide, by decide, by decide, by decide,
    full_lanes ⟨full_working2 0, full_working2 2, full_working2 4⟩⟩

/-- The ladder's operands, with A = 0 in CA, so that a24 is one half. -/
def ladderState : State := stateWith [(.e 24, [229, 421, 209, 229, 210, 387]), (.e 54, [0, 0]), (.sk, [16])]

theorem ladder_working :
    ∀ l ∈ ladderState.lanes, ladderState.cfg.Working2 (l.rQ 24) ∧ ladderState.cfg.Working2 (l.rQ 26) ∧
      ladderState.cfg.Working2 (l.rQ 28) ∧ ladderState.cfg.Working2 (l.rQ 54) := by
  simp only [Config.Working2, Config.Working]
  decide +kernel

theorem witness_LadderResults :
    ladderState.cfg.wf = true ∧ RegNum.isP 0 = true ∧ RegNum.isQ 24 = true ∧ RegNum.isQ 26 = true ∧ RegNum.isQ 28 = true ∧
    (∀ l ∈ ladderState.lanes, ladderState.cfg.Working2 (l.rQ 24) ∧ ladderState.cfg.Working2 (l.rQ 26) ∧
      ladderState.cfg.Working2 (l.rQ 28) ∧ ladderState.cfg.Working2 (l.rQ 54)) ∧
    ∀ l ∈ ladderState.lanes, ∃ a24 : ladderState.cfg.GF2, 4 * a24 = ladderState.cfg.elem2 (l.rQ 54) + 2 := by
  refine ⟨by decide +kernel, by decide, by decide, by decide, by decide, ladder_working, ?_⟩
  have h0 : ∀ l ∈ ladderState.lanes, l.rQ 54 = ⟨0, 0⟩ := by decide +kernel
  intro l hl
  rw [h0 l hl]
  refine ⟨⟨(216 : ZMod 431), 0⟩, ?_⟩
  have h4 : ((4 : Nat) : ladderState.cfg.GF2) = ⟨(4 : ZMod 431), 0⟩ := rfl
  have h2 : ((2 : Nat) : ladderState.cfg.GF2) = ⟨(2 : ZMod 431), 0⟩ := rfl
  rw [show (4 : ladderState.cfg.GF2) = ((4 : Nat) : ladderState.cfg.GF2) by norm_num,
    show (2 : ladderState.cfg.GF2) = ((2 : Nat) : ladderState.cfg.GF2) by norm_num, h4, h2]
  have h0' : ladderState.cfg.elem2 ⟨0, 0⟩ = 0 := by
    ext <;> simp [Config.elem2, Config.elem]
  rw [h0', zero_add]
  have hz : (4 : ZMod 431) * 216 + -1 * (0 * 0) = 2 := by decide
  have hz' : (4 : ZMod 431) * 0 + 0 * 216 + 0 * (0 * 0) = 0 := by decide
  refine QuadraticAlgebra.ext ?_ ?_
  · simp only [QuadraticAlgebra.re_mul]
    exact hz
  · simp only [QuadraticAlgebra.im_mul]
    exact hz'

theorem witness_LadderScalarBits :
    (∀ l ∈ ladderState.lanes, l.sk.val % 2 ^ ladderState.cfg.eA = 0 ∧ l.sk.val % 2 ^ (ladderState.cfg.obobBits - 1) = 0) ∧
    11 % 2 ^ 4 = 27 % 2 ^ 4 := by decide +kernel

theorem witness_ChainResults :
    full.cfg.wf = true ∧ RegNum.isX true 36 = true ∧ RegNum.isX false 0 = true ∧ RegNum.isP 60 = true ∧
    (∀ l ∈ full.lanes, full.cfg.WorkingPt (l.rP 60) ∧ full.cfg.Working2 (l.rQ 56) ∧ full.cfg.Working2 (l.rQ 58) ∧
      ∀ t ∈ l.rAux true 36, full.cfg.WorkingPt t) ∧
    ∀ l ∈ full.lanes, ∀ t ∈ l.rAux false 0, full.cfg.WorkingPt t := by
  refine ⟨by decide +kernel, by decide, by decide, by decide,
    full_lanes ⟨full_workingPt 60, full_working2 56, full_working2 58, ?_⟩, full_lanes ?_⟩
  · simp only [Lane.rAux, if_true, List.mem_cons, List.not_mem_nil, or_false]
    rintro t (rfl | rfl | rfl) <;> exact full_workingPt _
  · simp [Lane.rAux]

/-- A configuration with one isogeny in each party's chain: p = 2^2·3 − 1 = 11. -/
def oneIsogeny : Config :=
  { eA := 2, eB := 1, w := 8, n := 2, k := 1, invNT := 1, invSteps := [(0, 0)], stratA := [], stratB := [], maxPts := 0 }

/-- An engine of that configuration with 5 in every register. -/
def oneIsogenyState : State :=
  { State.resetWith oneIsogeny with lanes := [(Lane.reset oneIsogeny).writeAll oneIsogeny (spread [(.e 0, List.replicate 64 5)])] }

theorem witness_ChainOfOneIsGetAndEvals :
    oneIsogeny.wf = true ∧ RegNum.isX true 12 = true ∧ RegNum.isP 4 = true ∧
    (∀ l ∈ oneIsogenyState.lanes, oneIsogeny.WorkingPt (l.rP 4) ∧ ∀ u ∈ l.rAux true 12, oneIsogeny.WorkingPt u) ∧
    oneIsogeny.eB = 1 ∧ oneIsogeny.eA = 2 ∧
    allAnswer [.chainB 12 4 true] oneIsogenyState = true ∧ allAnswer [.chainA 12 4 true] oneIsogenyState = true ∧
    allAnswer [.get3 4, .eval3 12, .eval3 16, .eval3 20] oneIsogenyState = true ∧
    allAnswer [.get4 4, .eval4 12, .eval4 16, .eval4 20] oneIsogenyState = true := by
  simp only [Config.WorkingPt, Config.Working2, Config.Working]
  decide +kernel

/-- The walk of Bob's chain of TOY431 at its first row, with 24 in every component and one entry after the table's own. -/
def bobStart : Walk :=
  { pt := fullLane.rP 0, index := 0, stack := [], strat := (isogeniesB Config.toy431).strat ++ [7], v0 := fullLane.rQ 56
    v1 := fullLane.rQ 58, aux := [fullLane.rP 4] }

theorem witness_StrategyIsUsedExactly :
    Config.toy431.wf = true ∧ Config.toy863.wf = true ∧ Config.toy431.WorkingPt (fullLane.rP 0) ∧
    Config.toy431.Working2 (fullLane.rQ 56) ∧ Config.toy431.Working2 (fullLane.rQ 58) ∧
    (∀ t ∈ [fullLane.rP 4], Config.toy431.WorkingPt t) ∧ 1 < (isogeniesB Config.toy431).len - 1 ∧
    0 < (isogeniesA Config.toy431).len - 1 ∧
    (walkRows (isogeniesB Config.toy431) 2 bobStart).answer.toOption.isSome = true ∧
    (walkToPop (isogeniesB Config.toy431) 1 2 bobStart).answer.toOption.isSome = true := by
  refine ⟨by decide +kernel, by decide +kernel, full_workingPt 0, full_working2 56, full_working2 58, ?_, by decide +kernel,
    by decide +kernel, by decide +kernel, by decide +kernel⟩
  rintro t ht
  rw [List.mem_singleton.1 ht]
  exact full_workingPt 4

end Sys2Proof.Tests
end

section
/-! PROOFS. The obligations about the engine's state and constants (10_state.md). -/

namespace Sys2Proof.Proofs

open Sys2Proof.Laws

/-- From the first round on the iterate is a remainder modulo m. -/
theorem newtonInverse_succ_lt {m : Nat} (hm : 0 < m) (q k : Nat) : Config.newtonInverse q m (k + 1) < m :=
  Nat.mod_lt _ hm

/-- pinv comes from at least one round, so it is reduced modulo R (R52). -/
theorem pinv_lt_r (c : Config) : c.pinv < c.r :=
  newtonInverse_succ_lt (r_pos c) c.p _

/-- Settles O36: the Montgomery constants are R52's by definition, and the Newton iteration behind pinv, which needs p odd,
reaches the inverse of p modulo R. -/
theorem derivedConstants : Obligations.DerivedConstants := by
  intro c hwf
  exact ⟨rfl, rfl, rfl, pinv_lt_r c, p_mul_pinv hwf, p_odd hwf⟩

end Sys2Proof.Proofs
end

section
/-! PROOFS. The obligations about the host's memory window (20_memory.md). -/

namespace Sys2Proof.Proofs

open Sys2Proof.Machine Sys2Proof.Laws

/-! ## The host port while no command is in progress -/

/-- An access at the head of the port is performed at once (R82). -/
theorem step_access_of_not_busy {s : State} {a : Access} {rest : List HostEvent} (hw : s.cfg.wf = true)
    (hb : s.status.busy = false) (hp : s.port = .access a :: rest) :
    step s = perform a { s with port := rest } := by
  have hpop : s.pop = { s with port := rest } := by simp [State.pop, hp]
  simp [step, hw, clock, hp, clockAccess, hb, hpop]

/-- An aligned 64-bit read of a mapped address is a read of what the address designates (R71, R78). -/
theorem perform_read {s : State} {a : Access} {t : Target} (hbytes : a.bytes = 8) (halign : a.addr.toNat % 8 = 0)
    (hkind : a.kind = .read) (ht : targetOf s.cfg a.addr.toNat = some t) : perform a s = .next (s.hostRead t) := by
  simp [perform, Access.wellShaped, hbytes, halign, hkind, ht]

theorem hostRead_rom (s : State) (k j : Nat) :
    s.hostRead (.rom k j) = s.respond (BitVec.ofNat 64 (limbOf s.cfg.w (s.cfg.rom k) j)) false := rfl

/-- The address map needs N at most 32 (R74). -/
theorem wf_n_le {c : Config} (h : c.wf = true) : c.n ≤ 32 := by
  obtain ⟨-, -, -, -, ⟨-, hn⟩, -⟩ := (wf_iff c).1 h
  exact hn

/-- A limb fits the host's word (R10). -/
theorem wf_w_le {c : Config} (h : c.wf = true) : c.w ≤ 64 := by
  obtain ⟨-, -, -, ⟨-, hw⟩, -⟩ := (wf_iff c).1 h
  exact hw

/-- A limb of at most 64 bits goes through a host word unchanged (R75). -/
theorem toNat_ofNat_limbOf {bits : Nat} (h : bits ≤ 64) (v j : Nat) :
    (BitVec.ofNat 64 (limbOf bits v j)).toNat = limbOf bits v j := by
  have hlt : limbOf bits v j < 2 ^ 64 :=
    (Nat.mod_lt _ (Nat.two_pow_pos bits)).trans_le (Nat.pow_le_pow_right (by decide) h)
  rw [BitVec.toNat_ofNat, Nat.mod_eq_of_lt hlt]

/-! ## The constant ROM window -/

/-- The address of limb j of ROM constant k (R73). -/
def romAddress (k j : Nat) : Nat := 0x001000 + k * 0x100 + 8 * j

theorem romAddress_mod_eight (k j : Nat) : romAddress k j % 8 = 0 := by
  unfold romAddress; omega

/-- The ROM window lies inside the 24-bit host window. -/
theorem toNat_ofNat_romAddress {k j : Nat} (hk : k < 6) (hj : j < 32) :
    (BitVec.ofNat 24 (romAddress k j)).toNat = romAddress k j := by
  have hlt : romAddress k j < 2 ^ 24 := by unfold romAddress; omega
  rw [BitVec.toNat_ofNat, Nat.mod_eq_of_lt hlt]

/-- The offset of a limb in the ROM window determines the constant and the limb, as N ≤ 32 limbs of 8 bytes fit 0x100. -/
theorem romTarget_offset {c : Config} {k j : Nat} (hn : c.n ≤ 32) (hk : k < 6) (hj : j < c.n) :
    romTarget c (k * 0x100 + 8 * j) = some (.rom k j) := by
  have hdiv : (k * 0x100 + 8 * j) / 0x100 = k := by omega
  have hlimb : (k * 0x100 + 8 * j) % 0x100 / 8 = j := by omega
  rw [romTarget, hdiv, hlimb, if_pos ⟨hk, hj⟩]

theorem targetOf_romAddress {c : Config} {k j : Nat} (hn : c.n ≤ 32) (hk : k < 6) (hj : j < c.n) :
    targetOf c (romAddress k j) = some (.rom k j) := by
  have hwindow : 0x001000 ≤ romAddress k j ∧ romAddress k j < 0x100000 := by unfold romAddress; omega
  have hoffset : romAddress k j - 0x001000 = k * 0x100 + 8 * j := by unfold romAddress; omega
  rw [targetOf, if_neg (by omega), if_neg (by omega), if_neg (by omega), if_neg (by omega), if_neg (by omega),
    if_pos hwindow, hoffset, romTarget_offset hn hk hj]

/-- A host read in the ROM window answers with the limb and changes nothing else (R73). -/
theorem step_read_rom {s : State} {rest : List HostEvent} {k j : Nat} (hw : s.cfg.wf = true)
    (hb : s.status.busy = false) (hk : k < 6) (hj : j < s.cfg.n)
    (hp : s.port = .access { addr := BitVec.ofNat 24 (romAddress k j), bytes := 8, kind := .read } :: rest) :
    step s = .next (({ s with port := rest } : State).respond
      (BitVec.ofNat 64 (limbOf s.cfg.w (s.cfg.rom k) j)) false) := by
  have hn := wf_n_le hw
  have haddr := toNat_ofNat_romAddress hk (hj.trans_le hn)
  rw [step_access_of_not_busy hw hb hp, perform_read rfl ?_ rfl ?_, hostRead_rom]
  · rw [haddr]; exact romAddress_mod_eight k j
  · rw [haddr]; exact targetOf_romAddress hn hk hj

/-- Settles O33: the address decodes to the constant and the limb because N ≤ 32, and the limb fits the host's word because
w ≤ 64; the constants are R49's by definition. -/
theorem romWindow : Obligations.RomWindow := by
  refine ⟨fun s rest k j hw hb hk hj hp => ?_, fun c => ⟨rfl, rfl, rfl, rfl, rfl, rfl⟩⟩
  exact ⟨_, step_read_rom hw hb hk hj hp, toNat_ofNat_limbOf (wf_w_le hw) (s.cfg.rom k) j⟩

end Sys2Proof.Proofs
end

section
/-! PROOFS. The obligations about the encoding of commands (30_encoding.md): which words the decoder rejects. -/

namespace Sys2Proof.Proofs

open Sys2Proof.Machine Sys2Proof.Laws

/-! ## The effect of a rejection by the decoder -/

/-- A word that does not decode is rejected with its error and has no other effect (R312). -/
theorem accept_of_decode_error {v : HostWord} {s : State} {e : CmdError} (hd : decode (v.setWidth 32) = .error e)
    (hs : s.status.err = false) : accept v s = .next (s.reject e) := by
  simp [accept, hs, hd]

/-- The opcode of a word written to CMD lies in the low half of the host's word (R48). -/
theorem opcode_setWidth (v : HostWord) : (v.setWidth 32).extractLsb' 24 8 = v.extractLsb' 24 8 := by
  ext k hk
  simp
  omega

/-! ## What the decoder reads from a word with the opcode of a row -/

/-- The opcode of a command's row (R106). -/
abbrev rowOpcode (i : Instr) : BitVec 8 := i.tableRow.2.extractLsb' 24 8

/-- No operand field has a bit under the mask. -/
abbrev ClearUnder (mask : CmdWord) (f : Fields) : Prop :=
  f.rd &&& mask.fields.rd = 0 ∧ f.rs1 &&& mask.fields.rs1 = 0 ∧ f.rs2 &&& mask.fields.rs2 = 0 ∧
    f.rs3 &&& mask.fields.rs3 = 0

/-- The fields of a CHAIN word with AUX = 0 and RD ≠ 0 (R108). -/
abbrev BreaksChainRule (f : Fields) : Prop :=
  (f.opc = 0x52 ∨ f.opc = 0x53) ∧ f.rs2.getLsbD 0 = false ∧ f.rd ≠ 0

/-- Bits 23:0 of a word are its operand fields (R101). -/
theorem fields_operandBits :
    CmdWord.fields 0x00FFFFFF#32 = ⟨0, .allOnes 6, .allOnes 6, .allOnes 6, .allOnes 6, .allOnes 12⟩ := by decide

theorem fields_zero : CmdWord.fields 0#32 = ⟨0, 0, 0, 0, 0, 0⟩ := by decide

/-- The operand bits of a word under a mask are 0 exactly when each field's are (R101). -/
theorem and_operandBits_eq_zero_iff (w mask : CmdWord) :
    w &&& (mask &&& 0x00FFFFFF#32) = 0 ↔ ClearUnder mask w.fields := by
  constructor
  · intro h
    have hf : CmdWord.fields (w &&& (mask &&& 0x00FFFFFF#32)) = CmdWord.fields 0#32 := congrArg _ h
    simp only [fields_and, fields_operandBits, fields_zero, BitVec.and_allOnes, Fields.mk.injEq] at hf
    obtain ⟨-, hd, h1, h2, h3, -⟩ := hf
    exact ⟨hd, h1, h2, h3⟩
  · rintro ⟨hd, h1, h2, h3⟩
    rw [← formatR_fields (w &&& _)]
    simp only [fields_and, fields_operandBits, BitVec.and_allOnes, hd, h1, h2, h3]
    simp [formatR]

/-- A command whose reserved fields are 0 is read, and its row with it (R108). -/
theorem map_tableRow_onlyIfZero (f : Fields) (reserved : List RegNum) (i : Instr) :
    Instr.tableRow <$> f.onlyIfZero reserved i =
      if ∀ r ∈ reserved, r = 0 then .ok i.tableRow else .error .reservedField := by
  simp only [Fields.onlyIfZero, List.all_eq_true, beq_iff_eq]
  split <;> rfl

/-- The mask 0x3F covers a whole field. -/
theorem and_sixBits (v : RegNum) : v &&& 0x3F#6 = v := BitVec.and_allOnes

/-- Bits 5:1 of a flags field are the bits under the mask 0x3E (R104). -/
theorem flagBits_eq_zero_iff (v : RegNum) : v.extractLsb' 1 5 = 0 ↔ v &&& 0x3E#6 = 0 := by
  revert v
  decide

/-- A CHAIN word is read when RS3 and bits 5:1 of RS2 are 0 and, with AUX = 0, RD too (R108). -/
theorem map_tableRow_chain (f : Fields) (mk : RegNum → RegNum → Bool → Instr) :
    Instr.tableRow <$> f.chain mk =
      if (f.rs2 &&& 0x3E#6 = 0 ∧ f.rs3 = 0) ∧ ¬ (f.rs2.getLsbD 0 = false ∧ f.rd ≠ 0) then
        .ok (mk f.rd f.rs1 (f.rs2.getLsbD 0)).tableRow
      else .error .reservedField := by
  simp only [Fields.chain, ← flagBits_eq_zero_iff, Bool.and_eq_true, Bool.or_eq_true, beq_iff_eq]
  split <;> split <;> simp_all

/-- From a word with a row's opcode the decoder reads a command of that row, unless a bit under the row's mask is set or the
CHAIN rule is broken, and then it answers RESERVED_FIELD (R106, R108). The row's literals are put in before the fields are cut
out of them: the kernel compares the fields of a mask that is not yet a literal bit by bit. -/
theorem map_tableRow_decodeFields {f : Fields} {i : Instr} (h : f.opc = rowOpcode i) :
    Instr.tableRow <$> decodeFields f =
      if ClearUnder i.tableRow.1 f ∧ ¬ BreaksChainRule f then .ok i.tableRow else .error .reservedField := by
  obtain ⟨opc, rd, rs1, rs2, rs3, imm⟩ := f
  subst h
  cases i with
  | chainA | chainB =>
    simp only [rowOpcode, Instr.tableRow]
    simp [decodeFields, Instr.tableRow, ClearUnder, CmdWord.fields, map_tableRow_chain, and_sixBits]
  | _ =>
    simp only [rowOpcode, Instr.tableRow]
    simp [decodeFields, Instr.tableRow, ClearUnder, CmdWord.fields, map_tableRow_onlyIfZero, and_sixBits]

/-- A function on the commands keeps the error of a word that does not decode. -/
theorem map_eq_error_iff {α : Type} (g : Instr → α) (r : Except CmdError Instr) (e : CmdError) :
    g <$> r = .error e ↔ r = .error e := by
  cases r <;> simp

/-! ## The opcodes of R107 -/

/-- R107's list meets none of the decoder's opcodes, so an opcode in it falls through to the last case. -/
theorem decodeFields_of_illegalOpcode {f : Fields} (h : illegalOpcode f.opc.toNat) :
    decodeFields f = .error .illegalOpcode := by
  unfold decodeFields
  split
  case h_52 => rfl
  all_goals
    next ho =>
      rw [ho] at h
      simp [illegalOpcode] at h

/-- Every opcode outside R107's list is that of the command which the decoder reads from it and zero operands (R106). -/
theorem decodeFields_of_legalOpcode :
    ∀ opc : BitVec 8, illegalOpcode opc.toNat ∨ rowOpcode <$> decodeFields ⟨opc, 0, 0, 0, 0, 0⟩ = .ok opc := by
  unfold illegalOpcode
  decide +kernel

theorem exists_row_of_not_illegalOpcode {opc : BitVec 8} (h : ¬ illegalOpcode opc.toNat) : ∃ i, rowOpcode i = opc := by
  have hd := (decodeFields_of_legalOpcode opc).resolve_left h
  rcases hi : decodeFields ⟨opc, 0, 0, 0, 0, 0⟩ with e | i <;> rw [hi] at hd
  · cases hd
  · exact ⟨i, Except.ok.inj hd⟩

/-- A word with the opcode of a row is never rejected for its opcode. -/
theorem decode_ne_illegalOpcode_of_row {w : CmdWord} {i : Instr} (h : rowOpcode i = w.extractLsb' 24 8) :
    decode w ≠ .error .illegalOpcode := by
  rw [Ne, ← map_eq_error_iff Instr.tableRow, decode, map_tableRow_decodeFields h.symm]
  split <;> simp

theorem illegalOpcode_iff_decode (w : CmdWord) :
    illegalOpcode (w.extractLsb' 24 8).toNat ↔ decode w = .error .illegalOpcode := by
  refine ⟨fun h => decodeFields_of_illegalOpcode h, fun hd => ?_⟩
  by_contra hl
  obtain ⟨i, hi⟩ := exists_row_of_not_illegalOpcode hl
  exact decode_ne_illegalOpcode_of_row hi hd

/-- Settles O4: outside R107's list every opcode has a row, from which the decoder never answers ILLEGAL_OPCODE. -/
theorem illegalOpcodes : Obligations.IllegalOpcodes := by
  refine ⟨illegalOpcode_iff_decode, fun v s h hs => ?_, fun w h => exists_row_of_not_illegalOpcode h⟩
  rw [← opcode_setWidth, illegalOpcode_iff_decode] at h
  exact accept_of_decode_error h hs

/-! ## The reserved fields of R108 -/

theorem decode_eq_reservedField_iff {w : CmdWord} {i : Instr} (h : w.extractLsb' 24 8 = rowOpcode i) :
    decode w = .error .reservedField ↔ ¬ ClearUnder i.tableRow.1 w.fields ∨ BreaksChainRule w.fields := by
  rw [← map_eq_error_iff Instr.tableRow, decode, map_tableRow_decodeFields h, ite_eq_right_iff]
  simp only [reduceCtorEq, imp_false]
  exact not_and_not_right.trans imp_iff_not_or

/-- AUX is bit 6 of the word (R101, R104). -/
theorem fields_rs2_getLsbD_zero (w : CmdWord) : w.fields.rs2.getLsbD 0 = w.getLsbD 6 := by
  simp [CmdWord.fields]

/-- Settles O5: the bits under the row's mask are those of its reserved fields, field by field. -/
theorem reservedFields : Obligations.ReservedFields := by
  refine ⟨fun w i h => ?_, fun v s hd hs => accept_of_decode_error hd hs⟩
  rw [decode_eq_reservedField_iff h, Ne, and_operandBits_eq_zero_iff, ← fields_rs2_getLsbD_zero]
  rfl

end Sys2Proof.Proofs
end

section
/-! PROOFS. The obligations about Montgomery reduction and the limb commands (40_limb.md). -/

namespace Sys2Proof.Proofs

open Sys2Proof.Machine Sys2Proof.Laws

variable {c : Config}

/-! ## What REDC answers -/

/-- A computation that completes from every record answers its value. -/
theorem answer_of_yields {α : Type} {m : Eng α} {ks : List OpKind} {v : α} (h : Yields m ks v) : m.answer = .ok v := by
  simp [Eng.answer, StateT.run'_eq, h [], Functor.map, Except.map]

/-- The q of R150 as the engine computes it, on natural numbers. -/
def redcQuotient (c : Config) (x : Nat) : Nat := (c.r - x % c.r) * c.pinv % c.r

theorem redcValue_eq_div (c : Config) (x : Nat) : redcValue c x = (x + redcQuotient c x * c.p) / c.r := rfl

theorem redcQuotient_lt (c : Config) (x : Nat) : redcQuotient c x < c.r := Nat.mod_lt _ (r_pos c)

/-- The engine's q is (−x·pinv) mod R (R150). -/
theorem redcQuotient_modEq (c : Config) (x : Nat) : (redcQuotient c x : Int) ≡ -(x : Int) * c.pinv [ZMOD c.r] := by
  have hneg : (c.r - x % c.r : Int) ≡ -x [ZMOD c.r] :=
    calc (c.r - x % c.r : Int) ≡ c.r - x [ZMOD c.r] := (Int.mod_modEq _ _).sub_left _
      _ ≡ 0 - x [ZMOD c.r] := (Int.modEq_zero_iff_dvd.2 dvd_rfl).sub_right _
      _ = -x := by ring
  have hcast : (redcQuotient c x : Int) = (c.r - x % c.r) * c.pinv % c.r := by
    push_cast [redcQuotient, Nat.cast_sub (Nat.mod_lt x (r_pos c)).le]
    rfl
  rw [hcast]
  exact (Int.mod_modEq _ _).trans (hneg.mul_right _)

/-- REDC breaks its bound from p·R on (R150). -/
theorem redc_answer_of_le {x : Nat} (h : c.p * c.r ≤ x) : (redc c x).answer = .error .redc := by
  have hbreaks : require .redc (x < c.p * c.r) = throw .redc := by simp [require, Nat.not_lt.2 h]
  unfold redc
  rw [hbreaks]
  rfl

/-- REDC's product with R is x modulo p (R151(b)). -/
theorem redcValue_mul_r_modEq (hw : c.wf = true) (x : Nat) : redcValue c x * c.r ≡ x [MOD c.p] := by
  rw [Nat.mul_comm, redc_exact hw]
  exact Nat.add_mul_mod_self_right x _ c.p

/-- Settles O37: with the engine's q the quotient of R150 is the value REDC returns, whose laws are R151's. -/
theorem redcFormula : Obligations.RedcFormula := by
  intro c x hw
  refine ⟨fun hx => ⟨redcQuotient c x, redcQuotient_lt c x, redcQuotient_modEq c x, ?_⟩, redc_answer_of_le⟩
  rw [← redcValue_eq_div]
  exact ⟨answer_of_yields (redc_yields hx), Dvd.intro _ (redc_exact hw x), redcValue_mul_r_modEq hw x, redcValue_lt hx⟩

/-! ## What a read returns after a write -/

section Registers

variable (l : Lane) (c) (i j : RegNum) (v : Nat)

@[simp] theorem rE_write_e_self : (l.write c (.e i) v).rE i = v := val_write_self l c (.e i) v

@[simp] theorem rE_write_e_of_ne {i j : RegNum} (h : i ≠ j) : (l.write c (.e i) v).rE j = l.rE j :=
  congrArg Reg.val (get_write_of_ne l (by simpa using h) c v)

@[simp] theorem rE_write_d : (l.write c (.d i) v).rE j = l.rE j :=
  congrArg Reg.val (get_write_of_ne l (by simp [selector]) c v)

@[simp] theorem rD_write_d_self : (l.write c (.d i) v).rD i = v := val_write_self l c (.d i) v

@[simp] theorem rD_write_d_of_ne {i j : RegNum} (h : selector (.d i) ≠ selector (.d j)) :
    (l.write c (.d i) v).rD j = l.rD j :=
  congrArg Reg.val (get_write_of_ne l h c v)

@[simp] theorem rD_write_e : (l.write c (.e i) v).rD j = l.rD j :=
  congrArg Reg.val (get_write_of_ne l (by simp [selector]) c v)

end Registers

/-! ## Commands that run the same in every lane -/

/-- A state with every lane changed by g. -/
def mapLanes (s : State) (g : Lane → Lane) : State := { s with lanes := s.lanes.map g }

@[simp] theorem mapLanes_cfg (s : State) (g : Lane → Lane) : (mapLanes s g).cfg = s.cfg := rfl

@[simp] theorem mapLanes_lanes (s : State) (g : Lane → Lane) : (mapLanes s g).lanes = s.lanes.map g := rfl

/-- A command whose rule gives the values of f in every lane writes them there and changes nothing else. -/
theorem next_of_yields {i : Instr} {s t : State} {ks : List OpKind} {f : Lane → List Nat} (hx : exec i s = .next t)
    (hw : s.cfg.wf = true) (ho : operandError s.cfg.skBits i = none)
    (h : ∀ l ∈ s.lanes, Yields ((ruleOf i).body s.cfg l) ks (f l)) :
    t = mapLanes s fun l => l.writeAll s.cfg ((writes i).zip (f l)) := by
  have hwrites := writes_of_outcome hw ho fun l hl => answer_of_yields (h l hl)
  exact Host.Outcome.next.inj (hx.symm.trans hwrites)

/-- A command outside CHAIN, SK_BIT and the commands with an overlap rule passes the checks of R110 when each operand
lies in its class. -/
theorem operandError_of_operands {i : Instr} {skBits : Nat} (hres : i.reservedNonzero = false)
    (himm : i.immOutOfRange skBits = false) (hover : i.overlaps = false)
    (h : ∀ o ∈ i.operands, o.misaligned = false ∧ o.outOfRange = false) : operandError skBits i = none := by
  have halign : i.operands.any Operand.misaligned = false := List.any_eq_false.2 fun o ho => by simp [h o ho]
  have hrange : i.operands.any Operand.outOfRange = false := List.any_eq_false.2 fun o ho => by simp [h o ho]
  simp [operandError, hres, halign, hrange, himm, hover]

theorem operandError_mpMul (skBits : Nat) {rd : RegNum} (h : rd.toNat < 4) (rs1 rs2 : RegNum) :
    operandError skBits (.mpMul rd rs1 rs2) = none :=
  operandError_of_operands rfl rfl rfl (by simp [Instr.operands, Operand.misaligned, Operand.outOfRange, h])

theorem operandError_mpRdc (skBits : Nat) (rd : RegNum) {rs1 : RegNum} (h : rs1.toNat < 4) :
    operandError skBits (.mpRdc rd rs1) = none :=
  operandError_of_operands rfl rfl rfl (by simp [Instr.operands, Operand.misaligned, Operand.outOfRange, h])

theorem operandError_fp2Mul (skBits : Nat) {rd rs1 rs2 : RegNum} (hd : rd.isQ = true) (h1 : rs1.isQ = true)
    (h2 : rs2.isQ = true) : operandError skBits (.fp2Mul rd rs1 rs2) = none := by
  simp only [RegNum.isQ, beq_iff_eq] at hd h1 h2
  exact operandError_of_operands rfl rfl rfl
    (by simp [Instr.operands, Operand.misaligned, Operand.outOfRange, hd, h1, h2])

/-- The body of a rule with one bound, which holds. -/
theorem yields_require_return {op : BoundOp} {b : Bool} (h : b = true) (vs : List Nat) :
    Yields (do require op b; return vs) [] vs :=
  (Yields.require h).bind_eq (Yields.pure vs) rfl

/-- The body of a rule that writes the parts of what one function gives. -/
theorem yields_return {α : Type} {m : Eng α} {ks : List OpKind} {v : α} (parts : α → List Nat) (h : Yields m ks v) :
    Yields (do let t ← m; return parts t) ks (parts v) :=
  h.bind_eq (Yields.pure (parts v)) rfl

/-- MP_ADD within its bound (R141). -/
def mpAddLane (c : Config) (rd rs1 rs2 : RegNum) (l : Lane) : Lane := l.write c (.e rd) (l.rE rs1 + l.rE rs2)

/-- MP_MUL (R143). -/
def mpMulLane (c : Config) (rd rs1 rs2 : RegNum) (l : Lane) : Lane := l.write c (.d rd) (l.rE rs1 * l.rE rs2)

/-- MP_DSUB within its bound (R145). -/
def mpDsubLane (c : Config) (rd rs1 rs2 : RegNum) (l : Lane) : Lane := l.write c (.d rd) (l.rD rs1 - l.rD rs2)

/-- MP_RDC within its bound (R152). -/
def mpRdcLane (c : Config) (rd rs1 : RegNum) (l : Lane) : Lane := l.write c (.e rd) (redcValue c (l.rD rs1))

/-- The value fp2mul returns (R205). -/
def fp2mulValue (c : Config) (a b : Fp2) : Fp2 where
  a0 := redcValue c (if a.a0 * b.a0 < a.a1 * b.a1 then a.a0 * b.a0 + c.p * c.r - a.a1 * b.a1
    else a.a0 * b.a0 - a.a1 * b.a1)
  a1 := redcValue c ((a.a0 + a.a1) * (b.a0 + b.a1) - a.a0 * b.a0 - a.a1 * b.a1)

theorem fp2mul_yields (hw : c.wf = true) {a b : Fp2} (ha : c.Working2 a) (hb : c.Working2 b) :
    Yields (fp2mul c a b) [.redc, .redc] (fp2mulValue c a b) := by
  obtain ⟨hcross, hreal⟩ := fp2mul_bounds hw ha hb
  exact (inBound_yields ha.1).bind_eq ((inBound_yields ha.2).bind_eq ((inBound_yields hb.1).bind_eq
    ((inBound_yields hb.2).bind_eq ((redc_yields hcross).bind_eq ((redc_yields hreal).bind_eq (Yields.pure _) rfl) rfl)
    rfl) rfl) rfl) rfl

/-! Each command of the law, whose operands pass the checks and whose bounds hold in every lane. -/

section Steps

variable {s t : State} {rd rs1 rs2 : RegNum}

theorem mpAdd_next (hx : exec (.mpAdd rd rs1 rs2) s = .next t) (hw : s.cfg.wf = true)
    (hsum : ∀ l ∈ s.lanes, l.rE rs1 + l.rE rs2 < s.cfg.r) : t = mapLanes s (mpAddLane s.cfg rd rs1 rs2) :=
  next_of_yields hx hw rfl (f := fun l => [l.rE rs1 + l.rE rs2])
    fun l hl => yields_require_return (decide_eq_true (hsum l hl)) _

theorem mpMul_next (hx : exec (.mpMul rd rs1 rs2) s = .next t) (hw : s.cfg.wf = true)
    (ho : operandError s.cfg.skBits (.mpMul rd rs1 rs2) = none) : t = mapLanes s (mpMulLane s.cfg rd rs1 rs2) :=
  next_of_yields hx hw ho (f := fun l => [l.rE rs1 * l.rE rs2]) fun _ _ => Yields.pure _

theorem mpDsub_next (hx : exec (.mpDsub rd rs1 rs2) s = .next t) (hw : s.cfg.wf = true)
    (ho : operandError s.cfg.skBits (.mpDsub rd rs1 rs2) = none) (hle : ∀ l ∈ s.lanes, l.rD rs2 ≤ l.rD rs1) :
    t = mapLanes s (mpDsubLane s.cfg rd rs1 rs2) :=
  next_of_yields hx hw ho (f := fun l => [l.rD rs1 - l.rD rs2])
    fun l hl => yields_require_return (decide_eq_true (hle l hl)) _

theorem mpRdc_next (hx : exec (.mpRdc rd rs1) s = .next t) (hw : s.cfg.wf = true)
    (ho : operandError s.cfg.skBits (.mpRdc rd rs1) = none) (hlt : ∀ l ∈ s.lanes, l.rD rs1 < s.cfg.p * s.cfg.r) :
    t = mapLanes s (mpRdcLane s.cfg rd rs1) :=
  next_of_yields hx hw ho (f := fun l => [redcValue s.cfg (l.rD rs1)])
    fun l hl => yields_return (fun v => [v]) (redc_yields (hlt l hl))

theorem fpMul_next (hx : exec (.fpMul rd rs1 rs2) s = .next t) (hw : s.cfg.wf = true)
    (hwork : ∀ l ∈ s.lanes, s.cfg.Working (l.rE rs1) ∧ s.cfg.Working (l.rE rs2)) :
    t = mapLanes s fun l => l.write s.cfg (.e rd) (redcValue s.cfg (l.rE rs1 * l.rE rs2)) :=
  next_of_yields hx hw rfl (f := fun l => [redcValue s.cfg (l.rE rs1 * l.rE rs2)])
    fun l hl => yields_return (fun v => [v]) (fpmul_yields hw (hwork l hl).1 (hwork l hl).2)

theorem fp2Mul_next (hx : exec (.fp2Mul rd rs1 rs2) s = .next t) (hw : s.cfg.wf = true)
    (ho : operandError s.cfg.skBits (.fp2Mul rd rs1 rs2) = none)
    (hwork : ∀ l ∈ s.lanes, s.cfg.Working2 (l.rQ rs1) ∧ s.cfg.Working2 (l.rQ rs2)) :
    t = mapLanes s fun l => l.writeAll s.cfg ((regsQ rd).zip (fp2mulValue s.cfg (l.rQ rs1) (l.rQ rs2)).parts) := by
  rw [← eRange_two]
  exact next_of_yields hx hw ho (f := fun l => (fp2mulValue s.cfg (l.rQ rs1) (l.rQ rs2)).parts)
    fun l hl => yields_return Fp2.parts (fp2mul_yields hw (hwork l hl).1 (hwork l hl).2)

end Steps

/-! ## The law -/

/-- The sums of working operands cannot overflow (R153). -/
theorem four_p_lt_r (hw : c.wf = true) : 4 * c.p < c.r := by
  have hr := wf_r hw
  have hp := p_pos hw
  omega

theorem add_lt_r (hw : c.wf = true) {a b : Nat} (ha : c.Working a) (hb : c.Working b) : a + b < c.r := by
  have hr := four_p_lt_r hw
  unfold Config.Working at ha hb
  omega

/-- MP_MUL d, a, b ; MP_RDC e, d leaves REDC of the product, and FP_MUL leaves it too. -/
theorem mpMul_mpRdc_eq_fpMul {s s1 s2 s3 : State} {d e a b : RegNum} (hw : s.cfg.wf = true) (hd : d.toNat < 4)
    (hwork : ∀ l ∈ s.lanes, s.cfg.Working (l.rE a) ∧ s.cfg.Working (l.rE b)) (h1 : exec (.mpMul d a b) s = .next s1)
    (h2 : exec (.mpRdc e d) s1 = .next s2) (h3 : exec (.fpMul e a b) s = .next s3) :
    s2.lanes.map (·.rE e) = s3.lanes.map (·.rE e) := by
  have hlt : ∀ l ∈ s.lanes, (mpMulLane s.cfg d a b l).rD d < s.cfg.p * s.cfg.r := fun l hl => by
    simpa [mpMulLane] using mul_lt hw (hwork l hl).1 (hwork l hl).2
  obtain rfl := mpMul_next h1 hw (operandError_mpMul _ hd a b)
  obtain rfl := mpRdc_next h2 hw (operandError_mpRdc _ e hd) (by simpa using hlt)
  obtain rfl := fpMul_next h3 hw hwork
  simp [mpRdcLane, mpMulLane]

/-- The product of two sums is at least the products of their parts (R145). -/
theorem mul_add_mul_le_mul_add (a0 a1 b0 b1 : Nat) : a0 * b0 + a1 * b1 ≤ (a0 + a1) * (b0 + b1) := by
  have h : (a0 + a1) * (b0 + b1) = a0 * b0 + a1 * b1 + (a0 * b1 + a1 * b0) := by ring
  omega

/-- A lane after the two sums and the three products of R153. -/
def productsLane (c : Config) (es et x a y b : RegNum) (l : Lane) : Lane :=
  mpMulLane c 2 a b (mpMulLane c 1 x y (mpMulLane c 0 es et (mpAddLane c et y b (mpAddLane c es x a l))))

section Sequence

variable {s s1 s2 s3 s4 s5 s6 s7 s8 : State} {es et ec x a y b : RegNum}

/-- The registers of the sums are none of the operands, so D0 holds the product of the sums, D1 and D2
those of the components. -/
theorem productsLane_rD (c : Config) (hs : es ∉ [x, a, y, b]) (ht : et ∉ [x, a, y, b, es]) (l : Lane) :
    (productsLane c es et x a y b l).rD 0 = (l.rE x + l.rE a) * (l.rE y + l.rE b) ∧
      (productsLane c es et x a y b l).rD 1 = l.rE x * l.rE y ∧
      (productsLane c es et x a y b l).rD 2 = l.rE a * l.rE b := by
  simp only [List.mem_cons, List.not_mem_nil, or_false, not_or] at hs ht
  simp [productsLane, mpMulLane, mpAddLane, selector, hs, ht]

/-- Neither sum overflows, so the first five commands of R153 complete in every lane. -/
theorem products_next (hw : s.cfg.wf = true) (hs : es ∉ [x, a, y, b])
    (hwork : ∀ l ∈ s.lanes, s.cfg.Working2 ⟨l.rE x, l.rE a⟩ ∧ s.cfg.Working2 ⟨l.rE y, l.rE b⟩)
    (h1 : exec (.mpAdd es x a) s = .next s1) (h2 : exec (.mpAdd et y b) s1 = .next s2)
    (h3 : exec (.mpMul 0 es et) s2 = .next s3) (h4 : exec (.mpMul 1 x y) s3 = .next s4)
    (h5 : exec (.mpMul 2 a b) s4 = .next s5) : s5 = mapLanes s (productsLane s.cfg es et x a y b) := by
  simp only [List.mem_cons, List.not_mem_nil, or_false, not_or] at hs
  obtain rfl := mpAdd_next h1 hw fun l hl => add_lt_r hw (hwork l hl).1.1 (hwork l hl).1.2
  obtain rfl := mpAdd_next h2 hw (by
    simpa [mpAddLane, hs] using fun l hl => add_lt_r hw (hwork l hl).2.1 (hwork l hl).2.2)
  obtain rfl := mpMul_next h3 hw rfl
  obtain rfl := mpMul_next h4 hw rfl
  obtain rfl := mpMul_next h5 hw rfl
  simp [mapLanes, productsLane]

/-- Neither difference is negative, so the last three commands of R153 leave REDC of what D0 exceeds
D1 and D2 by. -/
theorem reduction_next {g : Lane → Lane} (hw : s.cfg.wf = true) (h5 : s5 = mapLanes s g)
    (hle : ∀ l ∈ s.lanes, (g l).rD 1 + (g l).rD 2 ≤ (g l).rD 0)
    (hlt : ∀ l ∈ s.lanes, (g l).rD 0 - (g l).rD 1 - (g l).rD 2 < s.cfg.p * s.cfg.r)
    (h6 : exec (.mpDsub 0 0 1) s5 = .next s6) (h7 : exec (.mpDsub 0 0 2) s6 = .next s7)
    (h8 : exec (.mpRdc ec 0) s7 = .next s8) :
    s8.lanes.map (·.rE ec) = s.lanes.map fun l => redcValue s.cfg ((g l).rD 0 - (g l).rD 1 - (g l).rD 2) := by
  subst h5
  obtain rfl := mpDsub_next h6 hw rfl (by
    simpa using fun l hl => (Nat.le_add_right _ _).trans (hle l hl))
  obtain rfl := mpDsub_next h7 hw rfl (by
    simpa [mpDsubLane, selector] using fun l hl => Nat.le_sub_of_add_le' (hle l hl))
  obtain rfl := mpRdc_next h8 hw rfl (by simpa [mpDsubLane, selector] using hlt)
  simp [mpRdcLane, mpDsubLane, selector]

/-- The limb sequence of R153 leaves in e_c1 the component c1 of fp2mul's value, for both reduce the same integer. -/
theorem limbSequence_leaves_c1 (hw : s.cfg.wf = true) (hs : es ∉ [x, a, y, b]) (ht : et ∉ [x, a, y, b, es])
    (hwork : ∀ l ∈ s.lanes, s.cfg.Working2 ⟨l.rE x, l.rE a⟩ ∧ s.cfg.Working2 ⟨l.rE y, l.rE b⟩)
    (h5 : s5 = mapLanes s (productsLane s.cfg es et x a y b)) (h6 : exec (.mpDsub 0 0 1) s5 = .next s6)
    (h7 : exec (.mpDsub 0 0 2) s6 = .next s7) (h8 : exec (.mpRdc ec 0) s7 = .next s8) :
    s8.lanes.map (·.rE ec) = s.lanes.map fun l => (fp2mulValue s.cfg ⟨l.rE x, l.rE a⟩ ⟨l.rE y, l.rE b⟩).a1 := by
  have hd := productsLane_rD s.cfg hs ht
  rw [reduction_next hw h5 ?_ ?_ h6 h7 h8]
  · simp only [hd, fp2mulValue]
  · simp only [hd]
    exact fun l _ => mul_add_mul_le_mul_add _ _ _ _
  · simp only [hd]
    exact fun l hl => (fp2mul_bounds hw (hwork l hl).1 (hwork l hl).2).1

end Sequence

/-- Settles O39: both sides of each composition are REDC of one integer in every lane. -/
theorem compositionLaw : Obligations.CompositionLaw := by
  refine ⟨fun c hw => four_p_lt_r hw, fun s s1 s2 s3 d e a b hw hd hwork h1 h2 h3 =>
    mpMul_mpRdc_eq_fpMul hw hd hwork h1 h2 h3, ?_⟩
  rintro s s1 s2 s3 s4 s5 s6 s7 s8 s9 x y a b q es et ec hw hx hy hq hs ht rfl rfl hwork h1 h2 h3 h4 h5 h6 h7 h8 h9
  have hwork2 : ∀ l ∈ s.lanes, s.cfg.Working2 (l.rQ x) ∧ s.cfg.Working2 (l.rQ y) := fun l hl => by
    obtain ⟨hx0, hx1, hy0, hy1⟩ := hwork l hl
    exact ⟨⟨hx0, hx1⟩, ⟨hy0, hy1⟩⟩
  rw [limbSequence_leaves_c1 hw hs ht hwork2 (products_next hw hs hwork2 h1 h2 h3 h4 h5) h6 h7 h8]
  obtain rfl := fp2Mul_next h9 hw (operandError_fp2Mul _ hq hx hy) hwork2
  simp [regsQ, Fp2.parts, writeAll_cons, Lane.rQ]

end Sys2Proof.Proofs
end

section
/-! PROOFS. The obligations about the Fp functions (41_fp.md). The laws are those of the elements that the values represent:
a value is the element it represents times R. -/

namespace Sys2Proof.Proofs

open Sys2Proof.Machine Sys2Proof.Laws

variable {c : Config}

/-! ## Values and the elements they represent -/

theorem exists_answer_of_gives {α : Type} {m : Eng α} {P : α → Prop} (h : Gives m P) : ∃ v, m.answer = .ok v ∧ P v := by
  obtain ⟨v, ks, hv, hP⟩ := h
  exact ⟨v, answer_of_yields hv, hP⟩

/-- A value is the Montgomery form of the element it represents (R17). -/
theorem natCast_eq_elem_mul_r (hw : c.wf = true) (v : Nat) : (v : ZMod c.p) = c.elem v * (c.r : ZMod c.p) := by
  rw [Config.elem, mul_right_comm, mul_assoc, r_mul_inv hw, mul_one]

theorem elem_ne_zero (hw : c.wf = true) {a : Nat} (ha : a % c.p ≠ 0) : c.elem a ≠ 0 := by
  rw [← elem_zero, Ne, elem_eq_iff hw, Nat.zero_mod]
  exact ha

/-! ## Addition, subtraction, negation and halving -/

theorem fpadd_gives_modEq (hw : c.wf = true) {a b : Nat} (ha : c.Working a) (hb : c.Working b) :
    Gives (fpadd c a b) fun v => v ≡ a + b [MOD c.p] :=
  (fpadd_gives ha hb).mono fun v ⟨_, hv⟩ => (ZMod.natCast_eq_natCast_iff _ _ _).1 <| by
    rw [Nat.cast_add, natCast_eq_elem_mul_r hw v, natCast_eq_elem_mul_r hw a, natCast_eq_elem_mul_r hw b, hv, add_mul]

theorem fpsub_gives_modEq (hw : c.wf = true) {a b : Nat} (ha : c.Working a) (hb : c.Working b) :
    Gives (fpsub c a b) fun v => (v : Int) ≡ a - b [ZMOD c.p] :=
  (fpsub_gives ha hb).mono fun v ⟨_, hv⟩ => (ZMod.intCast_eq_intCast_iff _ _ _).1 <| by
    push_cast
    rw [natCast_eq_elem_mul_r hw v, natCast_eq_elem_mul_r hw a, natCast_eq_elem_mul_r hw b, hv, sub_mul]

theorem fpneg_gives_modEq (hw : c.wf = true) {a : Nat} (ha : c.Working a) :
    Gives (fpneg c a) fun v => (v : Int) ≡ -a [ZMOD c.p] :=
  (fpneg_gives ha).mono fun v ⟨_, hv⟩ => (ZMod.intCast_eq_intCast_iff _ _ _).1 <| by
    push_cast
    rw [natCast_eq_elem_mul_r hw v, natCast_eq_elem_mul_r hw a, hv, neg_mul]

theorem fpdiv2_gives_modEq (hw : c.wf = true) {a : Nat} (ha : c.Working a) :
    Gives (fpdiv2 c a) fun v => 2 * v ≡ a [MOD c.p] :=
  (fpdiv2_gives hw ha).mono fun v ⟨_, hv⟩ => (ZMod.natCast_eq_natCast_iff _ _ _).1 <| by
    rw [two_mul, Nat.cast_add, natCast_eq_elem_mul_r hw v, natCast_eq_elem_mul_r hw a, ← hv, add_mul]

/-- A value and its negative add to a multiple of p. -/
theorem fpadd_fpneg_answer (hw : c.wf = true) {a : Nat} (ha : c.Working a) :
    ∃ v u, (fpneg c a).answer = .ok v ∧ (fpadd c a v).answer = .ok u ∧ u ≡ 0 [MOD c.p] := by
  obtain ⟨v, hneg, hvw, hv⟩ := exists_answer_of_gives (fpneg_gives ha)
  obtain ⟨u, hadd, -, hu⟩ := exists_answer_of_gives (fpadd_gives ha hvw)
  refine ⟨v, u, hneg, hadd, (elem_eq_iff hw u 0).1 ?_⟩
  rw [hu, hv, add_neg_cancel, elem_zero]

/-! ## Multiplication and the domain conversions -/

theorem fpsqr_answer_eq_fpmul (hw : c.wf = true) {a : Nat} (ha : c.Working a) :
    (fpsqr c a).answer = (fpmul c a a).answer :=
  (answer_of_yields (fpsqr_yields hw ha)).trans (answer_of_yields (fpmul_yields hw ha ha)).symm

theorem tomont_gives (hw : c.wf = true) {a : Nat} (ha : c.Working a) :
    Gives (tomont c a) fun v => c.Working v ∧ c.elem v = (a : ZMod c.p) :=
  ⟨_, _, tomont_yields hw ha, redcValue_working (mul_lt hw ha (montR2_working hw)), tomont_elem hw a⟩

theorem tomont_gives_modEq (hw : c.wf = true) {a : Nat} (ha : c.Working a) :
    Gives (tomont c a) fun v => v ≡ a * c.r [MOD c.p] :=
  (tomont_gives hw ha).mono fun v ⟨_, hv⟩ => (ZMod.natCast_eq_natCast_iff _ _ _).1 <| by
    rw [Nat.cast_mul, natCast_eq_elem_mul_r hw v, hv]

theorem frommont_gives_modEq (hw : c.wf = true) {a : Nat} (ha : c.Working a) :
    Gives (frommont c a) fun v => v < c.p ∧ v * c.r ≡ a [MOD c.p] := by
  refine ⟨_, _, frommont_yields hw ha, Nat.mod_lt _ (p_pos hw), ?_⟩
  rw [← ZMod.natCast_eq_natCast_iff, Nat.cast_mul, frommont_cast hw, ← natCast_eq_elem_mul_r hw]

/-- frommont answers the canonical residue of any integer that is the element its operand represents (R171). -/
theorem frommont_answer_of_elem (hw : c.wf = true) {a m : Nat} (ha : c.Working a) (h : c.elem a = (m : ZMod c.p)) :
    (frommont c a).answer = .ok (m % c.p) := by
  have hm : redcValue c (a * 1) % c.p = m % c.p := by
    rw [← Nat.mod_mod]
    exact (ZMod.natCast_eq_natCast_iff' _ _ _).1 ((frommont_cast hw a).trans h)
  rw [answer_of_yields (frommont_yields hw ha), hm]

/-- Out of the Montgomery domain again, a canonical residue is what went in. -/
theorem frommont_tomont_answer (hw : c.wf = true) {a : Nat} (ha : c.Working a) (hlt : a < c.p) :
    ∃ v, (tomont c a).answer = .ok v ∧ (frommont c v).answer = .ok a := by
  obtain ⟨v, htomont, hvw, hv⟩ := exists_answer_of_gives (tomont_gives hw ha)
  refine ⟨v, htomont, ?_⟩
  rw [frommont_answer_of_elem hw hvw hv, Nat.mod_eq_of_lt hlt]

/-- The product in the Montgomery domain is the product of the residues. -/
theorem frommont_fpmul_tomont_answer (hw : c.wf = true) {a b : Nat} (ha : c.Working a) (hb : c.Working b) :
    ∃ x y v, (tomont c a).answer = .ok x ∧ (tomont c b).answer = .ok y ∧ (fpmul c x y).answer = .ok v ∧
      (frommont c v).answer = .ok (a * b % c.p) := by
  obtain ⟨x, hxa, hxw, hx⟩ := exists_answer_of_gives (tomont_gives hw ha)
  obtain ⟨y, hyb, hyw, hy⟩ := exists_answer_of_gives (tomont_gives hw hb)
  obtain ⟨v, hmul, hvw, hv⟩ := exists_answer_of_gives (fpmul_gives hw hxw hyw)
  refine ⟨x, y, v, hxa, hyb, hmul, frommont_answer_of_elem hw hvw ?_⟩
  rw [hv, hx, hy, Nat.cast_mul]

/-! ## Inversion -/

/-- With p prime, fpinv's power p − 2 is the inverse by Fermat's little theorem (R169). -/
theorem fpmul_fpinv_answer (hw : c.wf = true) (hprime : c.p.Prime) {a : Nat} (ha : c.Working a) (ha0 : a % c.p ≠ 0) :
    ∃ v u, (fpinv c a).answer = .ok v ∧ (fpmul c a v).answer = .ok u ∧ c.Working u ∧ c.elem u = 1 := by
  obtain ⟨v, hinv, hvw, hv⟩ := exists_answer_of_gives (fpinv_gives hw ha)
  obtain ⟨u, hmul, huw, hu⟩ := exists_answer_of_gives (fpmul_gives hw ha hvw)
  refine ⟨v, u, hinv, hmul, huw, ?_⟩
  have hexp : c.p - 2 + 1 = c.p - 1 := by
    have := hprime.two_le
    omega
  have : Fact c.p.Prime := ⟨hprime⟩
  calc c.elem u = c.elem a ^ (c.p - 1) := by rw [hu, hv, ← pow_succ', hexp]
    _ = 1 := ZMod.pow_card_sub_one_eq_one (elem_ne_zero hw ha0)

theorem fpmul_fpinv_laws (hw : c.wf = true) (hprime : c.p.Prime) {a : Nat} (ha : c.Working a) (ha0 : a % c.p ≠ 0) :
    ∃ v u, (fpinv c a).answer = .ok v ∧ (fpmul c a v).answer = .ok u ∧ u ≡ c.r [MOD c.p] ∧
      (frommont c u).answer = .ok 1 := by
  obtain ⟨v, u, hinv, hmul, huw, hu⟩ := fpmul_fpinv_answer hw hprime ha ha0
  refine ⟨v, u, hinv, hmul, ?_, ?_⟩
  · rw [← ZMod.natCast_eq_natCast_iff, natCast_eq_elem_mul_r hw, hu, one_mul]
  · rw [frommont_answer_of_elem hw huw (hu.trans Nat.cast_one.symm), Nat.mod_eq_of_lt hprime.one_lt]

/-- Settles O41: each law is the one of the represented elements, and only the inversion needs p prime. -/
theorem fpLaws : Obligations.FpLaws := by
  intro c a b hw ha hb
  exact ⟨exists_answer_of_gives (fpadd_gives_modEq hw ha hb), exists_answer_of_gives (fpsub_gives_modEq hw ha hb),
    exists_answer_of_gives (fpneg_gives_modEq hw ha), exists_answer_of_gives (fpdiv2_gives_modEq hw ha),
    answer_of_yields (fpcorr_yields ha),
    ⟨_, answer_of_yields (fpmul_yields hw ha hb), redcValue_mul_r_modEq hw (a * b)⟩,
    fpsqr_answer_eq_fpmul hw ha, exists_answer_of_gives (tomont_gives_modEq hw ha),
    exists_answer_of_gives (frommont_gives_modEq hw ha), fun hprime ha0 => fpmul_fpinv_laws hw hprime ha ha0,
    fun hlt => frommont_tomont_answer hw ha hlt, frommont_fpmul_tomont_answer hw ha hb, fpadd_fpneg_answer hw ha⟩

end Sys2Proof.Proofs
end

section
/-! PROOFS. The obligation about the Fp² functions (42_fp2.md). Each law is the one of the elements of GF(p²) that the values
represent; the inversion law rests on −1 not being a square modulo p, as p ≡ 3 (mod 4). -/

namespace Sys2Proof.Proofs

open Sys2Proof.Machine Sys2Proof.Laws

variable {c : Config}

/-! ## Pairs and the elements they represent -/

/-- Two pairs represent one element exactly when they are congruent component by component. -/
theorem elem2_eq_iff (hw : c.wf = true) (u v : Fp2) :
    c.elem2 u = c.elem2 v ↔ u.a0 ≡ v.a0 [MOD c.p] ∧ u.a1 ≡ v.a1 [MOD c.p] := by
  rw [QuadraticAlgebra.ext_iff]
  exact and_congr (elem_eq_iff hw u.a0 v.a0) (elem_eq_iff hw u.a1 v.a1)

/-- The pair (0, 0) represents 0. -/
@[simp] theorem elem2_zero : c.elem2 ⟨0, 0⟩ = 0 := QuadraticAlgebra.ext elem_zero elem_zero

theorem elem2_ne_zero (hw : c.wf = true) {a : Fp2} (ha : a.a0 % c.p ≠ 0 ∨ a.a1 % c.p ≠ 0) : c.elem2 a ≠ 0 := fun h =>
  ha.elim (fun h0 => elem_ne_zero hw h0 (congrArg QuadraticAlgebra.re h))
    fun h1 => elem_ne_zero hw h1 (congrArg QuadraticAlgebra.im h)

/-! ## The product and the square -/

theorem fp2mul_gives_modEq (hw : c.wf = true) {a b : Fp2} (ha : c.Working2 a) (hb : c.Working2 b) :
    Gives (fp2mul c a b) fun v => (v.a0 * c.r : Int) ≡ a.a0 * b.a0 - a.a1 * b.a1 [ZMOD c.p] ∧
      (v.a1 * c.r : Int) ≡ a.a0 * b.a1 + a.a1 * b.a0 [ZMOD c.p] := by
  refine Gives.mono (fp2mul_gives hw ha hb) fun v ⟨_, hv⟩ => ?_
  have hre : c.elem v.a0 = c.elem a.a0 * c.elem b.a0 - c.elem a.a1 * c.elem b.a1 := by
    simpa [Config.elem2, ← sub_eq_add_neg] using congrArg QuadraticAlgebra.re hv
  have him : c.elem v.a1 = c.elem a.a0 * c.elem b.a1 + c.elem a.a1 * c.elem b.a0 := by
    simpa [Config.elem2] using congrArg QuadraticAlgebra.im hv
  have hval := natCast_eq_elem_mul_r hw
  constructor
  · refine (ZMod.intCast_eq_intCast_iff _ _ _).1 ?_
    push_cast
    rw [hval v.a0, hval a.a0, hval a.a1, hval b.a0, hval b.a1, hre]
    ring
  · refine (ZMod.intCast_eq_intCast_iff _ _ _).1 ?_
    push_cast
    rw [hval v.a1, hval a.a0, hval a.a1, hval b.a0, hval b.a1, him]
    ring

theorem fp2corr_yields {a : Fp2} (ha : c.Working2 a) : Yields (fp2corr c a) [.corr, .corr] ⟨a.a0 % c.p, a.a1 % c.p⟩ :=
  lift1_yields (fpcorr_yields ha.1) (fpcorr_yields ha.2)

/-- Values that represent one element are the same after fp2corr (R207). -/
theorem fp2corr_answer_of_elem2_eq (hw : c.wf = true) {u v : Fp2} (hu : c.Working2 u) (hv : c.Working2 v)
    (h : c.elem2 u = c.elem2 v) : (fp2corr c u).answer = (fp2corr c v).answer := by
  obtain ⟨h0, h1⟩ := (elem2_eq_iff hw u v).1 h
  rw [answer_of_yields (fp2corr_yields hu), answer_of_yields (fp2corr_yields hv), h0, h1]

theorem fp2corr_fp2sqr_answer (hw : c.wf = true) {a : Fp2} (ha : c.Working2 a) :
    ∃ v u w, (fp2sqr c a).answer = .ok v ∧ (fp2mul c a a).answer = .ok u ∧ (fp2corr c v).answer = .ok w ∧
      (fp2corr c u).answer = .ok w := by
  obtain ⟨v, hsqr, hvw, hv⟩ := exists_answer_of_gives (fp2sqr_gives hw ha)
  obtain ⟨u, hmul, huw, hu⟩ := exists_answer_of_gives (fp2mul_gives hw ha ha)
  refine ⟨v, u, _, hsqr, hmul, answer_of_yields (fp2corr_yields hvw), ?_⟩
  rw [fp2corr_answer_of_elem2_eq hw huw hvw (hu.trans hv.symm), answer_of_yields (fp2corr_yields hvw)]

/-- The square of 1 + i is 2i: fp2sqr reduces 2·4p for its real part and answers p, fp2mul reduces 0 and answers 0 (C8). -/
theorem fp2sqr_answer_ne_fp2mul :
    (fp2sqr Config.toy431 ⟨1, 1⟩).answer ≠ (fp2mul Config.toy431 ⟨1, 1⟩ ⟨1, 1⟩).answer := by
  have hsqr : (fp2sqr Config.toy431 ⟨1, 1⟩).answer = .ok ⟨431, 36⟩ := by decide +kernel
  have hmul : (fp2mul Config.toy431 ⟨1, 1⟩ ⟨1, 1⟩).answer = .ok ⟨0, 36⟩ := by decide +kernel
  rw [hsqr, hmul]
  decide

/-! ## The domain conversions -/

/-- The residue that frommont computes is that of any integer that is the element its operand represents (R171). -/
theorem frommont_residue_of_elem (hw : c.wf = true) {x : Nat} {m : Int} (hx : c.elem x = m) :
    ((redcValue c (x * 1) % c.p : Nat) : Int) = m % c.p := by
  have hcast : (((redcValue c (x * 1) % c.p : Nat) : Int) : ZMod c.p) = m := by
    rw [Int.cast_natCast, frommont_cast hw, hx]
  have hmod := (ZMod.intCast_eq_intCast_iff' _ _ _).1 hcast
  rwa [← Int.natCast_mod, Nat.mod_mod] at hmod

/-- fp2frommont answers the canonical residues of any integers that are the components its operand represents (R210). -/
theorem fp2frommont_answer_of_elem2 (hw : c.wf = true) {v : Fp2} (hv : c.Working2 v) {m0 m1 : Int}
    (h : c.elem2 v = ⟨(m0 : ZMod c.p), (m1 : ZMod c.p)⟩) :
    ∃ w, (fp2frommont c v).answer = .ok w ∧ (w.a0 : Int) = m0 % c.p ∧ (w.a1 : Int) = m1 % c.p :=
  ⟨_, answer_of_yields (lift1_yields (frommont_yields hw hv.1) (frommont_yields hw hv.2)),
    frommont_residue_of_elem hw (congrArg QuadraticAlgebra.re h), frommont_residue_of_elem hw (congrArg QuadraticAlgebra.im h)⟩

/-- Out of the Montgomery domain again, canonical residues are what went in. -/
theorem fp2frommont_fp2tomont_answer (hw : c.wf = true) {a : Fp2} (ha : c.Working2 a) (h0 : a.a0 < c.p) (h1 : a.a1 < c.p) :
    ∃ v, (fp2tomont c a).answer = .ok v ∧ (fp2frommont c v).answer = .ok a := by
  obtain ⟨v, htomont, hvw, hv⟩ := exists_answer_of_gives (fp2tomont_gives hw ha)
  obtain ⟨w, hfrommont, hw0, hw1⟩ := fp2frommont_answer_of_elem2 hw hvw (m0 := a.a0) (m1 := a.a1) (by simpa using hv)
  have hwa : w = a := by
    rw [← Int.natCast_mod, Nat.mod_eq_of_lt h0, Nat.cast_inj] at hw0
    rw [← Int.natCast_mod, Nat.mod_eq_of_lt h1, Nat.cast_inj] at hw1
    exact congrArg₂ Fp2.mk hw0 hw1
  exact ⟨v, htomont, hwa ▸ hfrommont⟩

/-- The product in the Montgomery domain is the product of the pairs of residues. -/
theorem fp2frommont_fp2mul_fp2tomont_answer (hw : c.wf = true) {a b : Fp2} (ha : c.Working2 a) (hb : c.Working2 b) :
    ∃ x y v w, (fp2tomont c a).answer = .ok x ∧ (fp2tomont c b).answer = .ok y ∧ (fp2mul c x y).answer = .ok v ∧
      (fp2frommont c v).answer = .ok w ∧ (w.a0 : Int) = (a.a0 * b.a0 - a.a1 * b.a1 : Int) % c.p ∧
      (w.a1 : Int) = (a.a0 * b.a1 + a.a1 * b.a0 : Int) % c.p := by
  obtain ⟨x, hxa, hxw, hx⟩ := exists_answer_of_gives (fp2tomont_gives hw ha)
  obtain ⟨y, hyb, hyw, hy⟩ := exists_answer_of_gives (fp2tomont_gives hw hb)
  obtain ⟨v, hmul, hvw, hv⟩ := exists_answer_of_gives (fp2mul_gives hw hxw hyw)
  obtain ⟨w, hfrommont, hresidues⟩ := fp2frommont_answer_of_elem2 hw hvw
    (m0 := a.a0 * b.a0 - a.a1 * b.a1) (m1 := a.a0 * b.a1 + a.a1 * b.a0) (by
      rw [hv, hx, hy]
      ext <;> simp [sub_eq_add_neg])
  exact ⟨x, y, v, w, hxa, hyb, hmul, hfrommont, hresidues⟩

/-! ## Inversion and negation -/

/-- With p prime the norm of a nonzero element is not 0, because −1 is not a square modulo p ≡ 3 (mod 4). -/
theorem gf2Norm_ne_zero (hw : c.wf = true) (hprime : c.p.Prime) {z : c.GF2} (hz : z ≠ 0) :
    z.re * z.re + z.im * z.im ≠ 0 := by
  intro hnorm
  have : Fact c.p.Prime := ⟨hprime⟩
  have hsq : z.re ^ 2 = -z.im ^ 2 := by
    rw [sq, sq]
    exact eq_neg_of_add_eq_zero_left hnorm
  have hmod := (p_mod_four hw).1
  have hre : z.re = 0 := by
    by_contra hne
    exact ZMod.mod_four_ne_three_of_sq_eq_neg_sq hne hsq hmod
  have him : z.im = 0 := by
    by_contra hne
    exact ZMod.mod_four_ne_three_of_sq_eq_neg_sq' hne hsq hmod
  exact hz (QuadraticAlgebra.ext hre him)

/-- With p prime, the conjugate over the norm is the inverse of a nonzero element (R208). -/
theorem mul_inv2 (hw : c.wf = true) (hprime : c.p.Prime) {z : c.GF2} (hz : z ≠ 0) : z * c.inv2 z = 1 := by
  have : Fact c.p.Prime := ⟨hprime⟩
  have hexp : c.p - 2 + 1 = c.p - 1 := by
    have := hprime.two_le
    omega
  have hfermat : (z.re * z.re + z.im * z.im) * (z.re * z.re + z.im * z.im) ^ (c.p - 2) = 1 := by
    rw [← pow_succ', hexp]
    exact ZMod.pow_card_sub_one_eq_one (gf2Norm_ne_zero hw hprime hz)
  ext
  · refine Eq.trans ?_ hfermat
    simp only [Config.inv2, QuadraticAlgebra.re_mul]
    ring
  · simp only [Config.inv2, QuadraticAlgebra.im_mul, QuadraticAlgebra.im_one]
    ring

theorem fp2mul_fp2inv_answer (hw : c.wf = true) (hprime : c.p.Prime) {a : Fp2} (ha : c.Working2 a)
    (ha0 : a.a0 % c.p ≠ 0 ∨ a.a1 % c.p ≠ 0) :
    ∃ v u, (fp2inv c a).answer = .ok v ∧ (fp2mul c a v).answer = .ok u ∧ u.a0 ≡ c.montOne [MOD c.p] ∧
      u.a1 ≡ 0 [MOD c.p] := by
  obtain ⟨v, hinv, hvw, hv⟩ := exists_answer_of_gives (fp2inv_gives hw ha)
  obtain ⟨u, hmul, -, hu⟩ := exists_answer_of_gives (fp2mul_gives hw ha hvw)
  refine ⟨v, u, hinv, hmul, (elem2_eq_iff hw u c.one2).1 ?_⟩
  rw [hu, hv, mul_inv2 hw hprime (elem2_ne_zero hw ha0), elem2_one2 hw]

/-- A pair and its negative add to multiples of p. -/
theorem fp2add_fp2neg_answer (hw : c.wf = true) {a : Fp2} (ha : c.Working2 a) :
    ∃ v u, (fp2neg c a).answer = .ok v ∧ (fp2add c a v).answer = .ok u ∧ u.a0 ≡ 0 [MOD c.p] ∧ u.a1 ≡ 0 [MOD c.p] := by
  obtain ⟨v, hneg, hvw, hv⟩ := exists_answer_of_gives (fp2neg_gives ha)
  obtain ⟨u, hadd, -, hu⟩ := exists_answer_of_gives (fp2add_gives ha hvw)
  refine ⟨v, u, hneg, hadd, (elem2_eq_iff hw u ⟨0, 0⟩).1 ?_⟩
  rw [hu, hv, add_neg_cancel, elem2_zero]

/-- Settles O42: each law is the one of GF(p²), and fp2sqr and fp2mul answer different representatives of (1 + i)². -/
theorem fp2Laws : Obligations.Fp2Laws := by
  refine ⟨fun c a b hw ha hb => ?_, Config.toy431, ⟨1, 1⟩, by decide +kernel, ?_, fp2sqr_answer_ne_fp2mul⟩
  · exact ⟨exists_answer_of_gives (fp2mul_gives_modEq hw ha hb), fp2corr_fp2sqr_answer hw ha,
      fun _ _ _ _ => fp2frommont_fp2mul_fp2tomont_answer hw ha hb, fun hprime ha0 => fp2mul_fp2inv_answer hw hprime ha ha0,
      fun h0 h1 => fp2frommont_fp2tomont_answer hw ha h0 h1, fp2add_fp2neg_answer hw ha⟩
  · constructor <;> (unfold Config.Working; decide)

end Sys2Proof.Proofs
end

section
/-! PROOFS. The obligations about the encoding of commands (30_encoding.md): decoding and encoding undo each other, the
decoder agrees with the masks of the opcode table, and the ordered operand checks are the well-formedness of the command. -/

namespace Sys2Proof.Proofs

open Sys2Proof.Machine Sys2Proof.Laws

/-! ## The operand checks of R110 -/

/-- No check of R110 on operand values fails exactly when each of them passes. -/
theorem operandError_eq_none_iff (skBits : Nat) (i : Instr) :
    operandError skBits i = none ↔ i.reservedNonzero = false ∧ i.operands.any Operand.misaligned = false ∧
      (i.operands.any Operand.outOfRange = false ∧ i.immOutOfRange skBits = false) ∧ i.overlaps = false := by
  unfold operandError
  cases i.reservedNonzero <;> cases i.operands.any Operand.misaligned <;> cases i.operands.any Operand.outOfRange <;>
    cases i.immOutOfRange skBits <;> cases i.overlaps <;> simp

/-- The checks on the aux points of a CHAIN command are those of class X (R104, R292). -/
theorem isX_iff (aux : Bool) (v : RegNum) :
    v.isX aux = true ↔ (!aux && v != 0) = false ∧ v.toNat % 4 = 0 ∧ (aux && 52 < v.toNat) = false ∧
      (aux && 48 < v.toNat + 12) = false := by
  cases aux
  · have h : v.toNat = 0 ↔ v = 0#6 := BitVec.toNat_inj (y := 0#6)
    simp only [RegNum.isX, Bool.false_eq_true, if_false, beq_iff_eq, Bool.not_false, Bool.true_and, bne_eq_false_iff_eq,
      Bool.false_and, and_true, BitVec.ofNat_eq_ofNat, ← h]
    omega
  · simp [RegNum.isX, RegNum.isP]
    omega

/-- Settles O6: operand by operand the checks of R110 are the classes of R104. -/
theorem operandCheckIsWellFormed : Obligations.OperandCheckIsWellFormed := by
  intro skBits i
  rw [operandError_eq_none_iff]
  cases i with
  | chainA rd rs1 aux | chainB rd rs1 aux =>
    simp only [Instr.wellFormed, Bool.and_eq_true, isX_iff, Instr.reservedNonzero, Instr.operands, Instr.immOutOfRange,
      Instr.overlaps, RegNum.isP, List.any_cons, List.any_nil, Operand.misaligned, Operand.outOfRange]
    simp
    tauto
  | _ =>
    simp [Instr.wellFormed, Instr.reservedNonzero, Instr.operands, Instr.immOutOfRange, Instr.overlaps, RegNum.isQ,
      RegNum.isP, RegNum.isD, RegNum.isK, Operand.misaligned, Operand.outOfRange, and_assoc]

/-! ## The two round trips -/

theorem forall_of_onlyIfZero {f : Fields} {reserved : List RegNum} {i : Instr} {P : Instr → Prop} :
    (∀ j, f.onlyIfZero reserved i = .ok j → P j) ↔ ((∀ r ∈ reserved, r = 0) → P i) := by
  simp only [Fields.onlyIfZero, List.all_eq_true, beq_iff_eq]
  split
  · next h => exact ⟨fun hP _ => hP i rfl, fun hP j e => Except.ok.inj e ▸ hP h⟩
  · next h => exact ⟨fun _ h' => absurd h' h, fun _ j e => nomatch e⟩

/-- AUX is all that a class-F field with 0 in bits 5:1 holds (R104). -/
theorem flagBits_eq_zero_iff_eq_flagField : ∀ v : RegNum, v.extractLsb' 1 5 = 0 ↔ v = flagField (v.getLsbD 0) := by
  decide

/-- A CHAIN command is read from its opcode, AUX in bit 0 of RS2, and 0 in every reserved bit (R108). -/
theorem forall_of_chain {f : Fields} {mk : RegNum → RegNum → Bool → Instr} {P : Instr → Prop} :
    (∀ j, f.chain mk = .ok j → P j) ↔ (f.rs3 = 0 → f.rs2 = flagField (f.rs2.getLsbD 0) →
      (f.rs2.getLsbD 0 = true ∨ f.rd = 0) → P (mk f.rd f.rs1 (f.rs2.getLsbD 0))) := by
  simp only [Fields.chain, ← flagBits_eq_zero_iff_eq_flagField, Bool.and_eq_true, Bool.or_eq_true, beq_iff_eq]
  split
  · next h => exact ⟨fun hP _ _ _ => hP _ rfl, fun hP j e => Except.ok.inj e ▸ hP h.1.1 h.1.2 h.2⟩
  · next h => exact ⟨fun _ h3 h2 hd => absurd ⟨⟨h3, h2⟩, hd⟩ h, fun _ j e => nomatch e⟩

@[simp] theorem flagField_getElem_zero (aux : Bool) : (flagField aux)[0] = aux := by
  cases aux <;> rfl

@[simp] theorem flagField_extractLsb'_one (aux : Bool) : (flagField aux).extractLsb' 1 5 = 0 := by
  cases aux <;> rfl

/-- A CHAIN command without aux points has RD = 0 (R292). -/
theorem rd_eq_zero_of_isX {aux : Bool} {rd : RegNum} (h : rd.isX aux = true) (ha : aux = false) : rd = 0 := by
  subst ha
  exact BitVec.eq_of_toNat_eq (by simpa [RegNum.isX] using h)

/-- The decoder reads a well-formed command from its word; only the CHAIN commands need well-formedness, for RD. -/
theorem decode_encode {skBits : Nat} {i : Instr} (h : i.wellFormed skBits = true) : decode (encode i) = .ok i := by
  cases i with
  | chainA rd rs1 aux | chainB rd rs1 aux =>
    simp only [Instr.wellFormed, Bool.and_eq_true] at h
    simpa [decode, encode, fields_formatR, decodeFields, Fields.chain] using rd_eq_zero_of_isX h.1
  | _ => simp [decode, encode, fields_formatR, fields_formatI, decodeFields, Fields.onlyIfZero]

/-- Settles O1: the word of a well-formed command has 0 in its reserved fields, so the decoder reads it back, and the
operand checks are its well-formedness. -/
theorem decodeEncodeRoundTrip : Obligations.DecodeEncodeRoundTrip := by
  intro skBits i h
  refine ⟨decode_encode h, ?_⟩
  simp [commandError, decode_encode h, (operandCheckIsWellFormed skBits i).2 h]

/-- The word of the command that the decoder reads from some fields has those fields: what the command does not hold is
reserved and 0. -/
theorem encode_of_decodeFields {opc : BitVec 8} {rd rs1 rs2 rs3 : RegNum} {row : Instr} (h : opc = rowOpcode row) :
    ∀ i, decodeFields ⟨opc, rd, rs1, rs2, rs3, rs2 ++ rs3⟩ = .ok i → encode i = formatR opc rd rs1 rs2 rs3 := by
  have hI : ∀ opc rs1, formatI opc rd rs1 (rs2 ++ rs3) = formatR opc rd rs1 rs2 rs3 := fun opc rs1 => by
    rw [formatI_eq, BitVec.extractLsb'_append_eq_left, BitVec.extractLsb'_append_eq_right]
  subst h
  cases row <;> simp only [rowOpcode, Instr.tableRow] <;>
    simp [decodeFields, forall_of_onlyIfZero, forall_of_chain]
  case chainA | chainB =>
    intro h3 h2 _
    rw [encode, ← h2, h3]
    rfl
  case xDble | xTple => exact hI _ _
  case skBit =>
    rintro rfl
    exact hI _ _
  all_goals
    intros
    subst_vars
    rfl

/-- An accepted opcode is that of a row (R107). -/
theorem exists_row_of_decode {w : CmdWord} {i : Instr} (h : decode w = .ok i) : ∃ row, w.fields.opc = rowOpcode row := by
  have hlegal : ¬ illegalOpcode w.fields.opc.toNat := fun hill => by
    rw [(illegalOpcode_iff_decode w).1 hill] at h
    cases h
  obtain ⟨row, hrow⟩ := exists_row_of_not_illegalOpcode hlegal
  exact ⟨row, hrow.symm⟩

/-- Settles O2: the decoder reads a command from a word's fields, which are those of the command's word. -/
theorem encodeDecodeRoundTrip : Obligations.EncodeDecodeRoundTrip := by
  intro w i h
  have himm : w.fields = ⟨w.fields.opc, w.fields.rd, w.fields.rs1, w.fields.rs2, w.fields.rs3,
      w.fields.rs2 ++ w.fields.rs3⟩ := by
    conv_lhs => rw [← formatR_fields w, fields_formatR]
  obtain ⟨row, hrow⟩ := exists_row_of_decode h
  rw [decode, himm] at h
  rw [encode_of_decodeFields hrow i h, formatR_fields]

/-! ## The masks of the opcode table -/

/-- A row's mask covers the opcode, and its match is 0 in every operand field (R106). -/
theorem tableRow_fields (i : Instr) :
    i.tableRow.1.fields.opc = .allOnes 8 ∧ i.tableRow.2 = formatR (rowOpcode i) 0 0 0 0 := by
  cases i <;> simp only [rowOpcode, Instr.tableRow] <;> decide

/-- A word matches a row when it has the row's opcode and no bit in a reserved field. -/
theorem and_mask_eq_iff (w : CmdWord) (i : Instr) :
    w &&& i.tableRow.1 = i.tableRow.2 ↔ w.fields.opc = rowOpcode i ∧ ClearUnder i.tableRow.1 w.fields := by
  obtain ⟨hmask, hrow⟩ := tableRow_fields i
  rw [hrow]
  constructor
  · intro h
    have hf := congrArg CmdWord.fields h
    simp only [fields_and, fields_formatR, hmask, BitVec.and_allOnes, Fields.mk.injEq] at hf
    obtain ⟨hopc, hd, h1, h2, h3, -⟩ := hf
    exact ⟨hopc, hd, h1, h2, h3⟩
  · rintro ⟨hopc, hd, h1, h2, h3⟩
    rw [← formatR_fields (w &&& _)]
    simp only [fields_and, hmask, BitVec.and_allOnes, hopc, hd, h1, h2, h3]

/-- A word that decodes has the opcode of its command's row and 0 in its reserved fields. -/
theorem and_mask_of_decode {w : CmdWord} {i : Instr} (h : decode w = .ok i) : w &&& i.tableRow.1 = i.tableRow.2 := by
  obtain ⟨row, hopc⟩ := exists_row_of_decode h
  have hmap := map_tableRow_decodeFields hopc
  rw [show decodeFields w.fields = .ok i from h] at hmap
  split at hmap
  · next hclear =>
    have hrow : i.tableRow = row.tableRow := Except.ok.inj hmap
    rw [hrow, and_mask_eq_iff]
    exact ⟨hopc, hclear.1⟩
  · cases hmap

/-- Settles O3: the decoder rejects a word with the opcode of a row for a bit under the mask and by the CHAIN rule only. -/
theorem decodeMatchesTable : Obligations.DecodeMatchesTable := by
  refine ⟨fun w i h => and_mask_of_decode h, fun w i h => ?_⟩
  obtain ⟨hopc, hclear⟩ := (and_mask_eq_iff w i).1 h
  have hmap := map_tableRow_decodeFields hopc
  by_cases hchain : BreaksChainRule w.fields
  · rw [if_neg fun h => h.2 hchain, map_eq_error_iff] at hmap
    obtain ⟨hop, haux, hrd⟩ := hchain
    refine .inr ⟨hmap, ?_, (fields_rs2_getLsbD_zero w).symm.trans haux, hrd⟩
    rw [(tableRow_fields i).2, ← hopc]
    exact hop.imp (fun e => by rw [e]; decide) fun e => by rw [e]; decide
  · rw [if_pos ⟨hclear, hchain⟩] at hmap
    cases hj : decodeFields w.fields with
    | error e => rw [hj] at hmap; cases hmap
    | ok j => rw [hj] at hmap; exact .inl ⟨j, hj, Except.ok.inj hmap⟩

/-! ## Words written out -/

/-- Settles O7: each word is evaluated by the decoder and each code by the checks of R110. -/
theorem decodeSanity : Obligations.DecodeSanity := by
  unfold Obligations.DecodeSanity
  decide +kernel

end Sys2Proof.Proofs
end

section
/-! PROOFS. The obligations about one step of the engine (20_memory.md section 5, 60_exceptions.md sections 1 and 2,
70_reset_and_hazards.md): what a command, an access and a step can do is said once, by `exec_next_cases`, `Performed` and
`Stepped`, and every obligation goes through their cases. -/

namespace Sys2Proof.Proofs

open Sys2Proof.Machine Sys2Proof.Laws

/-! ## Taking a command -/

section Commands

variable {s t : State} {i : Instr} {v : HostWord} {e : CmdError}

theorem exec_of_operandError (hw : s.cfg.wf = true) (he : operandError s.cfg.skBits i = some e) :
    exec i s = .next (s.reject e) := by
  simp [exec_eq, runCommand, hw, he]

theorem exec_of_operands (hw : s.cfg.wf = true) (ho : operandError s.cfg.skBits i = none) :
    exec i s = .next (s.runLanes (ruleOf i)) := by
  simp [exec_eq, runCommand, hw, ho]

theorem exec_of_not_wf (hw : s.cfg.wf = false) (i : Instr) : exec i s = .refused .configNotWellFormed := by
  simp [exec_eq, runCommand, hw]

/-- Everything a command that answers a next state can have done (R310, R312). -/
theorem exec_next_cases (h : exec i s = .next t) :
    s.cfg.wf = true ∧ ((∃ e, operandError s.cfg.skBits i = some e ∧ t = s.reject e) ∨
      (operandError s.cfg.skBits i = none ∧ t = s.runLanes (ruleOf i))) := by
  obtain ⟨-, hx⟩ | ⟨hw, e, he, hx⟩ | ⟨hw, ho, hx⟩ := exec_cases i s <;> rw [hx] at h
  · cases h
  · exact ⟨hw, .inl ⟨e, he, (Host.Outcome.next.inj h).symm⟩⟩
  · exact ⟨hw, .inr ⟨ho, (Host.Outcome.next.inj h).symm⟩⟩

/-- With ERR = 1 a command word is discarded (R314). -/
theorem accept_of_err (h : s.status.err = true) : accept v s = .next s := by
  simp [accept, h]

/-- A command word that decodes runs its command (R310). -/
theorem accept_of_exec (herr : s.status.err = false) (hd : decode (v.setWidth 32) = .ok i) (hx : exec i s = .next t) :
    accept v s = .next (t.afterCommand (v.setWidth 32)) := by
  simp [accept, herr, hd, hx]

theorem afterCommand_of_err (h : s.status.err = true) (w : CmdWord) : s.afterCommand w = s := by
  simp [State.afterCommand, h]

theorem afterCommand_of_not_err (h : s.status.err = false) (w : CmdWord) : s.afterCommand w = s.startBusy w := by
  simp [State.afterCommand, h]

/-- A rejected command word sets ERR and ERRCODE (R312). -/
theorem accept_of_commandError (hw : s.cfg.wf = true) (herr : s.status.err = false)
    (h : commandError s.cfg.skBits (v.setWidth 32) = some e) : accept v s = .next (s.reject e) := by
  unfold commandError at h
  cases hd : decode (v.setWidth 32) with
  | error e' =>
    rw [hd] at h
    obtain rfl := Option.some.inj h
    exact accept_of_decode_error hd herr
  | ok i =>
    rw [hd] at h
    rw [accept_of_exec herr hd (exec_of_operandError hw h), afterCommand_of_err (reject_err s e)]

/-- An accepted command word runs its rule in every lane and leaves the engine busy (R310, R311). -/
theorem accept_of_accepted (hw : s.cfg.wf = true) (herr : s.status.err = false) (hd : decode (v.setWidth 32) = .ok i)
    (ho : operandError s.cfg.skBits i = none) :
    accept v s = .next ((s.runLanes (ruleOf i)).startBusy (v.setWidth 32)) := by
  rw [accept_of_exec herr hd (exec_of_operands hw ho), afterCommand_of_not_err (s := s.runLanes _) herr]

theorem commandError_of_decode {skBits : Nat} {w : CmdWord} (hd : decode w = .ok i) :
    commandError skBits w = operandError skBits i := by
  simp [commandError, hd]

/-- A command word that no check rejects is that of a command that passes its operand checks. -/
theorem exists_decode_of_commandError {skBits : Nat} {w : CmdWord} (h : commandError skBits w = none) :
    ∃ i, decode w = .ok i ∧ operandError skBits i = none := by
  unfold commandError at h
  cases hd : decode w with
  | error e => rw [hd] at h; cases h
  | ok i => rw [hd] at h; exact ⟨i, rfl, h⟩

end Commands

/-! ## One access -/

/-- What performing an access can do to the state, case by case (R48, R76 to R78, R310 to R315). -/
inductive Performed (a : Access) (s : State) : State → Prop
  | busError (h : badAccess s.cfg a) : Performed a s s.busError
  | read {t : Target} (hk : a.kind = .read) (ht : targetOf s.cfg a.addr.toNat = some t) : Performed a s (s.hostRead t)
  | status {u : HostWord} (hk : a.kind = .write u) (ht : targetOf s.cfg a.addr.toNat = some .status) :
      Performed a s ((s.writeStatus u).respond 0 false)
  | register {u : HostWord} {lane j : Nat} {name : RegName} (hk : a.kind = .write u)
      (ht : targetOf s.cfg a.addr.toNat = some (.reg lane name j)) :
      Performed a s ((s.writeRegister lane name j u).respond 0 false)
  | discarded {u : HostWord} (hk : a.kind = .write u) (ht : targetOf s.cfg a.addr.toNat = some .cmd)
      (herr : s.status.err = true) : Performed a s (s.respond 0 false)
  | rejected {u : HostWord} {e : CmdError} (hk : a.kind = .write u) (ht : targetOf s.cfg a.addr.toNat = some .cmd)
      (herr : s.status.err = false) (he : commandError s.cfg.skBits (u.setWidth 32) = some e) :
      Performed a s ((s.respond 0 false).reject e)
  | accepted {u : HostWord} {i : Instr} (hk : a.kind = .write u) (ht : targetOf s.cfg a.addr.toNat = some .cmd)
      (herr : s.status.err = false) (hd : decode (u.setWidth 32) = .ok i) (ho : operandError s.cfg.skBits i = none) :
      Performed a s (((s.respond 0 false).runLanes (ruleOf i)).startBusy (u.setWidth 32))

/-- An access that R78 lists gets a bus error. -/
theorem perform_of_badAccess {a : Access} {s : State} (h : badAccess s.cfg a) : perform a s = .next s.busError := by
  by_cases hshape : a.wellShaped = true
  · have ⟨hbytes, halign⟩ : a.bytes = 8 ∧ a.addr.toNat % 8 = 0 := by simpa [Access.wellShaped] using hshape
    obtain h | h | h | ⟨v, hk, h | h | h | ⟨k, j, h⟩⟩ := h
    · exact absurd hbytes h
    · exact absurd halign h
    · simp [perform, h]
    all_goals simp [perform, hshape, h, hk, performWrite]
  · simp [perform, hshape]

/-- Any other access is aligned, 64 bits wide and to a mapped address. -/
theorem wellShaped_of_not_badAccess {c : Config} {a : Access} (h : ¬ badAccess c a) :
    a.wellShaped = true ∧ ∃ t, targetOf c a.addr.toNat = some t := by
  simp only [badAccess, not_or, not_not] at h
  obtain ⟨hbytes, halign, ht, -⟩ := h
  exact ⟨by simp [Access.wellShaped, hbytes, halign], Option.ne_none_iff_exists'.1 ht⟩

theorem accept_performed {a : Access} {s : State} {u : HostWord} (hw : s.cfg.wf = true) (hk : a.kind = .write u)
    (ht : targetOf s.cfg a.addr.toNat = some .cmd) :
    ∃ t, accept u (s.respond 0 false) = .next t ∧ Performed a s t := by
  cases herr : s.status.err with
  | true => exact ⟨_, accept_of_err herr, .discarded hk ht herr⟩
  | false =>
    cases he : commandError s.cfg.skBits (u.setWidth 32) with
    | some e => exact ⟨_, accept_of_commandError hw herr he, .rejected hk ht herr he⟩
    | none =>
      obtain ⟨i, hd, ho⟩ := exists_decode_of_commandError he
      exact ⟨_, accept_of_accepted hw herr hd ho, .accepted hk ht herr hd ho⟩

/-- Every access is performed, in one of those ways. -/
theorem perform_performed {s : State} (hw : s.cfg.wf = true) (a : Access) :
    ∃ t, perform a s = .next t ∧ Performed a s t := by
  by_cases hbad : badAccess s.cfg a
  · exact ⟨_, perform_of_badAccess hbad, .busError hbad⟩
  · obtain ⟨hshape, t, ht⟩ := wellShaped_of_not_badAccess hbad
    cases hk : a.kind with
    | read => exact ⟨s.hostRead t, by simp [perform, hshape, ht, hk], .read hk ht⟩
    | write u =>
      have hperform : perform a s = performWrite u s t := by simp [perform, hshape, ht, hk]
      rw [hperform]
      have hro := fun h => hbad (.inr (.inr (.inr ⟨u, hk, h⟩)))
      cases t with
      | id => exact absurd (.inl ht) hro
      | config0 => exact absurd (.inr (.inl ht)) hro
      | config1 => exact absurd (.inr (.inr (.inl ht))) hro
      | rom k j => exact absurd (.inr (.inr (.inr ⟨k, j, ht⟩))) hro
      | status => exact ⟨_, rfl, .status hk ht⟩
      | reg lane name j => exact ⟨_, rfl, .register hk ht⟩
      | cmd => exact accept_performed hw hk ht

/-! ## One step -/

/-- What a step can do to the state, case by case (R81, R82, R345, R350). -/
inductive Stepped (s : State) : State → Prop
  | waits (hp : s.port.head? = none) : Stepped s s.tick
  | idle (hp : s.port.head? = some .idle) : Stepped s s.pop.tick
  | reset (hp : s.port.head? = some .reset) : Stepped s s.pop.resetInput
  | stalls {a : Access} (hp : s.port.head? = some (.access a)) (hb : s.status.busy = true)
      (ha : a.answeredAtOnce = false) : Stepped s s.tick
  | answers {a : Access} {t : State} (hp : s.port.head? = some (.access a)) (hb : s.status.busy = true)
      (ha : a.answeredAtOnce = true) (ht : Performed a s.pop t) : Stepped s t.tick
  | performs {a : Access} {t : State} (hp : s.port.head? = some (.access a)) (hb : s.status.busy = false)
      (ht : Performed a s.pop t) : Stepped s t

/-- Every step of an engine whose configuration is well formed answers, in one of those ways. -/
theorem step_stepped {s : State} (hw : s.cfg.wf = true) : ∃ t, step s = .next t ∧ Stepped s t := by
  have hstep : step s = clock s := by simp [step, hw]
  rw [hstep]
  rcases hp : s.port.head? with _ | (a | _ | _)
  · exact ⟨_, by simp [clock, hp], .waits hp⟩
  · obtain ⟨t, hperform, ht⟩ := perform_performed (s := s.pop) hw a
    cases hb : s.status.busy with
    | false => exact ⟨t, by simp [clock, hp, clockAccess, hb, hperform], .performs hp hb ht⟩
    | true =>
      cases ha : a.answeredAtOnce with
      | false => exact ⟨_, by simp [clock, hp, clockAccess, hb, ha], .stalls hp hb ha⟩
      | true => exact ⟨_, by simp [clock, hp, clockAccess, hb, ha, hperform], .answers hp hb ha ht⟩
  · exact ⟨_, by simp [clock, hp], .idle hp⟩
  · exact ⟨_, by simp [clock, hp], .reset hp⟩

theorem step_of_not_wf {s : State} (hw : s.cfg.wf = false) : step s = .refused .configNotWellFormed := by
  simp [step, hw]

/-- Everything a step that answers a next state can have done. -/
theorem stepped_of_step {s t : State} (h : step s = .next t) : s.cfg.wf = true ∧ Stepped s t := by
  cases hw : s.cfg.wf with
  | false => rw [step_of_not_wf hw] at h; cases h
  | true =>
    obtain ⟨u, hu, hs⟩ := step_stepped hw
    obtain rfl := Host.Outcome.next.inj (h.symm.trans hu)
    exact ⟨rfl, hs⟩

/-- Settles O17: each case of a step and of a command answers, and each meaning asks for a well-formed configuration. -/
theorem stepAlwaysAnswers : Obligations.StepAlwaysAnswers := by
  refine fun s => ⟨fun hw => ⟨(step_stepped hw).imp fun _ h => h.1, fun i => ?_⟩,
    fun hw => ⟨step_of_not_wf hw, exec_of_not_wf hw⟩⟩
  cases ho : operandError s.cfg.skBits i with
  | some e => exact ⟨_, exec_of_operandError hw ho⟩
  | none => exact ⟨_, exec_of_operands hw ho⟩

end Sys2Proof.Proofs
end

section
/-! PROOFS. The obligations about single steps and runs of the engine, from the cases of a step: taking and rejecting a
command (60_exceptions.md sections 1 and 2), the stall (20_memory.md section 5), the reset input (70_reset_and_hazards.md
section 1) and the shared registers (10_state.md section 8). -/

namespace Sys2Proof.Proofs

open Sys2Proof.Machine Sys2Proof.Laws

variable {s t : State} {rest : List HostEvent} {v : HostWord}

/-! ## Steps by the event at the head of the port -/

theorem step_waits (hw : s.cfg.wf = true) (hp : s.port = []) : step s = .next s.tick := by
  simp [step, hw, clock, hp]

theorem step_stalls {a : Access} (hw : s.cfg.wf = true) (hb : s.status.busy = true) (hp : s.port = .access a :: rest)
    (ha : a.answeredAtOnce = false) : step s = .next s.tick := by
  simp [step, hw, clock, hp, clockAccess, hb, ha]

theorem pop_of_port {e : HostEvent} (hp : s.port = e :: rest) : s.pop = { s with port := rest } := by
  simp [State.pop, hp]

/-- The oldest write is performed at once when no command is in progress (R82). -/
theorem step_write {addr : BitVec 24} {x : Target} (hw : s.cfg.wf = true) (hb : s.status.busy = false)
    (hp : s.port = .access { addr := addr, bytes := 8, kind := .write v } :: rest) (halign : addr.toNat % 8 = 0)
    (hx : targetOf s.cfg addr.toNat = some x) : step s = performWrite v { s with port := rest } x := by
  rw [step_access_of_not_busy hw hb hp]
  simp [perform, Access.wellShaped, halign, hx]

theorem step_read {addr : BitVec 24} {x : Target} (hw : s.cfg.wf = true) (hb : s.status.busy = false)
    (hp : s.port = .access { addr := addr, bytes := 8, kind := .read } :: rest) (halign : addr.toNat % 8 = 0)
    (hx : targetOf s.cfg addr.toNat = some x) : step s = .next (({ s with port := rest } : State).hostRead x) := by
  rw [step_access_of_not_busy hw hb hp]
  exact perform_read rfl halign rfl hx

/-- A CMD write at the head of the port is answered and its word offered for acceptance (R310). -/
theorem step_cmdWrite (hw : s.cfg.wf = true) (hb : s.status.busy = false) (hp : s.port = .access (cmdWrite v) :: rest) :
    step s = accept v { s with port := rest, responses := ⟨0, false⟩ :: s.responses } :=
  step_write hw hb hp rfl (x := .cmd) rfl

theorem cmdWrite_not_answeredAtOnce (v : HostWord) : (cmdWrite v).answeredAtOnce = false := rfl

/-! ## The shared registers, at any time -/

theorem answeredAtOnce_iff (a : Access) : a.answeredAtOnce = true ↔
    a.kind = .read ∧ a.bytes = 8 ∧ (a.addr = 0x00 ∨ a.addr = 0x08 ∨ a.addr = 0x10 ∨ a.addr = 0x18) := by
  simp [Access.answeredAtOnce, and_assoc, or_assoc]

/-- The word of the shared register at an address that is answered at once (R81). -/
def sharedWord (s : State) (addr : BitVec 24) : HostWord :=
  if addr = 0x00 then Config.idWord else if addr = 0x08 then s.cfg.config0Word
  else if addr = 0x10 then s.cfg.config1Word else s.status.word

theorem perform_of_answeredAtOnce {a : Access} (ha : a.answeredAtOnce = true) :
    perform a s = .next (s.respond (sharedWord s a.addr) false) := by
  obtain ⟨hk, hbytes, haddr⟩ := (answeredAtOnce_iff a).1 ha
  obtain ⟨addr, bytes, kind⟩ := a
  dsimp only at hk hbytes haddr
  subst hk hbytes
  obtain rfl | rfl | rfl | rfl := haddr <;> rfl

/-- A read of ID, CONFIG0, CONFIG1 or STATUS is answered at any time, with no effect but the clock that passes (R81). -/
theorem step_of_answeredAtOnce {a : Access} (hw : s.cfg.wf = true) (hp : s.port = .access a :: rest)
    (ha : a.answeredAtOnce = true) :
    ∃ t, step s = .next t ∧ t.port = rest ∧ t.lanes = s.lanes ∧
      t.responses = ⟨sharedWord s a.addr, false⟩ :: s.responses := by
  have hperform := perform_of_answeredAtOnce (s := s.pop) ha
  cases hb : s.status.busy with
  | false =>
    rw [pop_of_port hp] at hperform
    exact ⟨_, (step_access_of_not_busy hw hb hp).trans hperform, rfl, rfl, rfl⟩
  | true =>
    refine ⟨(s.pop.respond (sharedWord s.pop a.addr) false).tick, ?_, ?_⟩
    · simp [step, hw, clock, hp, clockAccess, hb, ha, hperform]
    · obtain ⟨-, hlanes, hport, hresp, -⟩ := tick_frame (s.pop.respond (sharedWord s.pop a.addr) false)
      rw [hlanes, hport, hresp]
      exact ⟨by simp [hp], rfl, rfl⟩

/-! ## Taking and rejecting a command -/

/-- What the engine does after a command's meaning: a command that was not rejected leaves it busy (R311, R312). -/
def thenBusy (w : CmdWord) : Host.Outcome State Fault Refusal → Host.Outcome State Fault Refusal
  | .next t => if t.status.err then .next t else .next (t.startBusy w)
  | .fault r => .fault r
  | .refused r => .refused r

theorem accept_eq_thenBusy {i : Instr} (herr : s.status.err = false) (hd : decode (v.setWidth 32) = .ok i) :
    accept v s = thenBusy (v.setWidth 32) (exec i s) := by
  cases hx : exec i s with
  | next t =>
    rw [accept_of_exec herr hd hx, thenBusy]
    cases ht : t.status.err with
    | true => simp [afterCommand_of_err ht]
    | false => simp [afterCommand_of_not_err ht]
  | fault r | refused r => simp [accept, herr, hd, hx, thenBusy]

/-- Settles O8: a CMD write at the head of the port is accepted, and acceptance runs the decoded command. -/
theorem stepRunsDecoded : Obligations.StepRunsDecoded := by
  refine ⟨fun s v rest i hw hb herr hp hd => ?_, fun s w i hw hd => ?_⟩
  · exact (step_cmdWrite hw hb hp).trans (accept_eq_thenBusy herr hd)
  · have hword : (w.setWidth 64).setWidth 32 = w := by simp
    have hfetch : s.withFetchWord 32 w.toNat = s.withCommand w := by
      rw [State.withFetchWord, Nat.mod_eq_of_lt w.isLt, BitVec.ofNat_toNat, BitVec.setWidth_eq]
    have hstep := step_cmdWrite (s := s.withCommand w) hw rfl rfl
    rw [accept_eq_thenBusy rfl (hword.symm ▸ hd), hword] at hstep
    rw [hfetch, hstep]
    rfl

/-- Settles O9: the acceptance rejects the word, the port stalls it while BUSY = 1, and ERR = 1 discards it. -/
theorem rejectionEffect : Obligations.RejectionEffect := by
  refine ⟨fun s v rest e hw hb herr hp he => ?_, fun s v rest hw hb hp => ?_, fun s v rest hw hb herr hp => ?_⟩
  · have hreject := (step_cmdWrite hw hb hp).trans
      (accept_of_commandError (s := { s with port := rest, responses := ⟨0, false⟩ :: s.responses }) hw herr he)
    simpa [State.reject, hb] using hreject
  · obtain ⟨-, hlanes, hport, hresp, -, herr, hcode⟩ := tick_frame s
    exact ⟨s.tick, step_stalls hw hb hp (cmdWrite_not_answeredAtOnce v), hport, hresp, hlanes, herr, hcode⟩
  · exact (step_cmdWrite hw hb hp).trans
      (accept_of_err (s := { s with port := rest, responses := ⟨0, false⟩ :: s.responses }) herr)

theorem run_succ_of_step {M : Host.Core} {x y : M.State} (h : M.step x = .next y) (k : Nat) :
    M.run (k + 1) x = M.run k y := by
  simp only [Host.Core.run, h]

theorem run_succ (h : step s = .next t) (k : Nat) : core.run (k + 1) s = core.run k t := run_succ_of_step (M := core) h k

/-- Settles O10: each step discards the write at the head of the port and leaves ERR as it was. -/
theorem stickyError : Obligations.StickyError := by
  intro ws
  induction ws with
  | nil => intro s rest _ _ _ hp; subst hp; rfl
  | cons v ws ih =>
    intro s rest hw hb herr hp
    let t : State :=
      { s with port := ws.map (fun v => .access (cmdWrite v)) ++ rest, responses := ⟨0, false⟩ :: s.responses }
    have hstep : step s = .next t := (step_cmdWrite hw hb hp).trans (accept_of_err (s := t) herr)
    refine (run_succ hstep ws.length).trans ((ih t rest hw hb herr rfl).trans ?_)
    simp [t, List.replicate_succ']

/-- STATUS is legal when ERRCODE is 0, or a code with ERR = 1 and BUSY = 0 (R45, R315). -/
theorem legal_iff (x : Status) : x.legal = true ↔
    (x.err = false ∧ x.errcode = 0) ∨
      (x.err = true ∧ x.busy = false ∧ 1 ≤ x.errcode.toNat ∧ x.errcode.toNat ≤ 5) := by
  cases h : x.err <;> simp [Status.legal, h]
  tauto

theorem tick_legal (h : s.status.legal = true) : s.tick.status.legal = true := by
  unfold State.tick
  split
  · next hb =>
    obtain ⟨herr, hcode⟩ | ⟨-, hnb, -⟩ := (legal_iff _).1 h
    · split <;> exact (legal_iff _).2 (.inl ⟨herr, hcode⟩)
    · rw [hnb] at hb; cases hb
  · exact h

theorem reject_legal (hb : s.status.busy = false) (e : CmdError) : (s.reject e).status.legal = true := by
  have hcode : ∀ e : CmdError, 1 ≤ (errorCode e).toNat ∧ (errorCode e).toNat ≤ 5 := by
    intro e
    cases e <;> decide
  exact (legal_iff _).2 (.inr ⟨rfl, hb, hcode e⟩)

theorem clearError_legal : s.clearError.status.legal = true := (legal_iff _).2 (.inl ⟨rfl, rfl⟩)

theorem startBusy_legal (herr : s.status.err = false) (h : s.status.legal = true) (w : CmdWord) :
    (s.startBusy w).status.legal = true := by
  obtain ⟨-, hcode⟩ | ⟨herr', -⟩ := (legal_iff _).1 h
  · exact (legal_iff _).2 (.inl ⟨herr, hcode⟩)
  · rw [herr] at herr'; cases herr'

@[simp] theorem hostRead_status (x : Target) : (s.hostRead x).status = s.status := by
  cases x with
  | reg lane name j =>
    simp only [State.hostRead, State.readRegister]
    split <;> [split; skip] <;> rfl
  | _ => rfl

/-- An access keeps STATUS legal: one that is performed while BUSY = 1 is a read. -/
theorem performed_legal {a : Access} (ht : Performed a s t) (hb : s.status.busy = false ∨ a.kind = .read)
    (h : s.status.legal = true) : t.status.legal = true := by
  cases ht with
  | busError | discarded | register => exact h
  | read => simpa using h
  | @status u =>
    unfold State.writeStatus
    split
    · exact clearError_legal
    · exact h
  | rejected hk =>
    refine reject_legal (hb.resolve_right fun hr => ?_) _
    rw [hk] at hr; cases hr
  | accepted _ _ herr => exact startBusy_legal herr h _

theorem stepped_legal (hs : Stepped s t) (h : s.status.legal = true) : t.status.legal = true := by
  cases hs with
  | waits | stalls => exact tick_legal h
  | idle => exact tick_legal (s := s.pop) h
  | reset => exact (legal_iff _).2 (.inl ⟨rfl, rfl⟩)
  | answers _ _ ha ht => exact tick_legal (performed_legal ht (.inr ((answeredAtOnce_iff _).1 ha).1) h)
  | performs _ hb ht => exact performed_legal ht (.inl hb) h

/-- Settles O11: the write is performed or stalls, and every case of a step keeps STATUS legal. -/
theorem statusClearing : Obligations.StatusClearing := by
  refine ⟨fun s v rest hw hb hp => ?_, fun s v rest hw hb hp => ?_, fun s t h hstep => ?_⟩
  · rw [step_write hw hb hp rfl (x := .status) rfl, performWrite, State.writeStatus]
    cases v.getLsbD 1 <;> simp [State.respond, State.clearError, hb]
  · obtain ⟨-, -, hport, -, -, herr, hcode⟩ := tick_frame s
    exact ⟨s.tick, step_stalls hw hb hp rfl, hport, herr, hcode⟩
  · have hlegal := stepped_legal (stepped_of_step hstep).2 h
    refine ⟨hlegal, fun herr => ?_⟩
    obtain ⟨hne, -⟩ | ⟨-, hb, -⟩ := (legal_iff _).1 hlegal
    · rw [hne] at herr; cases herr
    · simp [hb]

/-! ## While a command is in progress -/

/-- Settles O12: an access that is not answered at once stalls, and the clock that passes changes BUSY, the latch and the
count of clocks alone. -/
theorem busyStalls : Obligations.BusyStalls := by
  refine ⟨fun s a rest hw hb hp hn => ?_, fun s a rest hw hb hp hk hbytes haddr => ?_,
    fun s a rest hw hb hp => step_access_of_not_busy hw hb hp⟩
  · obtain ⟨-, hlanes, hport, hresp, hdraws, herr, hcode⟩ := tick_frame s
    have ha : a.answeredAtOnce = false := by simpa using mt (answeredAtOnce_iff a).1 hn
    exact ⟨s.tick, step_stalls hw hb hp ha, hport, hresp, hlanes, hdraws, herr, hcode⟩
  · exact step_of_answeredAtOnce hw hp ((answeredAtOnce_iff a).2 ⟨hk, hbytes, haddr⟩)

/-- Nothing is at the port, or an access that stalls. -/
def Waiting (s : State) : Prop := s.port = [] ∨ ∃ a rest, s.port = .access a :: rest ∧ a.answeredAtOnce = false

theorem step_of_waiting (hw : s.cfg.wf = true) (hb : s.status.busy = true) (hp : Waiting s) : step s = .next s.tick := by
  obtain hp | ⟨a, rest, hp, ha⟩ := hp
  · exact step_waits hw hp
  · exact step_stalls hw hb hp ha

theorem tick_of_last (hb : s.status.busy = true) (hc : s.clocksLeft = 1) :
    s.tick = { s with status := { s.status with busy := false }, latch := none, clocksLeft := 0 } := by
  simp [State.tick, hb, hc]

theorem tick_of_more {n : Nat} (hb : s.status.busy = true) (hc : s.clocksLeft = n + 2) :
    s.tick = { s with clocksLeft := n + 1 } := by
  simp [State.tick, hb, hc]

/-- Settles O13: by induction on the clocks left, each of which is one step that waits or stalls. -/
theorem busyEndsAfterLatency : Obligations.BusyEndsAfterLatency := by
  intro n
  induction n with
  | zero =>
    intro s hw hb hc hp
    have hstep := step_of_waiting hw hb hp
    rw [tick_of_last hb hc] at hstep
    refine ⟨run_succ hstep 0, fun m hm => ?_⟩
    obtain rfl : m = 0 := by omega
    simp [Host.Core.run, ← hc]
  | succ n ih =>
    intro s hw hb hc hp
    have hstep := step_of_waiting hw hb hp
    rw [tick_of_more hb hc] at hstep
    obtain ⟨hend, hbefore⟩ := ih { s with clocksLeft := n + 1 } hw hb rfl hp
    refine ⟨(run_succ hstep (n + 1)).trans hend, fun m hm => ?_⟩
    cases m with
    | zero => simp [Host.Core.run, ← hc]
    | succ m => rw [run_succ hstep, hbefore m (by omega), Nat.add_sub_add_right]

end Sys2Proof.Proofs
end

section
/-! PROOFS. The registers after a reset (10_state.md section 11, 70_reset_and_hazards.md section 1) and the shared registers as
a host reads them (10_state.md section 8). -/

namespace Sys2Proof.Proofs

open Sys2Proof.Machine Sys2Proof.Laws

/-! ## After a reset -/

theorem capacity_pos (c : Config) (name : RegName) : 0 < capacity c name := by
  cases name with
  | e => exact r_pos c
  | d => exact Nat.mul_pos (r_pos c) (r_pos c)
  | sk => exact Nat.two_pow_pos _

theorem limbCount_pos {c : Config} (hw : c.wf = true) (name : RegName) : 0 < limbCount c name := by
  obtain ⟨-, heA, -, -, ⟨hn, -⟩, -⟩ := (wf_iff c).1 hw
  cases name with
  | e => exact hn
  | d => simp only [limbCount]; omega
  | sk =>
    have hsk : c.eA ≤ c.skBits := Nat.le_max_left _ _
    simp only [limbCount, Config.skWords]
    omega

/-- A register that no limb of has been written does not count as written (R40). -/
theorem isWritten_replicate_false {v n : Nat} (hn : 0 < n) :
    ({ val := v, written := List.replicate n false } : Reg).isWritten = false := by
  simp [Reg.isWritten, Nat.ne_of_gt hn]

theorem wordWritten_replicate_false (v n j : Nat) :
    ({ val := v, written := List.replicate n false } : Reg).wordWritten j = false := by
  simp only [Reg.wordWritten, List.getD_eq_getElem?_getD, List.getElem?_replicate]
  split <;> rfl

@[simp] theorem get_reset (c : Config) (name : RegName) :
    (Lane.reset c).get name = { val := 0, written := List.replicate (limbCount c name) false } := by
  cases name <;> simp [Lane.reset, Lane.get, Reg.unwritten, limbCount]

/-- Each register after the reset input holds some value below its capacity and is not written (R350). -/
theorem get_unspecified (c : Config) (draw lane : Nat) (name : RegName) :
    ∃ v, v < capacity c name ∧
      (Lane.unspecified c draw lane).get name = { val := v, written := List.replicate (limbCount c name) false } := by
  suffices h : ∃ slot, (Lane.unspecified c draw lane).get name = Reg.unspecified c name draw lane slot by
    obtain ⟨slot, hslot⟩ := h
    exact ⟨_, Nat.mod_lt _ (capacity_pos c name), hslot⟩
  cases name with
  | e i => exact ⟨i.toNat, by simp only [Lane.get, Lane.unspecified, Vector.getElem_ofFn]; rfl⟩
  | d i => exact ⟨64 + (i.setWidth 2).toNat, by simp only [Lane.get, Lane.unspecified, Vector.getElem_ofFn]; rfl⟩
  | sk => exact ⟨68, rfl⟩

theorem reset_laneInv (c : Config) : (Lane.reset c).Inv c := fun name => by
  simp [capacity_pos]

theorem unspecified_laneInv (c : Config) (draw lane : Nat) : (Lane.unspecified c draw lane).Inv c := fun name => by
  obtain ⟨v, hv, hget⟩ := get_unspecified c draw lane name
  simp [hget, hv]

/-- The state after reset meets the invariant (R53). -/
theorem resetWith_inv {c : Config} (hw : c.wf = true) : (State.resetWith c).Inv where
  wf := hw
  laneCount := by simp [State.resetWith]
  lanes l hl := by
    obtain rfl := List.eq_of_mem_replicate hl
    exact reset_laneInv c
  status := rfl
  latched := rfl
  clocks := rfl
  latchLegal w h := by cases h

/-- The reset input leads to a state that meets the invariant (R350). -/
theorem resetInput_inv {s : State} (hw : s.cfg.wf = true) : s.resetInput.Inv where
  wf := hw
  laneCount := by simp
  lanes l hl := by
    obtain ⟨k, -, rfl⟩ := List.mem_map.1 hl
    exact unspecified_laneInv _ _ _
  status := rfl
  latched := rfl
  clocks := rfl
  latchLegal w h := by cases h

/-- Settles O15: every register after reset is unwritten, with the value 0. -/
theorem invariantAfterReset : Obligations.InvariantAfterReset := by
  refine ⟨resetWith_inv (by decide +kernel), fun c hw => ⟨resetWith_inv hw, rfl, rfl, fun l hl name => ?_⟩⟩
  obtain rfl := List.eq_of_mem_replicate hl
  rw [get_reset]
  exact isWritten_replicate_false (limbCount_pos hw name)

theorem tick_of_not_busy {s : State} (hb : s.status.busy = false) : s.tick = s := by
  simp [State.tick, hb]

/-- Settles O24: the step makes the reset, which leaves each register unwritten below its capacity. -/
theorem resetInput : Obligations.ResetInput := by
  intro s rest hw hp
  let t : State := ({ s with port := rest } : State).resetInput
  have hstep : step s = .next t := by simp [step, hw, clock, hp, pop_of_port hp, t]
  refine ⟨t, hstep, rfl, rfl, rfl, rfl, rfl, by simp [t], fun l hl name j => ?_, fun l hl name => ?_, fun hrest => ?_⟩
  · obtain ⟨k, -, rfl⟩ := List.mem_map.1 hl
    obtain ⟨v, -, hget⟩ := get_unspecified s.cfg s.draws k name
    exact hget ▸ wordWritten_replicate_false v _ j
  · obtain ⟨k, -, rfl⟩ := List.mem_map.1 hl
    obtain ⟨v, hv, hget⟩ := get_unspecified s.cfg s.draws k name
    exact ⟨hget ▸ isWritten_replicate_false (limbCount_pos hw name), by rw [Lane.val, hget]; exact hv⟩
  · rw [step_waits (s := t) hw hrest, tick_of_not_busy rfl]

/-! ## The shared registers -/

variable {s t : State} {rest : List HostEvent}

/-- A read of a shared register, at any time (R81). -/
theorem step_sharedRead {addr : BitVec 24} (hw : s.cfg.wf = true)
    (hp : s.port = .access { addr := addr, bytes := 8, kind := .read } :: rest)
    (haddr : addr = 0x00 ∨ addr = 0x08 ∨ addr = 0x10 ∨ addr = 0x18) :
    ∃ t, step s = .next t ∧ t.responses = ⟨sharedWord s addr, false⟩ :: s.responses := by
  obtain ⟨t, hstep, -, -, hresp⟩ := step_of_answeredAtOnce hw hp ((answeredAtOnce_iff _).2 ⟨rfl, rfl, haddr⟩)
  exact ⟨t, hstep, hresp⟩

/-- Settles O25: the word of ID is the constant of R46, and a write of it gets a bus error. -/
theorem idRegister : Obligations.IdRegister := by
  refine ⟨fun s rest hw hp => ?_, fun s v rest hw hb hp => ?_⟩
  · obtain ⟨t, hstep, hresp⟩ := step_sharedRead hw hp (.inl rfl)
    exact ⟨t, Config.idWord, hstep, hresp, by decide, by decide, by decide⟩
  · exact step_write hw hb hp rfl (x := .id) rfl

/-- The bits of the word of STATUS (R45). -/
theorem statusWord_fields (x : Status) :
    x.word.getLsbD 0 = x.busy ∧ x.word.getLsbD 1 = x.err ∧ x.word.extractLsb' 2 2 = 0#2 ∧
      x.word.extractLsb' 4 4 = x.errcode ∧ x.word.extractLsb' 8 56 = 0#56 := by
  obtain ⟨busy, err, code⟩ := x
  revert busy err code
  decide

/-- Settles O27: the read answers the word of STATUS, whose bits are R45's. -/
theorem statusRegister : Obligations.StatusRegister := by
  intro s rest hw hp
  obtain ⟨t, hstep, hresp⟩ := step_sharedRead hw hp (.inr (.inr (.inr rfl)))
  exact ⟨t, s.status.word, hstep, hresp, statusWord_fields s.status⟩

@[simp] theorem hostRead_frame (x : Target) :
    (s.hostRead x).cfg = s.cfg ∧ (s.hostRead x).lanes = s.lanes ∧ (s.hostRead x).latch = s.latch ∧
      (s.hostRead x).clocksLeft = s.clocksLeft ∧ (s.hostRead x).port = s.port := by
  cases x with
  | reg lane name j =>
    simp only [State.hostRead, State.readRegister]
    split <;> [split; skip] <;> exact ⟨rfl, rfl, rfl, rfl, rfl⟩
  | _ => exact ⟨rfl, rfl, rfl, rfl, rfl⟩

theorem performed_cfg {a : Access} (ht : Performed a s t) : t.cfg = s.cfg := by
  cases ht with
  | read => exact (hostRead_frame _).1
  | @status u =>
    unfold State.writeStatus
    split <;> rfl
  | busError | register | discarded | rejected | accepted => rfl

theorem stepped_cfg (hs : Stepped s t) : t.cfg = s.cfg := by
  cases hs with
  | waits | stalls => exact (tick_frame s).1
  | idle => exact (tick_frame s.pop).1
  | reset => rfl
  | answers _ _ _ ht => exact (tick_frame _).1.trans (performed_cfg (s := s.pop) ht)
  | performs _ _ ht => exact performed_cfg (s := s.pop) ht

/-- What performing a read leaves (20_memory.md section 4). -/
theorem performed_read {a : Access} (hk : a.kind = .read) (ht : Performed a s t) :
    t.cfg = s.cfg ∧ t.lanes = s.lanes ∧ t.status = s.status ∧ t.latch = s.latch ∧ t.clocksLeft = s.clocksLeft ∧
      t.port = s.port := by
  cases ht with
  | busError => exact ⟨rfl, rfl, rfl, rfl, rfl, rfl⟩
  | read =>
    obtain ⟨hcfg, hlanes, hlatch, hclocks, hport⟩ := hostRead_frame (s := s) _
    exact ⟨hcfg, hlanes, hostRead_status _, hlatch, hclocks, hport⟩
  | status hk' | register hk' | discarded hk' | rejected hk' | accepted hk' => rw [hk] at hk'; cases hk'

/-- Settles O35: performing a read changes nothing, and a clock that passes changes BUSY, the latch and the count alone. -/
theorem readsHaveNoSideEffect : Obligations.ReadsHaveNoSideEffect := by
  intro s t a rest hk hp hstep
  have hhead : s.port.head? = some (.access a) := by rw [hp]; rfl
  cases (stepped_of_step hstep).2 with
  | waits h | idle h | reset h => rw [hhead] at h; cases h
  | stalls _ hb =>
    obtain ⟨hcfg, hlanes, -, -, -, herr, hcode⟩ := tick_frame s
    exact ⟨hcfg, hlanes, herr, hcode, fun hb' => by rw [hb] at hb'; cases hb'⟩
  | @answers b u h hb _ ht =>
    obtain rfl : a = b := by rw [hhead] at h; cases h; rfl
    obtain ⟨hcfg, hlanes, hstatus, -⟩ := performed_read hk ht
    obtain ⟨hcfg', hlanes', -, -, -, herr, hcode⟩ := tick_frame u
    exact ⟨hcfg'.trans hcfg, hlanes'.trans hlanes, herr.trans (by rw [hstatus]; rfl),
      hcode.trans (by rw [hstatus]; rfl), fun hb' => by rw [hb] at hb'; cases hb'⟩
  | @performs b _ h _ ht =>
    obtain rfl : a = b := by rw [hhead] at h; cases h; rfl
    obtain ⟨hcfg, hlanes, hstatus, hlatch, hclocks, hport⟩ := performed_read hk ht
    exact ⟨hcfg, hlanes, by rw [hstatus]; rfl, by rw [hstatus]; rfl,
      fun _ => ⟨hstatus, hlatch, hclocks, hport.trans (congrArg List.tail hp)⟩⟩

theorem extractLsb'_append_add {a b : Nat} (x : BitVec a) (y : BitVec b) (i len : Nat) :
    (x ++ y).extractLsb' (b + i) len = x.extractLsb' i len := by
  rw [BitVec.extractLsb'_append_eq_of_le (Nat.le_add_right b i), Nat.add_sub_cancel_left]

/-- The fields of a word that is put together from six of them. -/
theorem extractLsb'_append_six {a b c d e f : Nat} (t : BitVec a) (u : BitVec b) (v : BitVec c) (w : BitVec d)
    (x : BitVec e) (y : BitVec f) (word : BitVec (a + b + c + d + e + f)) (h : word = t ++ u ++ v ++ w ++ x ++ y) :
    word.extractLsb' 0 f = y ∧ word.extractLsb' (f + 0) e = x ∧ word.extractLsb' (f + (e + 0)) d = w ∧
      word.extractLsb' (f + (e + (d + 0))) c = v ∧ word.extractLsb' (f + (e + (d + (c + 0)))) b = u ∧
      word.extractLsb' (f + (e + (d + (c + b)))) a = t := by
  subst h
  simp only [extractLsb'_append_add, BitVec.extractLsb'_append_eq_right, BitVec.extractLsb'_append_eq_left, and_self]

theorem config0Word_fields (c : Config) :
    c.config0Word.extractLsb' 0 8 = .ofNat 8 c.w ∧ c.config0Word.extractLsb' 8 8 = .ofNat 8 c.n ∧
      c.config0Word.extractLsb' 16 8 = .ofNat 8 c.k ∧ c.config0Word.extractLsb' 24 8 = 0#8 ∧
      c.config0Word.extractLsb' 32 16 = .ofNat 16 c.eA ∧ c.config0Word.extractLsb' 48 16 = .ofNat 16 c.eB :=
  extractLsb'_append_six (BitVec.ofNat 16 c.eB) (BitVec.ofNat 16 c.eA) 0#8 (BitVec.ofNat 8 c.k) (BitVec.ofNat 8 c.n)
    (BitVec.ofNat 8 c.w) _ rfl

theorem config1Word_fields (c : Config) :
    c.config1Word.extractLsb' 0 16 = .ofNat 16 c.skBits ∧ c.config1Word.extractLsb' 16 16 = .ofNat 16 c.obobBits ∧
      c.config1Word.extractLsb' 32 8 = .ofNat 8 c.maxPts ∧ c.config1Word.extractLsb' 40 8 = .ofNat 8 c.invNT ∧
      c.config1Word.extractLsb' 48 8 = c.primeId ∧ c.config1Word.extractLsb' 56 8 = 0#8 :=
  extractLsb'_append_six 0#8 c.primeId (BitVec.ofNat 8 c.invNT) (BitVec.ofNat 8 c.maxPts) (BitVec.ofNat 16 c.obobBits)
    (BitVec.ofNat 16 c.skBits) _ rfl

/-- PRIME_ID names the four primes by their exponents (R9, R47). -/
theorem primeId_toNat (c : Config) : c.primeId.toNat =
    if c.eA = 216 ∧ c.eB = 137 then 0 else if c.eA = 250 ∧ c.eB = 159 then 1
      else if c.eA = 305 ∧ c.eB = 192 then 2 else if c.eA = 372 ∧ c.eB = 239 then 3 else 0xFF := by
  unfold Config.primeId
  split
  case h_5 h0 h1 h2 h3 =>
    rw [if_neg fun h => h0 h.1 h.2, if_neg fun h => h1 h.1 h.2, if_neg fun h => h2 h.1 h.2, if_neg fun h => h3 h.1 h.2]
    rfl
  all_goals simp [*]

/-- Settles O26: no case of a step changes the configuration, and the words are put together from their fields. -/
theorem configRegisters : Obligations.ConfigRegisters := by
  refine ⟨fun s t hstep => stepped_cfg (stepped_of_step hstep).2, fun s rest hw hb =>
    ⟨fun hp => ?_, fun hp => ?_, fun hp => ?_⟩,
    fun c hw heA heB hsk hobob hpts hnt => ?_⟩
  · exact step_read hw hb hp rfl (x := .config0) rfl
  · exact step_read hw hb hp rfl (x := .config1) rfl
  · exact step_read hw hb hp rfl (x := .cmd) rfl
  · obtain ⟨-, -, -, ⟨-, hw64⟩, ⟨-, hn32⟩, ⟨-, hk16⟩, -⟩ := (wf_iff c).1 hw
    have hfit : ∀ {m x : Nat}, x < 2 ^ m → (BitVec.ofNat m x).toNat = x := fun h => by
      rw [BitVec.toNat_ofNat, Nat.mod_eq_of_lt h]
    obtain ⟨w, n, k, z, a, b⟩ := config0Word_fields c
    obtain ⟨sk, obob, pts, nt, id, z'⟩ := config1Word_fields c
    rw [w, n, k, z, a, b, sk, obob, pts, nt, id, z', primeId_toNat]
    exact ⟨hfit (by omega), hfit (by omega), hfit (by omega), rfl, hfit heA, hfit heB, hfit hsk, hfit hobob, hfit hpts,
      hfit hnt, rfl, rfl⟩

end Sys2Proof.Proofs
end

section
/-! PROOFS. The obligations about the host's registers (20_memory.md): the address map of the lane windows, and the host's reads
and writes of limbs and of the words of SK. -/

namespace Sys2Proof.Proofs

open Sys2Proof.Machine Sys2Proof.Laws

/-! ## The address map -/

/-- The offset of limb or word j of a register in its lane's window (R74). -/
def regOffset (name : RegName) (j : Nat) : Nat :=
  match name with
  | .e i => i.toNat * 0x100 + 8 * j
  | .d i => 0x8000 + i.toNat * 0x200 + 8 * j
  | .sk => 0xC000 + 8 * j

theorem regAddress_eq (lane : Nat) (name : RegName) (j : Nat) :
    regAddress lane name j = 0x100000 + lane * 0x10000 + regOffset name j := by
  cases name <;> simp only [regAddress, regOffset, laneBase] <;> omega

/-- SK_BITS is at most the width of an E register, so that SK fits its part of the window (R12, R44). -/
theorem skBits_le {c : Config} (hw : c.wf = true) : c.skBits ≤ c.w * c.n := by
  have hr : 32 * c.p ≤ 2 ^ (c.w * c.n) := wf_r hw
  have hp := p_add_one c
  have hppos := p_pos hw
  have hA : 2 ^ c.eA ≤ 2 ^ c.eA * 3 ^ c.eB := Nat.le_mul_of_pos_right _ (Nat.pow_pos (by decide))
  have hB : 3 ^ c.eB ≤ 2 ^ c.eA * 3 ^ c.eB := Nat.le_mul_of_pos_left _ (Nat.two_pow_pos _)
  have heA : c.eA ≤ c.w * c.n := (Nat.pow_le_pow_iff_right (by decide : 1 < 2)).1 (by omega : 2 ^ c.eA ≤ _)
  have hobob : Nat.log2 (3 ^ c.eB) < c.w * c.n :=
    (Nat.log2_lt (Nat.pow_pos (by decide)).ne').2 (by omega)
  exact Nat.max_le.2 ⟨heA, hobob⟩

theorem skWords_le {c : Config} (hw : c.wf = true) : c.skWords ≤ 32 := by
  obtain ⟨-, -, -, ⟨-, hw64⟩, ⟨-, hn32⟩, -⟩ := (wf_iff c).1 hw
  have hbits : c.w * c.n ≤ 64 * 32 := Nat.mul_le_mul hw64 hn32
  have hsk := skBits_le hw
  unfold Config.skWords
  omega

theorem wf_k_le {c : Config} (hw : c.wf = true) : c.k ≤ 16 := by
  obtain ⟨-, -, -, -, -, ⟨-, hk⟩, -⟩ := (wf_iff c).1 hw
  exact hk

theorem regOffset_lt {c : Config} (hw : c.wf = true) {name : RegName} {j : Nat} (hv : name.valid = true)
    (hj : j < limbCount c name) : regOffset name j < 0x10000 := by
  have hn := wf_n_le hw
  have hsk := skWords_le hw
  cases name with
  | e i => simp only [regOffset, limbCount] at *; omega
  | d i => simp only [regOffset, limbCount, RegName.valid, decide_eq_true_eq] at *; omega
  | sk => simp only [regOffset, limbCount] at *; omega

/-- Each limb of a register is at its offset in the lane's window (R74). -/
theorem laneTarget_regOffset {c : Config} (hw : c.wf = true) {name : RegName} {j : Nat} (lane : Nat)
    (hv : name.valid = true) (hj : j < limbCount c name) :
    laneTarget c lane (regOffset name j) = some (.reg lane name j) := by
  have hn := wf_n_le hw
  have hsk := skWords_le hw
  cases name with
  | e i =>
    simp only [regOffset, limbCount] at *
    have hreg : (i.toNat * 0x100 + 8 * j) / 0x100 = i.toNat := by omega
    have hlimb : (i.toNat * 0x100 + 8 * j) % 0x100 / 8 = j := by omega
    rw [laneTarget, if_pos (by omega), hlimb, hreg, if_pos hj, BitVec.ofNat_toNat, BitVec.setWidth_eq]
  | d i =>
    simp only [regOffset, limbCount, RegName.valid, decide_eq_true_eq] at *
    have hoffset : 0x8000 + i.toNat * 0x200 + 8 * j - 0x8000 = i.toNat * 0x200 + 8 * j := by omega
    have hreg : (i.toNat * 0x200 + 8 * j) / 0x200 = i.toNat := by omega
    have hlimb : (i.toNat * 0x200 + 8 * j) % 0x200 / 8 = j := by omega
    rw [laneTarget, if_neg (by omega), if_pos (by omega), hoffset, hlimb, hreg, if_pos hj, BitVec.ofNat_toNat,
      BitVec.setWidth_eq]
  | sk =>
    simp only [regOffset, limbCount] at *
    have hword : (0xC000 + 8 * j - 0xC000) / 8 = j := by omega
    rw [laneTarget, if_neg (by omega), if_neg (by omega), if_pos (by omega), hword, if_pos hj]

/-- And nothing else is mapped there. -/
theorem laneTarget_eq_some {c : Config} {lane o : Nat} {t : Target} (h : laneTarget c lane o = some t) :
    ∃ name j, t = .reg lane name j ∧ name.valid = true ∧ j < limbCount c name ∧ o / 8 * 8 = regOffset name j := by
  unfold laneTarget at h
  split_ifs at h with hE hn hD hn hsk hn <;> obtain rfl := Option.some.inj h <;> refine ⟨_, _, rfl, ?_, hn, ?_⟩
  · rfl
  · simp only [regOffset, BitVec.toNat_ofNat]; omega
  · simp only [RegName.valid, BitVec.toNat_ofNat, decide_eq_true_eq]; omega
  · simp only [regOffset, BitVec.toNat_ofNat]; omega
  · rfl
  · simp only [regOffset]; omega

theorem targetOf_regAddress {c : Config} {lane j : Nat} {name : RegName} (hw : c.wf = true) (hlane : lane < c.k)
    (hv : name.valid = true) (hj : j < limbCount c name) :
    targetOf c (regAddress lane name j) = some (.reg lane name j) := by
  have ho := regOffset_lt hw hv hj
  have hdiv : (0x100000 + lane * 0x10000 + regOffset name j - 0x100000) / 0x10000 = lane := by omega
  have hmod : (0x100000 + lane * 0x10000 + regOffset name j - 0x100000) % 0x10000 = regOffset name j := by omega
  rw [regAddress_eq, targetOf, if_neg (by omega), if_neg (by omega), if_neg (by omega), if_neg (by omega),
    if_neg (by omega), if_neg (by omega), hdiv, hmod, if_pos ⟨by omega, hlane⟩, laneTarget_regOffset hw lane hv hj]

/-- What it says that an aligned address is mapped to a target: the address map read backwards (R72 to R74). -/
def MappedAt (c : Config) (a : Nat) : Target → Prop
  | .reg lane name j => lane < c.k ∧ name.valid = true ∧ j < limbCount c name ∧ a = regAddress lane name j
  | .rom k j => k < 6 ∧ j < c.n ∧ a = 0x001000 + k * 0x100 + 8 * j
  | .id => a = 0x000000
  | .config0 => a = 0x000008
  | .config1 => a = 0x000010
  | .status => a = 0x000018
  | .cmd => a = 0x000020

theorem mappedAt_of_romTarget {c : Config} {o : Nat} {t : Target} (h : romTarget c o = some t) :
    MappedAt c ((0x001000 + o) / 8 * 8) t := by
  unfold romTarget at h
  split_ifs at h with hmap
  obtain rfl := Option.some.inj h
  exact ⟨hmap.1, hmap.2, by omega⟩

theorem mappedAt_of_targetOf {c : Config} {a : Nat} {t : Target} (h : targetOf c a = some t) :
    MappedAt c (a / 8 * 8) t := by
  unfold targetOf at h
  split_ifs at h with hid h0 h1 hst hcmd hrom hlane
  · obtain rfl := Option.some.inj h; subst hid; rfl
  · obtain rfl := Option.some.inj h; subst h0; rfl
  · obtain rfl := Option.some.inj h; subst h1; rfl
  · obtain rfl := Option.some.inj h; subst hst; rfl
  · obtain rfl := Option.some.inj h; subst hcmd; rfl
  · have hmap := mappedAt_of_romTarget h
    rwa [Nat.add_sub_cancel' hrom.1] at hmap
  · obtain ⟨name, j, rfl, hv, hj, ho⟩ := laneTarget_eq_some h
    exact ⟨hlane.2, hv, hj, by rw [regAddress_eq]; omega⟩

/-- Settles O32: the lane windows are laid out without overlap, because N is at most 32 and SK_BITS at most w·N. -/
theorem addressMap : Obligations.AddressMap := by
  refine ⟨fun c lane j name hw hlane hv hj => targetOf_regAddress hw hlane hv hj, fun c a t _ halign _ ht => ?_,
    fun s a rest hw hb hp hnone => ?_, fun c hw => ⟨wf_n_le hw, wf_k_le hw⟩⟩
  · have hmap := mappedAt_of_targetOf ht
    rw [Nat.div_mul_cancel (Nat.dvd_of_mod_eq_zero halign)] at hmap
    cases t <;> exact hmap
  · rw [step_access_of_not_busy hw hb hp]
    exact perform_of_badAccess (.inr (.inr (.inl hnone)))

/-- The lane windows lie inside the 24-bit host window, with aligned limbs. -/
theorem toNat_ofNat_regAddress {c : Config} {lane j : Nat} {name : RegName} (hw : c.wf = true) (hlane : lane < c.k)
    (hv : name.valid = true) (hj : j < limbCount c name) :
    (BitVec.ofNat 24 (regAddress lane name j)).toNat = regAddress lane name j := by
  have ho := regOffset_lt hw hv hj
  have hk := wf_k_le hw
  have hlt : regAddress lane name j < 2 ^ 24 := by rw [regAddress_eq]; omega
  rw [BitVec.toNat_ofNat, Nat.mod_eq_of_lt hlt]

theorem regAddress_mod_eight (lane : Nat) (name : RegName) (j : Nat) : regAddress lane name j % 8 = 0 := by
  cases name <;> simp only [regAddress, laneBase] <;> omega

/-! ## Host accesses to a register -/

section Access

variable {s : State} {rest : List HostEvent} {lane j : Nat} {l : Lane} {name : RegName} {u : HostWord}

/-- A host write to a register's limb or word (R76, R77). -/
theorem step_writeRegister (hw : s.cfg.wf = true) (hb : s.status.busy = false) (hlane : lane < s.cfg.k)
    (hl : s.lanes[lane]? = some l) (hv : name.valid = true) (hj : j < limbCount s.cfg name)
    (hp : s.port = .access { addr := BitVec.ofNat 24 (regAddress lane name j), bytes := 8, kind := .write u } :: rest) :
    step s = .next { s with port := rest, responses := ⟨0, false⟩ :: s.responses,
                            lanes := s.lanes.set lane (l.put name ((l.get name).hostWrite s.cfg name j u.toNat)) } := by
  have haddr := toNat_ofNat_regAddress hw hlane hv hj
  have hmodify : ∀ f : Lane → Lane, s.lanes.modify lane f = s.lanes.set lane (f l) := fun f => by
    rw [List.modify_eq_set_getElem?, hl]; rfl
  rw [step_write hw hb hp (by rw [haddr]; exact regAddress_mod_eight lane name j)
    (by rw [haddr]; exact targetOf_regAddress hw hlane hv hj)]
  simp [performWrite, State.writeRegister, State.respond, hmodify]

/-- A host read of a register's limb or word (R75, R77): the value once it is written, else a free one. -/
theorem step_readRegister (hw : s.cfg.wf = true) (hb : s.status.busy = false) (hlane : lane < s.cfg.k)
    (hl : s.lanes[lane]? = some l) (hv : name.valid = true) (hj : j < limbCount s.cfg name)
    (hp : s.port = .access { addr := BitVec.ofNat 24 (regAddress lane name j), bytes := 8, kind := .read } :: rest) :
    ∃ t v, step s = .next t ∧ t.responses = ⟨registerWord s.cfg name v j, false⟩ :: s.responses ∧ t.lanes = s.lanes ∧
      t.status = s.status ∧ t.latch = s.latch ∧ t.port = rest ∧
      (l.val name < capacity s.cfg name → v < capacity s.cfg name) ∧
      ((l.get name).wordWritten j = true → v = l.val name) := by
  have haddr := toNat_ofNat_regAddress hw hlane hv hj
  rw [step_read hw hb hp (by rw [haddr]; exact regAddress_mod_eight lane name j)
    (by rw [haddr]; exact targetOf_regAddress hw hlane hv hj)]
  simp only [State.hostRead, State.readRegister, hl]
  cases hwritten : (l.get name).wordWritten j with
  | true => exact ⟨_, l.val name, rfl, rfl, rfl, rfl, rfl, rfl, id, fun _ => rfl⟩
  | false =>
    exact ⟨_, _, rfl, rfl, rfl, rfl, rfl, rfl, fun _ => Nat.mod_lt _ (capacity_pos s.cfg name), fun h => by cases h⟩

end Access

/-- A register counts as written once each of its limbs is marked (R40, R76). -/
theorem isWritten_iff (x : Reg) : x.isWritten = true ↔ ∀ j, j < x.written.length → x.wordWritten j = true := by
  simp only [Reg.isWritten, Reg.wordWritten, List.all_eq_true, id, List.getD_eq_getElem?_getD]
  constructor
  · intro h j hj
    simpa [hj] using h _ (List.getElem_mem hj)
  · intro h b hb
    obtain ⟨j, hj, rfl⟩ := List.mem_iff_getElem.1 hb
    simpa [hj] using h j hj

theorem hostWrite_of_ne_sk {name : RegName} (h : name ≠ .sk) (c : Config) (x : Reg) (j u : Nat) :
    x.hostWrite c name j u = x.hostWriteLimb c.w j u := by
  cases name with
  | sk => exact absurd rfl h
  | e | d => rfl

theorem wordBits_of_ne_sk {name : RegName} (h : name ≠ .sk) (c : Config) : wordBits c name = c.w := by
  cases name with
  | sk => exact absurd rfl h
  | e | d => rfl

/-- Settles O28: the write is R76's formula; a written register has each limb marked. -/
theorem hostWriteLimb : Obligations.HostWriteLimb := by
  refine ⟨fun s rest lane j l name u hw hb hlane hl hne hv hj hp => ?_, isWritten_iff,
    fun c l name v => isWritten_write_self l c name v⟩
  rw [step_writeRegister hw hb hlane hl hv hj hp, hostWrite_of_ne_sk hne]
  rfl

/-- Settles O29: the word answered is a limb of w bits, of the register's value once the limb is written. -/
theorem hostReadLimb : Obligations.HostReadLimb := by
  intro s rest lane j l name hw hb hlane hl hne hv hj hp
  obtain ⟨t, v, hstep, hresp, hlanes, hstatus, hlatch, hport, -, hval⟩ := step_readRegister hw hb hlane hl hv hj hp
  have hword : (registerWord s.cfg name v j).toNat = limbOf s.cfg.w v j := by
    rw [registerWord, wordBits_of_ne_sk hne, toNat_ofNat_limbOf (wf_w_le hw)]
  refine ⟨t, _, hstep, hresp, hlanes, hstatus, hlatch, hport, ?_, fun h => ?_⟩
  · rw [hword]; exact Nat.mod_lt _ (Nat.two_pow_pos _)
  · rw [hword, hval h]; rfl

/-! ## The bits of a limb -/

theorem testBit_limbOf (bits v j b : Nat) :
    (limbOf bits v j).testBit b = (decide (b < bits) && v.testBit (bits * j + b)) := by
  rw [limbOf, Nat.testBit_mod_two_pow, Nat.testBit_div_two_pow, Nat.add_comm]

/-- A value with one limb replaced, as the bits above the limb, the limb and the bits below it (R76). -/
theorem withLimb_eq (bits v j u : Nat) :
    withLimb bits v j u =
      2 ^ (bits * j) * (2 ^ bits * (v / 2 ^ (bits * j) / 2 ^ bits) + u % 2 ^ bits) + v % 2 ^ (bits * j) := by
  unfold withLimb limbOf
  generalize hA : 2 ^ (bits * j) = A
  generalize hB : 2 ^ bits = B
  have hv := Nat.div_add_mod v A
  have hq := Nat.div_add_mod (v / A) B
  have hsplit : v = A * (B * (v / A / B)) + v % A + v / A % B * A := by
    conv_lhs => rw [← hv, ← hq]
    ring
  rw [Nat.sub_eq_of_eq_add hsplit]
  ring

theorem testBit_withLimb (bits v j u b : Nat) : (withLimb bits v j u).testBit b =
    if bits * j ≤ b ∧ b < bits * j + bits then u.testBit (b - bits * j) else v.testBit b := by
  rw [withLimb_eq, Nat.testBit_two_pow_mul_add _ (Nat.mod_lt _ (Nat.two_pow_pos _)),
    Nat.testBit_two_pow_mul_add _ (Nat.mod_lt _ (Nat.two_pow_pos _)), Nat.testBit_mod_two_pow, Nat.testBit_mod_two_pow,
    Nat.testBit_div_two_pow, Nat.testBit_div_two_pow]
  by_cases hlow : b < bits * j
  · simp [hlow, Nat.not_le.2 hlow]
  · by_cases hlimb : b - bits * j < bits
    · simp [hlow, hlimb, Nat.not_lt.1 hlow, show b < bits * j + bits by omega]
    · simp [hlow, hlimb, show ¬ b < bits * j + bits by omega, show b - bits * j - bits + bits + bits * j = b by omega]

/-! ## SK and whole registers -/

/-- A written mark set at j: the other marks stay (R77). -/
theorem isWritten_set_iff (x : Reg) (v j : Nat) :
    ({ val := v, written := x.written.set j true } : Reg).isWritten = true ↔
      ∀ i, i < x.written.length → i = j ∨ x.wordWritten i = true := by
  rw [isWritten_iff]
  simp only [List.length_set, Reg.wordWritten, List.getD_eq_getElem?_getD]
  refine forall₂_congr fun i hi => ?_
  by_cases hij : i = j
  · subst hij; simp [hi]
  · simp [hij, Ne.symm hij]

/-- Settles O30: bit by bit, a word of SK is 64 of its bits, cut off at SK_BITS. -/
theorem hostScalar : Obligations.HostScalar := by
  refine ⟨fun s rest lane j l u hw hb hlane hl hj hsk hp => ?_, fun s rest lane j l hw hb hlane hl hj hsk hp => ?_⟩
  · refine ⟨l.sk.hostWriteScalar s.cfg j u.toNat, step_writeRegister hw hb hlane hl rfl hj hp, rfl,
      fun hlen => ?_, fun b => ?_⟩
    · rw [← hlen]; exact isWritten_set_iff l.sk _ j
    · rw [Reg.hostWriteScalar, Nat.testBit_mod_two_pow, testBit_withLimb]
      by_cases hb : s.cfg.skBits ≤ b
      · simp [hb]
      · simp [hb, Nat.not_le.1 hb, BitVec.testBit_toNat]
  · obtain ⟨t, v, hstep, hresp, hlanes, -, -, -, hv, hval⟩ := step_readRegister hw hb hlane hl rfl hj hp
    have hbit : ∀ b, b < 64 → (registerWord s.cfg .sk v j).getLsbD b = v.testBit (64 * j + b) := fun b hb => by
      rw [registerWord, wordBits, BitVec.getLsbD_ofNat, testBit_limbOf, decide_eq_true hb, Bool.true_and, Bool.true_and]
    refine ⟨t, _, hstep, hresp, hlanes, fun b hb habove => ?_, fun h b hb => ?_⟩
    · rw [hbit b hb]
      exact Nat.testBit_lt_two_pow ((hv hsk).trans_le (Nat.pow_le_pow_right (by decide) habove))
    · rw [hbit b hb, hval h]; rfl

/-- The sum of the first m limbs (R75). -/
def limbSum (bits : Nat) (u : Nat → Nat) (m : Nat) : Nat :=
  ((List.range m).map fun j => u j % 2 ^ bits * 2 ^ (bits * j)).sum

theorem limbSum_succ (bits : Nat) (u : Nat → Nat) (m : Nat) :
    limbSum bits u (m + 1) = 2 ^ (bits * m) * (u m % 2 ^ bits) + limbSum bits u m := by
  simp [limbSum, List.range_succ, Nat.mul_comm, Nat.add_comm]

theorem limbSum_lt (bits : Nat) (u : Nat → Nat) (m : Nat) : limbSum bits u m < 2 ^ (bits * m) := by
  induction m with
  | zero => simp [limbSum]
  | succ m ih =>
    have hu : u m % 2 ^ bits + 1 ≤ 2 ^ bits := Nat.mod_lt _ (Nat.two_pow_pos _)
    calc limbSum bits u (m + 1) < 2 ^ (bits * m) * (u m % 2 ^ bits + 1) := by rw [limbSum_succ]; nlinarith
      _ ≤ 2 ^ (bits * (m + 1)) := by
        rw [Nat.mul_succ bits m, Nat.pow_add]
        exact Nat.mul_le_mul_left _ hu

/-- Host writes of the first m limbs, in order (R76). -/
def loadLimbs (bits : Nat) (u : Nat → Nat) (x : Reg) (m : Nat) : Reg :=
  (List.range m).foldl (fun z j => z.hostWriteLimb bits j (u j)) x

theorem loadLimbs_succ (bits : Nat) (u : Nat → Nat) (x : Reg) (m : Nat) :
    loadLimbs bits u x (m + 1) = (loadLimbs bits u x m).hostWriteLimb bits m (u m) := by
  simp [loadLimbs, List.range_succ]

/-- After m limbs the register holds their sum below its old upper part. -/
theorem loadLimbs_val (bits : Nat) (u : Nat → Nat) (x : Reg) (m : Nat) :
    (loadLimbs bits u x m).val = 2 ^ (bits * m) * (x.val / 2 ^ (bits * m)) + limbSum bits u m := by
  induction m with
  | zero => simp [loadLimbs, limbSum]
  | succ m ih =>
    have hlt := limbSum_lt bits u m
    rw [loadLimbs_succ, Reg.hostWriteLimb, withLimb_eq, ih, Nat.mul_add_div (Nat.two_pow_pos _), Nat.div_eq_of_lt hlt,
      Nat.add_zero, Nat.mul_add_mod, Nat.mod_eq_of_lt hlt, Nat.div_div_eq_div_mul, ← Nat.pow_add, limbSum_succ,
      Nat.mul_add, ← Nat.mul_assoc, ← Nat.pow_add, Nat.mul_succ, Nat.add_assoc]

theorem loadLimbs_length (bits : Nat) (u : Nat → Nat) (x : Reg) (m : Nat) :
    (loadLimbs bits u x m).written.length = x.written.length := by
  induction m with
  | zero => rfl
  | succ m ih => rw [loadLimbs_succ, Reg.hostWriteLimb, List.length_set, ih]

theorem loadLimbs_wordWritten (bits : Nat) (u : Nat → Nat) (x : Reg) {m j : Nat} (hj : j < m)
    (hx : j < x.written.length) : (loadLimbs bits u x m).wordWritten j = true := by
  induction m with
  | zero => omega
  | succ m ih =>
    have hlen := loadLimbs_length bits u x m
    simp only [loadLimbs_succ, Reg.hostWriteLimb, Reg.wordWritten, List.getD_eq_getElem?_getD, List.getElem?_set] at ih ⊢
    by_cases hjm : m = j
    · subst hjm
      simp [hlen, hx]
    · simpa [hjm] using ih (by omega)

/-- Settles O31: after all N limbs nothing of the old value is left, for it was below R. -/
theorem hostLoadsRegister : Obligations.HostLoadsRegister := by
  intro c x u _ hx hlen
  have hval := loadLimbs_val c.w u x c.n
  rw [Nat.div_eq_of_lt (show x.val < 2 ^ (c.w * c.n) from hx), Nat.mul_zero, Nat.zero_add] at hval
  refine ⟨(isWritten_iff _).2 fun j hj => ?_, hval.trans_lt (limbSum_lt c.w u c.n), hval⟩
  have hj' := hj.trans_eq (loadLimbs_length c.w u x c.n)
  exact loadLimbs_wordWritten c.w u x (hlen ▸ hj') hj'

/-! ## Bus errors -/

/-- A read of a mapped address is answered without error: a mapped register is in a lane that exists. -/
theorem hostRead_responses {s : State} {a : Nat} {x : Target} (hlen : s.lanes.length = s.cfg.k)
    (hx : targetOf s.cfg a = some x) : ∃ r, (s.hostRead x).responses = ⟨r, false⟩ :: s.responses := by
  cases x with
  | reg lane name j =>
    obtain ⟨hlane, -⟩ := mappedAt_of_targetOf hx
    simp only [State.hostRead, State.readRegister, List.getElem?_eq_getElem (hlen ▸ hlane)]
    split <;> exact ⟨_, rfl⟩
  | _ => exact ⟨_, rfl⟩

/-- Settles O34: R78's accesses get the error, and every other case of a performed access answers without one. -/
theorem busErrors : Obligations.BusErrors := by
  refine ⟨fun s a rest hw hb hp hbad => ?_, fun s t a rest hlen hb hp hgood hstep => ?_⟩
  · exact (step_access_of_not_busy hw hb hp).trans (perform_of_badAccess hbad)
  · have hw := (stepped_of_step hstep).1
    obtain ⟨t', hperform, ht⟩ := perform_performed (s := { s with port := rest }) hw a
    rw [step_access_of_not_busy hw hb hp, hperform] at hstep
    obtain rfl := Host.Outcome.next.inj hstep
    cases ht with
    | busError h => exact absurd h hgood
    | read _ hx => exact hostRead_responses (s := { s with port := rest }) hlen hx
    | @status u =>
      refine ⟨0, ?_⟩
      unfold State.writeStatus
      split <;> rfl
    | register | discarded | rejected | accepted => exact ⟨0, rfl⟩

end Sys2Proof.Proofs
end

section
/-! PROOFS. Laws of a lane's registers: what a put and a list of writes leave, and that they keep the lane's invariant (R31, R35,
R40, R44). -/

namespace Sys2Proof.Proofs

open Sys2Proof.Machine Sys2Proof.Laws

variable {c : Config} {l m : Lane} {name other : RegName} {ws : List (RegName × Nat)}

/-! ## Names that designate one register -/

theorem get_of_selector_eq (h : selector name = selector other) (l : Lane) : l.get name = l.get other := by
  cases name with
  | e i => cases other <;> simp_all [selector]
  | d i =>
    cases other with
    | d j =>
      have hij : i.setWidth 2 = j.setWidth 2 := by simpa [selector] using congrArg (BitVec.setWidth 2) (RegName.d.inj h)
      simp only [Lane.get, hij]
    | e | sk => simp [selector] at h
  | sk => cases other <;> simp_all [selector]

theorem get_put_of_selector_eq (h : selector name = selector other) (l : Lane) (x : Reg) :
    (l.put name x).get other = x := by
  rw [← get_of_selector_eq h, get_put_self]

theorem capacity_of_selector_eq (h : selector name = selector other) (c : Config) :
    capacity c name = capacity c other := by
  cases name <;> cases other <;> simp_all [selector, capacity]

theorem limbCount_of_selector_eq (h : selector name = selector other) (c : Config) :
    limbCount c name = limbCount c other := by
  cases name <;> cases other <;> simp_all [selector, limbCount]

/-- Two names of registers that exist designate one register only if they are the same. -/
theorem eq_of_selector_eq (hn : name.valid = true) (ho : other.valid = true) (h : selector name = selector other) :
    name = other := by
  have hself : ∀ {x : RegName}, x.valid = true → selector x = x := fun {x} hx => by
    cases x with
    | d i => simp only [RegName.valid, decide_eq_true_eq] at hx; simp only [selector]; congr 1; bv_omega
    | e | sk => rfl
  rwa [hself hn, hself ho] at h

/-! ## Writes -/

theorem put_inv (hl : l.Inv c) {x : Reg} (hval : x.val < capacity c name) (hlen : x.written.length = limbCount c name) :
    (l.put name x).Inv c := by
  intro other
  by_cases h : selector name = selector other
  · rw [get_put_of_selector_eq h, ← capacity_of_selector_eq h, ← limbCount_of_selector_eq h]
    exact ⟨hval, hlen⟩
  · rw [get_put_of_ne l h]
    exact hl other

theorem write_inv (hl : l.Inv c) {v : Nat} (hv : v < capacity c name) : (l.write c name v).Inv c :=
  put_inv hl hv (List.length_replicate ..)

theorem writeAll_inv (hl : l.Inv c) (hv : ∀ nv ∈ ws, nv.2 < capacity c nv.1) : (l.writeAll c ws).Inv c := by
  induction ws generalizing l with
  | nil => exact hl
  | cons nv ws ih =>
    exact ih (write_inv hl (hv nv List.mem_cons_self)) fun x hx => hv x (List.mem_cons_of_mem _ hx)

/-- After a list of writes each register it names holds one of the list's values for it, whatever the lane held. -/
theorem exists_get_writeAll (h : ∃ nv ∈ ws, selector nv.1 = selector name) :
    ∃ nv ∈ ws, selector nv.1 = selector name ∧ ∀ l : Lane,
      (l.writeAll c ws).get name = { val := nv.2, written := List.replicate (limbCount c nv.1) true } := by
  induction ws with
  | nil => simp at h
  | cons nv ws ih =>
    by_cases hlater : ∃ x ∈ ws, selector x.1 = selector name
    · obtain ⟨x, hx, hsel, hget⟩ := ih hlater
      exact ⟨x, List.mem_cons_of_mem _ hx, hsel, fun l => hget (l.write c nv.1 nv.2)⟩
    · obtain ⟨x, hx, hsel⟩ := h
      obtain rfl | hx := List.mem_cons.1 hx
      · refine ⟨x, List.mem_cons_self, hsel, fun l => ?_⟩
        rw [writeAll_cons, get_writeAll_of_notMem c ws _ fun y hy hysel => hlater ⟨y, hy, hysel⟩]
        exact get_put_of_selector_eq hsel l _
      · exact absurd ⟨x, hx, hsel⟩ hlater

/-- What a list of writes leaves in the registers it names does not depend on the lane. -/
theorem get_writeAll_congr (h : name ∈ ws.map Prod.fst) (l m : Lane) :
    (l.writeAll c ws).get name = (m.writeAll c ws).get name := by
  obtain ⟨nv, hnv, rfl⟩ := List.mem_map.1 h
  obtain ⟨x, -, -, hget⟩ := exists_get_writeAll (c := c) ⟨nv, hnv, rfl⟩
  rw [hget l, hget m]

theorem isWritten_writeAll (h : name ∈ ws.map Prod.fst) : ((l.writeAll c ws).get name).isWritten = true := by
  obtain ⟨nv, hnv, rfl⟩ := List.mem_map.1 h
  obtain ⟨x, -, -, hget⟩ := exists_get_writeAll (c := c) ⟨nv, hnv, rfl⟩
  simp [hget l, Reg.isWritten]

theorem val_writeAll_lt (h : name ∈ ws.map Prod.fst) (hv : ∀ nv ∈ ws, nv.2 < capacity c nv.1) :
    (l.writeAll c ws).val name < capacity c name := by
  obtain ⟨nv, hnv, rfl⟩ := List.mem_map.1 h
  obtain ⟨x, hx, hsel, hget⟩ := exists_get_writeAll (c := c) ⟨nv, hnv, rfl⟩
  rw [Lane.val, hget l, ← capacity_of_selector_eq hsel]
  exact hv x hx

end Sys2Proof.Proofs
end

section
/-! PROOFS. What the bodies of the commands' rules ensure, whatever the registers hold: a value for each destination, below its
capacity in a lane that meets its invariant (R31, R35, R310). -/

namespace Sys2Proof.Proofs

open Sys2Proof.Machine Sys2Proof.Laws

variable {c : Config} {l : Lane}

/-! ## The results of the functions -/

theorem fp2neg_ensures (a : Fp2) : Ensures (fp2neg c a) c.Working2 := lift1_ensures fpneg_ensures a

theorem fp2div2_ensures (a : Fp2) : Ensures (fp2div2 c a) c.Working2 := lift1_ensures fpdiv2_ensures a

theorem fp2corr_ensures (a : Fp2) : Ensures (fp2corr c a) c.Working2 := lift1_ensures fpcorr_ensures a

theorem fp2tomont_ensures (a : Fp2) : Ensures (fp2tomont c a) c.Working2 := lift1_ensures tomont_ensures a

theorem fp2frommont_ensures (a : Fp2) : Ensures (fp2frommont c a) c.Working2 := lift1_ensures frommont_ensures a

theorem xdbl_ensures (P : Pt) (a d : Fp2) : Ensures (xdbl c P a d) c.WorkingPt :=
  Ensures.tail fun _ => Ensures.tail fun _ => Ensures.tail fun _ => Ensures.tail fun _ => Ensures.tail fun _ =>
    (fp2mul_ensures _ _).bind fun _ hx => Ensures.tail fun _ => Ensures.tail fun _ => Ensures.tail fun _ =>
      (fp2mul_ensures _ _).bind fun _ hz => Ensures.pure ⟨hx, hz⟩

theorem xtpl_ensures (P : Pt) (m a : Fp2) : Ensures (xtpl c P m a) c.WorkingPt :=
  Ensures.tail fun _ => Ensures.tail fun _ => Ensures.tail fun _ => Ensures.tail fun _ => Ensures.tail fun _ =>
    Ensures.tail fun _ => Ensures.tail fun _ => Ensures.tail fun _ => Ensures.tail fun _ => Ensures.tail fun _ =>
    Ensures.tail fun _ => Ensures.tail fun _ => Ensures.tail fun _ => Ensures.tail fun _ => Ensures.tail fun _ =>
    Ensures.tail fun _ => Ensures.tail fun _ => Ensures.tail fun _ => (fp2mul_ensures _ _).bind fun _ hx =>
      Ensures.tail fun _ => Ensures.tail fun _ => (fp2mul_ensures _ _).bind fun _ hz => Ensures.pure ⟨hx, hz⟩

theorem xdbladd_ensures (P Q : Pt) (x a : Fp2) :
    Ensures (xdbladd c P Q x a) fun t => c.WorkingPt t.1 ∧ c.WorkingPt t.2 :=
  Ensures.tail fun _ => Ensures.tail fun _ => Ensures.tail fun _ => Ensures.tail fun _ => Ensures.tail fun _ =>
    Ensures.tail fun _ => Ensures.tail fun _ => Ensures.tail fun _ => Ensures.tail fun _ => Ensures.tail fun _ =>
    (fp2mul_ensures _ _).bind fun _ hxP => Ensures.tail fun _ => Ensures.tail fun _ => Ensures.tail fun _ =>
      Ensures.tail fun _ => (fp2mul_ensures _ _).bind fun _ hzP => Ensures.tail fun _ =>
        (fp2sqr_ensures _).bind fun _ hxQ => (fp2mul_ensures _ _).bind fun _ hzQ => Ensures.pure ⟨⟨hxP, hzP⟩, hxQ, hzQ⟩

theorem get4_ensures (K : Pt) :
    Ensures (get4 c K) fun g => c.Working2 g.1 ∧ c.Working2 g.2.1 ∧ Coeffs4.Working c g.2.2 :=
  (fp2sub_ensures _ _).bind fun _ h1 => (fp2add_ensures _ _).bind fun _ h2 => Ensures.tail fun _ => Ensures.tail fun _ =>
    (fp2sqr_ensures _).bind fun _ hd => (fp2add_ensures _ _).bind fun _ h0 => Ensures.tail fun _ => Ensures.tail fun _ =>
      (fp2sqr_ensures _).bind fun _ ha => Ensures.pure ⟨ha, hd, h0, h1, h2⟩

theorem eval4_ensures (P : Pt) (k : Coeffs4) : Ensures (eval4 c P k) c.WorkingPt :=
  Ensures.tail fun _ => Ensures.tail fun _ => Ensures.tail fun _ => Ensures.tail fun _ => Ensures.tail fun _ =>
    Ensures.tail fun _ => Ensures.tail fun _ => Ensures.tail fun _ => Ensures.tail fun _ => Ensures.tail fun _ =>
    Ensures.tail fun _ => Ensures.tail fun _ => (fp2mul_ensures _ _).bind fun _ hx => (fp2mul_ensures _ _).bind fun _ hz =>
      Ensures.pure ⟨hx, hz⟩

theorem get3_ensures (K : Pt) :
    Ensures (get3 c K) fun g => c.Working2 g.1 ∧ c.Working2 g.2.1 ∧ Coeffs2.Working c g.2.2 :=
  (fp2sub_ensures _ _).bind fun _ h0 => Ensures.tail fun _ => (fp2add_ensures _ _).bind fun _ h1 => Ensures.tail fun _ =>
    Ensures.tail fun _ => Ensures.tail fun _ => Ensures.tail fun _ => Ensures.tail fun _ => Ensures.tail fun _ =>
    Ensures.tail fun _ => Ensures.tail fun _ => Ensures.tail fun _ => Ensures.tail fun _ =>
    (fp2mul_ensures _ _).bind fun _ hm => Ensures.tail fun _ => Ensures.tail fun _ => Ensures.tail fun _ =>
      (fp2mul_ensures _ _).bind fun _ ha => Ensures.pure ⟨ha, hm, h0, h1⟩

theorem eval3_ensures (P : Pt) (k : Coeffs2) : Ensures (eval3 c P k) c.WorkingPt :=
  Ensures.tail fun _ => Ensures.tail fun _ => Ensures.tail fun _ => Ensures.tail fun _ => Ensures.tail fun _ =>
    Ensures.tail fun _ => Ensures.tail fun _ => Ensures.tail fun _ => (fp2mul_ensures _ _).bind fun _ hx =>
      (fp2mul_ensures _ _).bind fun _ hz => Ensures.pure ⟨hx, hz⟩

/-- GET2's coefficients are the kernel itself, whatever it holds (R258). -/
theorem get2_ensures (K : Pt) :
    Ensures (get2 c K) fun g => c.Working2 g.1 ∧ c.Working2 g.2.1 ∧ g.2.2 = ⟨K.x, K.z⟩ :=
  Ensures.tail fun _ => (fp2sqr_ensures _).bind fun _ hd => (fp2sub_ensures _ _).bind fun _ ha =>
    Ensures.pure ⟨ha, hd, rfl⟩

theorem eval2_ensures (P : Pt) (k : Coeffs2) : Ensures (eval2 c P k) c.WorkingPt :=
  Ensures.tail fun _ => Ensures.tail fun _ => Ensures.tail fun _ => Ensures.tail fun _ => Ensures.tail fun _ =>
    Ensures.tail fun _ => Ensures.tail fun _ => Ensures.tail fun _ => (fp2mul_ensures _ _).bind fun _ hx =>
      (fp2mul_ensures _ _).bind fun _ hz => Ensures.pure ⟨hx, hz⟩

theorem inv3way_ensures (z1 z2 z3 : Fp2) :
    Ensures (inv3way c z1 z2 z3) fun g => c.Working2 g.1 ∧ c.Working2 g.2.1 ∧ c.Working2 g.2.2 :=
  Ensures.tail fun _ => Ensures.tail fun _ => Ensures.tail fun _ => Ensures.tail fun _ =>
    (fp2mul_ensures _ _).bind fun _ h1 => (fp2mul_ensures _ _).bind fun _ h2 => (fp2mul_ensures _ _).bind fun _ h3 =>
      Ensures.pure ⟨h1, h2, h3⟩

theorem geta_ensures (xP xQ xR : Fp2) : Ensures (geta c xP xQ xR) c.Working2 :=
  Ensures.tail fun _ => Ensures.tail fun _ => Ensures.tail fun _ => Ensures.tail fun _ => Ensures.tail fun _ =>
    Ensures.tail fun _ => Ensures.tail fun _ => Ensures.tail fun _ => Ensures.tail fun _ => Ensures.tail fun _ =>
    Ensures.tail fun _ => Ensures.tail fun _ => fp2sub_ensures _ _

theorem jinv_ensures (a d : Fp2) : Ensures (jinv c a d) c.Working2 :=
  Ensures.tail fun _ => Ensures.tail fun _ => Ensures.tail fun _ => Ensures.tail fun _ => Ensures.tail fun _ =>
    Ensures.tail fun _ => Ensures.tail fun _ => Ensures.tail fun _ => Ensures.tail fun _ => Ensures.tail fun _ =>
    Ensures.tail fun _ => Ensures.tail fun _ => Ensures.tail fun _ => Ensures.tail fun _ => Ensures.tail fun _ =>
      fp2mul_ensures _ _

/-! ## The repeated and sequenced functions: what working results and the operands satisfy -/

section Results

variable {Q : Pt → Prop} (hQ : ∀ t, c.WorkingPt t → Q t)
include hQ

/-- e = 0 leaves the operand, any other count a working point (R232). -/
theorem xdble_ensures {P : Pt} (hP : Q P) (a d : Fp2) (e : Nat) : Ensures (xdble c P a d e) Q := by
  induction e generalizing P with
  | zero => exact Ensures.pure hP
  | succ e ih => exact (xdbl_ensures P a d).bind fun t ht => ih (hQ t ht)

theorem xtple_ensures {P : Pt} (hP : Q P) (m a : Fp2) (e : Nat) : Ensures (xtple c P m a e) Q := by
  induction e generalizing P with
  | zero => exact Ensures.pure hP
  | succ e ih => exact (xtpl_ensures P m a).bind fun t ht => ih (hQ t ht)

/-- One iteration keeps one of R2 and R as it is, and makes a working point for the other (R281). -/
theorem ladderStep_ensures (a24 : Fp2) (bit : Bool) {s : Machine.Ladder} (h2 : Q s.r2) (hr : Q s.r) :
    Ensures (ladderStep c a24 bit s) fun t => Q t.r2 ∧ Q t.r := by
  refine (xdbladd_ensures _ _ _ _).bind fun t ht => (fp2mul_ensures _ _).bind fun x hx =>
    Ensures.pure ⟨hQ _ ⟨hx, ht.2.2⟩, ?_⟩
  simp only [Machine.Ladder.cswap]
  split <;> assumption

theorem ladderLoop_ensures (a24 : Fp2) (m left : Nat) {i : Nat} {s : Machine.Ladder} (h2 : Q s.r2) (hr : Q s.r) :
    Ensures (ladderLoop c a24 m left i s) fun t => Q t.r2 ∧ Q t.r := by
  induction left generalizing i s with
  | zero => exact Ensures.pure ⟨h2, hr⟩
  | succ left ih => exact (ladderStep_ensures hQ a24 _ h2 hr).bind fun t ht => ih ht.1 ht.2

theorem ladder_ensures {xP xPQ : Fp2} (hP : Q ⟨xP, c.one2⟩) (hPQ : Q ⟨xPQ, c.one2⟩) (xQ a : Fp2) (m nbits : Nat) :
    Ensures (ladder c xP xQ xPQ a m nbits) Q := by
  refine Ensures.tail fun _ => Ensures.tail fun _ => Ensures.tail fun _ => Ensures.tail fun _ =>
    (ladderLoop_ensures hQ _ m nbits hPQ hP).bind fun t ht => Ensures.pure ?_
  simp only [Machine.Ladder.cswap]
  split
  · exact ht.1
  · exact ht.2

end Results

theorem evalAll_ensures {ev : Pt → Eng Pt} {Q : Pt → Prop} (hev : ∀ t, Ensures (ev t) Q) (ts : List Pt) :
    Ensures (evalAll ev ts) fun us => us.length = ts.length ∧ ∀ u ∈ us, Q u := by
  induction ts with
  | nil => exact Ensures.pure ⟨rfl, by simp⟩
  | cons t ts ih =>
    exact (hev t).bind fun u hu => ih.bind fun us hus => Ensures.pure ⟨by simp [hus.1], by simpa using ⟨hu, hus.2⟩⟩

/-! A walk keeps the number of its auxiliary points (R291). -/

section Walk

variable {κ : Type} (ops : Isogenies κ)

theorem descend_aux (target : Nat) (strat : List Nat) (v : Walk) :
    Ensures (descend ops target strat v) fun u => u.aux = v.aux := by
  induction strat generalizing v with
  | nil => exact Ensures.pure rfl
  | cons n rest ih =>
    unfold descend
    split
    · exact Ensures.tail fun r => ih _
    · exact Ensures.pure rfl

theorem takeIsogeny_aux (v : Walk) : Ensures (takeIsogeny ops v) fun g => g.1.aux.length = v.aux.length :=
  Ensures.tail fun _ => Ensures.tail fun _ => (evalAll_length _ _).bind fun _ h => Ensures.pure h

theorem popWalk_aux (v : Walk) : (popWalk v).aux = v.aux := by
  unfold popWalk
  split <;> rfl

theorem walkRows_aux (m : Nat) (v : Walk) : Ensures (walkRows ops m v) fun u => u.aux.length = v.aux.length := by
  induction m generalizing v with
  | zero => exact Ensures.pure rfl
  | succ m ih =>
    refine (descend_aux ops _ _ v).bind fun v1 h1 => (takeIsogeny_aux ops v1).bind fun g hg tr u tr' hu => ?_
    have hlen := ih (popWalk g.1) tr u tr' hu
    rw [hlen, popWalk_aux, hg, h1]

/-- The chain walk's results are those of its last construction and evaluations (R291). -/
theorem walkChain_ensures {good : κ → Prop}
    (hget : ∀ t, Ensures (ops.get t) fun g => c.Working2 g.1 ∧ c.Working2 g.2.1 ∧ good g.2.2)
    (heval : ∀ t k, Ensures (ops.eval t k) c.WorkingPt) (R : Pt) (v0 v1 : Fp2) (aux : List Pt) :
    Ensures (walkChain ops R v0 v1 aux) fun g => c.Working2 g.1 ∧ c.Working2 g.2.1 ∧ good g.2.2.1 ∧
      g.2.2.2.length = aux.length ∧ ∀ t ∈ g.2.2.2, c.WorkingPt t :=
  (walkRows_aux ops _ _).bind fun v hv => (hget v.pt).bind fun _ hg =>
    (evalAll_ensures (fun t => heval t _) v.aux).bind fun _ ha =>
      Ensures.pure ⟨hg.1, hg.2.1, hg.2.2, ha.1.trans hv, ha.2⟩

end Walk

theorem chainOfB_ensures (R : Pt) (v0 v1 : Fp2) (aux : List Pt) :
    Ensures (chainOfB c R v0 v1 aux) fun g => c.Working2 g.1 ∧ c.Working2 g.2.1 ∧ Coeffs2.Working c g.2.2.1 ∧
      g.2.2.2.length = aux.length ∧ ∀ t ∈ g.2.2.2, c.WorkingPt t :=
  walkChain_ensures (isogeniesB c) get3_ensures eval3_ensures R v0 v1 aux

theorem chainOfA_ensures (R : Pt) (v0 v1 : Fp2) (aux : List Pt) :
    Ensures (chainOfA c R v0 v1 aux) fun g => c.Working2 g.1 ∧ c.Working2 g.2.1 ∧ Coeffs4.Working c g.2.2.1 ∧
      g.2.2.2.length = aux.length ∧ ∀ t ∈ g.2.2.2, c.WorkingPt t := by
  have hwalk := walkChain_ensures (isogeniesA c) get4_ensures eval4_ensures
  unfold chainOfA
  split
  · refine Ensures.tail fun _ => Ensures.tail fun _ => (evalAll_length _ _).bind fun aux' ha =>
      Ensures.tail fun R' tr g tr' h => ?_
    have hg := hwalk R' _ _ aux' tr g tr' h
    rwa [ha] at hg
  · exact hwalk R v0 v1 aux

/-! ## Values that fit a register -/

/-- A value that an E register can hold, if the lane it is computed from holds such values (R31). -/
def InRange (c : Config) (l : Lane) (v : Nat) : Prop := c.wf = true → l.Inv c → v < c.r

/-- Both components can be held by E registers. -/
def InRange2 (c : Config) (l : Lane) (u : Fp2) : Prop := InRange c l u.a0 ∧ InRange c l u.a1

/-- All four components can be held by E registers. -/
def InRangePt (c : Config) (l : Lane) (t : Pt) : Prop := InRange2 c l t.x ∧ InRange2 c l t.z

theorem inRange_of_working {v : Nat} (h : c.Working v) : InRange c l v := fun hw _ => by
  have hr := wf_r hw
  have hp := p_pos hw
  unfold Config.Working at h
  omega

theorem inRange2_of_working {u : Fp2} (h : c.Working2 u) : InRange2 c l u :=
  ⟨inRange_of_working h.1, inRange_of_working h.2⟩

theorem inRangePt_of_working (l : Lane) (t : Pt) (h : c.WorkingPt t) : InRangePt c l t :=
  ⟨inRange2_of_working h.1, inRange2_of_working h.2⟩

theorem rE_inRange (i : RegNum) : InRange c l (l.rE i) := fun _ hl => (hl (.e i)).1

theorem rQ_inRange (b : RegNum) : InRange2 c l (l.rQ b) := ⟨rE_inRange b, rE_inRange (b + 1)⟩

theorem rP_inRange (b : RegNum) : InRangePt c l (l.rP b) := ⟨rQ_inRange b, rQ_inRange (b + 2)⟩

theorem one2_inRange : InRange2 c l c.one2 :=
  ⟨fun hw hl => inRange_of_working (one2_working hw).1 hw hl, fun _ _ => r_pos c⟩

/-- There is a value for each register, below its capacity if the lane the values are computed from meets its invariant. -/
def Fits (c : Config) (l : Lane) (names : List RegName) (vs : List Nat) : Prop :=
  vs.length = names.length ∧ (c.wf = true → l.Inv c → ∀ nv ∈ names.zip vs, nv.2 < capacity c nv.1)

theorem fits_nil : Fits c l [] [] := ⟨rfl, fun _ _ nv h => by cases h⟩

theorem fits_one {name : RegName} {v : Nat} (h : c.wf = true → l.Inv c → v < capacity c name) : Fits c l [name] [v] :=
  ⟨rfl, fun hw hl nv hnv => by
    obtain rfl : nv = (name, v) := by simpa using hnv
    exact h hw hl⟩

theorem Fits.append {ns ms : List RegName} {vs us : List Nat} (h : Fits c l ns vs) (h' : Fits c l ms us) :
    Fits c l (ns ++ ms) (vs ++ us) := by
  refine ⟨by simp [h.1, h'.1], fun hw hl nv hnv => ?_⟩
  rw [List.zip_append h.1.symm] at hnv
  obtain hnv | hnv := List.mem_append.1 hnv
  · exact h.2 hw hl nv hnv
  · exact h'.2 hw hl nv hnv

theorem fits_regsQ {b : RegNum} {u : Fp2} (h : InRange2 c l u) : Fits c l (regsQ b) u.parts :=
  (fits_one (name := .e b) h.1).append (fits_one (name := .e (b + 1)) h.2)

theorem fits_regsP {b : RegNum} {t : Pt} (h : InRangePt c l t) : Fits c l (regsP b) t.parts :=
  (fits_regsQ h.1).append (fits_regsQ h.2)

theorem fits_regsAux {aux : Bool} {b : RegNum} {pts : List Pt} (hlen : pts.length = (l.rAux aux b).length)
    (h : ∀ t ∈ pts, InRangePt c l t) : Fits c l (regsAux aux b) (pts.flatMap Pt.parts) := by
  cases aux with
  | false =>
    obtain rfl := List.length_eq_zero_iff.1 hlen
    exact fits_nil
  | true =>
    obtain ⟨t, u, v, rfl⟩ := List.length_eq_three.1 hlen
    have hfits := ((fits_regsP (b := b) (h t (by simp))).append (fits_regsP (b := b + 4) (h u (by simp)))).append
      (fits_regsP (b := b + 8) (h v (by simp)))
    simpa [regsAux] using hfits

/-! ## The bodies of the rules -/

theorem ensures_one {m : Eng Nat} {rd : RegNum} (h : Ensures m c.Working) :
    Ensures (m >>= fun v => pure [v]) (Fits c l [.e rd]) :=
  h.bind fun _ hv => Ensures.pure (fits_one (inRange_of_working hv))

theorem ensures_two {m : Eng Fp2} {rd : RegNum} (h : Ensures m c.Working2) :
    Ensures (m >>= fun v => pure v.parts) (Fits c l (regsQ rd)) :=
  h.bind fun _ hv => Ensures.pure (fits_regsQ (inRange2_of_working hv))

theorem ensures_point {m : Eng Pt} {rd : RegNum} (h : Ensures m (InRangePt c l)) :
    Ensures (m >>= fun t => pure t.parts) (Fits c l (regsP rd)) :=
  h.bind fun _ ht => Ensures.pure (fits_regsP ht)

theorem ensures_workingPoint {m : Eng Pt} {rd : RegNum} (h : Ensures m c.WorkingPt) :
    Ensures (m >>= fun t => pure t.parts) (Fits c l (regsP rd)) :=
  h.bind fun _ ht => Ensures.pure (fits_regsP (inRangePt_of_working l _ ht))

theorem rom_inRange (k : Nat) : InRange c l (c.rom k) := fun hw hl => by
  have h1 : c.Working c.montOne := (one2_working hw).1
  match k with
  | 0 => exact r_pos c
  | 1 => exact inRange_of_working h1 hw hl
  | 2 => exact inRange_of_working (montR2_working hw) hw hl
  | 3 => exact inRange_of_working (one_working hw) hw hl
  | 4 => exact inRange_of_working (show c.p ≤ 2 * c.p by omega) hw hl
  | 5 => exact inRange_of_working (show 2 * c.p ≤ 2 * c.p from le_rfl) hw hl
  | k + 6 => exact r_pos c

theorem bit_inRange (b : Bool) : InRange c l b.toNat := fun hw hl =>
  lt_of_le_of_lt (Bool.toNat_le b) (inRange_of_working (one_working hw) hw hl)

/-- Every rule that completes has a value for each of its destinations, below its capacity (R310). -/
theorem body_ensures (c : Config) (l : Lane) (i : Instr) :
    Ensures ((ruleOf i).body c l) (Fits c l (ruleOf i).dsts) := by
  cases i with
  | nop => exact Ensures.pure fits_nil
  | mpAdd => exact Ensures.require.bind fun _ h => Ensures.pure (fits_one fun _ _ => of_decide_eq_true h)
  | mpSub rd rs1 rs2 =>
    exact Ensures.tail fun _ => Ensures.pure (fits_one fun hw hl => (Nat.sub_le _ _).trans_lt (rE_inRange rs1 hw hl))
  | mpMul rd rs1 rs2 =>
    exact Ensures.pure (fits_one fun hw hl => Nat.mul_lt_mul'' (rE_inRange rs1 hw hl) (rE_inRange rs2 hw hl))
  | mpRdc => exact (redc_ensures _).bind fun _ h => Ensures.pure (fits_one (inRange_of_working h.le))
  | mpDadd => exact Ensures.require.bind fun _ h => Ensures.pure (fits_one fun _ _ => of_decide_eq_true h)
  | mpDsub rd rs1 rs2 =>
    exact Ensures.tail fun _ => Ensures.pure (fits_one fun _ hl => (Nat.sub_le _ _).trans_lt (hl (.d rs1)).1)
  | fpAdd => exact ensures_one (fpadd_ensures _ _)
  | fpSub => exact ensures_one (fpsub_ensures _ _)
  | fpNeg => exact ensures_one (fpneg_ensures _)
  | fpDiv2 => exact ensures_one (fpdiv2_ensures _)
  | fpCorr => exact ensures_one (fpcorr_ensures _)
  | fpMul => exact ensures_one (fpmul_ensures _ _)
  | fpSqr => exact ensures_one (fpsqr_ensures _)
  | fpInv => exact ensures_one (fpinv_ensures _)
  | fpToMont => exact ensures_one (tomont_ensures _)
  | fpFromMont => exact ensures_one (frommont_ensures _)
  | fpMov rd rs1 => exact Ensures.pure (fits_one (rE_inRange rs1))
  | fpLdc rd k => exact Ensures.pure (fits_one (rom_inRange k.toNat))
  | fpSel rd rs1 rs2 rs3 =>
    refine Ensures.pure (fits_one ?_)
    split
    · exact rE_inRange rs1
    · exact rE_inRange rs2
  | skBit => exact Ensures.pure (fits_one (bit_inRange _))
  | fp2Add => exact ensures_two (fp2add_ensures _ _)
  | fp2Sub => exact ensures_two (fp2sub_ensures _ _)
  | fp2Neg => exact ensures_two (fp2neg_ensures _)
  | fp2Div2 => exact ensures_two (fp2div2_ensures _)
  | fp2Corr => exact ensures_two (fp2corr_ensures _)
  | fp2Mul => exact ensures_two (fp2mul_ensures _ _)
  | fp2Sqr => exact ensures_two (fp2sqr_ensures _)
  | fp2Inv => exact ensures_two (fp2inv_ensures _)
  | fp2ToMont => exact ensures_two (fp2tomont_ensures _)
  | fp2FromMont => exact ensures_two (fp2frommont_ensures _)
  | fp2Mov rd rs1 => exact Ensures.pure (fits_regsQ (rQ_inRange rs1))
  | fp2Sel rd rs1 rs2 rs3 =>
    refine Ensures.pure (fits_regsQ ?_)
    split
    · exact rQ_inRange rs1
    · exact rQ_inRange rs2
  | xDbl => exact ensures_workingPoint (xdbl_ensures _ _ _)
  | xDble rd rs1 => exact ensures_point (xdble_ensures (inRangePt_of_working l) (rP_inRange rs1) _ _ _)
  | xTpl => exact ensures_workingPoint (xtpl_ensures _ _ _)
  | xTple rd rs1 => exact ensures_point (xtple_ensures (inRangePt_of_working l) (rP_inRange rs1) _ _ _)
  | xDblAdd =>
    exact (xdbladd_ensures _ _ _ _).bind fun _ h => Ensures.pure
      ((fits_regsP (inRangePt_of_working l _ h.1)).append (fits_regsP (inRangePt_of_working l _ h.2)))
  | get4 =>
    exact (get4_ensures _).bind fun _ ⟨ha, hd, h0, h1, h2⟩ => Ensures.pure
      (((((fits_regsQ (inRange2_of_working ha)).append (fits_regsQ (inRange2_of_working hd))).append
        (fits_regsQ (inRange2_of_working h0))).append (fits_regsQ (inRange2_of_working h1))).append
        (fits_regsQ (inRange2_of_working h2)))
  | eval4 => exact ensures_workingPoint (eval4_ensures _ _)
  | get3 =>
    exact (get3_ensures _).bind fun _ ⟨ha, hd, h0, h1⟩ => Ensures.pure
      ((((fits_regsQ (inRange2_of_working ha)).append (fits_regsQ (inRange2_of_working hd))).append
        (fits_regsQ (inRange2_of_working h0))).append (fits_regsQ (inRange2_of_working h1)))
  | eval3 => exact ensures_workingPoint (eval3_ensures _ _)
  | get2 rs1 =>
    refine (get2_ensures _).bind fun g h => Ensures.pure ?_
    obtain ⟨a, d, k⟩ := g
    obtain ⟨ha, hd, rfl⟩ := h
    exact (((fits_regsQ (inRange2_of_working ha)).append (fits_regsQ (inRange2_of_working hd))).append
        (fits_regsQ (rP_inRange rs1).1)).append (fits_regsQ (rP_inRange rs1).2)
  | eval2 => exact ensures_workingPoint (eval2_ensures _ _)
  | inv3Way =>
    exact (inv3way_ensures _ _ _).bind fun _ ⟨h1, h2, h3⟩ => Ensures.pure
      (((fits_regsQ (inRange2_of_working h1)).append (fits_regsQ (inRange2_of_working h2))).append
        (fits_regsQ (inRange2_of_working h3)))
  | getA => exact ensures_two (geta_ensures _ _ _)
  | jInv => exact ensures_two (jinv_ensures _ _)
  | ladderA rd rs1 rs2 rs3 | ladderB rd rs1 rs2 rs3 =>
    exact ensures_point (ladder_ensures (inRangePt_of_working l) ⟨rQ_inRange rs1, one2_inRange⟩
      ⟨rQ_inRange rs3, one2_inRange⟩ _ _ _ _)
  | chainA rd rs1 aux =>
    exact (chainOfA_ensures _ _ _ _).bind fun _ ⟨ha, hd, ⟨h0, h1, h2⟩, hlen, hpts⟩ => Ensures.pure
      ((((((fits_regsQ (inRange2_of_working ha)).append (fits_regsQ (inRange2_of_working hd))).append
        (fits_regsQ (inRange2_of_working h0))).append (fits_regsQ (inRange2_of_working h1))).append
        (fits_regsQ (inRange2_of_working h2))).append (fits_regsAux hlen fun t ht => inRangePt_of_working l t (hpts t ht)))
  | chainB rd rs1 aux =>
    exact (chainOfB_ensures _ _ _ _).bind fun _ ⟨ha, hd, ⟨h0, h1⟩, hlen, hpts⟩ => Ensures.pure
      (((((fits_regsQ (inRange2_of_working ha)).append (fits_regsQ (inRange2_of_working hd))).append
        (fits_regsQ (inRange2_of_working h0))).append (fits_regsQ (inRange2_of_working h1))).append
        (fits_regsAux hlen fun t ht => inRangePt_of_working l t (hpts t ht)))

end Sys2Proof.Proofs
end

section
/-! PROOFS. The obligations about what every command leaves in the lanes (60_exceptions.md), and the invariant of the engine. -/

namespace Sys2Proof.Proofs

open Sys2Proof.Machine Sys2Proof.Laws

/-! ## A rule on one lane -/

section Lanes

variable {c : Config} {l m : Lane} {i : Instr} {draw lane : Nat}

theorem of_outcome {rule : Rule} {P : List Nat → Prop} {vs : List Nat} (h : Ensures (rule.body c l) P)
    (ho : rule.outcome c l = .ok vs) : P vs := by
  cases hrun : (rule.body c l).run [] with
  | error op => simp [Rule.outcome, StateT.run'_eq, hrun, Functor.map, Except.map] at ho
  | ok x =>
    obtain rfl : x.1 = vs := by simpa [Rule.outcome, StateT.run'_eq, hrun, Functor.map, Except.map] using ho
    exact h [] x.1 x.2 hrun

/-- A command that completes on a lane has a value for each register it writes. -/
theorem fits_of_outcome {vs : List Nat} (h : (ruleOf i).outcome c l = .ok vs) : Fits c l (writes i) vs :=
  dsts_eq i ▸ of_outcome (body_ensures c l i) h

theorem onLane_of_error {rule : Rule} {op : BoundOp} (h : rule.outcome c l = .error op) (draw lane : Nat) :
    rule.onLane c draw lane l = l.writeAll c (rule.unspecified c draw lane) := by
  simp [Rule.onLane, h]

theorem map_fst_unspecified (rule : Rule) (c : Config) (draw lane : Nat) :
    (rule.unspecified c draw lane).map Prod.fst = rule.dsts := by
  exact List.ext_getElem (by simp [Rule.unspecified]) (by simp [Rule.unspecified])

/-- The unspecified values are below the capacity of their register (R320). -/
theorem lt_capacity_of_unspecified {rule : Rule} {nv : RegName × Nat} (h : nv ∈ rule.unspecified c draw lane) :
    nv.2 < capacity c nv.1 := by
  obtain ⟨k, hk, rfl⟩ := List.mem_iff_getElem.1 h
  simp [Rule.unspecified, Nat.mod_lt _ (capacity_pos c _)]

/-- What a command does to a lane: it writes each of its registers once or more, with a value below the capacity if the lane
meets its invariant (R310, R320). -/
theorem exists_writeAll (c : Config) (i : Instr) (draw lane : Nat) (l : Lane) :
    ∃ ws, (ruleOf i).onLane c draw lane l = l.writeAll c ws ∧ ws.map Prod.fst = writes i ∧
      (c.wf = true → l.Inv c → ∀ nv ∈ ws, nv.2 < capacity c nv.1) := by
  cases h : (ruleOf i).outcome c l with
  | ok vs =>
    obtain ⟨hlen, hfits⟩ := fits_of_outcome h
    exact ⟨(writes i).zip vs, dsts_eq i ▸ onLane_of_outcome h draw lane, List.map_fst_zip hlen.ge, hfits⟩
  | error op =>
    exact ⟨(ruleOf i).unspecified c draw lane, onLane_of_error h draw lane,
      (map_fst_unspecified _ c draw lane).trans (dsts_eq i), fun _ _ _ => lt_capacity_of_unspecified⟩

theorem onLane_inv (hw : c.wf = true) (hl : l.Inv c) (i : Instr) (draw lane : Nat) :
    ((ruleOf i).onLane c draw lane l).Inv c := by
  obtain ⟨ws, hws, -, hlt⟩ := exists_writeAll c i draw lane l
  exact hws ▸ writeAll_inv hl (hlt hw hl)

/-- The registers that a well-formed command writes exist (R104). -/
theorem valid_of_mem_writes {skBits : Nat} (h : i.wellFormed skBits = true) {name : RegName} (hn : name ∈ writes i) :
    name.valid = true := by
  have hE : ∀ {b : RegNum} {n : Nat}, name ∈ eRange b n → name.valid = true := fun hmem => by
    obtain ⟨k, -, rfl⟩ := List.mem_map.1 hmem
    rfl
  have hX : ∀ {aux : Bool} {b : RegNum}, name ∈ auxRange aux b → name.valid = true := fun {aux b} hmem => by
    cases aux with
    | false => cases hmem
    | true => exact hE hmem
  cases i with
  | mpMul rd | mpDadd rd | mpDsub rd =>
    obtain rfl := List.mem_singleton.1 hn
    simp only [Instr.wellFormed, Bool.and_eq_true] at h
    simp_all [RegName.valid, RegNum.isD]
  | nop => cases hn
  | mpAdd | mpSub | mpRdc | fpAdd | fpSub | fpNeg | fpDiv2 | fpCorr | fpMul | fpSqr | fpInv | fpToMont | fpFromMont
  | fpMov | fpLdc | fpSel | skBit =>
    obtain rfl := List.mem_singleton.1 hn
    rfl
  | fp2Add | fp2Sub | fp2Neg | fp2Div2 | fp2Corr | fp2Mul | fp2Sqr | fp2Inv | fp2ToMont | fp2FromMont | fp2Mov | fp2Sel
  | getA | jInv | xDbl | xDble | xTpl | xTple | eval4 | eval3 | eval2 | ladderA | ladderB => exact hE hn
  | xDblAdd | get4 | get3 | get2 => exact (List.mem_append.1 hn).elim hE hE
  | inv3Way => exact (List.mem_append.1 hn).elim (fun h => (List.mem_append.1 h).elim hE hE) hE
  | chainA | chainB => exact (List.mem_append.1 hn).elim (fun h => (List.mem_append.1 h).elim hE hE) hX

end Lanes

variable {s t : State} {i : Instr}

theorem wellFormed_iff (k : Nat) (i : Instr) : i.wellFormed k = true ↔ operandError k i = none :=
  (operandCheckIsWellFormed k i).symm

/-- A lane of the state after a command that passes its operand checks. -/
theorem getElem?_runLanes {k : Nat} {m : Lane} (hm : (s.runLanes (ruleOf i)).lanes[k]? = some m) :
    ∃ l, s.lanes[k]? = some l ∧ m = (ruleOf i).onLane s.cfg s.draws k l := by
  simp only [runLanes_lanes, List.getElem?_mapIdx, Option.map_eq_some_iff] at hm
  obtain ⟨l, hl, rfl⟩ := hm
  exact ⟨l, hl, rfl⟩

/-- Settles O18: a rejection changes STATUS alone, and a rule's writes are to the command's registers. -/
theorem commandFrame : Obligations.CommandFrame := by
  intro i s t h
  obtain ⟨hw, ⟨e, he, rfl⟩ | ⟨ho, rfl⟩⟩ := exec_next_cases h
  · refine ⟨rfl, rfl, rfl, rfl, rfl, rfl, rfl, fun hwf => ?_, fun _ => ⟨rfl, rfl⟩, fun k l m hl hm name _ _ => ?_⟩
    · rw [(wellFormed_iff _ _).1 hwf] at he; cases he
    · obtain rfl := Option.some.inj (hl.symm.trans hm); rfl
  · have hwf := (wellFormed_iff _ _).2 ho
    refine ⟨rfl, rfl, rfl, rfl, rfl, by simp, rfl, fun _ => rfl, fun h => absurd (hwf.symm.trans h) (by decide), ?_⟩
    intro k l m hl hm name hv hn
    obtain ⟨l', hl', rfl⟩ := getElem?_runLanes hm
    obtain rfl := Option.some.inj (hl.symm.trans hl')
    obtain ⟨ws, hws, hfst, -⟩ := exists_writeAll s.cfg i s.draws k l
    rw [hws]
    refine get_writeAll_of_notMem s.cfg ws l fun nv hnv hsel => hn ?_
    have hmem : nv.1 ∈ writes i := hfst ▸ List.mem_map_of_mem hnv
    exact eq_of_selector_eq (valid_of_mem_writes hwf hmem) hv hsel ▸ hmem

/-- Settles O21: the command is executed; each lane's writes are the rule's values, or free values below the capacities. -/
theorem boundBreakCompletes : Obligations.BoundBreakCompletes := by
  intro i s hw hwf
  refine ⟨_, exec_of_operands hw ((wellFormed_iff _ _).1 hwf), rfl, fun k l m hl hm => ?_⟩
  obtain ⟨l', hl', rfl⟩ := getElem?_runLanes hm
  obtain rfl := Option.some.inj (hl.symm.trans hl')
  refine ⟨fun vs hvs => dsts_eq i ▸ onLane_of_outcome hvs _ _, fun hbreak name hname => ?_, fun name hname => ?_⟩
  · cases ho : (ruleOf i).outcome s.cfg l with
    | ok vs => rw [breaks_of_outcome ho] at hbreak; cases hbreak
    | error op =>
      rw [onLane_of_error ho]
      exact val_writeAll_lt (by rw [map_fst_unspecified, dsts_eq]; exact hname) fun _ => lt_capacity_of_unspecified
  · obtain ⟨ws, hws, hfst, -⟩ := exists_writeAll s.cfg i s.draws k l
    rw [hws]
    exact isWritten_writeAll (hfst ▸ hname)

/-! ## The invariant of the engine -/

/-- The invariant speaks of the configuration, the lanes, STATUS, the latch and the count of clocks. -/
theorem inv_of_eq (h : s.Inv) (hcfg : t.cfg = s.cfg) (hlanes : t.lanes = s.lanes) (hstatus : t.status = s.status)
    (hlatch : t.latch = s.latch) (hclocks : t.clocksLeft = s.clocksLeft) : t.Inv where
  wf := hcfg ▸ h.wf
  laneCount := by rw [hlanes, hcfg]; exact h.laneCount
  lanes := by rw [hlanes, hcfg]; exact h.lanes
  status := hstatus ▸ h.status
  latched := by rw [hlatch, hstatus]; exact h.latched
  clocks := by rw [hclocks, hstatus]; exact h.clocks
  latchLegal := by rw [hlatch, hcfg]; exact h.latchLegal

theorem pop_inv (h : s.Inv) : s.pop.Inv := inv_of_eq h rfl rfl rfl rfl rfl

theorem respond_inv (h : s.Inv) (d : HostWord) (b : Bool) : (s.respond d b).Inv := inv_of_eq h rfl rfl rfl rfl rfl

theorem hostRead_inv (h : s.Inv) (x : Target) : (s.hostRead x).Inv := by
  obtain ⟨hcfg, hlanes, hlatch, hclocks, -⟩ := hostRead_frame (s := s) x
  exact inv_of_eq h hcfg hlanes (hostRead_status x) hlatch hclocks

theorem tick_inv (h : s.Inv) : s.tick.Inv := by
  have hlegal := tick_legal h.status
  by_cases hb : s.status.busy = true
  · by_cases hlast : s.clocksLeft ≤ 1
    · simp only [State.tick, if_pos hb, if_pos hlast] at hlegal ⊢
      exact ⟨h.wf, h.laneCount, h.lanes, hlegal, rfl, rfl, fun _ hw => by cases hw⟩
    · simp only [State.tick, if_pos hb, if_neg hlast] at hlegal ⊢
      refine ⟨h.wf, h.laneCount, h.lanes, hlegal, h.latched, ?_, h.latchLegal⟩
      rw [hb]
      exact decide_eq_true (by dsimp only; omega)
  · rw [tick_of_not_busy (by simpa using hb)]
    exact h

/-- STATUS alone changes, with BUSY kept (R312, R315). -/
theorem inv_of_status (h : s.Inv) {x : Status} (hlegal : x.legal = true) (hbusy : x.busy = s.status.busy) :
    ({ s with status := x } : State).Inv where
  wf := h.wf
  laneCount := h.laneCount
  lanes := h.lanes
  status := hlegal
  latched := h.latched.trans hbusy.symm
  clocks := h.clocks.trans hbusy.symm
  latchLegal := h.latchLegal

theorem writeStatus_inv (h : s.Inv) (u : HostWord) : (s.writeStatus u).Inv := by
  unfold State.writeStatus
  split
  · exact inv_of_status h clearError_legal rfl
  · exact h

/-- A limb's replacement leaves the value below the register's capacity (R76). -/
theorem withLimb_lt {bits v j u n : Nat} (hv : v < 2 ^ (bits * n)) (hj : j < n) : withLimb bits v j u < 2 ^ (bits * n) := by
  have hlimb : bits * j + bits ≤ bits * n := Nat.mul_succ bits j ▸ Nat.mul_le_mul_left bits hj
  refine Nat.lt_pow_two_of_testBit _ fun b hb => ?_
  rw [testBit_withLimb, if_neg (by omega)]
  exact Nat.testBit_lt_two_pow (hv.trans_le (Nat.pow_le_pow_right (by decide) hb))

theorem hostWrite_val_lt {c : Config} {x : Reg} {name : RegName} {j : Nat} (hx : x.val < capacity c name)
    (hj : j < limbCount c name) (u : Nat) : (x.hostWrite c name j u).val < capacity c name := by
  cases name with
  | e => exact withLimb_lt hx hj
  | d =>
    have hcap : c.r * c.r = 2 ^ (c.w * (2 * c.n)) := by rw [Config.r, ← Nat.pow_add]; congr 1; ring
    simp only [capacity, hcap] at hx ⊢
    exact withLimb_lt hx hj
  | sk => exact Nat.mod_lt _ (Nat.two_pow_pos _)

theorem hostWrite_length (c : Config) (x : Reg) (name : RegName) (j u : Nat) :
    (x.hostWrite c name j u).written.length = x.written.length := by
  cases name <;> exact List.length_set

theorem writeRegister_inv (h : s.Inv) {lane j : Nat} {name : RegName} (hj : j < limbCount s.cfg name) (u : HostWord) :
    (s.writeRegister lane name j u).Inv where
  wf := h.wf
  laneCount := by simpa using h.laneCount
  lanes l hl := by
    obtain ⟨k, hk, rfl⟩ := List.mem_iff_getElem.1 hl
    have hk' : k < s.lanes.length := by simpa using hk
    have hlane := h.lanes _ (List.getElem_mem hk')
    simp only [writeRegister_lanes, List.getElem_modify]
    obtain ⟨hval, hlen⟩ := hlane name
    split
    · exact put_inv hlane (hostWrite_val_lt hval hj _) ((hostWrite_length ..).trans hlen)
    · exact hlane
  status := h.status
  latched := h.latched
  clocks := h.clocks
  latchLegal := h.latchLegal

theorem runLanes_inv (h : s.Inv) (i : Instr) : (s.runLanes (ruleOf i)).Inv where
  wf := h.wf
  laneCount := by simpa using h.laneCount
  lanes l hl := by
    obtain ⟨k, hk, rfl⟩ := List.mem_iff_getElem.1 hl
    simp only [runLanes_lanes, List.getElem_mapIdx]
    exact onLane_inv h.wf (h.lanes _ (List.getElem_mem _)) i _ _
  status := h.status
  latched := h.latched
  clocks := h.clocks
  latchLegal := h.latchLegal

/-- An accepted command is in the latch for the clocks it takes (R310, R311). -/
theorem startBusy_inv (h : s.Inv) (herr : s.status.err = false) {w : CmdWord}
    (hlegal : commandError s.cfg.skBits w = none) : (s.startBusy w).Inv where
  wf := h.wf
  laneCount := h.laneCount
  lanes := h.lanes
  status := startBusy_legal herr h.status w
  latched := by by_cases hlat : latency s.cfg w = 0 <;> simp [hlat]
  clocks := by by_cases hlat : latency s.cfg w = 0 <;> simp [hlat, Nat.pos_iff_ne_zero]
  latchLegal u hu := by
    simp only [startBusy_latch] at hu
    split at hu
    · cases hu
    · cases hu; exact hlegal

theorem performed_inv {a : Access} (ht : Performed a s t) (hb : s.status.busy = false ∨ a.kind = .read) (h : s.Inv) :
    t.Inv := by
  have hlegal := performed_legal ht hb h.status
  cases ht with
  | busError => exact respond_inv h _ _
  | read => exact hostRead_inv h _
  | status => exact respond_inv (writeStatus_inv h _) _ _
  | register _ hx => exact respond_inv (writeRegister_inv h (mappedAt_of_targetOf hx).2.2.1 _) _ _
  | discarded => exact respond_inv h _ _
  | rejected => exact inv_of_status (respond_inv h _ _) hlegal rfl
  | accepted _ _ herr hd ho =>
    exact startBusy_inv (runLanes_inv (respond_inv h _ _) _) herr ((commandError_of_decode hd).trans ho)

/-- Settles O16: each case of a step keeps the invariant. -/
theorem invariantPreserved : Obligations.InvariantPreserved := by
  intro s t h hstep
  cases (stepped_of_step hstep).2 with
  | waits | stalls => exact tick_inv h
  | idle => exact tick_inv (pop_inv h)
  | reset => exact resetInput_inv (s := s.pop) h.wf
  | answers _ _ ha ht => exact tick_inv (performed_inv ht (.inr ((answeredAtOnce_iff _).1 ha).1) (pop_inv h))
  | performs _ hb ht => exact performed_inv ht (.inl hb) (pop_inv h)

end Sys2Proof.Proofs
end

section
/-! PROOFS. What a command's results depend on (60_exceptions.md sections 3 and 4, 70_reset_and_hazards.md section 2): the
registers it reads and its own lane, no data in the kinds it records, and the stricter run's faults. -/

namespace Sys2Proof.Proofs

open Sys2Proof.Machine Sys2Proof.Laws

/-! ## The registers a rule reads -/

section Reads

variable {l m : Lane}

/-- Two lanes hold the same values in the registers of a list. -/
def AgreeOn (l m : Lane) (names : List RegName) : Prop := ∀ name ∈ names, l.val name = m.val name

theorem agreeOn_append {ns ms : List RegName} : AgreeOn l m (ns ++ ms) ↔ AgreeOn l m ns ∧ AgreeOn l m ms :=
  List.forall_mem_append

theorem agreeOn_cons {name : RegName} {ns : List RegName} :
    AgreeOn l m (name :: ns) ↔ l.val name = m.val name ∧ AgreeOn l m ns := List.forall_mem_cons

theorem agreeOn_nil : AgreeOn l m [] ↔ True := by simp [AgreeOn]

theorem agreeOn_regsQ {b : RegNum} : AgreeOn l m (regsQ b) ↔ l.rQ b = m.rQ b := by
  simp [regsQ, agreeOn_cons, agreeOn_nil, Lane.rQ, Lane.rE]

theorem agreeOn_regsP {b : RegNum} : AgreeOn l m (regsP b) ↔ l.rP b = m.rP b := by
  rw [regsP, agreeOn_append, agreeOn_regsQ, agreeOn_regsQ]
  simp [Lane.rP]

theorem agreeOn_regsAux {aux : Bool} {b : RegNum} : AgreeOn l m (regsAux aux b) ↔ l.rAux aux b = m.rAux aux b := by
  cases aux with
  | false => simp [regsAux, Lane.rAux, agreeOn_nil]
  | true => simp [regsAux, Lane.rAux, agreeOn_append, agreeOn_regsP]

/-- A rule's body reads no register but the rule's sources (R355): the cases go by the forms of the operands. -/
theorem body_congr (c : Config) {i : Instr} (h : AgreeOn l m (ruleOf i).srcs) :
    (ruleOf i).body c l = (ruleOf i).body c m := by
  cases i with
  | nop | fpLdc => rfl
  | fpNeg _ a | fpDiv2 _ a | fpCorr _ a | fpSqr _ a | fpInv _ a | fpToMont _ a | fpFromMont _ a | fpMov _ a =>
    have ha : l.rE a = m.rE a := (agreeOn_cons.1 h).1
    simp only [ruleOf, fpNegRule, fpDiv2Rule, fpCorrRule, fpSqrRule, fpInvRule, fpToMontRule, fpFromMontRule, fpMovRule, ha]
  | mpAdd _ a b | mpSub _ a b | mpMul _ a b | fpAdd _ a b | fpSub _ a b | fpMul _ a b =>
    obtain ⟨ha, h⟩ := agreeOn_cons.1 h
    have ha : l.rE a = m.rE a := ha
    have hb : l.rE b = m.rE b := (agreeOn_cons.1 h).1
    simp only [ruleOf, mpAddRule, mpSubRule, mpMulRule, fpAddRule, fpSubRule, fpMulRule, ha, hb]
  | mpRdc _ a =>
    have ha : l.rD a = m.rD a := (agreeOn_cons.1 h).1
    simp only [ruleOf, mpRdcRule, ha]
  | mpDadd _ a b | mpDsub _ a b =>
    obtain ⟨ha, h⟩ := agreeOn_cons.1 h
    have ha : l.rD a = m.rD a := ha
    have hb : l.rD b = m.rD b := (agreeOn_cons.1 h).1
    simp only [ruleOf, mpDaddRule, mpDsubRule, ha, hb]
  | fpSel _ a b s =>
    simp only [ruleOf, fpSelRule, agreeOn_cons] at h
    obtain ⟨hs, ha, hb, -⟩ : l.rE s = m.rE s ∧ l.rE a = m.rE a ∧ l.rE b = m.rE b ∧ _ := h
    simp only [ruleOf, fpSelRule, hs, ha, hb]
  | skBit =>
    have hsk : l.rSK = m.rSK := (agreeOn_cons.1 h).1
    simp only [ruleOf, skBitRule, hsk]
  | fp2Neg _ a | fp2Div2 _ a | fp2Corr _ a | fp2Sqr _ a | fp2Inv _ a | fp2ToMont _ a | fp2FromMont _ a | fp2Mov _ a =>
    have ha := agreeOn_regsQ.1 h
    simp only [ruleOf, fp2NegRule, fp2Div2Rule, fp2CorrRule, fp2SqrRule, fp2InvRule, fp2ToMontRule, fp2FromMontRule,
      fp2MovRule, ha]
  | fp2Add _ a b | fp2Sub _ a b | fp2Mul _ a b | jInv _ a b =>
    obtain ⟨ha, hb⟩ := agreeOn_append.1 h
    simp only [ruleOf, fp2AddRule, fp2SubRule, fp2MulRule, jInvRule, agreeOn_regsQ.1 ha, agreeOn_regsQ.1 hb]
  | fp2Sel _ a b s =>
    simp only [ruleOf, fp2SelRule, agreeOn_append, agreeOn_cons, agreeOn_regsQ] at h
    obtain ⟨⟨⟨hs, -⟩, ha⟩, hb⟩ := h
    have hs : l.rE s = m.rE s := hs
    simp only [ruleOf, fp2SelRule, hs, ha, hb]
  | xDbl _ P | xDble _ P | xTpl _ P | xTple _ P =>
    simp only [ruleOf, xDblRule, xDbleRule, xTplRule, xTpleRule, agreeOn_append, agreeOn_regsP, agreeOn_regsQ] at h
    obtain ⟨⟨hP, h0⟩, h1⟩ := h
    simp only [ruleOf, xDblRule, xDbleRule, xTplRule, xTpleRule, hP, h0, h1]
  | xDblAdd P Q x a =>
    simp only [ruleOf, xDblAddRule, agreeOn_append, agreeOn_regsP, agreeOn_regsQ] at h
    obtain ⟨⟨⟨hP, hQ⟩, hx⟩, ha⟩ := h
    simp only [ruleOf, xDblAddRule, hP, hQ, hx, ha]
  | get4 K | get3 K | get2 K =>
    have hK := agreeOn_regsP.1 h
    simp only [ruleOf, get4Rule, get3Rule, get2Rule, hK]
  | eval4 P =>
    simp only [ruleOf, eval4Rule, agreeOn_append, agreeOn_regsP, agreeOn_regsQ] at h
    obtain ⟨⟨⟨hP, h0⟩, h1⟩, h2⟩ := h
    simp only [ruleOf, eval4Rule, hP, h0, h1, h2]
  | eval3 P | eval2 P =>
    simp only [ruleOf, eval3Rule, eval2Rule, agreeOn_append, agreeOn_regsP, agreeOn_regsQ] at h
    obtain ⟨⟨hP, h0⟩, h1⟩ := h
    simp only [ruleOf, eval3Rule, eval2Rule, hP, h0, h1]
  | inv3Way a b d | getA _ a b d =>
    simp only [ruleOf, inv3WayRule, getARule, agreeOn_append, agreeOn_regsQ] at h
    obtain ⟨⟨ha, hb⟩, hd⟩ := h
    simp only [ruleOf, inv3WayRule, getARule, ha, hb, hd]
  | ladderA _ a b d | ladderB _ a b d =>
    simp only [ruleOf, ladderARule, ladderBRule, agreeOn_append, agreeOn_cons, agreeOn_regsQ] at h
    obtain ⟨⟨⟨⟨ha, hb⟩, hd⟩, hca⟩, hsk, -⟩ := h
    have hsk : l.rSK = m.rSK := hsk
    simp only [ruleOf, ladderARule, ladderBRule, ha, hb, hd, hca, hsk]
  | chainA X R aux | chainB X R aux =>
    simp only [ruleOf, chainARule, chainBRule, agreeOn_append, agreeOn_regsAux, agreeOn_regsP, agreeOn_regsQ] at h
    obtain ⟨⟨⟨haux, hR⟩, h0⟩, h1⟩ := h
    simp only [ruleOf, chainARule, chainBRule, haux, hR, h0, h1]

theorem outcome_congr (c : Config) {i : Instr} (h : ∀ name ∈ reads i, l.val name = m.val name) :
    (ruleOf i).outcome c l = (ruleOf i).outcome c m := by
  rw [Rule.outcome, body_congr c fun name hname => h name ((mem_srcs_iff i name).1 hname), Rule.outcome]

end Reads

/-- What a rule does to a lane, as writes that depend on its outcome alone (R320). -/
theorem exists_writeAll_of_outcome_eq {c : Config} {i : Instr} {l m : Lane}
    (h : (ruleOf i).outcome c l = (ruleOf i).outcome c m) (draw lane : Nat) : ∃ ws, ws.map Prod.fst = writes i ∧
      (ruleOf i).onLane c draw lane l = l.writeAll c ws ∧ (ruleOf i).onLane c draw lane m = m.writeAll c ws := by
  cases ho : (ruleOf i).outcome c l with
  | ok vs =>
    refine ⟨(writes i).zip vs, List.map_fst_zip (fits_of_outcome ho).1.ge, ?_, ?_⟩
    · exact dsts_eq i ▸ onLane_of_outcome ho draw lane
    · exact dsts_eq i ▸ onLane_of_outcome (h ▸ ho) draw lane
  | error op =>
    exact ⟨_, (map_fst_unspecified _ c draw lane).trans (dsts_eq i), onLane_of_error ho draw lane,
      onLane_of_error (h ▸ ho) draw lane⟩

variable {s t : State} {i : Instr}

/-- A well-formed command that answers has run its rule in every lane. -/
theorem eq_runLanes_of_exec (hwf : i.wellFormed s.cfg.skBits = true) (h : exec i s = .next t) :
    t = s.runLanes (ruleOf i) := by
  obtain ⟨-, ⟨e, he, -⟩ | ⟨-, rfl⟩⟩ := exec_next_cases h
  · rw [(wellFormed_iff _ _).1 hwf] at he; cases he
  · rfl

/-- Settles O19: the outcome depends on the registers read, and the writes on the outcome and the draw. -/
theorem onlyReadsMatter : Obligations.OnlyReadsMatter := by
  intro i s t s' t' hwf hcfg hdraws hs ht k l m l' m' hl hm hl' hm' hagree name hname
  obtain rfl := eq_runLanes_of_exec hwf hs
  obtain rfl := eq_runLanes_of_exec (hcfg ▸ hwf) ht
  obtain ⟨l₀, hl₀, rfl⟩ := getElem?_runLanes hl'
  obtain rfl := Option.some.inj (hl.symm.trans hl₀)
  obtain ⟨m₀, hm₀, rfl⟩ := getElem?_runLanes hm'
  obtain rfl := Option.some.inj (hm.symm.trans hm₀)
  obtain ⟨ws, hfst, hwl, hwm⟩ := exists_writeAll_of_outcome_eq (outcome_congr s.cfg hagree) s.draws k
  rw [← hcfg, ← hdraws, hwl, hwm]
  exact get_writeAll_congr (hfst ▸ hname) l m

/-! ## The number of lanes -/

section LaneCount

variable (c : Config) (n : Nat)

/-- The same configuration with another number of lanes. -/
def withLanes : Config := { c with k := n }

theorem fpsqrTimes_withLanes : fpsqrTimes (withLanes c n) = fpsqrTimes c := by
  funext m
  induction m with
  | zero => rfl
  | succ m ih => funext acc; simp only [fpsqrTimes, ih]; rfl

theorem fpinvTableFrom_withLanes (tt m prev : Nat) :
    fpinvTableFrom (withLanes c n) tt prev m = fpinvTableFrom c tt prev m := by
  induction m generalizing prev with
  | zero => rfl
  | succ m ih => simp only [fpinvTableFrom, ih]; rfl

theorem fpinvSteps_withLanes (table : List Nat) (steps : List (Nat × Nat)) (acc : Nat) :
    fpinvSteps (withLanes c n) table steps acc = fpinvSteps c table steps acc := by
  induction steps generalizing acc with
  | nil => rfl
  | cons x rest ih => simp only [fpinvSteps, fpsqrTimes_withLanes, ih]; rfl

theorem fpinv_withLanes : fpinv (withLanes c n) = fpinv c := by
  funext a
  simp only [fpinv, fpinvTable, fpinvTableFrom_withLanes, fpinvSteps_withLanes]
  rfl

theorem fp2inv_withLanes : fp2inv (withLanes c n) = fp2inv c := by
  funext a
  simp only [fp2inv, fpinv_withLanes]
  rfl

theorem xdble_withLanes (P : Pt) (a d : Fp2) (e : Nat) : xdble (withLanes c n) P a d e = xdble c P a d e := by
  induction e generalizing P with
  | zero => rfl
  | succ e ih => simp only [xdble, ih]; rfl

theorem xtple_withLanes (P : Pt) (m a : Fp2) (e : Nat) : xtple (withLanes c n) P m a e = xtple c P m a e := by
  induction e generalizing P with
  | zero => rfl
  | succ e ih => simp only [xtple, ih]; rfl

theorem ladderLoop_withLanes (a24 : Fp2) (m left i : Nat) (s : Machine.Ladder) :
    ladderLoop (withLanes c n) a24 m left i s = ladderLoop c a24 m left i s := by
  induction left generalizing i s with
  | zero => rfl
  | succ left ih => simp only [ladderLoop, ih]; rfl

theorem ladder_withLanes (xP xQ xPQ a : Fp2) (m nbits : Nat) :
    ladder (withLanes c n) xP xQ xPQ a m nbits = ladder c xP xQ xPQ a m nbits := by
  simp only [ladder, ladderLoop_withLanes]
  rfl

theorem isogeniesA_withLanes : isogeniesA (withLanes c n) = isogeniesA c := by
  simp only [isogeniesA, xdble_withLanes]
  rfl

theorem isogeniesB_withLanes : isogeniesB (withLanes c n) = isogeniesB c := by
  simp only [isogeniesB, xtple_withLanes]
  rfl

/-- No rule looks at the number of lanes (R343). -/
theorem body_withLanes (i : Instr) : (ruleOf i).body (withLanes c n) = (ruleOf i).body c := by
  funext l
  cases i with
  | fpInv => simp only [ruleOf, fpInvRule, fpinv_withLanes]
  | fp2Inv => simp only [ruleOf, fp2InvRule, fp2inv_withLanes]
  | xDble => simp only [ruleOf, xDbleRule, xdble_withLanes]
  | xTple => simp only [ruleOf, xTpleRule, xtple_withLanes]
  | inv3Way => simp only [ruleOf, inv3WayRule, inv3way, fp2inv_withLanes]; rfl
  | getA => simp only [ruleOf, getARule, geta, fp2inv_withLanes]; rfl
  | jInv => simp only [ruleOf, jInvRule, jinv, fp2inv_withLanes]; rfl
  | ladderA => simp only [ruleOf, ladderARule, ladder_withLanes]; rfl
  | ladderB => simp only [ruleOf, ladderBRule, ladder_withLanes]; rfl
  | chainA => simp only [ruleOf, chainARule, chainOfA, isogeniesA_withLanes, xdble_withLanes]; rfl
  | chainB => simp only [ruleOf, chainBRule, chainOfB, isogeniesB_withLanes]
  | _ => rfl

theorem writeAll_withLanes (l : Lane) (ws : List (RegName × Nat)) : l.writeAll (withLanes c n) ws = l.writeAll c ws := by
  induction ws generalizing l with
  | nil => rfl
  | cons nv ws ih =>
    have hlimb : ∀ name, limbCount (withLanes c n) name = limbCount c name := fun name => by cases name <;> rfl
    rw [writeAll_cons, writeAll_cons, ih, Lane.write, hlimb, Lane.write]

theorem onLane_withLanes {l : Lane} {vs : List Nat} (h : (ruleOf i).outcome c l = .ok vs) (draw lane draw' lane' : Nat) :
    (ruleOf i).onLane (withLanes c n) draw' lane' l = (ruleOf i).onLane c draw lane l := by
  have h' : (ruleOf i).outcome (withLanes c n) l = .ok vs := by rw [Rule.outcome, body_withLanes]; exact h
  rw [onLane_of_outcome h', onLane_of_outcome h, writeAll_withLanes]

end LaneCount

/-- Settles O20: a rule runs in each lane on its own, and no rule looks at the number of lanes. -/
theorem lanesIndependent : Obligations.LanesIndependent := by
  refine ⟨fun i s t s' t' hcfg hdraws hs ht k hk => ?_, fun i s t u k l ht hl hbreak hu => ?_⟩
  · obtain ⟨-, ⟨e, he, rfl⟩ | ⟨ho, rfl⟩⟩ := exec_next_cases hs <;>
      obtain ⟨-, ⟨e', he', rfl⟩ | ⟨ho', rfl⟩⟩ := exec_next_cases ht
    · exact hk
    · rw [← hcfg, he] at ho'; cases ho'
    · rw [hcfg, he'] at ho; cases ho
    · simp only [runLanes_lanes, List.getElem?_mapIdx, hk, hcfg, hdraws]
  · have hskBits : (withLanes s.cfg 1).skBits = s.cfg.skBits := rfl
    obtain ⟨-, ⟨e, he, rfl⟩ | ⟨ho, rfl⟩⟩ := exec_next_cases ht <;>
      obtain ⟨-, ⟨e', he', rfl⟩ | ⟨ho', rfl⟩⟩ := exec_next_cases hu
    · exact hl.symm
    · exact absurd (he.symm.trans ho') (by simp)
    · exact absurd (he'.symm.trans ho) (by simp)
    · cases hout : (ruleOf i).outcome s.cfg l with
      | error op => simp [Rule.breaks, hout] at hbreak
      | ok vs =>
        simp only [runLanes_lanes, List.getElem?_mapIdx, hl]
        exact congrArg some (onLane_withLanes s.cfg 1 hout _ _ _ _)

/-! ## The kinds recorded -/

theorem uniform_bind {α β : Type} {f : α → Eng β} (hf : Uniform f) (g : Lane → α) (parts : β → List Nat) :
    Uniform fun l => f (g l) >>= fun v => (pure (parts v) : Eng (List Nat)) := by
  obtain ⟨ks, hk⟩ := hf
  exact ⟨_, fun l => (hk (g l)).bind fun v => Traced.pure (parts v)⟩

theorem rAux_length (l : Lane) (aux : Bool) (b : RegNum) : (l.rAux aux b).length = if aux then 3 else 0 := by
  cases aux <;> rfl

/-- The kinds a rule records are the same for all lanes (R352): none for the moves, else those of the function it calls. -/
theorem body_uniform (c : Config) (i : Instr) : Uniform fun l : Lane => (ruleOf i).body c l := by
  cases i with
  | nop | mpMul | fpMov | fpLdc | fpSel | skBit | fp2Mov | fp2Sel => exact ⟨[], fun _ => Traced.pure _⟩
  | mpAdd | mpSub | mpDadd | mpDsub => exact ⟨_, fun _ => (Traced.require _ _).bind fun _ => Traced.pure _⟩
  | mpRdc => exact ⟨_, fun _ => (redc_traced _).bind fun _ => Traced.pure _⟩
  | fpAdd => exact ⟨_, fun _ => (fpadd_traced _ _).bind fun _ => Traced.pure _⟩
  | fpSub => exact ⟨_, fun _ => (fpsub_traced _ _).bind fun _ => Traced.pure _⟩
  | fpNeg => exact ⟨_, fun _ => (fpneg_traced _).bind fun _ => Traced.pure _⟩
  | fpDiv2 => exact ⟨_, fun _ => (fpdiv2_traced _).bind fun _ => Traced.pure _⟩
  | fpCorr => exact ⟨_, fun _ => (fpcorr_traced _).bind fun _ => Traced.pure _⟩
  | fpMul => exact ⟨_, fun _ => (fpmul_traced _ _).bind fun _ => Traced.pure _⟩
  | fpSqr => exact ⟨_, fun _ => (fpsqr_traced _).bind fun _ => Traced.pure _⟩
  | fpInv _ a => exact uniform_bind fpinv_uniform (fun l => l.rE a) _
  | fpToMont => exact ⟨_, fun _ => (tomont_traced _).bind fun _ => Traced.pure _⟩
  | fpFromMont => exact ⟨_, fun _ => (frommont_traced _).bind fun _ => Traced.pure _⟩
  | fp2Add => exact ⟨_, fun _ => (fp2add_traced _ _).bind fun _ => Traced.pure _⟩
  | fp2Sub => exact ⟨_, fun _ => (fp2sub_traced _ _).bind fun _ => Traced.pure _⟩
  | fp2Neg => exact ⟨_, fun _ => (fp2neg_traced _).bind fun _ => Traced.pure _⟩
  | fp2Div2 => exact ⟨_, fun _ => (fp2div2_traced _).bind fun _ => Traced.pure _⟩
  | fp2Corr => exact ⟨_, fun _ => (fp2corr_traced _).bind fun _ => Traced.pure _⟩
  | fp2Mul => exact ⟨_, fun _ => (fp2mul_traced _ _).bind fun _ => Traced.pure _⟩
  | fp2Sqr => exact ⟨_, fun _ => (fp2sqr_traced _).bind fun _ => Traced.pure _⟩
  | fp2Inv _ a => exact uniform_bind fp2inv_uniform (fun l => l.rQ a) _
  | fp2ToMont => exact ⟨_, fun _ => (lift1_traced tomont_traced _).bind fun _ => Traced.pure _⟩
  | fp2FromMont => exact ⟨_, fun _ => (lift1_traced frommont_traced _).bind fun _ => Traced.pure _⟩
  | xDbl _ P => exact uniform_bind xdbl_uniform (fun l => (l.rP P, l.rQ cv0, l.rQ cv1)) _
  | xDble _ P e => exact uniform_bind (xdble_uniform e.toNat) (fun l => (l.rP P, l.rQ cv0, l.rQ cv1)) _
  | xTpl _ P => exact uniform_bind xtpl_uniform (fun l => (l.rP P, l.rQ cv1, l.rQ cv0)) _
  | xTple _ P e => exact uniform_bind (xtple_uniform e.toNat) (fun l => (l.rP P, l.rQ cv1, l.rQ cv0)) _
  | xDblAdd P Q x a =>
    exact uniform_bind xdbladd_uniform (fun l => (l.rP P, l.rP Q, l.rQ x, l.rQ a)) fun t => t.1.parts ++ t.2.parts
  | get4 K => exact uniform_bind get4_uniform (fun l => l.rP K) _
  | eval4 P => exact uniform_bind eval4_uniform (fun l => (l.rP P, ⟨l.rQ coef0, l.rQ coef1, l.rQ coef2⟩)) _
  | get3 K => exact uniform_bind get3_uniform (fun l => l.rP K) _
  | eval3 P => exact uniform_bind eval3_uniform (fun l => (l.rP P, ⟨l.rQ coef0, l.rQ coef1⟩)) _
  | get2 K => exact uniform_bind get2_uniform (fun l => l.rP K) _
  | eval2 P => exact uniform_bind eval2_uniform (fun l => (l.rP P, ⟨l.rQ coef0, l.rQ coef1⟩)) _
  | inv3Way a b d => exact uniform_bind inv3way_uniform (fun l => (l.rQ a, l.rQ b, l.rQ d)) _
  | getA _ a b d => exact uniform_bind geta_uniform (fun l => (l.rQ a, l.rQ b, l.rQ d)) _
  | jInv _ a d => exact uniform_bind jinv_uniform (fun l => (l.rQ a, l.rQ d)) _
  | ladderA _ a b d =>
    exact uniform_bind (ladder_uniform c.nbA) (fun l => (l.rQ a, l.rQ b, l.rQ d, l.rQ ca, l.rSK)) _
  | ladderB _ a b d =>
    exact uniform_bind (ladder_uniform c.nbB) (fun l => (l.rQ a, l.rQ b, l.rQ d, l.rQ ca, l.rSK)) _
  | chainA X R aux =>
    obtain ⟨_, hk⟩ := chainOfA_uniform (c := c) (if aux then 3 else 0)
    exact ⟨_, fun l => (hk _ _ _ _ (rAux_length l aux X)).bind fun _ => Traced.pure _⟩
  | chainB X R aux =>
    obtain ⟨_, hk⟩ := chainOfB_uniform (c := c) (if aux then 3 else 0)
    exact ⟨_, fun l => (hk _ _ _ _ (rAux_length l aux X)).bind fun _ => Traced.pure _⟩

/-- The trace of a command that completes is the record of its rule, oldest first (R352). -/
theorem eq_reverse_of_opTrace {c : Config} {l : Lane} {ks kinds : List OpKind}
    (htraced : Traced ((ruleOf i).body c l) kinds) (h : opTrace c i l = some ks) : ks = kinds.reverse := by
  unfold opTrace at h
  split at h
  · next vs kinds' hrun =>
    rw [htraced [] vs kinds' hrun, List.append_nil] at h
    exact (Option.some.inj h).symm
  · cases h

/-- Between commands STATUS is 0, the latch is empty and no clock is left (R45, R51). -/
theorem idle_of_inv (h : s.Inv) (hb : s.status.busy = false) (herr : s.status.err = false) :
    s.status = Status.reset ∧ s.latch = none ∧ s.clocksLeft = 0 := by
  have hlatch := h.latched
  have hclocks := h.clocks
  rw [hb] at hlatch hclocks
  refine ⟨?_, by simpa using hlatch, by simpa using hclocks⟩
  obtain ⟨-, hcode⟩ | ⟨herr', -⟩ := (legal_iff _).1 h.status
  · rcases hs : s.status with ⟨busy, err, code⟩
    simp_all [Status.reset]
  · rw [herr] at herr'; cases herr'

/-- What acceptance leaves in STATUS, the latch and the count of clocks depends on the word and on them alone. -/
theorem accept_timing {v : HostWord} {s' t' : State} (hw : s.cfg.wf = true) (hcfg : s.cfg = t.cfg)
    (hstatus : s.status = t.status) (hlatch : s.latch = t.latch) (hclocks : s.clocksLeft = t.clocksLeft)
    (herr : s.status.err = false) (hs : accept v s = .next s') (ht : accept v t = .next t') :
    s'.status = t'.status ∧ s'.latch = t'.latch ∧ s'.clocksLeft = t'.clocksLeft := by
  have hwt : t.cfg.wf = true := hcfg ▸ hw
  have herrt : t.status.err = false := hstatus ▸ herr
  cases he : commandError s.cfg.skBits (v.setWidth 32) with
  | some e =>
    obtain rfl := Host.Outcome.next.inj ((accept_of_commandError hw herr he).symm.trans hs)
    obtain rfl := Host.Outcome.next.inj ((accept_of_commandError hwt herrt (hcfg ▸ he)).symm.trans ht)
    simp [State.reject, hstatus, hlatch, hclocks]
  | none =>
    obtain ⟨i, hd, ho⟩ := exists_decode_of_commandError he
    obtain rfl := Host.Outcome.next.inj ((accept_of_accepted hw herr hd ho).symm.trans hs)
    obtain rfl := Host.Outcome.next.inj ((accept_of_accepted hwt herrt hd (hcfg ▸ ho)).symm.trans ht)
    exact ⟨congrArg₂ (fun (x : Status) c => { x with busy := latency c (v.setWidth 32) != 0 }) hstatus hcfg,
      congrArg (fun c => if latency c (v.setWidth 32) = 0 then none else some (v.setWidth 32)) hcfg,
      congrArg (latency · (v.setWidth 32)) hcfg⟩

/-- Settles O14: every rule records the same kinds in all lanes, and acceptance looks at no register. -/
theorem constantTime : Obligations.ConstantTime := by
  refine ⟨fun c i l m ks ls hl hm => ?_, fun s t s' t' v rest rest' hs ht hcfg hsb htb hse hte hps hpt hs' ht' => ?_⟩
  · obtain ⟨kinds, hkinds⟩ := body_uniform c i
    rw [eq_reverse_of_opTrace (hkinds l) hl, eq_reverse_of_opTrace (hkinds m) hm]
  · obtain ⟨hst, hlatch, hclocks⟩ := idle_of_inv hs hsb hse
    obtain ⟨htt, hlatch', hclocks'⟩ := idle_of_inv ht htb hte
    rw [step_cmdWrite hs.wf hsb hps] at hs'
    rw [step_cmdWrite ht.wf htb hpt] at ht'
    exact accept_timing (s := { s with port := rest, responses := ⟨0, false⟩ :: s.responses })
      (t := { t with port := rest', responses := ⟨0, false⟩ :: t.responses }) hs.wf hcfg (hst.trans htt.symm)
      (hlatch.trans hlatch'.symm) (hclocks.trans hclocks'.symm) hse hs' ht'

/-! ## The stricter run -/

section Strict

variable {c : Config} {l : Lane} {lane : Nat}

theorem faultOn_of_unwritten {name : RegName} (hname : name ∈ reads i) (h : (l.get name).isWritten = false) :
    ∃ name' ∈ reads i, (l.get name').isWritten = false ∧
      (ruleOf i).faultOn c lane l = some (.unwrittenRead name' lane) := by
  cases hfind : (ruleOf i).srcs.find? fun name => !(l.get name).isWritten with
  | none =>
    have hall := List.find?_eq_none.1 hfind name ((mem_srcs_iff i name).2 hname)
    simp [h] at hall
  | some name' =>
    refine ⟨name', (mem_srcs_iff i name').1 (List.mem_of_find?_eq_some hfind), ?_, by simp [Rule.faultOn, hfind]⟩
    simpa using List.find?_some hfind

theorem find?_of_written (h : ∀ name ∈ reads i, (l.get name).isWritten = true) :
    ((ruleOf i).srcs.find? fun name => !(l.get name).isWritten) = none :=
  List.find?_eq_none.2 fun name hname => by simp [h name ((mem_srcs_iff i name).1 hname)]

theorem faultOn_of_outcome {op : BoundOp} (h : ∀ name ∈ reads i, (l.get name).isWritten = true)
    (ho : (ruleOf i).outcome c l = .error op) : (ruleOf i).faultOn c lane l = some (.boundFault op lane) := by
  simp [Rule.faultOn, find?_of_written h, ho]

theorem faultOn_eq_none (h : ∀ name ∈ reads i, (l.get name).isWritten = true) (hb : (ruleOf i).breaks c l = false) :
    (ruleOf i).faultOn c lane l = none := by
  cases ho : (ruleOf i).outcome c l with
  | ok vs => simp [Rule.faultOn, find?_of_written h, ho]
  | error op => simp [Rule.breaks, ho] at hb

/-- The first lane with a fault names it (R320). -/
theorem firstFault_of_faultOn {rule : Rule} {f : Fault} {k : Nat} {ls : List Lane} (first : Nat) (hl : ls[k]? = some l)
    (hbefore : ∀ j m, j < k → ls[j]? = some m → rule.faultOn c (first + j) m = none)
    (hf : rule.faultOn c (first + k) l = some f) : rule.firstFault c first ls = some f := by
  induction ls generalizing k first with
  | nil => simp at hl
  | cons x ls ih =>
    cases k with
    | zero =>
      obtain rfl : x = l := by simpa using hl
      simp only [Nat.add_zero] at hf
      simp [Rule.firstFault, hf]
    | succ k =>
      have hx : rule.faultOn c first x = none := hbefore 0 x (Nat.succ_pos k) rfl
      rw [Rule.firstFault, hx]
      refine ih (first + 1) hl (fun j m hj hm => ?_) ?_
      · rw [Nat.add_assoc, Nat.add_comm 1 j]
        exact hbefore (j + 1) m (Nat.succ_lt_succ hj) hm
      · rwa [Nat.add_assoc, Nat.add_comm 1 k]

theorem firstFault_eq_none {rule : Rule} {ls : List Lane} (h : ∀ l ∈ ls, ∀ lane, rule.faultOn c lane l = none)
    (first : Nat) : rule.firstFault c first ls = none := by
  induction ls generalizing first with
  | nil => rfl
  | cons x ls ih =>
    rw [Rule.firstFault, h x List.mem_cons_self]
    exact ih (fun l hl => h l (List.mem_cons_of_mem _ hl)) _

end Strict

theorem strictExec_of_firstFault {f : Fault} (hw : s.cfg.wf = true) (hwf : i.wellFormed s.cfg.skBits = true)
    (h : (ruleOf i).firstFault s.cfg 0 s.lanes = some f) : strictExec i s = .fault f := by
  simp [strictExec, hw, (wellFormed_iff _ _).1 hwf, h]

theorem strictExec_of_no_fault (h : (ruleOf i).firstFault s.cfg 0 s.lanes = none) : strictExec i s = exec i s := by
  unfold strictExec
  rw [h]
  split <;> rfl

/-- Settles O22: the fault of a lane is its first unwritten source, else its broken bound. -/
theorem strictFaults : Obligations.StrictFaults := by
  refine fun i s hw hwf => ⟨fun k l hl hbefore => ?_, fun hall => ?_⟩
  · have hfirst : ∀ {f}, (ruleOf i).faultOn s.cfg k l = some f → strictExec i s = .fault f := fun {f} hf =>
      strictExec_of_firstFault hw hwf (firstFault_of_faultOn 0 hl
        (fun j m hj hm => faultOn_eq_none (hbefore j m hj hm).1 (hbefore j m hj hm).2) (by rwa [Nat.zero_add]))
    refine ⟨fun name hname hunwritten => ?_, fun op hwritten hop => hfirst (faultOn_of_outcome hwritten hop)⟩
    obtain ⟨name', hname', hunwritten', hf⟩ := faultOn_of_unwritten (c := s.cfg) (lane := k) hname hunwritten
    exact ⟨name', hname', hunwritten', hfirst hf⟩
  · exact strictExec_of_no_fault (firstFault_eq_none (fun l hl _ => faultOn_eq_none (hall l hl).1 (hall l hl).2) 0)

/-- The stricter run either takes the hardware's step or stops with a fault. -/
theorem strictStep_cases (s : State) : strictStep s = step s ∨ s.cfg.wf = true ∧ ∃ f, strictStep s = .fault f := by
  unfold strictStep
  split
  · next i _ =>
    cases hw : s.cfg.wf with
    | false => simp [strictExec, hw, exec_of_not_wf hw]
    | true =>
      split
      · exact .inr ⟨rfl, _, rfl⟩
      · exact .inl rfl
      · exact .inl rfl
  · exact .inl rfl

/-- Settles O23: the stricter run stops only with a well-formed configuration, with which the hardware always goes on. -/
theorem strictRefines : Obligations.StrictRefines := by
  refine ⟨fun s t h => ?_, fun s f h => ?_⟩
  · obtain hstep | ⟨-, f, hf⟩ := strictStep_cases s
    · rw [← hstep, h]
    · rw [hf] at h; cases h
  · cases hw : s.cfg.wf with
    | true => exact (step_stepped hw).imp fun _ ht => ht.1
    | false =>
      obtain hstep | ⟨hw', -⟩ := strictStep_cases s
      · rw [hstep, step_of_not_wf hw] at h; cases h
      · rw [hw] at hw'; cases hw'

end Sys2Proof.Proofs
end

section
/-! PROOFS. REDC's properties, the working bound, and the results of the limb, Fp and Fp² commands (40_limb.md, 41_fp.md,
42_fp2.md). -/

namespace Sys2Proof.Proofs

open Sys2Proof.Machine Sys2Proof.Laws

variable {c : Config}

/-! ## REDC -/

/-- The value's bound, over the rationals: x/R + p (R151(c)). -/
theorem redcValue_cast_lt (hw : c.wf = true) (x : Nat) : (redcValue c x : ℚ) < x / c.r + c.p := by
  have hr : (0 : ℚ) < c.r := by exact_mod_cast r_pos c
  have hp : (0 : ℚ) < c.p := by exact_mod_cast p_pos hw
  have hq : (redcQuotient c x : ℚ) < c.r := by exact_mod_cast redcQuotient_lt c x
  have hexact : (c.r : ℚ) * redcValue c x = x + redcQuotient c x * c.p := by exact_mod_cast redc_exact hw x
  have hbound : (c.r : ℚ) * redcValue c x < x + c.r * c.p := hexact ▸ by nlinarith
  rw [div_add' _ _ _ hr.ne', lt_div_iff₀ hr]
  linarith

/-- Settles O38: v·R = x + q·p with q < R, and R ≥ 32p. -/
theorem redcProperties : Obligations.RedcProperties := by
  intro c x hw hx
  have hr : (0 : ℚ) < c.r := by exact_mod_cast r_pos c
  have hp : (0 : ℚ) < c.p := by exact_mod_cast p_pos hw
  have hexact := redc_exact hw x
  have hlt := redcValue_cast_lt hw x
  refine ⟨redcValue c x, redcQuotient c x, answer_of_yields (redc_yields hx), redcQuotient_lt c x,
    redcQuotient_modEq c x, Dvd.intro _ hexact, (Nat.mul_comm _ _).trans hexact, redcValue_mul_r_modEq hw x, hlt, ?_,
    fun h0 => h0 ▸ redcValue_zero c, fun h24 => ⟨?_, by linarith⟩⟩
  · have hx' : (x : ℚ) < c.p * c.r := by exact_mod_cast hx
    have hdiv : (x : ℚ) / c.r < c.p := (div_lt_iff₀ hr).2 hx'
    linarith
  · have h24' : (x : ℚ) ≤ 24 * c.p ^ 2 := by exact_mod_cast h24
    have hr32 : (32 : ℚ) * c.p ≤ c.r := by exact_mod_cast wf_r hw
    have hdiv : (x : ℚ) / c.r ≤ 3 / 4 * c.p := (div_le_iff₀ hr).2 (by nlinarith)
    linarith

/-! ## The working bound -/

section Bounds

variable {a b : Nat} {op : BoundOp}

theorem require_of_false {p : Bool} (h : p = false) (op : BoundOp) : require op p = throw op := by simp [require, h]

/-- A bound check fails outside the bound (R160). -/
theorem inBound_of_lt (h : 2 * c.p < a) : inBound c op a = throw op :=
  require_of_false (decide_eq_false (Nat.not_le.2 h)) op

theorem inBound_of_le (h : a ≤ 2 * c.p) : inBound c op a = pure () := by simp [inBound, require, h]

/-- A function of two operands that checks both and completes within its bound. -/
theorem bounded2_of {top : Nat} {f : Nat → Nat → Eng Nat}
    (hf : ∀ a b, c.Working a → c.Working b → ∃ v, (f a b).answer = .ok v ∧ v ≤ top)
    (hleft : ∀ a b, inBound c op a = throw op → (f a b).answer = .error op)
    (hright : ∀ a b, inBound c op a = pure () → inBound c op b = throw op → (f a b).answer = .error op) :
    bounded2 c op top f := by
  refine fun a b => ⟨fun ⟨ha, hb⟩ => hf a b ha hb, fun h => ?_⟩
  by_cases ha : 2 * c.p < a
  · exact hleft a b (inBound_of_lt ha)
  · exact hright a b (inBound_of_le (Nat.not_lt.1 ha)) (inBound_of_lt (h.resolve_left ha))

theorem bounded1_of {top : Nat} {f : Nat → Eng Nat} (hf : ∀ a, c.Working a → ∃ v, (f a).answer = .ok v ∧ v ≤ top)
    (hbreak : ∀ a, inBound c op a = throw op → (f a).answer = .error op) : bounded1 c op top f :=
  fun a => ⟨hf a, fun h => hbreak a (inBound_of_lt h)⟩

theorem exists_working_answer {m : Eng Nat} {Q : Nat → Prop} (h : Gives m fun v => c.Working v ∧ Q v) :
    ∃ v, m.answer = .ok v ∧ v ≤ 2 * c.p :=
  exists_answer_of_gives (h.mono fun _ hv => hv.1)

theorem mod_le_pred (hw : c.wf = true) (a : Nat) : a % c.p ≤ c.p - 1 := Nat.le_pred_of_lt (Nat.mod_lt a (p_pos hw))

end Bounds

/-- Settles O40: each function checks its operands first, under its own name, and its value's bound is its `_gives` law. -/
theorem workingBound : Obligations.WorkingBound := by
  intro c hw
  refine ⟨⟨?_, ?_, ?_, ?_, ?_, ?_, ?_, ?_, ?_, ?_⟩, fun _ _ _ _ _ _ => ⟨rfl, rfl, rfl, rfl⟩⟩
  · exact bounded2_of (fun a b ha hb => exists_working_answer (fpadd_gives ha hb))
      (fun a b h => by simp only [fpadd, h]; rfl) fun a b h h' => by simp only [fpadd, h, h']; rfl
  · exact bounded2_of (fun a b ha hb => exists_working_answer (fpsub_gives ha hb))
      (fun a b h => by simp only [fpsub, h]; rfl) fun a b h h' => by simp only [fpsub, h, h']; rfl
  · exact bounded1_of (fun a ha => exists_working_answer (fpneg_gives ha)) fun a h => by simp only [fpneg, h]; rfl
  · exact bounded1_of (fun a ha => exists_working_answer (fpdiv2_gives hw ha)) fun a h => by simp only [fpdiv2, h]; rfl
  · exact bounded1_of (fun a ha => ⟨_, answer_of_yields (fpcorr_yields ha), mod_le_pred hw a⟩)
      fun a h => by simp only [fpcorr, h]; rfl
  · exact bounded2_of (fun a b ha hb => exists_working_answer (fpmul_gives hw ha hb))
      (fun a b h => by simp only [fpmul, h]; rfl) fun a b h h' => by simp only [fpmul, h, h']; rfl
  · exact bounded1_of (fun a ha => exists_working_answer (fpsqr_gives hw ha)) fun a h => by simp only [fpsqr, h]; rfl
  · exact bounded1_of (fun a ha => exists_working_answer (fpinv_gives hw ha)) fun a h => by simp only [fpinv, h]; rfl
  · exact bounded1_of (fun a ha => exists_working_answer (tomont_gives hw ha)) fun a h => by simp only [tomont, h]; rfl
  · exact bounded1_of (fun a ha => ⟨_, answer_of_yields (frommont_yields hw ha), mod_le_pred hw _⟩)
      fun a h => by simp only [frommont, h]; rfl

/-! ## Commands whose values are known -/

variable {s : State} {i : Instr}

/-- A well-formed command whose rule yields the values of f in every lane writes them. -/
theorem writes_of_yields {f : Lane → List Nat} {ks : List OpKind} (hw : s.cfg.wf = true)
    (hwf : i.wellFormed s.cfg.skBits = true) (h : ∀ l ∈ s.lanes, Yields ((ruleOf i).body s.cfg l) ks (f l)) :
    Writes i s (ruleOf i).dsts f :=
  dsts_eq i ▸ writes_of_outcome hw ((wellFormed_iff _ _).1 hwf) fun l hl => answer_of_yields (h l hl)

/-- The body of a rule that writes the parts of what one function answers. -/
theorem answer_bind_pure {α : Type} {m : Eng α} {v : α} (h : m.answer = .ok v) (parts : α → List Nat) :
    (do let t ← m; return parts t : Eng (List Nat)).answer = .ok (parts v) := by
  cases hrun : m.run [] with
  | error op => simp [Eng.answer, StateT.run'_eq, hrun, Functor.map, Except.map] at h
  | ok x =>
    obtain rfl : x.1 = v := by simpa [Eng.answer, StateT.run'_eq, hrun, Functor.map, Except.map] using h
    rw [Eng.answer, StateT.run'_eq, run_bind_of_ok hrun]
    rfl

/-- The same for a rule that writes the parts of what one function answers. -/
theorem writes_of_answer {α : Type} {f : Lane → α} {m : Lane → Eng α} {parts : α → List Nat} (hw : s.cfg.wf = true)
    (hwf : i.wellFormed s.cfg.skBits = true)
    (hbody : ∀ l, (ruleOf i).body s.cfg l = do let t ← m l; return parts t)
    (h : ∀ l ∈ s.lanes, (m l).answer = .ok (f l)) : Writes i s (ruleOf i).dsts fun l => parts (f l) :=
  dsts_eq i ▸ writes_of_outcome hw ((wellFormed_iff _ _).1 hwf) fun l hl => by
    rw [Rule.outcome, hbody]
    exact answer_bind_pure (h l hl) parts

/-! ## The limb commands -/

theorem writeAll_zip_nil (l : Lane) : l.writeAll c (([] : List RegName).zip []) = l := rfl

theorem exec_nop (hw : s.cfg.wf = true) : exec .nop s = .next s := by
  have hwrites : Writes .nop s [] fun _ => [] := writes_of_yields hw rfl fun _ _ => Yields.pure _
  simpa [Writes, writeAll_zip_nil] using hwrites

/-- A rule with one bound, which does not hold, breaks it (R320). -/
theorem outcome_of_require {rule : Rule} {l : Lane} {op : BoundOp} {p : Bool} {vs : List Nat}
    (hbody : rule.body c l = do require op p; return vs) (h : p = false) : rule.outcome c l = .error op := by
  rw [Rule.outcome, hbody, require_of_false h]
  rfl

theorem outcome_mpRdc {l : Lane} (rd : RegNum) {rs1 : RegNum} (h : c.p * c.r ≤ l.rD rs1) :
    (ruleOf (.mpRdc rd rs1)).outcome c l = .error .redc := by
  have hbreaks : require .redc (l.rD rs1 < c.p * c.r) = throw .redc := require_of_false (decide_eq_false (Nat.not_lt.2 h)) _
  simp only [Rule.outcome, ruleOf, mpRdcRule, redc, hbreaks]
  rfl

/-- Settles O43: each rule is its integer operation behind one bound. -/
theorem limbResults : Obligations.LimbResults := by
  intro s hw
  refine ⟨exec_nop hw, fun rd rs1 rs2 h => ?_, fun rd rs1 rs2 h => ?_, fun rd rs1 rs2 hd => ?_, fun rd rs1 h1 h => ?_,
    fun rd rs1 rs2 hd h1 h2 h => ?_, fun rd rs1 rs2 hd h1 h2 h => ?_, fun rd rs1 rs2 l => ⟨fun h => ?_, fun h => ?_,
    fun h => outcome_mpRdc rd h, fun h => ?_, fun h => ?_⟩⟩
  · exact writes_of_yields hw rfl fun l hl => yields_require_return (decide_eq_true (h l hl)) _
  · exact writes_of_yields hw rfl fun l hl => yields_require_return (decide_eq_true (h l hl)) _
  · exact writes_of_yields hw (by simpa [Instr.wellFormed, RegNum.isD] using hd) fun _ _ => Yields.pure _
  · refine writes_of_yields (ks := [.redc]) hw (by simpa [Instr.wellFormed, RegNum.isD] using h1) fun l hl => ?_
    rw [← redcValue_eq_montgomery]
    exact yields_return (fun v => [v]) (redc_yields (h l hl))
  · refine writes_of_yields (ks := []) hw (by simp [Instr.wellFormed, RegNum.isD, hd, h1, h2]) fun l hl => ?_
    exact yields_require_return (decide_eq_true (sq s.cfg.r ▸ h l hl)) _
  · refine writes_of_yields (ks := []) hw (by simp [Instr.wellFormed, RegNum.isD, hd, h1, h2]) fun l hl => ?_
    exact yields_require_return (decide_eq_true (h l hl)) _
  · exact outcome_of_require rfl (decide_eq_false (Nat.not_lt.2 h))
  · exact outcome_of_require rfl (decide_eq_false (Nat.not_le.2 h))
  · exact outcome_of_require rfl (decide_eq_false (Nat.not_lt.2 (sq s.cfg.r ▸ h)))
  · exact outcome_of_require rfl (decide_eq_false (Nat.not_le.2 h))

/-! ## The Fp commands -/

/-- The difference of R162, over the integers. -/
theorem fpsub_value_eq {a b : Nat} (hb : c.Working b) : (if a < b then a + 2 * c.p - b else a - b) =
    ((a : Int) - b + if (a : Int) - b < 0 then 2 * c.p else 0).toNat := by
  unfold Config.Working at hb
  split <;> split <;> omega

/-- The half of R164: of a, or of a + p for an odd a. -/
theorem fpdiv2_value_eq (a : Nat) : (a + c.p * (a % 2)) / 2 = (if a % 2 = 1 then a + c.p else a) / 2 := by
  rcases Nat.mod_two_eq_zero_or_one a with h | h <;> simp [h]

/-- Settles O44: each function yields R161's to R165's value. -/
theorem fpAdditiveResults : Obligations.FpAdditiveResults := by
  intro s rd rs1 rs2 hw h1
  refine ⟨fun h2 => ⟨?_, ?_⟩, ?_, ?_, ?_⟩
  · exact writes_of_yields hw rfl fun l hl => yields_return (fun v => [v]) (fpadd_yields (h1 l hl) (h2 l hl))
  · refine writes_of_yields (ks := [.sub]) hw rfl fun l hl => ?_
    rw [← fpsub_value_eq (h2 l hl)]
    exact yields_return (fun v => [v]) (fpsub_yields (h1 l hl) (h2 l hl))
  · exact writes_of_yields hw rfl fun l hl => yields_return (fun v => [v]) (fpneg_yields (h1 l hl))
  · refine writes_of_yields (ks := [.div2]) hw rfl fun l hl => ?_
    rw [← fpdiv2_value_eq]
    exact yields_return (fun v => [v]) (fpdiv2_yields (h1 l hl))
  · exact writes_of_yields hw rfl fun l hl => yields_return (fun v => [v]) (fpcorr_yields (h1 l hl))

/-- Settles O45: each function yields REDC of R166's to R171's integer. -/
theorem fpMultiplicativeResults : Obligations.FpMultiplicativeResults := by
  intro s rd rs1 rs2 hw h1
  simp only [← redcValue_eq_montgomery]
  refine ⟨fun h2 => ?_, ?_, ?_, ?_⟩
  · exact writes_of_yields hw rfl fun l hl => yields_return (fun v => [v]) (fpmul_yields hw (h1 l hl) (h2 l hl))
  · exact writes_of_yields hw rfl fun l hl => yields_return (fun v => [v]) (fpsqr_yields hw (h1 l hl))
  · exact writes_of_yields hw rfl fun l hl => yields_return (fun v => [v]) (tomont_yields hw (h1 l hl))
  · refine writes_of_yields (ks := [.redc]) hw rfl fun l hl => ?_
    rw [← Nat.mul_one (l.rE rs1)]
    exact yields_return (fun v => [v]) (frommont_yields hw (h1 l hl))

/-- What a family of computations gives on some operands, as one function of the operand. -/
theorem exists_answers {α β : Type} {m : α → Eng β} {A : α → Prop} {P : α → β → Prop} (b₀ : β)
    (h : ∀ a, A a → Gives (m a) (P a)) : ∃ f : α → β, ∀ a, A a → (m a).answer = .ok (f a) ∧ P a (f a) := by
  classical
  have h' : ∀ a, ∃ b, A a → (m a).answer = .ok b ∧ P a b := fun a => by
    by_cases ha : A a
    · exact (exists_answer_of_gives (h a ha)).imp fun _ hb _ => hb
    · exact ⟨b₀, fun ha' => absurd ha' ha⟩
  choose f hf using h'
  exact ⟨f, hf⟩

/-- What a computation gives satisfies what it ensures. -/
theorem Gives.and_ensures {α : Type} {m : Eng α} {P Q : α → Prop} (h : Gives m P) (hQ : Ensures m Q) :
    Gives m fun v => P v ∧ Q v := by
  obtain ⟨v, ks, hv, hP⟩ := h
  exact ⟨v, ks, hv, hP, hQ [] v _ (hv [])⟩

/-- The last step of the inversion is a product with the operand, which REDC brings below 2p (R169). -/
theorem fpinv_ensures_product (a : Nat) : Ensures (fpinv c a) fun v => v < 2 * c.p ∧ ∃ b, v = redcValue c (a * b) := by
  refine Ensures.tail fun _ => Ensures.tail fun _ => Ensures.tail fun _ => Ensures.tail fun _ => Ensures.tail fun b => ?_
  refine Ensures.tail fun _ => Ensures.tail fun _ => Ensures.tail fun _ => Ensures.tail fun _ => ?_
  exact Ensures.require.bind fun _ h => Ensures.pure ⟨redcValue_lt (of_decide_eq_true h), b, rfl⟩

/-- With p prime the power p − 2 is the inverse (R169). -/
theorem mul_pow_sub_two (hw : c.wf = true) (hprime : c.p.Prime) {x : ZMod c.p} (hx : x ≠ 0) : x * x ^ (c.p - 2) = 1 := by
  have : Fact c.p.Prime := ⟨hprime⟩
  have hexp : c.p - 2 + 1 = c.p - 1 := by
    have := (p_mod_four hw).2
    omega
  rw [← pow_succ', hexp]
  exact ZMod.pow_card_sub_one_eq_one hx

theorem zero_pow_sub_two (hw : c.wf = true) : (0 : ZMod c.p) ^ (c.p - 2) = 0 := by
  have hp := (p_mod_four hw).2
  exact zero_pow (by omega)

/-- Settles O46: the inversion raises to p − 2, and its last product makes 0 of 0. -/
theorem fpInverseResult : Obligations.FpInverseResult := by
  intro s rd rs1 hw h1
  obtain ⟨f, hf⟩ := exists_answers (m := fpinv s.cfg) (A := s.cfg.Working) 0 fun a ha =>
    Gives.and_ensures (fpinv_gives hw ha) (fpinv_ensures_product a)
  refine ⟨f, writes_of_answer (parts := fun v => [v]) hw rfl (fun _ => rfl) fun l hl => (hf _ (h1 l hl)).1, fun a ha => ?_⟩
  obtain ⟨-, ⟨-, helem⟩, hlt, -⟩ := hf a ha
  refine ⟨hlt, helem, fun hprime => ⟨fun hne => ?_, fun h0 => ?_⟩, ?_⟩
  · rw [helem, mul_pow_sub_two hw hprime (elem_ne_zero hw hne)]
  · have hzero : s.cfg.elem a = 0 := by rw [← elem_zero, elem_eq_iff hw, h0, Nat.zero_mod]
    rw [helem, hzero, zero_pow_sub_two hw]
  · obtain ⟨-, -, -, b, hb⟩ := hf 0 (Nat.zero_le _)
    rw [hb, Nat.zero_mul, redcValue_zero]

theorem rom_eq (c : Config) {k : RegNum} (h : k.toNat < 6) : c.rom k.toNat =
    if k = 0 then 0 else if k = 1 then c.r % c.p else if k = 2 then c.r ^ 2 % c.p
      else if k = 3 then 1 else if k = 4 then c.p else 2 * c.p := by
  have hk : k = 0 ∨ k = 1 ∨ k = 2 ∨ k = 3 ∨ k = 4 ∨ k = 5 := by bv_omega
  rcases hk with rfl | rfl | rfl | rfl | rfl | rfl <;> rfl

theorem testBit_zero_eq (a : Nat) : a.testBit 0 = (a % 2 == 1) := Nat.testBit_zero a

theorem toNat_eq_ite (b : Bool) : b.toNat = if b then 1 else 0 := by cases b <;> rfl

/-- Settles O47: the moves read and write without a bound. -/
theorem fpMoveResults : Obligations.FpMoveResults := by
  intro s hw
  refine ⟨fun rd rs1 => ?_, fun rd k hk => ?_, fun rd rs1 rs2 rs3 => ?_, fun rd n hn => ?_⟩
  · exact writes_of_yields hw rfl fun _ _ => Yields.pure _
  · rw [← rom_eq s.cfg hk]
    exact writes_of_yields hw (by simpa [Instr.wellFormed, RegNum.isK] using hk) fun _ _ => Yields.pure _
  · refine writes_of_yields (ks := []) hw rfl fun l _ => ?_
    rw [testBit_zero_eq]
    exact Yields.pure _
  · refine writes_of_yields (ks := []) hw (by simpa [Instr.wellFormed] using hn) fun l _ => ?_
    rw [← toNat_eq_ite]
    exact Yields.pure _

/-! ## The Fp² commands -/

/-- The values of the square of R206. -/
def fp2sqrValue (c : Config) (a : Fp2) : Fp2 :=
  ⟨redcValue c ((a.a0 + a.a1) * (a.a0 + 4 * c.p - a.a1)), redcValue c (2 * a.a0 * a.a1)⟩

theorem fp2sqr_yields (hw : c.wf = true) {a : Fp2} (ha : c.Working2 a) :
    Yields (fp2sqr c a) [.redc, .redc] (fp2sqrValue c a) := by
  obtain ⟨hreal, himag⟩ := fp2sqr_bounds hw ha
  have htwice : 2 * a.a0 * a.a1 = (a.a0 + a.a0) * a.a1 := by ring
  rw [fp2sqrValue, htwice]
  exact (inBound_yields ha.1).bind_eq ((inBound_yields ha.2).bind_eq ((redc_yields hreal).bind_eq
    ((redc_yields himag).bind_eq (Yields.pure _) rfl) rfl) rfl) rfl

/-- The difference of R205 is the least residue modulo p·R. -/
theorem sub_emod_toNat {x y m : Nat} (hx : x < m) (hy : y < m) :
    (((x : Int) - (y : Nat)) % (m : Nat)).toNat = if x < y then x + m - y else x - y := by
  split
  · have hmod : ((x : Int) - y) % m = x + m - y := by
      rw [← Int.add_emod_right, Int.emod_eq_of_lt] <;> omega
    omega
  · rw [Int.emod_eq_of_lt] <;> omega

theorem fp2mulValue_eq (hw : c.wf = true) {a b : Fp2} (ha : c.Working2 a) (hb : c.Working2 b) : fp2mulValue c a b =
    ⟨c.montgomery ((((a.a0 * b.a0 : Nat) : Int) - (a.a1 * b.a1 : Nat)) % (c.p * c.r : Nat)).toNat,
      c.montgomery (a.a0 * b.a1 + a.a1 * b.a0)⟩ := by
  have hcross : (a.a0 + a.a1) * (b.a0 + b.a1) - a.a0 * b.a0 - a.a1 * b.a1 = a.a0 * b.a1 + a.a1 * b.a0 := by
    have hsum : (a.a0 + a.a1) * (b.a0 + b.a1) = a.a0 * b.a0 + a.a1 * b.a1 + (a.a0 * b.a1 + a.a1 * b.a0) := by ring
    omega
  rw [fp2mulValue, hcross, sub_emod_toNat (mul_lt hw ha.1 hb.1) (mul_lt hw ha.2 hb.2), redcValue_eq_montgomery,
    redcValue_eq_montgomery]

theorem of_answer_of_gives {α : Type} {m : Eng α} {P : α → Prop} {v : α} (h : Gives m P) (hv : m.answer = .ok v) :
    P v := by
  obtain ⟨u, hu, hP⟩ := exists_answer_of_gives h
  rwa [← Except.ok.inj (hu.symm.trans hv)]

section Fp2

variable {rd rs1 rs2 : RegNum}

theorem wellFormed_two (hd : rd.isQ = true) (h1 : rs1.isQ = true) : (rd.isQ && rs1.isQ) = true := by simp [hd, h1]

theorem wellFormed_three (hd : rd.isQ = true) (h1 : rs1.isQ = true) (h2 : rs2.isQ = true) :
    (rd.isQ && rs1.isQ && rs2.isQ) = true := by simp [hd, h1, h2]

/-- Settles O48: each component is the Fp function's, and the moves have no bound. -/
theorem fp2ComponentResults : Obligations.Fp2ComponentResults := by
  intro s rd rs1 rs2 rs3 hw hd h1 h2
  have hone := wellFormed_two hd h1
  have htwo := wellFormed_three hd h1 h2
  refine ⟨writes_of_yields hw hone fun _ _ => Yields.pure _, ?_, fun ha => ⟨fun hb => ⟨?_, ?_⟩, ?_, ?_, ?_, ?_, ?_⟩⟩
  · refine writes_of_yields (ks := []) hw htwo fun l _ => ?_
    have hparts : (if (l.rE rs3).testBit 0 then [l.rE rs1, l.rE (rs1 + 1)] else [l.rE rs2, l.rE (rs2 + 1)]) =
        (if (l.rE rs3 % 2 == 1) = true then l.rQ rs1 else l.rQ rs2).parts := by
      rw [testBit_zero_eq]
      split <;> rfl
    rw [hparts]
    exact Yields.pure _
  · exact ⟨_, fun a b ha hb => answer_of_yields (fpadd_yields ha hb), writes_of_yields hw htwo fun l hl =>
      yields_return Fp2.parts (lift2_yields (fpadd_yields (ha l hl).1 (hb l hl).1) (fpadd_yields (ha l hl).2 (hb l hl).2))⟩
  · exact ⟨_, fun a b ha hb => answer_of_yields (fpsub_yields ha hb), writes_of_yields hw htwo fun l hl =>
      yields_return Fp2.parts (lift2_yields (fpsub_yields (ha l hl).1 (hb l hl).1) (fpsub_yields (ha l hl).2 (hb l hl).2))⟩
  · exact writes_of_yields hw hone fun l hl =>
      yields_return Fp2.parts (lift1_yields (fpneg_yields (ha l hl).1) (fpneg_yields (ha l hl).2))
  · exact writes_of_yields hw hone fun l hl =>
      yields_return Fp2.parts (lift1_yields (fpdiv2_yields (ha l hl).1) (fpdiv2_yields (ha l hl).2))
  · exact writes_of_yields hw hone fun l hl => yields_return Fp2.parts (fp2corr_yields (ha l hl))
  · simp only [← redcValue_eq_montgomery]
    exact writes_of_yields hw hone fun l hl =>
      yields_return Fp2.parts (lift1_yields (tomont_yields hw (ha l hl).1) (tomont_yields hw (ha l hl).2))
  · refine writes_of_yields (ks := [.redc] ++ [.redc]) hw hone fun l hl => ?_
    rw [← redcValue_eq_montgomery, ← redcValue_eq_montgomery, ← Nat.mul_one (l.rE rs1), ← Nat.mul_one (l.rE (rs1 + 1))]
    exact yields_return Fp2.parts (lift1_yields (frommont_yields hw (ha l hl).1) (frommont_yields hw (ha l hl).2))

/-- Settles O49: the integers under REDC are R205's and R206's, and the elements are the laws of R213. -/
theorem fp2ProductResults : Obligations.Fp2ProductResults := by
  intro s rd rs1 rs2 hw hd h1 h2 ha
  refine ⟨fun hb => ⟨?_, fun l hl v hv => ?_⟩, ?_, fun l hl v hv => ?_⟩
  · refine writes_of_yields (ks := [.redc, .redc]) hw (wellFormed_three hd h1 h2) fun l hl => ?_
    have h := yields_return Fp2.parts (fp2mul_yields hw (ha l hl) (hb l hl))
    rwa [fp2mulValue_eq hw (ha l hl) (hb l hl)] at h
  · exact (of_answer_of_gives (fp2mul_gives hw (ha l hl) (hb l hl)) hv).2
  · simp only [← redcValue_eq_montgomery]
    exact writes_of_yields hw (wellFormed_two hd h1) fun l hl => yields_return Fp2.parts (fp2sqr_yields hw (ha l hl))
  · rw [sq]
    exact (of_answer_of_gives (fp2sqr_gives hw (ha l hl)) hv).2

/-- Settles O50: the inversion gives the conjugate over the norm. -/
theorem fp2InverseResult : Obligations.Fp2InverseResult := by
  intro s rd rs1 hw hd h1 ha
  obtain ⟨f, hf⟩ := exists_answers (m := fp2inv s.cfg) (A := s.cfg.Working2) ⟨0, 0⟩ fun a ha => fp2inv_gives hw ha
  refine ⟨f, writes_of_answer hw (wellFormed_two hd h1) (fun _ => rfl) fun l hl => (hf _ (ha l hl)).1,
    fun a ha => (hf a ha).2, fun hprime => ⟨fun z hz => mul_inv2 hw hprime hz, ?_⟩⟩
  ext <;> simp [Config.inv2]

end Fp2

end Sys2Proof.Proofs
end

section
/-! PROOFS. The results of the curve, isogeny, support and ladder commands (43_curve.md, 44_isogeny.md, 45_sequenced.md
section 1). -/

namespace Sys2Proof.Proofs

open Sys2Proof.Machine Sys2Proof.Laws

variable {c : Config} {s : State} {i : Instr}

/-! ## Commands that write what one function gives -/

theorem pointRegs_eq (b : RegNum) : pointRegs b = eRange b 4 := by
  simp [pointRegs, eRange, List.range_succ]

theorem auxRegs_eq (aux : Bool) (b : RegNum) : auxRegs aux b = auxRange aux b := by
  cases aux
  · rfl
  · simp [auxRegs, auxRange, pointRegs, eRange, List.range_succ, BitVec.add_assoc]

theorem writes_congr {names : List RegName} {f g : Lane → List Nat} (h : Writes i s names f)
    (hfg : ∀ l ∈ s.lanes, f l = g l) : Writes i s names g := by
  unfold Writes at h ⊢
  rw [h, List.map_congr_left fun l hl => by rw [hfg l hl]]

/-- A well-formed command whose rule writes the parts of what the function m gives in each lane. The argument a₀ only says that
there are such results. -/
theorem exists_writes {α : Type} (a₀ : α) {m : Lane → Eng α} {parts : α → List Nat} {P : Lane → α → Prop}
    {names : List RegName} (hw : s.cfg.wf = true) (hwf : i.wellFormed s.cfg.skBits = true) (hnames : writes i = names)
    (hbody : ∀ l, (ruleOf i).body s.cfg l = do let t ← m l; return parts t) (h : ∀ l ∈ s.lanes, Gives (m l) (P l)) :
    ∃ f : Lane → α, Writes i s names (fun l => parts (f l)) ∧ ∀ l ∈ s.lanes, P l (f l) := by
  subst hnames
  refine writes_of_gives a₀ hw ((wellFormed_iff _ _).1 hwf) fun l hl => ?_
  rw [hbody]
  exact (h l hl).bind fun a ha => Gives.pure ⟨a, rfl, ha⟩

/-- The same for a command that writes one point. -/
theorem exists_writes_point {m : Lane → Eng Pt} {T : Lane → Field.Point s.cfg.GF2} {rd : RegNum} (hw : s.cfg.wf = true)
    (hwf : i.wellFormed s.cfg.skBits = true) (hnames : writes i = eRange rd 4)
    (hbody : ∀ l, (ruleOf i).body s.cfg l = do let t ← m l; return t.parts)
    (h : ∀ l ∈ s.lanes, GivesPt s.cfg (m l) (T l)) :
    ∃ f : Lane → Pt, Writes i s (pointRegs rd) (fun l => (f l).parts) ∧
      ∀ l ∈ s.lanes, s.cfg.WorkingPt (f l) ∧ s.cfg.elemPt (f l) = T l :=
  exists_writes ⟨⟨0, 0⟩, ⟨0, 0⟩⟩ hw hwf (hnames.trans (pointRegs_eq rd).symm) hbody h

/-- A well-formed command whose rule gives just these values in every lane. -/
theorem writes_of_gives_eq {f : Lane → List Nat} {names : List RegName} (hw : s.cfg.wf = true)
    (hwf : i.wellFormed s.cfg.skBits = true) (hnames : writes i = names)
    (h : ∀ l ∈ s.lanes, Gives ((ruleOf i).body s.cfg l) fun vs => vs = f l) : Writes i s names f := by
  subst hnames
  refine writes_of_outcome hw ((wellFormed_iff _ _).1 hwf) fun l hl => ?_
  obtain ⟨vs, hv, rfl⟩ := (h l hl).outcome
  exact hv

/-! ## The curve commands -/

/-- A repeat count of 0 copies the point, whatever it holds (R232, R234). -/
theorem writes_point_copy {rd rs1 : RegNum} (hw : s.cfg.wf = true) (hwf : i.wellFormed s.cfg.skBits = true)
    (hnames : writes i = eRange rd 4) (hbody : ∀ l, (ruleOf i).body s.cfg l = pure (l.rP rs1).parts) :
    Writes i s (pointRegs rd) fun l => [l.rE rs1, l.rE (rs1 + 1), l.rE (rs1 + 2), l.rE (rs1 + 3)] := by
  refine writes_of_gives_eq hw hwf (hnames.trans (pointRegs_eq rd).symm) fun l _ => ?_
  rw [hbody]
  refine Gives.pure ?_
  simp [Pt.parts, Fp2.parts, Lane.rP, Lane.rQ, BitVec.add_assoc]

/-- Settles O51: the laws of the multiples, with the pair in each command's order. -/
theorem curveResults : Obligations.CurveResults := by
  intro s rd rs1 e hw hd h1
  have hwf : (rd.isP && rs1.isP) = true := by simp [hd, h1]
  refine ⟨⟨writes_point_copy hw hwf rfl fun _ => rfl, writes_point_copy hw hwf rfl fun _ => rfl⟩, fun h =>
    ⟨?_, ?_, ?_, ?_⟩⟩
  · exact exists_writes_point hw hwf rfl (fun _ => rfl) fun l hl => xdbl_gives hw (h l hl).1 (h l hl).2.1 (h l hl).2.2
  · exact exists_writes_point hw hwf rfl (fun _ => rfl) fun l hl => xdble_gives hw (h l hl).2.1 (h l hl).2.2 _ (h l hl).1
  · exact exists_writes_point hw hwf rfl (fun _ => rfl) fun l hl => xtpl_gives hw (h l hl).1 (h l hl).2.2 (h l hl).2.1
  · exact exists_writes_point hw hwf rfl (fun _ => rfl) fun l hl => xtple_gives hw (h l hl).2.2 (h l hl).2.1 _ (h l hl).1

/-- Settles O52: the differential addition reads its four operands before the rule writes. -/
theorem doubleAndAddResult : Obligations.DoubleAndAddResult := by
  intro s rd rs1 rs2 rs3 hw hd h1 h2 h3 hne h
  have hwf : (rd.isP && rs1.isP && rs2.isQ && rs3.isQ && rd != rs1) = true := by simp [hd, h1, h2, h3, hne]
  have hnames : writes (.xDblAdd rd rs1 rs2 rs3) = pointRegs rd ++ pointRegs rs1 := by
    rw [pointRegs_eq, pointRegs_eq]
    rfl
  exact exists_writes (i := .xDblAdd rd rs1 rs2 rs3) (P := fun l t => s.cfg.WorkingPt t.1 ∧ s.cfg.WorkingPt t.2 ∧
      (s.cfg.elemPt t.1, s.cfg.elemPt t.2) = Field.dblAdd (s.cfg.elemPt (l.rP rd)) (s.cfg.elemPt (l.rP rs1))
        (s.cfg.elem2 (l.rQ rs2)) (s.cfg.elem2 (l.rQ rs3)))
    (⟨⟨0, 0⟩, ⟨0, 0⟩⟩, ⟨⟨0, 0⟩, ⟨0, 0⟩⟩) hw hwf hnames (fun _ => rfl) fun l hl =>
      xdbladd_gives hw (h l hl).1 (h l hl).2.1 (h l hl).2.2.1 (h l hl).2.2.2

/-! ## The isogeny commands -/

/-- Settles O53: the laws of the constructions. -/
theorem isogenyConstruction : Obligations.IsogenyConstruction := by
  intro s rs1 hw h1 h
  refine ⟨?_, ?_, ?_⟩
  · obtain ⟨f, hf, hP⟩ := exists_writes (i := .get4 rs1) (⟨0, 0⟩, ⟨0, 0⟩, ⟨⟨0, 0⟩, ⟨0, 0⟩, ⟨0, 0⟩⟩) hw h1 rfl
      (fun _ => rfl) fun l hl => get4_gives hw (h l hl)
    refine ⟨f, hf, fun l hl => ?_⟩
    obtain ⟨ha, hd, hk, he⟩ := hP l hl
    exact ⟨⟨ha, hd, hk⟩, he⟩
  · obtain ⟨f, hf, hP⟩ := exists_writes (i := .get3 rs1) (⟨0, 0⟩, ⟨0, 0⟩, ⟨⟨0, 0⟩, ⟨0, 0⟩⟩) hw h1 rfl
      (fun _ => rfl) fun l hl => get3_gives hw (h l hl)
    refine ⟨f, hf, fun l hl => ?_⟩
    obtain ⟨ha, hd, hk, he⟩ := hP l hl
    exact ⟨⟨ha, hd, hk⟩, he⟩
  · obtain ⟨f, hf, hP⟩ := exists_writes (i := .get2 rs1) (⟨0, 0⟩, ⟨0, 0⟩, ⟨⟨0, 0⟩, ⟨0, 0⟩⟩) hw h1 rfl
      (fun _ => rfl) fun l hl => get2_gives hw (h l hl)
    refine ⟨fun l => ((f l).1, (f l).2.1), writes_congr hf fun l hl => ?_, fun l hl => ?_⟩
    · rw [(hP l hl).2.2.1]
      rfl
    · obtain ⟨ha, hd, -, he⟩ := hP l hl
      exact ⟨ha, hd, congrArg Prod.fst he, congrArg (fun t => t.2.1) he⟩

/-- Settles O54: the laws of the evaluations. -/
theorem isogenyEvaluation : Obligations.IsogenyEvaluation := by
  intro s rd hw hd h
  refine ⟨fun h2 => ?_, ?_, ?_⟩
  · exact exists_writes_point (i := .eval4 rd) hw hd rfl (fun _ => rfl) fun l hl =>
      eval4_gives hw (h l hl).1 (h l hl).2.1 (h l hl).2.2 (h2 l hl)
  · exact exists_writes_point (i := .eval3 rd) hw hd rfl (fun _ => rfl) fun l hl =>
      eval3_gives hw (h l hl).1 (h l hl).2.1 (h l hl).2.2
  · exact exists_writes_point (i := .eval2 rd) hw hd rfl (fun _ => rfl) fun l hl =>
      eval2_gives hw (h l hl).1 (h l hl).2.1 (h l hl).2.2

/-- Settles O55: the laws of the support functions, whose inverse is total. -/
theorem supportResults : Obligations.SupportResults := by
  intro s rd rs1 rs2 rs3 hw hd h1 h2 h3 h
  refine ⟨fun h' => ⟨fun h12 h13 h23 => ?_, ?_⟩, ?_⟩
  · have hwf : (rs1.isQ && rs2.isQ && rs3.isQ && rs1 != rs2 && rs1 != rs3 && rs2 != rs3) = true := by
      simp [h1, h2, h3, h12, h13, h23]
    have hnames : writes (.inv3Way rs1 rs2 rs3) = regsQ rs1 ++ regsQ rs2 ++ regsQ rs3 := by simp only [writes, eRange_two]
    obtain ⟨f, hf, hP⟩ := exists_writes (i := .inv3Way rs1 rs2 rs3) (⟨0, 0⟩, ⟨0, 0⟩, ⟨0, 0⟩) hw hwf hnames (fun _ => rfl)
      fun l hl => inv3way_gives hw (h l hl).1 (h l hl).2 (h' l hl)
    refine ⟨f, hf, fun l hl => ?_⟩
    obtain ⟨hw1, hw2, hw3, hr1, hr2, hr3⟩ := hP l hl
    rintro z1 z2 z3 rfl rfl rfl
    exact ⟨⟨hw1, hw2, hw3⟩, hr1, hr2, hr3⟩
  · have hwf : (rd.isQ && rs1.isQ && rs2.isQ && rs3.isQ) = true := by simp [hd, h1, h2, h3]
    obtain ⟨f, hf, hP⟩ := exists_writes (i := .getA rd rs1 rs2 rs3) ⟨0, 0⟩ hw hwf (eRange_two rd) (fun _ => rfl)
      fun l hl => geta_gives hw (h l hl).1 (h l hl).2 (h' l hl)
    refine ⟨f, hf, fun l hl => ?_⟩
    rintro xP xQ xR rfl rfl rfl
    exact hP l hl
  · obtain ⟨f, hf, hP⟩ := exists_writes (i := .jInv rd rs1 rs2) ⟨0, 0⟩ hw (wellFormed_three hd h1 h2) (eRange_two rd)
      (fun _ => rfl) fun l hl => jinv_gives hw (h l hl).1 (h l hl).2
    refine ⟨f, hf, fun l hl => ?_⟩
    rintro A C rfl rfl
    exact hP l hl

/-! ## The ladders -/

/-- The inverse of 4 modulo p: p ≡ 3 modulo 4 (R8). -/
def quarter (c : Config) : Nat := (c.p + 1) / 4

theorem quarter_mul_four (hw : c.wf = true) : (quarter c : c.GF2) * 4 = 1 := by
  have hp := p_mod_four hw
  have hnat : quarter c * 4 = c.p + 1 := by unfold quarter; omega
  have hzero : ((c.p : Nat) : c.GF2) = 0 := QuadraticAlgebra.ext (by simp) (by simp)
  have hcast : (quarter c : c.GF2) * 4 = (c.p : c.GF2) + 1 := by exact_mod_cast congrArg (Nat.cast (R := c.GF2)) hnat
  rw [hcast, hzero, zero_add]

/-- The ladder completes on working operands, and its value is the ladder over GF(p²) for the one a24 with 4·a24 = A + 2
(R281). -/
theorem ladder_gives_forall (hw : c.wf = true) {xP xQ xPQ a : Fp2} (hP : c.Working2 xP) (hQ : c.Working2 xQ)
    (hPQ : c.Working2 xPQ) (ha : c.Working2 a) (m nbits : Nat) :
    Gives (ladder c xP xQ xPQ a m nbits) fun t => c.WorkingPt t ∧ ∀ a24 : c.GF2, 4 * a24 = c.elem2 a + 2 →
      c.elemPt t = Field.ladder a24 ((List.range nbits).map m.testBit) false ⟨c.elem2 xQ, 1⟩ ⟨c.elem2 xPQ, 1⟩
        ⟨c.elem2 xP, 1⟩ := by
  have hinv := quarter_mul_four hw
  have h4 : 4 * (quarter c * (c.elem2 a + 2)) = c.elem2 a + 2 := by linear_combination (c.elem2 a + 2) * hinv
  refine (ladder_gives hw hP hQ hPQ ha m nbits h4).mono fun t ht => ⟨ht.1, fun a24 h => ?_⟩
  have ha24 : a24 = quarter c * (c.elem2 a + 2) := by linear_combination (quarter c : c.GF2) * h - a24 * hinv
  rw [ht.2, ha24]

theorem ladder_wellFormed {rd rs1 rs2 rs3 : RegNum} (hd : rd.isP = true) (h1 : rs1.isQ = true) (h2 : rs2.isQ = true)
    (h3 : rs3.isQ = true) : (rd.isP && rs1.isQ && rs2.isQ && rs3.isQ) = true := by simp [hd, h1, h2, h3]

/-- Settles O56: the law of the ladder, for the scalar's low bits. -/
theorem ladderResults : Obligations.LadderResults := by
  intro s rd rs1 rs2 rs3 hw hd h1 h2 h3 h
  have hwf := ladder_wellFormed hd h1 h2 h3
  have hgives (nbits : Nat) (l : Lane) (hl : l ∈ s.lanes) := ladder_gives_forall hw (h l hl).1 (h l hl).2.1 (h l hl).2.2.1
    (h l hl).2.2.2 l.rSK nbits
  constructor
  · obtain ⟨f, hf, hP⟩ := exists_writes (i := .ladderA rd rs1 rs2 rs3) ⟨⟨0, 0⟩, ⟨0, 0⟩⟩ hw hwf
      (pointRegs_eq rd).symm (fun _ => rfl) (hgives s.cfg.nbA)
    exact ⟨f, hf, hP⟩
  · obtain ⟨f, hf, hP⟩ := exists_writes (i := .ladderB rd rs1 rs2 rs3) ⟨⟨0, 0⟩, ⟨0, 0⟩⟩ hw hwf
      (pointRegs_eq rd).symm (fun _ => rfl) (hgives s.cfg.nbB)
    exact ⟨f, hf, hP⟩

theorem testBit_of_mod_eq {m m' n j : Nat} (h : m % 2 ^ n = m' % 2 ^ n) (hj : j < n) : m.testBit j = m'.testBit j := by
  simpa [Nat.testBit_mod_two_pow, hj] using congrArg (fun x => x.testBit j) h

/-- An iteration swaps R and R2 on a change of bit, and changes R no further (R281). -/
theorem ladderStep_swap (a24 : Fp2) (bit : Bool) (u : Machine.Ladder) :
    Ensures (ladderStep c a24 bit u) fun t => t.r = (u.cswap (bit ^^ u.prev)).r ∧ t.prev = bit :=
  Ensures.tail fun _ => Ensures.tail fun _ => Ensures.pure ⟨rfl, rfl⟩

/-- On bits that are all 0 the loop leaves R alone (R281). -/
theorem ladderLoop_gives_of_zero (hw : c.wf = true) {a24 : Fp2} (ha : c.Working2 a24) {m left i : Nat}
    (hm : ∀ j, j < i + left → m.testBit j = false) {u : Machine.Ladder} (hu : Laws.Ladder.Working c u)
    (hprev : u.prev = false) : Gives (ladderLoop c a24 m left i u) fun t => t.r = u.r ∧ t.prev = false := by
  induction left generalizing i u with
  | zero => exact Gives.pure ⟨rfl, hprev⟩
  | succ left ih =>
    refine (Gives.and_ensures (ladderStep_gives hw ha (m.testBit i) hu) (ladderStep_swap a24 _ u)).bind fun t ht => ?_
    obtain ⟨⟨hwork, hbit, -⟩, hr, -⟩ := ht
    rw [hm i (by omega)] at hbit hr
    rw [hprev] at hr
    exact (ih (fun j hj => hm j (by omega)) hwork hbit).mono fun v hv => ⟨hv.1.trans hr, hv.2⟩

/-- A scalar whose used bits are 0 gives (xP : ONE2), as integers (R281). -/
theorem ladder_gives_of_zero (hw : c.wf = true) {xP xQ xPQ a : Fp2} (hP : c.Working2 xP) (hQ : c.Working2 xQ)
    (hPQ : c.Working2 xPQ) (ha : c.Working2 a) {m nbits : Nat} (hm : m % 2 ^ nbits = 0) :
    Gives (ladder c xP xQ xPQ a m nbits) fun t => t = ⟨xP, c.one2⟩ := by
  have h1 := one2_working hw
  have hbit : ∀ j, j < 0 + nbits → m.testBit j = false := fun j hj => by
    rw [testBit_of_mod_eq (hm.trans (Nat.zero_mod _).symm) (by omega), Nat.zero_testBit]
  unfold ladder
  refine (fp2add_gives h1 h1).bind fun t0 w0 _ => (fp2add_gives ha w0).bind fun t1 w1 _ => ?_
  refine (fp2div2_gives hw w1).bind fun t2 h2 => (fp2div2_gives hw h2.1).bind fun t3 h3 => ?_
  refine (ladderLoop_gives_of_zero hw h3.1 hbit (u := ⟨⟨xQ, c.one2⟩, ⟨xPQ, c.one2⟩, ⟨xP, c.one2⟩, false⟩)
    ⟨⟨hQ, h1⟩, ⟨hPQ, h1⟩, ⟨hP, h1⟩⟩ rfl).bind fun t ht => Gives.pure ?_
  rw [ht.2]
  exact ht.1

/-- The loop looks at the bits it runs over, and at no others (R281). -/
theorem ladderLoop_congr (a24 : Fp2) {m m' left i : Nat} (h : ∀ j, j < i + left → m.testBit j = m'.testBit j)
    (u : Machine.Ladder) : ladderLoop c a24 m left i u = ladderLoop c a24 m' left i u := by
  induction left generalizing i u with
  | zero => rfl
  | succ left ih =>
    rw [ladderLoop, ladderLoop, h i (by omega), funext fun t => ih (fun j hj => h j (by omega)) t]

theorem ladder_congr (xP xQ xPQ a : Fp2) {m m' nbits : Nat} (h : m % 2 ^ nbits = m' % 2 ^ nbits) :
    ladder c xP xQ xPQ a m nbits = ladder c xP xQ xPQ a m' nbits := by
  have hbit : ∀ j, j < 0 + nbits → m.testBit j = m'.testBit j := fun j hj => testBit_of_mod_eq h (by omega)
  simp only [ladder, ladderLoop_congr _ hbit]

/-- Settles O57: bits that are 0 swap nothing, and the loop looks at the used bits alone. -/
theorem ladderScalarBits : Obligations.LadderScalarBits := by
  refine ⟨fun s rd rs1 rs2 rs3 hw hd h1 h2 h3 h => ?_, fun c xP xQ xPQ a m m' nbits hm => by
    rw [ladder_congr xP xQ xPQ a hm]⟩
  have hwf := ladder_wellFormed hd h1 h2 h3
  have hgives {nbits : Nat} (l : Lane) (hl : l ∈ s.lanes) (hm : l.sk.val % 2 ^ nbits = 0) :
      Gives (do let t ← ladder s.cfg (l.rQ rs1) (l.rQ rs2) (l.rQ rs3) (l.rQ ca) l.rSK nbits; return t.parts) fun vs =>
        vs = [l.rE rs1, l.rE (rs1 + 1), s.cfg.r % s.cfg.p, 0] := by
    obtain ⟨hP, hQ, hPQ, ha⟩ := h l hl
    refine (ladder_gives_of_zero hw hP hQ hPQ ha hm).bind fun t ht => Gives.pure ?_
    rw [ht]
    rfl
  exact ⟨fun hm => writes_of_gives_eq hw hwf (pointRegs_eq rd).symm fun l hl => hgives l hl (hm l hl),
    fun hm => writes_of_gives_eq hw hwf (pointRegs_eq rd).symm fun l hl => hgives l hl (hm l hl)⟩

end Sys2Proof.Proofs
end

section
/-! PROOFS. The results of the chain commands (45_sequenced.md section 2). -/

namespace Sys2Proof.Proofs

open Sys2Proof.Machine Sys2Proof.Laws

variable {c : Config}

theorem chain_wellFormed {rd rs1 : RegNum} {aux : Bool} (hd : rd.isX aux = true) (h1 : rs1.isP = true) :
    (rd.isX aux && rs1.isP) = true := by simp [hd, h1]

/-- Settles O58: the law of the chain walk; there are as many images as aux points. -/
theorem chainResults : Obligations.ChainResults := by
  intro s rd rs1 aux hw hd h1 h
  have hwf := chain_wellFormed hd h1
  constructor
  · have hnames : writes (.chainA rd rs1 aux) = curveRegs ++ [.e 48, .e 49, .e 50, .e 51, .e 52, .e 53] ++ auxRegs aux rd := by
      rw [auxRegs_eq]
      rfl
    obtain ⟨f, hf, hP⟩ := exists_writes (i := .chainA rd rs1 aux) (⟨0, 0⟩, ⟨0, 0⟩, ⟨⟨0, 0⟩, ⟨0, 0⟩, ⟨0, 0⟩⟩, [])
      hw hwf hnames (fun _ => rfl) fun l hl => Gives.and_ensures (chainOfA_gives hw (h l hl).1 (h l hl).2.1 (h l hl).2.2.1 (h l hl).2.2.2)
        (chainOfA_ensures _ _ _ _)
    refine ⟨f, hf, fun l hl => ?_⟩
    obtain ⟨⟨ha, hd, ⟨hk0, hk1, hk2⟩, hpts, he⟩, -, -, -, hlen, -⟩ := hP l hl
    exact ⟨⟨ha, hd, hk0, hk1, hk2, hpts, hlen.trans (rAux_length l aux rd)⟩, he⟩
  · have hnames : writes (.chainB rd rs1 aux) = curveRegs ++ [.e 48, .e 49, .e 50, .e 51] ++ auxRegs aux rd := by
      rw [auxRegs_eq]
      rfl
    obtain ⟨f, hf, hP⟩ := exists_writes (i := .chainB rd rs1 aux) (⟨0, 0⟩, ⟨0, 0⟩, ⟨⟨0, 0⟩, ⟨0, 0⟩⟩, [])
      hw hwf hnames (fun _ => rfl) fun l hl => Gives.and_ensures (chainOfB_gives hw (h l hl).1 (h l hl).2.1 (h l hl).2.2.1 (h l hl).2.2.2)
        (chainOfB_ensures _ _ _ _)
    refine ⟨f, hf, fun l hl => ?_⟩
    obtain ⟨⟨ha, hd, ⟨hk0, hk1⟩, hpts, he⟩, -, -, -, hlen, -⟩ := hP l hl
    exact ⟨⟨ha, hd, hk0, hk1, hpts, hlen.trans (rAux_length l aux rd)⟩, he⟩

/-! ## A chain of one isogeny -/

/-- The rule of a command completes on the lane l, and leaves m. -/
def Leaves (c : Config) (i : Instr) (l m : Lane) : Prop :=
  ∃ vs, (ruleOf i).outcome c l = .ok vs ∧ m = l.writeAll c ((ruleOf i).dsts.zip vs)

theorem leaves_of_yields {i : Instr} {l : Lane} {ks : List OpKind} {vs : List Nat} (h : Yields ((ruleOf i).body c l) ks vs) :
    Leaves c i l (l.writeAll c ((ruleOf i).dsts.zip vs)) := ⟨vs, answer_of_yields h, rfl⟩

/-- A well-formed command whose rule completes on every lane changes each lane to what it leaves there. -/
theorem eq_mapLanes_of_leaves {i : Instr} {s t : State} {g g' : Lane → Lane} (hx : exec i (mapLanes s g) = .next t)
    (hwf : i.wellFormed s.cfg.skBits = true) (h : ∀ l ∈ s.lanes, Leaves s.cfg i (g l) (g' l)) : t = mapLanes s g' := by
  have hok : ∀ m ∈ (mapLanes s g).lanes,
      (ruleOf i).outcome s.cfg m = .ok (((ruleOf i).outcome s.cfg m).toOption.getD []) := fun m hm => by
    obtain ⟨l, hl, rfl⟩ := List.mem_map.1 hm
    obtain ⟨vs, hvs, -⟩ := h l hl
    rw [hvs]
    rfl
  rw [eq_runLanes_of_exec (s := mapLanes s g) hwf hx, runLanes_of_outcome hok]
  refine congrArg (fun ls => { s with lanes := ls }) ?_
  rw [mapLanes_lanes, List.map_map]
  refine List.map_congr_left fun l hl => ?_
  obtain ⟨vs, hvs, hm⟩ := h l hl
  simp only [Function.comp_apply, mapLanes_cfg, hvs, hm]
  rfl

/-- No register of the one list is a register of the other. -/
def Separate (ds ns : List RegName) : Prop := ∀ d ∈ ds, ∀ n ∈ ns, selector d ≠ selector n

theorem agreeOn_writeAll {ds ns : List RegName} (h : Separate ds ns) (l : Lane) (vs : List Nat) :
    AgreeOn (l.writeAll c (ds.zip vs)) l ns := fun n hn => by
  rw [Lane.val, get_writeAll_of_notMem c _ l fun nv hnv => h nv.1 (List.of_mem_zip hnv).1 n hn]
  rfl

theorem rP_writeAll {ds : List RegName} {b : RegNum} (h : Separate ds (regsP b)) (l : Lane) (vs : List Nat) :
    (l.writeAll c (ds.zip vs)).rP b = l.rP b := agreeOn_regsP.1 (agreeOn_writeAll h l vs)

/-- The registers that a GET writes: CV0, CV1 and the COEF registers (R36). -/
def getRegs : List RegName := eRange 56 4 ++ eRange 48 6

/-- The three aux points of class X are aligned, lie apart from one another and below the registers that a GET writes
(R104). -/
theorem auxPoints_separate : ∀ rd : RegNum, rd.isX true = true →
    (rd.isP = true ∧ (rd + 4).isP = true ∧ (rd + 8).isP = true) ∧
    (∀ b ∈ [rd, rd + 4, rd + 8], Separate getRegs (regsP b) ∧ Separate (regsP b) getRegs) ∧
    Separate (regsP rd) (regsP (rd + 4)) ∧ Separate (regsP rd) (regsP (rd + 8)) ∧
      Separate (regsP (rd + 4)) (regsP (rd + 8)) := by
  unfold Separate
  decide +kernel

/-- A party's commands and what they share: the functions of its walk, the registers its GET writes, the values it writes to
them, and the coefficients its EVAL reads. -/
structure PartyCommands (κ : Type) where
  ops : Isogenies κ
  get : RegNum → Instr
  eval : RegNum → Instr
  chain : RegNum → RegNum → Instr
  names : List RegName
  parts : Fp2 × Fp2 × κ → List Nat
  coeffs : Lane → κ

/-- The commands run those functions, with a chain of one isogeny. -/
structure PartyCommands.Sound {κ : Type} (c : Config) (A : PartyCommands κ) : Prop where
  getDsts : ∀ rs1, (ruleOf (A.get rs1)).dsts = A.names
  evalDsts : ∀ b, (ruleOf (A.eval b)).dsts = regsP b
  chainDsts : ∀ rd rs1, (ruleOf (A.chain rd rs1)).dsts = A.names ++ regsAux true rd
  getBody : ∀ rs1 l, (ruleOf (A.get rs1)).body c l = do let g ← A.ops.get (l.rP rs1); return A.parts g
  evalBody : ∀ b l, (ruleOf (A.eval b)).body c l = do let t ← A.ops.eval (l.rP b) (A.coeffs l); return t.parts
  chainBody : ∀ rd rs1 l, (ruleOf (A.chain rd rs1)).body c l = do
    let g ← walkChain A.ops (l.rP rs1) (l.rQ cv0) (l.rQ cv1) (l.rAux true rd)
    return A.parts (g.1, g.2.1, g.2.2.1) ++ g.2.2.2.flatMap Pt.parts
  len : A.ops.len = 1
  names_subset : A.names ⊆ getRegs
  length_parts : ∀ g, (A.parts g).length = A.names.length
  coeffs_get : ∀ (l : Lane) (g : Fp2 × Fp2 × κ), A.coeffs (l.writeAll c (A.names.zip (A.parts g))) = g.2.2
  coeffs_congr : ∀ l m, AgreeOn l m getRegs → A.coeffs l = A.coeffs m
  gives : ∀ t, c.WorkingPt t → Gives (A.ops.get t) fun g => ∀ u, c.WorkingPt u → Gives (A.ops.eval u g.2.2) fun _ => True

/-- Party A: a chain of one isogeny has eA = 2 (R290). -/
def commandsA (c : Config) : PartyCommands Coeffs4 where
  ops := isogeniesA c
  get := .get4
  eval := .eval4
  chain := fun rd rs1 => .chainA rd rs1 true
  names := eRange 56 4 ++ eRange 48 6
  parts := fun g => g.1.parts ++ g.2.1.parts ++ g.2.2.c0.parts ++ g.2.2.c1.parts ++ g.2.2.c2.parts
  coeffs := fun l => ⟨l.rQ coef0, l.rQ coef1, l.rQ coef2⟩

theorem commandsA_sound (hw : c.wf = true) (h : c.eA = 2) : (commandsA c).Sound c where
  getDsts := fun _ => rfl
  evalDsts := fun _ => rfl
  chainDsts := fun _ _ => rfl
  getBody := fun _ _ => rfl
  evalBody := fun _ _ => rfl
  chainBody := fun rd rs1 l => by
    have heven : (c.eA % 2 == 1) = false := by simp [h]
    simp only [commandsA, ruleOf, chainARule, chainOfA, heven]
    rfl
  len := by simp [commandsA, isogeniesA, Config.chainLenA, h]
  names_subset := fun _ hn => hn
  length_parts := fun _ => rfl
  coeffs_get := fun l g => by
    simp [commandsA, eRange, List.range_succ, Fp2.parts, writeAll_cons, Lane.rQ, coef0, coef1, coef2]
  coeffs_congr := fun l m h => by
    obtain ⟨h0, h1, h2⟩ : AgreeOn l m (regsQ coef0) ∧ AgreeOn l m (regsQ coef1) ∧ AgreeOn l m (regsQ coef2) :=
      ⟨fun n hn => h n (by revert n; decide), fun n hn => h n (by revert n; decide), fun n hn => h n (by revert n; decide)⟩
    simp [commandsA, agreeOn_regsQ.1 h0, agreeOn_regsQ.1 h1, agreeOn_regsQ.1 h2]
  gives := fun t ht => (get4_gives hw ht).mono fun g hg u hu => by
    obtain ⟨-, -, ⟨h0, h1, h2⟩, -⟩ := hg
    exact (eval4_gives hw hu h0 h1 h2).mono fun _ _ => True.intro

/-- Party B: a chain of one isogeny has eB = 1 (R290). -/
def commandsB (c : Config) : PartyCommands Coeffs2 where
  ops := isogeniesB c
  get := .get3
  eval := .eval3
  chain := fun rd rs1 => .chainB rd rs1 true
  names := eRange 56 4 ++ eRange 48 4
  parts := fun g => g.1.parts ++ g.2.1.parts ++ g.2.2.c0.parts ++ g.2.2.c1.parts
  coeffs := fun l => ⟨l.rQ coef0, l.rQ coef1⟩

theorem commandsB_sound (hw : c.wf = true) (h : c.eB = 1) : (commandsB c).Sound c where
  getDsts := fun _ => rfl
  evalDsts := fun _ => rfl
  chainDsts := fun _ _ => rfl
  getBody := fun _ _ => rfl
  evalBody := fun _ _ => rfl
  chainBody := fun _ _ _ => rfl
  len := by simp [commandsB, isogeniesB, Config.chainLenB, h]
  names_subset := (by decide : eRange 56 4 ++ eRange 48 4 ⊆ getRegs)
  length_parts := fun _ => rfl
  coeffs_get := fun l g => by
    simp [commandsB, eRange, List.range_succ, Fp2.parts, writeAll_cons, Lane.rQ, coef0, coef1]
  coeffs_congr := fun l m h => by
    obtain ⟨h0, h1⟩ : AgreeOn l m (regsQ coef0) ∧ AgreeOn l m (regsQ coef1) :=
      ⟨fun n hn => h n (by revert n; decide), fun n hn => h n (by revert n; decide)⟩
    simp [commandsB, agreeOn_regsQ.1 h0, agreeOn_regsQ.1 h1]
  gives := fun t ht => (get3_gives hw ht).mono fun g hg u hu => by
    obtain ⟨-, -, ⟨h0, h1⟩, -⟩ := hg
    exact (eval3_gives hw hu h0 h1).mono fun _ _ => True.intro

theorem evalAll_cons_yields {ev : Pt → Eng Pt} {t u : Pt} {ts us : List Pt} {k ks : List OpKind} (h : Yields (ev t) k u)
    (hs : Yields (evalAll ev ts) ks us) : Yields (evalAll ev (t :: ts)) (ks ++ k) (u :: us) :=
  h.bind_eq (hs.bind_eq (Yields.pure _) rfl) rfl

theorem writeAll_append (c : Config) (l : Lane) (ws ws' : List (RegName × Nat)) :
    l.writeAll c (ws ++ ws') = (l.writeAll c ws).writeAll c ws' := List.foldl_append

section OneIsogeny

variable {κ : Type} {A : PartyCommands κ} (hA : A.Sound c)
include hA

/-- A walk of one isogeny is one construction and the evaluations (R291). -/
theorem walkChain_yields {R t0 t1 t2 u0 u1 u2 : Pt} {g : Fp2 × Fp2 × κ} {ks k0 k1 k2 : List OpKind}
    (hg : Yields (A.ops.get R) ks g) (h0 : Yields (A.ops.eval t0 g.2.2) k0 u0) (h1 : Yields (A.ops.eval t1 g.2.2) k1 u1)
    (h2 : Yields (A.ops.eval t2 g.2.2) k2 u2) (v0 v1 : Fp2) :
    ∃ ls, Yields (walkChain A.ops R v0 v1 [t0, t1, t2]) ls (g.1, g.2.1, g.2.2, [u0, u1, u2]) := by
  have hev : Yields (evalAll (fun t => A.ops.eval t g.2.2) [t0, t1, t2]) _ [u0, u1, u2] :=
    evalAll_cons_yields h0 (evalAll_cons_yields h1 (evalAll_cons_yields h2 (Yields.pure [])))
  unfold walkChain
  rw [hA.len]
  exact ⟨_, (Yields.pure _).bind (hg.bind (hev.bind (Yields.pure _)))⟩

/-- What an EVAL leaves in a lane whose coefficients are those a GET gave. -/
theorem leaves_eval {l m : Lane} {b : RegNum} {k : κ} {ks : List OpKind} {u : Pt} (hcoeffs : A.coeffs m = k)
    (hpt : m.rP b = l.rP b) (h : Yields (A.ops.eval (l.rP b) k) ks u) :
    Leaves c (A.eval b) m (m.writeAll c ((regsP b).zip u.parts)) := by
  have hbody : Yields ((ruleOf (A.eval b)).body c m) ks u.parts := by
    rw [hA.evalBody, hcoeffs, hpt]
    exact yields_return Pt.parts h
  have hleaves := leaves_of_yields hbody
  rwa [hA.evalDsts] at hleaves

theorem leaves_get {l : Lane} {rs1 : RegNum} {g : Fp2 × Fp2 × κ} {ks : List OpKind}
    (h : Yields (A.ops.get (l.rP rs1)) ks g) : Leaves c (A.get rs1) l (l.writeAll c (A.names.zip (A.parts g))) := by
  have hbody := yields_return A.parts h
  rw [← hA.getBody] at hbody
  exact hA.getDsts rs1 ▸ leaves_of_yields hbody

/-- What a CHAIN of one isogeny leaves: the writes of the GET and then those of the EVALs. -/
theorem leaves_chain {l : Lane} {rd rs1 : RegNum} {g : Fp2 × Fp2 × κ} {ks k0 k1 k2 : List OpKind} {u0 u1 u2 : Pt}
    (hg : Yields (A.ops.get (l.rP rs1)) ks g) (h0 : Yields (A.ops.eval (l.rP rd) g.2.2) k0 u0)
    (h1 : Yields (A.ops.eval (l.rP (rd + 4)) g.2.2) k1 u1) (h2 : Yields (A.ops.eval (l.rP (rd + 8)) g.2.2) k2 u2) :
    Leaves c (A.chain rd rs1) l ((((l.writeAll c (A.names.zip (A.parts g))).writeAll c ((regsP rd).zip u0.parts)).writeAll c
      ((regsP (rd + 4)).zip u1.parts)).writeAll c ((regsP (rd + 8)).zip u2.parts)) := by
  obtain ⟨ls, hwalk⟩ := walkChain_yields hA hg h0 h1 h2 (l.rQ cv0) (l.rQ cv1)
  have hbody : Yields ((ruleOf (A.chain rd rs1)).body c l) ls (A.parts g ++ (u0.parts ++ (u1.parts ++ u2.parts))) := by
    rw [hA.chainBody]
    exact yields_return (fun g => A.parts (g.1, g.2.1, g.2.2.1) ++ g.2.2.2.flatMap Pt.parts) hwalk
  have hnames : A.names ++ regsAux true rd = A.names ++ (regsP rd ++ (regsP (rd + 4) ++ regsP (rd + 8))) := by simp [regsAux]
  have hpoint (b : RegNum) (u : Pt) : (regsP b).length = u.parts.length := rfl
  have hleaves := leaves_of_yields hbody
  rw [hA.chainDsts, hnames, List.zip_append (hA.length_parts g).symm, List.zip_append (hpoint rd u0),
    List.zip_append (hpoint (rd + 4) u1), writeAll_append, writeAll_append, writeAll_append] at hleaves
  exact hleaves

/-- In one lane the CHAIN leaves what the GET and the three EVALs leave: each EVAL reads its own point, which nothing has
written, and the coefficients, which no EVAL writes. -/
theorem exists_leaves {rd rs1 : RegNum} (hd : rd.isX true = true) {l : Lane} (hR : c.WorkingPt (l.rP rs1))
    (haux : ∀ u ∈ l.rAux true rd, c.WorkingPt u) :
    ∃ m1 m2 m3 m4, Leaves c (A.get rs1) l m1 ∧ Leaves c (A.eval rd) m1 m2 ∧ Leaves c (A.eval (rd + 4)) m2 m3 ∧
      Leaves c (A.eval (rd + 8)) m3 m4 ∧ Leaves c (A.chain rd rs1) l m4 := by
  obtain ⟨-, hget, h04, h08, h48⟩ := auxPoints_separate rd hd
  simp only [List.forall_mem_cons, List.not_mem_nil, false_implies, implies_true, and_true] at hget
  obtain ⟨⟨hn0, hc0⟩, ⟨hn4, hc4⟩, ⟨hn8, -⟩⟩ := hget
  obtain ⟨w0, w4, w8⟩ : c.WorkingPt (l.rP rd) ∧ c.WorkingPt (l.rP (rd + 4)) ∧ c.WorkingPt (l.rP (rd + 8)) := by
    simpa [Lane.rAux] using haux
  obtain ⟨g, kg, hg, hev⟩ := hA.gives _ hR
  obtain ⟨u0, k0, h0, -⟩ := hev _ w0
  obtain ⟨u1, k1, h1, -⟩ := hev _ w4
  obtain ⟨u2, k2, h2, -⟩ := hev _ w8
  have hn {b : RegNum} (h : Separate getRegs (regsP b)) : Separate A.names (regsP b) := fun d hd => h d (hA.names_subset hd)
  have hk {b : RegNum} (h : Separate (regsP b) getRegs) (m : Lane) (vs : List Nat) :
      A.coeffs (m.writeAll c ((regsP b).zip vs)) = A.coeffs m := hA.coeffs_congr _ _ (agreeOn_writeAll h m vs)
  have hk1 := hA.coeffs_get l g
  have hk2 := (hk hc0 _ u0.parts).trans hk1
  have hk3 := (hk hc4 _ u1.parts).trans hk2
  have hr4 := (rP_writeAll (c := c) h04 _ u0.parts).trans (rP_writeAll (c := c) (hn hn4) l (A.parts g))
  have hr8 := (rP_writeAll (c := c) h48 _ u1.parts).trans
    ((rP_writeAll (c := c) h08 _ u0.parts).trans (rP_writeAll (c := c) (hn hn8) l (A.parts g)))
  exact ⟨_, _, _, _, leaves_get hA hg, leaves_eval hA hk1 (rP_writeAll (hn hn0) _ _) h0, leaves_eval hA hk2 hr4 h1,
    leaves_eval hA hk3 hr8 h2, leaves_chain hA hg h0 h1 h2⟩

end OneIsogeny

/-- Four commands, each of which completes in every lane, leave what one command leaves that leaves the same in each lane. -/
theorem eq_of_leaves {s t s1 s2 s3 s4 : State} {i i1 i2 i3 i4 : Instr}
    (hl : ∀ l ∈ s.lanes, ∃ m1 m2 m3 m4, Leaves s.cfg i1 l m1 ∧ Leaves s.cfg i2 m1 m2 ∧ Leaves s.cfg i3 m2 m3 ∧
      Leaves s.cfg i4 m3 m4 ∧ Leaves s.cfg i l m4)
    (hwf : i.wellFormed s.cfg.skBits = true) (hwf1 : i1.wellFormed s.cfg.skBits = true)
    (hwf2 : i2.wellFormed s.cfg.skBits = true) (hwf3 : i3.wellFormed s.cfg.skBits = true)
    (hwf4 : i4.wellFormed s.cfg.skBits = true) (hx : exec i s = .next t) (hx1 : exec i1 s = .next s1)
    (hx2 : exec i2 s1 = .next s2) (hx3 : exec i3 s2 = .next s3) (hx4 : exec i4 s3 = .next s4) : t = s4 := by
  have : Nonempty Lane := ⟨Lane.unspecified s.cfg 0 0⟩
  have hid : mapLanes s id = s := by simp [mapLanes]
  choose! m1 m2 m3 m4 h1 h2 h3 h4 h using hl
  obtain rfl := eq_mapLanes_of_leaves (g := id) (hid.symm ▸ hx1) hwf1 h1
  obtain rfl := eq_mapLanes_of_leaves hx2 hwf2 h2
  obtain rfl := eq_mapLanes_of_leaves hx3 hwf3 h3
  obtain rfl := eq_mapLanes_of_leaves hx4 hwf4 h4
  exact eq_mapLanes_of_leaves (g := id) (hid.symm ▸ hx) hwf h

/-- Settles O59: in every lane the CHAIN leaves what the GET and the EVALs leave. -/
theorem chainOfOneIsGetAndEvals : Obligations.ChainOfOneIsGetAndEvals := by
  intro s t s1 s2 s3 s4 rd rs1 hw hd h1 h
  obtain ⟨⟨hd0, hd4, hd8⟩, -⟩ := auxPoints_separate rd hd
  have hwf := chain_wellFormed hd h1
  constructor
  · exact fun he => eq_of_leaves (fun l hl => exists_leaves (commandsB_sound hw he) hd (h l hl).1 (h l hl).2) hwf h1
      hd0 hd4 hd8
  · exact fun he => eq_of_leaves (fun l hl => exists_leaves (commandsA_sound hw he) hd (h l hl).1 (h l hl).2) hwf h1
      hd0 hd4 hd8

end Sys2Proof.Proofs
end

section
/-! PROOFS. The chain walk's use of its strategy table (45_sequenced.md section 2, R290, R291). -/

namespace Sys2Proof.Proofs

open Sys2Proof.Machine Sys2Proof.Laws Sys2Proof.Config

variable {c : Config}

/-! ## The index side of the walk -/

/-- The entry at each place of the list is at least the place. -/
def Steep (L : List Nat) : Prop := ∀ (k x : Nat), L[k]? = some x → k ≤ x

theorem steep_append_singleton {L : List Nat} {x : Nat} : Steep (L ++ [x]) ↔ Steep L ∧ L.length ≤ x := by
  constructor
  · refine fun h => ⟨fun k y hy => h k y ?_, h L.length x (by simp)⟩
    rwa [List.getElem?_append_left (List.getElem?_eq_some_iff.1 hy).1]
  · rintro ⟨hL, hx⟩ k y hy
    by_cases hk : k < L.length
    · exact hL k y (by rwa [List.getElem?_append_left hk] at hy)
    · rw [List.getElem?_append_right (Nat.not_lt.1 hk)] at hy
      obtain ⟨hzero, rfl⟩ : k - L.length = 0 ∧ x = y := by simpa [List.getElem?_singleton] using hy
      omega

/-- What the index side keeps while m rows are left. The entries left are as many as the pops to come less the entries stacked;
the stacked indices and the index increase from 0, so the index is at least the number of entries stacked. -/
structure IndexInv (m : Nat) (u : IndexWalk) : Prop where
  count : u.strat.length + u.stack.length = m
  positive : ∀ n ∈ u.strat, 1 ≤ n
  steep : Steep (u.stack ++ [u.index])
  zero : (u.stack ++ [u.index]).head? = some 0
  depth : u.stack.length ≤ u.deepest

/-- The same walk with further entries after those left. -/
def extend (more : List Nat) (u : IndexWalk) : IndexWalk := { u with strat := u.strat ++ more }

theorem descendIndex_of_le {target : Nat} {u : IndexWalk} (h : target ≤ u.index) (strat : List Nat) :
    descendIndex target strat u = { u with strat := strat } := by
  cases strat with
  | nil => rfl
  | cons n rest => simp [descendIndex, Nat.not_lt.2 h]

/-- One step of the descent keeps what the walk keeps. -/
theorem indexInv_push {m n : Nat} {rest : List Nat} {u : IndexWalk} (h : IndexInv m { u with strat := n :: rest }) :
    IndexInv m ⟨u.index + n, u.stack ++ [u.index], rest, max u.deepest (u.stack.length + 1)⟩ where
  count := by
    have hcount := h.count
    simp only [List.length_cons, List.length_append, List.length_nil] at hcount ⊢
    omega
  positive := fun x hx => h.positive x (List.mem_cons_of_mem _ hx)
  steep := by
    have hn := h.positive n List.mem_cons_self
    have hindex := (steep_append_singleton.1 h.steep).2
    refine steep_append_singleton.2 ⟨h.steep, ?_⟩
    simp only [List.length_append, List.length_cons, List.length_nil]
    dsimp only at hindex
    omega
  zero := by
    rw [List.head?_append, h.zero]
    rfl
  depth := by simp

/-- The descent of a row ends with the index at its target: the entries that are left are enough (R291). -/
theorem descendIndex_inv {m : Nat} (rest : List Nat) {u : IndexWalk} (h : IndexInv m { u with strat := rest }) :
    IndexInv m (descendIndex m rest u) ∧ m ≤ (descendIndex m rest u).index := by
  induction rest generalizing u with
  | nil =>
    refine ⟨h, ?_⟩
    have hindex := (steep_append_singleton.1 h.steep).2
    have hcount := h.count
    simp only [List.length_nil] at hindex hcount
    simp only [descendIndex]
    omega
  | cons n rest ih =>
    unfold descendIndex
    split
    · exact ih (indexInv_push h)
    · exact ⟨h, by dsimp only; omega⟩

/-- The descent does not look at entries after the table's (R291). -/
theorem descendIndex_append {m : Nat} (more rest : List Nat) {u : IndexWalk} (h : IndexInv m { u with strat := rest })
    (x : List Nat) : descendIndex m (rest ++ more) { u with strat := x } = extend more (descendIndex m rest u) := by
  induction rest generalizing u x with
  | nil =>
    have hle := (descendIndex_inv [] h).2
    rw [List.nil_append, descendIndex_of_le (u := { u with strat := x }) hle]
    rfl
  | cons n rest ih =>
    rw [List.cons_append, descendIndex, descendIndex]
    dsimp only
    split
    · exact ih (u := ⟨u.index + n, u.stack ++ [u.index], u.strat, max u.deepest (u.stack.length + 1)⟩) (indexInv_push h) x
    · rfl

theorem descendIndex_extend {m : Nat} (more : List Nat) {u : IndexWalk} (h : IndexInv m u) :
    descendIndex m (extend more u).strat (extend more u) = extend more (descendIndex m u.strat u) :=
  descendIndex_append more u.strat h _

/-- At the pop of a row the stack is not empty: the index is at least 1, and the stacked indices begin with 0. -/
theorem stack_ne_nil {m : Nat} {u : IndexWalk} (h : IndexInv (m + 1) u) (hle : m + 1 ≤ u.index) : u.stack ≠ [] := by
  intro hnil
  have hzero := h.zero
  simp only [hnil, List.nil_append, List.head?_cons, Option.some.injEq] at hzero
  omega

theorem popIndex_inv {m : Nat} {u : IndexWalk} (h : IndexInv (m + 1) u) (hle : m + 1 ≤ u.index) :
    IndexInv m (popIndex u) := by
  obtain ⟨st, i, hst⟩ := (List.eq_nil_or_concat u.stack).resolve_left (stack_ne_nil h hle)
  obtain ⟨hcount, hpos, hsteep, hzero, hdepth⟩ := h
  have hpop : popIndex u = { u with index := i, stack := st } := by simp [popIndex, hst]
  rw [hst] at hcount hsteep hzero hdepth
  rw [hpop]
  simp only [List.concat_eq_append, List.length_append, List.length_cons, List.length_nil] at hcount hsteep hzero hdepth
  refine ⟨by dsimp only; omega, hpos, (steep_append_singleton.1 hsteep).1, ?_, by dsimp only; omega⟩
  rw [List.head?_append_of_ne_nil _ (by simp)] at hzero
  exact hzero

/-- A whole row (R291). -/
theorem row_inv {m : Nat} {u : IndexWalk} (h : IndexInv (m + 1) u) : IndexInv m (popIndex (descendIndex (m + 1) u.strat u)) :=
  popIndex_inv (descendIndex_inv u.strat h).1 (descendIndex_inv u.strat h).2

theorem indexRows_inv {m : Nat} {u : IndexWalk} (h : IndexInv m u) : IndexInv 0 (indexRows m u) := by
  induction m generalizing u with
  | zero => exact h
  | succ m ih => exact ih (row_inv h)

theorem indexRows_extend {m : Nat} (more : List Nat) {u : IndexWalk} (h : IndexInv m u) :
    indexRows m (extend more u) = extend more (indexRows m u) := by
  induction m generalizing u with
  | zero => rfl
  | succ m ih =>
    rw [indexRows, descendIndex_extend more h]
    exact ih (row_inv h)

theorem deepest_le_descendIndex (m : Nat) (rest : List Nat) (u : IndexWalk) :
    u.deepest ≤ (descendIndex m rest u).deepest := by
  induction rest generalizing u with
  | nil => exact Nat.le_refl _
  | cons n rest ih =>
    unfold descendIndex
    split
    · exact (Nat.le_max_left u.deepest (u.stack.length + 1)).trans
        (ih ⟨u.index + n, u.stack ++ [u.index], u.strat, max u.deepest (u.stack.length + 1)⟩)
    · exact Nat.le_refl _

theorem deepest_le_indexRows (m : Nat) (u : IndexWalk) : u.deepest ≤ (indexRows m u).deepest := by
  induction m generalizing u with
  | zero => exact Nat.le_refl _
  | succ m ih => exact (deepest_le_descendIndex (m + 1) u.strat u).trans (ih (popIndex (descendIndex (m + 1) u.strat u)))

/-- A well-formed strategy table starts the walk with what it keeps (R290). -/
theorem indexInv_start {len maxPts : Nat} {strat : List Nat} (h : strategyOk len maxPts strat = true) :
    IndexInv (len - 1) { index := 0, stack := [], strat := strat, deepest := 0 } := by
  simp only [strategyOk, Bool.and_eq_true, beq_iff_eq, List.all_eq_true, decide_eq_true_eq] at h
  obtain ⟨⟨hlen, hpos⟩, -⟩ := h
  refine ⟨hlen, hpos, steep_append_singleton.2 ⟨fun k x hx => ?_, Nat.le_refl _⟩, rfl, Nat.le_refl _⟩
  simp at hx

theorem stackDepth_le {len maxPts : Nat} {strat : List Nat} (h : strategyOk len maxPts strat = true) :
    stackDepth len strat ≤ maxPts := by
  simp only [strategyOk, Bool.and_eq_true, decide_eq_true_eq] at h
  exact h.2

/-! ## The walk of the engine -/

theorem of_answer_of_ensures {α : Type} {m : Eng α} {P : α → Prop} {v : α} (h : Ensures m P) (hv : m.answer = .ok v) :
    P v := by
  cases hrun : m.run [] with
  | error op => simp [Eng.answer, StateT.run'_eq, hrun, Functor.map, Except.map] at hv
  | ok x =>
    obtain rfl : x.1 = v := by simpa [Eng.answer, StateT.run'_eq, hrun, Functor.map, Except.map] using hv
    exact h [] x.1 x.2 hrun

section Engine

variable {κ κ' : Type} {ops : Isogenies κ}

/-- A row before its pop ends with the index side's descent, whatever entries follow the table's (R291). -/
theorem rowToPop_ensures {m : Nat} {more : List Nat} {v : Walk} {u : IndexWalk} (h : IndexInv m u)
    (hv : Shadows v (extend more u)) :
    Ensures (rowToPop ops m v) fun w => Shadows w (extend more (descendIndex m u.strat u)) := by
  rw [← descendIndex_extend more h, hv.2.2]
  exact (descend_shadows m v.strat hv).bind fun _ h1 => (takeIsogeny_shadows h1).bind fun _ h2 => Ensures.pure h2

/-- At the pop of each row the index has reached the row's target and the stack is neither empty nor over the depth. -/
theorem walkToPop_ensures {rows m : Nat} {more : List Nat} {v : Walk} {u : IndexWalk} (hrows : rows < m) (h : IndexInv m u)
    (hv : Shadows v (extend more u)) : Ensures (walkToPop ops rows m v) fun w =>
      m - rows ≤ w.index ∧ w.stack ≠ [] ∧ w.stack.length ≤ (indexRows m u).deepest := by
  induction rows generalizing m v u with
  | zero =>
    obtain ⟨m, rfl⟩ : ∃ k, m = k + 1 := ⟨m - 1, by omega⟩
    obtain ⟨hinv, hle⟩ := descendIndex_inv u.strat h
    intro tr w tr' hw
    obtain ⟨hindex, hstack, -⟩ := rowToPop_ensures h hv tr w tr' hw
    have hindex' : (descendIndex (m + 1) u.strat u).index = w.index := hindex
    have hstack' : (descendIndex (m + 1) u.strat u).stack = w.stack.map (·.2) := hstack
    refine ⟨hindex' ▸ hle, fun hnil => stack_ne_nil hinv hle (by rw [hstack', hnil, List.map_nil]), ?_⟩
    calc w.stack.length = (descendIndex (m + 1) u.strat u).stack.length := by rw [hstack', List.length_map]
      _ ≤ (popIndex (descendIndex (m + 1) u.strat u)).deepest := hinv.depth
      _ ≤ (indexRows (m + 1) u).deepest := deepest_le_indexRows m _
  | succ rows ih =>
    obtain ⟨m, rfl⟩ : ∃ k, m = k + 1 := ⟨m - 1, by omega⟩
    rw [Nat.add_sub_add_right]
    exact (rowToPop_ensures h hv).bind fun w hw => ih (Nat.lt_of_succ_lt_succ hrows) (row_inv h) (popWalk_shadows hw)

/-- A row is the row before its pop, and the pop (R291). -/
theorem walkRows_succ (m : Nat) (v : Walk) :
    walkRows ops (m + 1) v = rowToPop ops (m + 1) v >>= fun w => walkRows ops m (popWalk w) := by
  simp [walkRows, rowToPop]

/-- The rows of the walk, cut at the pop of one of them (R291). -/
theorem walkRows_eq_walkToPop {rows m : Nat} (hrows : rows < m) (v : Walk) :
    walkRows ops m v = walkToPop ops rows m v >>= fun w => walkRows ops (m - 1 - rows) (popWalk w) := by
  obtain ⟨m, rfl⟩ : ∃ k, m = k + 1 := ⟨m - 1, by omega⟩
  rw [walkRows_succ]
  induction rows generalizing m v with
  | zero => rfl
  | succ rows ih =>
    obtain ⟨m, rfl⟩ : ∃ k, m = k + 1 := ⟨m - 1, by omega⟩
    have hrest (w : Walk) := (walkRows_succ m w).trans (ih w m (Nat.lt_of_succ_lt_succ hrows))
    have hcount : m + 1 + 1 - 1 - (rows + 1) = m + 1 - 1 - rows := by omega
    rw [hcount, walkToPop, bind_assoc]
    exact bind_congr fun w => hrest (popWalk w)

/-- The rows of the walk take the table's entries and no more, and end with the stack empty and the index 0. -/
theorem walkRows_ensures {m : Nat} {more : List Nat} {v : Walk} {u : IndexWalk} (h : IndexInv m u)
    (hv : Shadows v (extend more u)) :
    Ensures (walkRows ops m v) fun w => w.strat = more ∧ w.stack = [] ∧ w.index = 0 := by
  have hend := indexRows_inv h
  have hshadows : Ensures (walkRows ops m v) fun w => Shadows w (extend more (indexRows m u)) :=
    indexRows_extend more h ▸ walkRows_shadows m hv
  have hcount := hend.count
  have hstrat : (indexRows m u).strat = [] := List.length_eq_zero_iff.1 (by omega)
  have hstack : (indexRows m u).stack = [] := List.length_eq_zero_iff.1 (by omega)
  intro tr w tr' hw
  obtain ⟨hindex', hstack', hstrat'⟩ := hshadows tr w tr' hw
  simp only [extend, hstrat, hstack, List.nil_append] at hindex' hstack' hstrat'
  refine ⟨hstrat'.symm, List.map_eq_nil_iff.1 hstack'.symm, ?_⟩
  have hzero := hend.zero
  rw [hstack, hindex'] at hzero
  simpa using hzero

/-- A party's walk uses its strategy table exactly (R290, R291). -/
theorem usesStrategyExactly_of_strategyOk {P : Field.Party c.GF2 κ'} {good : κ → Prop} {rep : κ → κ'}
    (hm : Matches c ops P good rep) (hs : strategyOk ops.len c.maxPts ops.strat = true) : usesStrategyExactly c ops := by
  rintro R v0 v1 aux more start rfl
  have hinv := indexInv_start hs
  have hdepth := stackDepth_le hs
  have hshadows : Shadows { pt := R, index := 0, stack := [], strat := ops.strat ++ more, v0 := v0, v1 := v1, aux := aux }
      (extend more { index := 0, stack := [], strat := ops.strat, deepest := 0 }) := ⟨rfl, rfl, rfl⟩
  have hend := walkRows_ensures (ops := ops) hinv hshadows
  refine ⟨fun v hv => (of_answer_of_ensures hend hv :), fun hR h0 h1 ha => ?_, fun rows hrows =>
    ⟨walkRows_eq_walkToPop hrows _, fun v hv => ?_⟩⟩
  · have hworking : ∀ t ∈ ([] : List (Pt × Nat)), c.WorkingPt t.1 := by simp
    have hgives := walkRows_gives hm (ops.len - 1) (v := ⟨R, 0, [], ops.strat ++ more, v0, v1, aux⟩)
      ⟨⟨hR, hworking, h0, h1, ha⟩, rfl⟩
    exact (exists_answer_of_gives hgives).imp fun _ hv => hv.1
  · obtain ⟨hindex, hstack, hlen⟩ := of_answer_of_ensures (walkToPop_ensures hrows hinv hshadows) hv
    exact ⟨hindex, hstack, hlen.trans hdepth⟩

end Engine

/-- Settles O60: the entries left are the pops to come less the entries stacked, and the index is at least these. -/
theorem strategyIsUsedExactly : Obligations.StrategyIsUsedExactly := by
  intro c hw
  obtain ⟨-, -, -, -, -, -, -, hA, hB⟩ := (wf_iff c).1 hw
  exact ⟨usesStrategyExactly_of_strategyOk (isogeniesA_match hw) hA,
    usesStrategyExactly_of_strategyOk (isogeniesB_match hw) hB⟩

end Sys2Proof.Proofs
end
